-- ==== Sys2Proof/Word.lean ====
section
/-! DEFINITION. The machine's word types: a bus word and scalar register (XLEN = 32, R8), a byte
(a codeword, an element of GF(256), R13). -/

namespace Sys2Proof

abbrev Word := BitVec 32

abbrev Byte := BitVec 8

/-- `zext_32` of R10 for a byte. -/
abbrev Byte.toWord (b : Byte) : Word := b.setWidth 32

end Sys2Proof
end

