-- ==== Sys2Proof/Syntax.lean ====
section
/-! DEFINITION. The commands of the core, one constructor a row of spec/opcode_table.json (R127), with
the fields each row uses (R121). A register index is a `Fin 8`, a buffer index a `Fin 4` (every index is
legal, R122); an immediate is a count, a length or a mode, hence a `Nat`, which WellFormed bounds. -/

namespace Sys2Proof

/-- The index of a scalar register X0..X7 (R30). -/
abbrev XReg := Fin 8

/-- The index of a buffer B0..B3 (R32). -/
abbrev BReg := Fin 4

inductive Instr where
  -- control (40_control.md)
  | nop
  | ldi (rd : XReg) (imm : Nat)
  | mov (rd rs1 : XReg)
  | xor (rd rs1 rs2 : XReg)
  | setlen (bd : BReg) (imm : Nat)
  | bget (rd : XReg) (ba : BReg) (rs1 : XReg)
  | bput (bd : BReg) (rs1 rs2 : XReg)
  | bcopy (bd ba : BReg)
  | bcat (bd ba bb : BReg)
  | aggclr
  -- GF(256) arithmetic (41_gf256.md)
  | gadd (rd rs1 rs2 : XReg)
  | gmul (rd rs1 rs2 : XReg)
  | gdiv (rd rs1 rs2 : XReg)
  | ginv (rd rs1 : XReg)
  | gexp (rd rs1 : XReg)
  | glog (rd rs1 : XReg)
  -- polynomials (42_polynomial.md)
  | peval (rd : XReg) (ba : BReg) (rs1 : XReg)
  | pmul (bd ba bb : BReg)
  -- Reed-Solomon encoder (43_rs_encoder.md)
  | rsgen (bd : BReg) (imm : Nat)
  | rsenc (bd ba : BReg) (imm : Nat)
  -- Reed-Solomon decoder (44_rs_decoder.md)
  | rssyn (ba : BReg) (imm : Nat)
  | rsbm
  | rschien
  | rsforney
  | rsapply (ba : BReg)
  | rsdec (ba : BReg) (imm : Nat)
  -- BCH (45_bch.md)
  | bchfe (rd rs1 : XReg)
  | bchfd (rd rs1 : XReg)
  | bchve (rd rs1 : XReg)
  | bchvd (rd rs1 : XReg)
  | fmtsel (rd rs1 rs2 : XReg)
  | versel (rd rs1 rs2 : XReg)
  -- bitstream mode coder (46_bitstream.md)
  | bsclr
  | bsput (rs1 : XReg) (imm : Nat)
  | bsget (rd : XReg) (imm : Nat)
  | bsload (ba : BReg)
  | bsstore (bd : BReg) (rs1 : XReg) (imm : Nat)
  | segenc (ba : BReg) (imm : Nat)
  | bsterm
  | bspad
  | segdec (rd : XReg) (bd : BReg)
  | bspadchk (rd : XReg)
  -- zigzag (47_zigzag.md)
  | zzgen
  | zzplace
  | zzread
  deriving DecidableEq, Repr

end Sys2Proof
end

