-- ==== Sys2Proof/WellFormed.lean ====
section
/-! DEFINITION. When a term of `Instr` is a command: its immediate fits IMM9 (R121: 9 bits, 0..511). Every
register and buffer index is legal and may repeat (R122, R125), and a value outside a command's own
range is no encoding error (R126): nothing else is checked here. -/

namespace Sys2Proof

/-- The immediate a command carries, if it uses IMM9 (R127). -/
def Instr.imm? : Instr → Option Nat
  | .nop => none
  | .ldi _ imm => some imm
  | .mov _ _ => none
  | .xor _ _ _ => none
  | .setlen _ imm => some imm
  | .bget _ _ _ => none
  | .bput _ _ _ => none
  | .bcopy _ _ => none
  | .bcat _ _ _ => none
  | .aggclr => none
  | .gadd _ _ _ => none
  | .gmul _ _ _ => none
  | .gdiv _ _ _ => none
  | .ginv _ _ => none
  | .gexp _ _ => none
  | .glog _ _ => none
  | .peval _ _ _ => none
  | .pmul _ _ _ => none
  | .rsgen _ imm => some imm
  | .rsenc _ _ imm => some imm
  | .rssyn _ imm => some imm
  | .rsbm => none
  | .rschien => none
  | .rsforney => none
  | .rsapply _ => none
  | .rsdec _ imm => some imm
  | .bchfe _ _ => none
  | .bchfd _ _ => none
  | .bchve _ _ => none
  | .bchvd _ _ => none
  | .fmtsel _ _ _ => none
  | .versel _ _ _ => none
  | .bsclr => none
  | .bsput _ imm => some imm
  | .bsget _ imm => some imm
  | .bsload _ => none
  | .bsstore _ _ imm => some imm
  | .segenc _ imm => some imm
  | .bsterm => none
  | .bspad => none
  | .segdec _ _ => none
  | .bspadchk _ => none
  | .zzgen => none
  | .zzplace => none
  | .zzread => none

/-- The command fits its encoding (R121). -/
def Instr.wellFormed (i : Instr) : Bool :=
  match i.imm? with
  | none => true
  | some imm => imm < 512

end Sys2Proof
end

