-- ==== Sys2Proof/Decode.lean ====
section
/-! DEFINITION. The command word's format C (R121), the decoder of R124, total on every 32-bit word and
rejecting by name, and the encoder of R131. -/

namespace Sys2Proof

/-- The fields of format C (R121), each at its own width. -/
structure Fields where
  op : BitVec 8
  rd : BitVec 3
  rs1 : BitVec 3
  rs2 : BitVec 3
  bd : BitVec 2
  ba : BitVec 2
  bb : BitVec 2
  imm : BitVec 9
  deriving DecidableEq, Repr

/-- The fields of a word (R122). -/
def fieldsOf (w : Word) : Fields where
  op := w.extractLsb' 24 8
  rd := w.extractLsb' 21 3
  rs1 := w.extractLsb' 18 3
  rs2 := w.extractLsb' 15 3
  bd := w.extractLsb' 13 2
  ba := w.extractLsb' 11 2
  bb := w.extractLsb' 9 2
  imm := w.extractLsb' 0 9

/-- The word of the fields (R131): OP, RD, RS1, RS2, BD, BA, BB, IMM9 from bit 31 down. -/
def wordOf (f : Fields) : Word :=
  (f.op ++ f.rd ++ f.rs1 ++ f.rs2 ++ f.bd ++ f.ba ++ f.bb ++ f.imm : BitVec (8 + 3 + 3 + 3 + 2 + 2 + 2 + 9))

/-- Why a word is no command (R124): the two decoding exceptions, each with its detail value. -/
inductive DecodeError where
  | illegalOpcode (op : Byte)
  | reservedField (unused : Word)
  deriving DecidableEq, Repr

/-- The field masks of R121. -/
def maskOP : Word := 0xFF000000
def maskRD : Word := 0x00E00000
def maskRS1 : Word := 0x001C0000
def maskRS2 : Word := 0x00038000
def maskBD : Word := 0x00006000
def maskBA : Word := 0x00001800
def maskBB : Word := 0x00000600
def maskIMM9 : Word := 0x000001FF

/-- `fieldmask(op)` of R124: the OR of the masks of the fields the command uses (R127). -/
def Instr.fieldMask : Instr → Word
  | .nop => 0
  | .ldi _ _ => maskRD ||| maskIMM9
  | .mov _ _ => maskRD ||| maskRS1
  | .xor _ _ _ => maskRD ||| maskRS1 ||| maskRS2
  | .setlen _ _ => maskBD ||| maskIMM9
  | .bget _ _ _ => maskRD ||| maskBA ||| maskRS1
  | .bput _ _ _ => maskBD ||| maskRS1 ||| maskRS2
  | .bcopy _ _ => maskBD ||| maskBA
  | .bcat _ _ _ => maskBD ||| maskBA ||| maskBB
  | .aggclr => 0
  | .gadd _ _ _ => maskRD ||| maskRS1 ||| maskRS2
  | .gmul _ _ _ => maskRD ||| maskRS1 ||| maskRS2
  | .gdiv _ _ _ => maskRD ||| maskRS1 ||| maskRS2
  | .ginv _ _ => maskRD ||| maskRS1
  | .gexp _ _ => maskRD ||| maskRS1
  | .glog _ _ => maskRD ||| maskRS1
  | .peval _ _ _ => maskRD ||| maskBA ||| maskRS1
  | .pmul _ _ _ => maskBD ||| maskBA ||| maskBB
  | .rsgen _ _ => maskBD ||| maskIMM9
  | .rsenc _ _ _ => maskBD ||| maskBA ||| maskIMM9
  | .rssyn _ _ => maskBA ||| maskIMM9
  | .rsbm => 0
  | .rschien => 0
  | .rsforney => 0
  | .rsapply _ => maskBA
  | .rsdec _ _ => maskBA ||| maskIMM9
  | .bchfe _ _ => maskRD ||| maskRS1
  | .bchfd _ _ => maskRD ||| maskRS1
  | .bchve _ _ => maskRD ||| maskRS1
  | .bchvd _ _ => maskRD ||| maskRS1
  | .fmtsel _ _ _ => maskRD ||| maskRS1 ||| maskRS2
  | .versel _ _ _ => maskRD ||| maskRS1 ||| maskRS2
  | .bsclr => 0
  | .bsput _ _ => maskRS1 ||| maskIMM9
  | .bsget _ _ => maskRD ||| maskIMM9
  | .bsload _ => maskBA
  | .bsstore _ _ _ => maskBD ||| maskRS1 ||| maskIMM9
  | .segenc _ _ => maskBA ||| maskIMM9
  | .bsterm => 0
  | .bspad => 0
  | .segdec _ _ => maskRD ||| maskBD
  | .bspadchk _ => maskRD
  | .zzgen => 0
  | .zzplace => 0
  | .zzread => 0

/-- The opcode map of R127 with the operands assembled (R122): the command an opcode stands for, or
none where the opcode is not in the map. -/
def assemble (f : Fields) : Option Instr :=
  let rd : XReg := f.rd.toFin
  let rs1 : XReg := f.rs1.toFin
  let rs2 : XReg := f.rs2.toFin
  let bd : BReg := f.bd.toFin
  let ba : BReg := f.ba.toFin
  let bb : BReg := f.bb.toFin
  let imm : Nat := f.imm.toNat
  match f.op.toNat with
  | 0x00 => some .nop
  | 0x01 => some (.ldi rd imm)
  | 0x02 => some (.mov rd rs1)
  | 0x03 => some (.xor rd rs1 rs2)
  | 0x04 => some (.setlen bd imm)
  | 0x05 => some (.bget rd ba rs1)
  | 0x06 => some (.bput bd rs1 rs2)
  | 0x07 => some (.bcopy bd ba)
  | 0x08 => some (.bcat bd ba bb)
  | 0x09 => some .aggclr
  | 0x10 => some (.gadd rd rs1 rs2)
  | 0x11 => some (.gmul rd rs1 rs2)
  | 0x12 => some (.gdiv rd rs1 rs2)
  | 0x13 => some (.ginv rd rs1)
  | 0x14 => some (.gexp rd rs1)
  | 0x15 => some (.glog rd rs1)
  | 0x20 => some (.peval rd ba rs1)
  | 0x21 => some (.pmul bd ba bb)
  | 0x30 => some (.rsgen bd imm)
  | 0x31 => some (.rsenc bd ba imm)
  | 0x40 => some (.rssyn ba imm)
  | 0x41 => some .rsbm
  | 0x42 => some .rschien
  | 0x43 => some .rsforney
  | 0x44 => some (.rsapply ba)
  | 0x45 => some (.rsdec ba imm)
  | 0x50 => some (.bchfe rd rs1)
  | 0x51 => some (.bchfd rd rs1)
  | 0x52 => some (.bchve rd rs1)
  | 0x53 => some (.bchvd rd rs1)
  | 0x54 => some (.fmtsel rd rs1 rs2)
  | 0x55 => some (.versel rd rs1 rs2)
  | 0x60 => some .bsclr
  | 0x61 => some (.bsput rs1 imm)
  | 0x62 => some (.bsget rd imm)
  | 0x63 => some (.bsload ba)
  | 0x64 => some (.bsstore bd rs1 imm)
  | 0x65 => some (.segenc ba imm)
  | 0x66 => some .bsterm
  | 0x67 => some .bspad
  | 0x68 => some (.segdec rd bd)
  | 0x69 => some (.bspadchk rd)
  | 0x70 => some .zzgen
  | 0x71 => some .zzplace
  | 0x72 => some .zzread
  | _ => none

/-- Decoding of a command word (R124): the opcode first, then the unused fields, which must be 0. -/
def decode (w : Word) : Except DecodeError Instr :=
  match assemble (fieldsOf w) with
  | none => .error (.illegalOpcode (fieldsOf w).op)
  | some i =>
    let unused := w &&& ~~~(maskOP ||| i.fieldMask)
    if unused ≠ 0 then .error (.reservedField unused) else .ok i

/-- The fields of a command's word: its opcode (R127), its operands, every field it does not use 0 (R131). -/
def Instr.fields (i : Instr) : Fields :=
  let z : Fields := ⟨0, 0, 0, 0, 0, 0, 0, 0⟩
  let x (r : XReg) : BitVec 3 := .ofFin r
  let b (r : BReg) : BitVec 2 := .ofFin r
  let m (imm : Nat) : BitVec 9 := .ofNat 9 imm
  match i with
  | .nop => z
  | .ldi rd imm => { z with op := 0x01, rd := x rd, imm := m imm }
  | .mov rd rs1 => { z with op := 0x02, rd := x rd, rs1 := x rs1 }
  | .xor rd rs1 rs2 => { z with op := 0x03, rd := x rd, rs1 := x rs1, rs2 := x rs2 }
  | .setlen bd imm => { z with op := 0x04, bd := b bd, imm := m imm }
  | .bget rd ba rs1 => { z with op := 0x05, rd := x rd, ba := b ba, rs1 := x rs1 }
  | .bput bd rs1 rs2 => { z with op := 0x06, bd := b bd, rs1 := x rs1, rs2 := x rs2 }
  | .bcopy bd ba => { z with op := 0x07, bd := b bd, ba := b ba }
  | .bcat bd ba bb => { z with op := 0x08, bd := b bd, ba := b ba, bb := b bb }
  | .aggclr => { z with op := 0x09 }
  | .gadd rd rs1 rs2 => { z with op := 0x10, rd := x rd, rs1 := x rs1, rs2 := x rs2 }
  | .gmul rd rs1 rs2 => { z with op := 0x11, rd := x rd, rs1 := x rs1, rs2 := x rs2 }
  | .gdiv rd rs1 rs2 => { z with op := 0x12, rd := x rd, rs1 := x rs1, rs2 := x rs2 }
  | .ginv rd rs1 => { z with op := 0x13, rd := x rd, rs1 := x rs1 }
  | .gexp rd rs1 => { z with op := 0x14, rd := x rd, rs1 := x rs1 }
  | .glog rd rs1 => { z with op := 0x15, rd := x rd, rs1 := x rs1 }
  | .peval rd ba rs1 => { z with op := 0x20, rd := x rd, ba := b ba, rs1 := x rs1 }
  | .pmul bd ba bb => { z with op := 0x21, bd := b bd, ba := b ba, bb := b bb }
  | .rsgen bd imm => { z with op := 0x30, bd := b bd, imm := m imm }
  | .rsenc bd ba imm => { z with op := 0x31, bd := b bd, ba := b ba, imm := m imm }
  | .rssyn ba imm => { z with op := 0x40, ba := b ba, imm := m imm }
  | .rsbm => { z with op := 0x41 }
  | .rschien => { z with op := 0x42 }
  | .rsforney => { z with op := 0x43 }
  | .rsapply ba => { z with op := 0x44, ba := b ba }
  | .rsdec ba imm => { z with op := 0x45, ba := b ba, imm := m imm }
  | .bchfe rd rs1 => { z with op := 0x50, rd := x rd, rs1 := x rs1 }
  | .bchfd rd rs1 => { z with op := 0x51, rd := x rd, rs1 := x rs1 }
  | .bchve rd rs1 => { z with op := 0x52, rd := x rd, rs1 := x rs1 }
  | .bchvd rd rs1 => { z with op := 0x53, rd := x rd, rs1 := x rs1 }
  | .fmtsel rd rs1 rs2 => { z with op := 0x54, rd := x rd, rs1 := x rs1, rs2 := x rs2 }
  | .versel rd rs1 rs2 => { z with op := 0x55, rd := x rd, rs1 := x rs1, rs2 := x rs2 }
  | .bsclr => { z with op := 0x60 }
  | .bsput rs1 imm => { z with op := 0x61, rs1 := x rs1, imm := m imm }
  | .bsget rd imm => { z with op := 0x62, rd := x rd, imm := m imm }
  | .bsload ba => { z with op := 0x63, ba := b ba }
  | .bsstore bd rs1 imm => { z with op := 0x64, bd := b bd, rs1 := x rs1, imm := m imm }
  | .segenc ba imm => { z with op := 0x65, ba := b ba, imm := m imm }
  | .bsterm => { z with op := 0x66 }
  | .bspad => { z with op := 0x67 }
  | .segdec rd bd => { z with op := 0x68, rd := x rd, bd := b bd }
  | .bspadchk rd => { z with op := 0x69, rd := x rd }
  | .zzgen => { z with op := 0x70 }
  | .zzplace => { z with op := 0x71 }
  | .zzread => { z with op := 0x72 }

/-- The command's word (R131). -/
def encode (i : Instr) : Word := wordOf i.fields

/-- The decoder's answer on a word of spec/opcode_table.json's numbering. Every command is one 32-bit
word (R120), so the word is its low `nbits` bits. -/
def decodeTableWord (nbits w : Nat) : Option Instr :=
  match decode (BitVec.ofNat 32 (w % 2 ^ nbits)) with
  | .ok i => some i
  | .error _ => none

end Sys2Proof
end

