-- ==== Sys2Proof/Config.lean ====
section
/-! DEFINITION. The implementation parameters of R8 and the one free value of the model. -/

namespace Sys2Proof.Config

/-- Bytes per buffer (R8). -/
def bufCap : Nat := 256

/-- Longest Reed-Solomon block (R8). -/
def rsMax : Nat := 255

/-- Bits in the bitstream memory (R8). -/
def bitCap : Nat := 32768

/-- The largest CAPB: BITCAP / 8 (R42). -/
def capbMax : Nat := 4096

/-- Legal symbol versions (R8). -/
def verMin : Nat := 1
def verMax : Nat := 40

/-- SIZE(v) = 21 + 4·(v − 1) (R8, R401). -/
def size (v : Nat) : Nat := 21 + 4 * (v - 1)

/-- MAXSIZE = SIZE(40) (R8): the side of the role and module matrices. -/
def maxSize : Nat := 177

/-- Entries in the zigzag coordinate memory: 177·177 (R8). -/
def zzCap : Nat := 31329

/-- The GF(256) reduction polynomial x^8+x^4+x^3+x^2+1 (R8, R180). -/
def prim : Nat := 0x11D

/-- Format BCH generator, format mask, version BCH generator (R8). -/
def gfmt : Nat := 0x537
def fmask : Nat := 0x5412
def gver : Nat := 0x1F25

/-- What the ID register reads (R35). -/
def idValue : Word := 0x51520007

/-- FREE VALUE (log entry 4): whether the `n`-th host read of a word made while BUSY = 1 sees the
running command's new value or the old one (R475, U2: one of the two, each word chosen
independently). It has no body, so nothing can be proved of its values. -/
opaque busyReadSeesNew : Nat → Bool

end Sys2Proof.Config
end

