-- ==== Sys2Proof/Machine/State.lean ====
section
/-! DEFINITION. The state of the core and of the host that drives it, as plain data: 10_state.md item by
item, grouped by unit, with the host's command program beside it (R57). -/

namespace Sys2Proof.Machine

/-- An array of cells as (index, content) pairs in one canonical form: indexes strictly rising, an
unwritten cell unlisted (`Memory.wf`). Of bytes it is a list of `Host.Cell`. -/
abbrev Memory (α : Type) := List (Nat × α)

/-- The arrays whose content reset leaves unspecified (R472); they name where a read failed. -/
inductive ArrayName where
  | buf (b : BReg)
  | bits
  | syn
  | lambda
  | pos
  | mag
  | role
  | mod
  | zz
  deriving DecidableEq, Repr

/-- Why a step stops with a fault. -/
inductive Fault where
  /-- A command or a host read used a cell nothing has written (R472, U1: "A model treats such a read
  as a fault"). Raised by every read of an array. Safe (log entry 6). -/
  | unwrittenRead (a : ArrayName) (index : Nat)
  /-- A host access that is not 32 bits wide at a 4-byte-aligned address: a bus error, which a host
  action list must not contain (R85, U6). Raised by the host's bus accesses. Safe (log entry 8). -/
  | misalignedAccess (addr : BitVec 17) (bytes : Nat)
  /-- A host access to an address of no register or window: a bus error (R87, U6). Raised by the host's
  bus accesses. Safe (log entry 8). -/
  | unmappedAccess (addr : BitVec 17)
  deriving DecidableEq, Repr

/-- Why a step has no meaning. -/
inductive Refusal where
  /-- A command whose meaning is not written. Raised by an arm of `exec` only; none is. Safe. -/
  | notModelled (mnemonic : String)
  /-- A host write to a word the running command uses while BUSY = 1: R475 fixes no effect and U2 says
  `refuse`. Raised by the host's bus writes. Safe (log entry 5). -/
  | writeToStateInUse (addr : BitVec 17)
  deriving DecidableEq, Repr

/-- The exception codes ERRCODE can hold (R432); `noError` is its reset value, never raised. -/
inductive ErrCode where
  | noError
  | illegalOpcode
  | reservedField
  | divByZero
  | logOfZero
  | length
  | index
  | sequence
  | bitOverflow
  | bitUnderflow
  | invalidChar
  | countOverflow
  | capacity
  | busyOverrun
  deriving DecidableEq, Repr

/-- The per-block decoder state RSST (R49). -/
inductive RsState where
  | idle
  | syndromeReady
  | locatorReady
  | positionsReady
  | magnitudesReady
  | noError
  | corrected
  | failed
  deriving DecidableEq, Repr

/-- RSRES.REASON (R50). -/
inductive RsReason where
  | noReason
  | exceedsCapacity
  | derivativeZero
  | verifyFailed
  deriving DecidableEq, Repr

/-- SEGRES.SEGST, the status codes of R359. -/
inductive SegStatus where
  | segmentOk
  | terminator
  | exhausted
  | unsupportedMode
  | insufficient
  | invalidValue
  | overflow
  deriving DecidableEq, Repr

/-- SEGRES.SEGSTAGE (R46). -/
inductive SegStage where
  | noStage
  | count
  | payload
  deriving DecidableEq, Repr

/-- What the host does, one item of a command program (R57, R130), and the platform's reset (R470). -/
inductive HostAction where
  /-- `MemWrite(addr, bytes, v)`; only `bytes = 4` is a bus word (R84, R85). -/
  | busWrite (addr : BitVec 17) (bytes : Nat) (v : Word)
  /-- `MemRead(addr, bytes)`. -/
  | busRead (addr : BitVec 17) (bytes : Nat)
  /-- Read STATUS until BUSY = 0 (R130). -/
  | wait
  /-- The platform asserts and releases reset (R470). -/
  | platformReset
  deriving DecidableEq, Repr

/-- The host's side of the machine: its program and position (R57) and the model's own fields. -/
structure HostSide where
  prog : List HostAction
  pc : Nat
  /-- The word the last bus read returned (log entry 9). -/
  rdata : Word
  /-- CMD_LATENCY as plain data (R8, log entry 2): for each command still to be accepted, how many host
  actions see BUSY = 1 after it; none listed means 0. -/
  latencies : List Nat
  /-- Numbers the free choices of busy reads (log entry 4). -/
  freeCtr : Nat
  deriving DecidableEq, Repr

/-- A command accepted and not yet complete (R430): its word, and how many host actions still see
BUSY = 1. -/
structure Running where
  word : Word
  left : Nat
  deriving DecidableEq, Repr

/-- Control and status (R36 to R40). STATUS.BUSY is `running.isSome`. -/
structure Control where
  running : Option Running
  done : Bool
  err : Bool
  eovf : Bool
  errcode : ErrCode
  doneie : Bool
  errie : Bool
  errcmd : Word
  errdata : Word
  cmdcnt : Word
  deriving DecidableEq, Repr

/-- The bitstream unit (R43 to R48). -/
structure Bitstream where
  bits : Memory Bool
  blen : Nat
  rpos : Nat
  segst : SegStatus
  segmode : Nat
  segstage : SegStage
  segcnt : Nat
  segexp : Nat
  segavl : Nat
  termseen : Bool
  databits : Nat
  deriving DecidableEq, Repr

/-- The Reed-Solomon decoder unit (R49 to R53). -/
structure RsUnit where
  rsst : RsState
  reason : RsReason
  detected : Nat
  maxcorr : Nat
  corrected : Nat
  nmsg : Nat
  nsyn : Nat
  ldeg : Nat
  npos : Nat
  syn : Memory Byte
  lambda : Memory Byte
  pos : Memory Byte
  mag : Memory Byte
  aggn : Nat
  aggv : Nat
  allok : Bool
  deriving DecidableEq, Repr

/-- The zigzag unit (R54 to R56). Cell (r, c) of ROLE and MOD has index 177·r + c. -/
structure Zigzag where
  role : Memory Bool
  mod : Memory Bool
  zz : Memory (Byte × Byte)
  zzcnt : Nat
  deriving DecidableEq, Repr

structure State where
  host : HostSide
  ctl : Control
  /-- X0..X7 (R30). -/
  x : Vector Word 8
  /-- LEN0..LEN3 (R33). -/
  len : Vector Nat 4
  /-- B0..B3 (R32). -/
  buf : Vector (Memory Byte) 4
  /-- VER (R41). -/
  ver : Nat
  /-- CAPB (R42). -/
  capb : Nat
  bs : Bitstream
  rs : RsUnit
  zig : Zigzag
  deriving DecidableEq, Repr

/-- The state after reset, R59 row by row: every register at the value stated there, every array with no
cell written (R472). The host's program is loaded from outside (log entry 1). -/
def State.reset : State where
  host := ⟨[], 0, 0, [], 0⟩
  ctl := ⟨none, false, false, false, .noError, false, false, 0, 0, 0⟩
  x := Vector.replicate 8 0
  len := Vector.replicate 4 0
  buf := Vector.replicate 4 []
  ver := 1
  capb := 0
  bs := ⟨[], 0, 0, .segmentOk, 0, .noStage, 0, 0, 0, false, 0⟩
  rs := ⟨.idle, .noReason, 0, 0, 0, 0, 0, 0, 0, [], [], [], [], 0, 0, true⟩
  zig := ⟨[], [], [], 0⟩

end Sys2Proof.Machine
end

