-- ==== Sys2Proof/Machine/Ops.lean ====
section
/-! DEFINITION. The operations over arrays and registers that every command is written with, taking a
command exception (R431, R432) and clearing its report (R440), and completing a command (R436). -/

namespace Sys2Proof.Machine

/-- The outcome of a step or a command. -/
abbrev Res := Host.Outcome State Fault Refusal

/-! ## Arrays -/

/-- The canonical form: indexes strictly rising. An unwritten cell has no value, so no listed cell can
equal it. -/
abbrev Memory.wf {α : Type} (m : Memory α) : Prop := m.Pairwise (fun a b => a.1 < b.1)

/-- Every listed cell exists: the array has cells 0..cap−1. -/
abbrev Memory.below {α : Type} (m : Memory α) (cap : Nat) : Prop := ∀ c ∈ m, c.1 < cap

/-- Cell `k`, or none where nothing has written it. -/
def Memory.read {α : Type} : Memory α → Nat → Option α
  | [], _ => none
  | (j, v) :: m, k => if j = k then some v else Memory.read m k

/-- The cells `k`, `k + 1`, … holding `vs`. -/
def cellsFrom {α : Type} : Nat → List α → Memory α
  | _, [] => []
  | k, v :: vs => (k, v) :: cellsFrom (k + 1) vs

/-- Write `vs` to the cells from `k` on. -/
def Memory.writeBlock {α : Type} (m : Memory α) (k : Nat) (vs : List α) : Memory α :=
  m.filter (fun c => decide (c.1 < k)) ++ cellsFrom k vs
    ++ m.filter (fun c => decide (k + vs.length ≤ c.1))

/-- Write one cell. -/
def Memory.write {α : Type} (m : Memory α) (k : Nat) (v : α) : Memory α := m.writeBlock k [v]

/-- Read one cell of the array named `a`; an unwritten one faults (R472, U1). -/
def readCell {α : Type} (a : ArrayName) (m : Memory α) (k : Nat) : Except Fault α :=
  match m.read k with
  | some v => .ok v
  | none => .error (.unwrittenRead a k)

/-- `read k`, `read (k + 1)`, …: `n` reads in order, the first that fails ends them. -/
def readMany {α : Type} (read : Nat → Except Fault α) : Nat → Nat → Except Fault (List α)
  | _, 0 => .ok []
  | k, n + 1 => (read k).bind fun v => (readMany read (k + 1) n).map fun vs => v :: vs

/-- Cells k..k+n−1 of the array named `a`. -/
def readBlock {α : Type} (a : ArrayName) (m : Memory α) (k n : Nat) : Except Fault (List α) :=
  readMany (readCell a m) k n

/-! ## Bit strings (R91: most significant bit first) -/

/-- The `n` low bits of `v`, bit n−1 first. -/
def bitsOf (v n : Nat) : List Bool := (List.range n).map (fun j => v.testBit (n - 1 - j))

/-- The number a bit string writes, first bit most significant. -/
def natOfBits (bs : List Bool) : Nat := bs.foldl (fun v b => 2 * v + b.toNat) 0

/-! ## Exceptions -/

/-- The numbers of R432. -/
def ErrCode.toNat : ErrCode → Nat
  | .noError => 0x00
  | .illegalOpcode => 0x01
  | .reservedField => 0x02
  | .divByZero => 0x03
  | .logOfZero => 0x04
  | .length => 0x05
  | .index => 0x06
  | .sequence => 0x07
  | .bitOverflow => 0x08
  | .bitUnderflow => 0x09
  | .invalidChar => 0x0A
  | .countOverflow => 0x0B
  | .capacity => 0x0C
  | .busyOverrun => 0x0E

/-- The report of an exception (R431, R439): EOVF where ERR was already set, then ERR, the code, the
command word and the detail value. Nothing else changes. -/
def State.report (s : State) (code : ErrCode) (w data : Word) : State :=
  { s with ctl := { s.ctl with
      eovf := s.ctl.eovf || s.ctl.err
      err := true
      errcode := code
      errcmd := w
      errdata := data } }

/-- `raise <CODE>(data)` in the rule of command `i` (R431, R433): the report with the command's own word
(log entry 10) and the detail value zero-extended. The completion effects follow in `finish`. -/
def State.raise (s : State) (i : Instr) (code : ErrCode) (data : Nat) : State :=
  s.report code (encode i) (BitVec.ofNat 32 data)

/-- The exception of a decoding error (R124, R432), for the command word `w`. -/
def State.raiseDecode (s : State) (w : Word) : DecodeError → State
  | .illegalOpcode op => s.report .illegalOpcode w op.toWord
  | .reservedField unused => s.report .reservedField w unused

/-- What stands for the return from an exception (R440): the host writes STATUS, and each of DONE, ERR,
EOVF written 1 is cleared (R37); ERRCODE, ERRCMD and ERRDATA stay. -/
def State.clearStatus (s : State) (w : Word) : State :=
  { s with ctl := { s.ctl with
      done := s.ctl.done && !w.getLsbD 1
      err := s.ctl.err && !w.getLsbD 2
      eovf := s.ctl.eovf && !w.getLsbD 3 } }

/-! ## Acceptance and completion -/

/-- A command is accepted (R430): BUSY ← 1, DONE ← 0; `n` host actions will see BUSY = 1. -/
def State.accept (s : State) (w : Word) (n : Nat) : State :=
  { s with ctl := { s.ctl with running := some ⟨w, n⟩, done := false } }

/-- The completion effects (R436): CMDCNT + 1 modulo 2^32, DONE ← 1, BUSY ← 0. -/
def State.complete (s : State) : State :=
  { s with ctl := { s.ctl with running := none, done := true, cmdcnt := s.ctl.cmdcnt + 1 } }

/-- The end of every command, whether it raised or not (R436); a read of an unwritten cell faults. -/
def finish : Except Fault State → Res
  | .ok s => .next s.complete
  | .error f => .fault f

end Sys2Proof.Machine
end

