-- ==== Sys2Proof/Machine/Operands.lean ====
section
/-! DEFINITION. The operand forms of the commands: a scalar register whole, as a byte or as a signed
number, a result zero-extended (R30, R31, R10); a buffer's content, its bytes and its length (R32, R33). -/

namespace Sys2Proof.Machine

/-- `X[r]`. -/
def State.getX (s : State) (r : XReg) : Word := s.x[r]

/-- `X[r] <- v`. No register is hard-wired (R30). -/
def State.setX (s : State) (r : XReg) (v : Word) : State := { s with x := s.x.set r v }

/-- `X[r][7:0]`, a GF(256) operand (R31). -/
def State.byteX (s : State) (r : XReg) : Byte := (s.getX r).setWidth 8

/-- `X[r]` as an unsigned number. -/
def State.natX (s : State) (r : XReg) : Nat := (s.getX r).toNat

/-- `sint_32(X[r])`. -/
def State.intX (s : State) (r : XReg) : Int := (s.getX r).toInt

/-- `X[r] <- zext_32(v)` for a number below 2^32. -/
def State.setXNat (s : State) (r : XReg) (v : Nat) : State := s.setX r (BitVec.ofNat 32 v)

/-- `X[r] <- zext_32(b)` for a byte. -/
def State.setXByte (s : State) (r : XReg) (b : Byte) : State := s.setX r b.toWord

/-- `LEN[b]`. -/
def State.lenB (s : State) (b : BReg) : Nat := s.len[b]

/-- `LEN[b] <- n`. -/
def State.setLen (s : State) (b : BReg) (n : Nat) : State := { s with len := s.len.set b n }

/-- The bytes of buffer `b`. -/
def State.memB (s : State) (b : BReg) : Memory Byte := s.buf[b]

/-- `B[b][k]`. -/
def State.byteB (s : State) (b : BReg) (k : Nat) : Except Fault Byte := readCell (.buf b) (s.memB b) k

/-- `B[b][k..]  <- vs`; the length register stays (R33, R89). -/
def State.writeB (s : State) (b : BReg) (k : Nat) (vs : List Byte) : State :=
  { s with buf := s.buf.set b ((s.memB b).writeBlock k vs) }

/-- `B[b][0..LEN[b]−1]`, the buffer's content. -/
def State.content (s : State) (b : BReg) : Except Fault (List Byte) :=
  readBlock (.buf b) (s.memB b) 0 (s.lenB b)

/-- The contents of two source buffers, the first read first. -/
def State.contents (s : State) (ba bb : BReg) : Except Fault (List Byte × List Byte) :=
  (s.content ba).bind fun a => (s.content bb).map fun b => (a, b)

/-- A command produces buffer `b`: its bytes from index 0, and its length (R33); bytes past the new
length keep what they held. -/
def State.produce (s : State) (b : BReg) (vs : List Byte) : State :=
  (s.writeB b 0 vs).setLen b vs.length

end Sys2Proof.Machine
end

