-- ==== Sys2Proof/Machine/Flags.lean ====
section
/-! DEFINITION. The flags and packed registers of the core (R58): STATUS and IRQ, the aggregate of the
decoder, and the word each packed register reads as. Reserved bits read 0 (R88). -/

namespace Sys2Proof.Machine

/-- STATUS.BUSY (R37, R430): a command has been accepted and is not complete. -/
def State.busy (s : State) : Bool := s.ctl.running.isSome

/-- STATUS (R37): ERRCODE in 15:8, EOVF, ERR, DONE, BUSY in 3:0. -/
def State.statusWord (s : State) : Word :=
  (0#16 ++ BitVec.ofNat 8 s.ctl.errcode.toNat ++ 0#4 ++ BitVec.ofBool s.ctl.eovf ++ BitVec.ofBool s.ctl.err
    ++ BitVec.ofBool s.ctl.done ++ BitVec.ofBool s.busy : BitVec (16 + 8 + 4 + 1 + 1 + 1 + 1))

/-- IRQEN (R38). -/
def State.irqenWord (s : State) : Word :=
  (0#30 ++ BitVec.ofBool s.ctl.errie ++ BitVec.ofBool s.ctl.doneie : BitVec (30 + 1 + 1))

/-- A write of IRQEN (R38): bits 31:2 are ignored. -/
def State.writeIrqen (s : State) (w : Word) : State :=
  { s with ctl := { s.ctl with doneie := w.getLsbD 0, errie := w.getLsbD 1 } }

/-- The interrupt output, a level (R437). -/
def State.irq (s : State) : Bool := (s.ctl.done && s.ctl.doneie) || (s.ctl.err && s.ctl.errie)

/-- SEGRES.SEGST (R359). -/
def SegStatus.toNat : SegStatus → Nat
  | .segmentOk => 0
  | .terminator => 1
  | .exhausted => 2
  | .unsupportedMode => 3
  | .insufficient => 4
  | .invalidValue => 5
  | .overflow => 6

/-- SEGRES.SEGSTAGE (R46). -/
def SegStage.toNat : SegStage → Nat
  | .noStage => 0
  | .count => 1
  | .payload => 2

/-- SEGRES (R46). -/
def State.segresWord (s : State) : Word :=
  (BitVec.ofNat 16 s.bs.segcnt ++ 0#6 ++ BitVec.ofNat 2 s.bs.segstage.toNat ++ BitVec.ofNat 4 s.bs.segmode
    ++ BitVec.ofNat 4 s.bs.segst.toNat : BitVec (16 + 6 + 2 + 4 + 4))

/-- BSSTAT (R48). -/
def State.bsstatWord (s : State) : Word :=
  (BitVec.ofNat 16 s.bs.databits ++ 0#15 ++ BitVec.ofBool s.bs.termseen : BitVec (16 + 15 + 1))

/-- RSST (R49). -/
def RsState.toNat : RsState → Nat
  | .idle => 0
  | .syndromeReady => 1
  | .locatorReady => 2
  | .positionsReady => 3
  | .magnitudesReady => 4
  | .noError => 5
  | .corrected => 6
  | .failed => 7

/-- RSRES.REASON (R50). -/
def RsReason.toNat : RsReason → Nat
  | .noReason => 0
  | .exceedsCapacity => 1
  | .derivativeZero => 2
  | .verifyFailed => 3

/-- RSRES (R50). -/
def State.rsresWord (s : State) : Word :=
  (BitVec.ofNat 8 s.rs.corrected ++ BitVec.ofNat 8 s.rs.maxcorr ++ BitVec.ofNat 8 s.rs.detected ++ 0#6
    ++ BitVec.ofNat 2 s.rs.reason.toNat : BitVec (8 + 8 + 8 + 6 + 2))

/-- RSPAR (R51). -/
def State.rsparWord (s : State) : Word :=
  (BitVec.ofNat 8 s.rs.npos ++ BitVec.ofNat 8 s.rs.ldeg ++ BitVec.ofNat 8 s.rs.nsyn
    ++ BitVec.ofNat 8 s.rs.nmsg : BitVec (8 + 8 + 8 + 8))

/-- AGG (R53). -/
def State.aggWord (s : State) : Word :=
  (BitVec.ofNat 16 s.rs.aggv ++ BitVec.ofNat 16 s.rs.aggn : BitVec (16 + 16))

/-- AGGFLAG (R53). -/
def State.aggflagWord (s : State) : Word := (0#31 ++ BitVec.ofBool s.rs.allok : BitVec (31 + 1))

/-- A 16-bit counter that saturates at 0xFFFF (R53). -/
def satInc (n : Nat) : Nat := min (n + 1) 0xFFFF

/-- The aggregate on entering a terminal state (R258): the block is counted, and either counted as
recovered or ALLOK is cleared. -/
def RsUnit.aggregate (u : RsUnit) (recovered : Bool) : RsUnit :=
  { u with
    aggn := satInc u.aggn
    aggv := if recovered then satInc u.aggv else u.aggv
    allok := u.allok && recovered }

end Sys2Proof.Machine
end

