-- ==== Sys2Proof/Machine/Bus.lean ====
section
/-! DEFINITION. The host register space (20_memory.md): the map of R82, the word each register and window
reads as, and the effect of a write (R83 to R94). A write to CMD is Command.lean's. -/

namespace Sys2Proof.Machine

/-- What a word of the host register space is (R82). `q` counts the words of a window. -/
inductive Target where
  | id
  | cmd
  | status
  | irqen
  | errcmd
  | errdata
  | cmdcnt
  | ver
  | capb
  | blen
  | rpos
  | zzcnt
  | segres
  | segexp
  | segavl
  | bsstat
  | x (r : XReg)
  | len (b : BReg)
  | rsst
  | rsres
  | rspar
  | agg
  | aggflag
  | bufWord (b : BReg) (q : Nat)
  | synWord (q : Nat)
  | lambdaWord (q : Nat)
  | posWord (q : Nat)
  | magWord (q : Nat)
  | bitsWord (q : Nat)
  | roleWord (row j : Nat)
  | modWord (row j : Nat)
  | zzWord (q : Nat)
  deriving DecidableEq, Repr

/-- The single registers of the map (R82). -/
def registerMap : List (Nat × Target) :=
  [(0x00000, .id), (0x00004, .cmd), (0x00008, .status), (0x0000C, .irqen), (0x00010, .errcmd),
   (0x00014, .errdata), (0x00018, .cmdcnt), (0x0001C, .ver), (0x00020, .capb), (0x00024, .blen),
   (0x00028, .rpos), (0x0002C, .zzcnt), (0x00030, .segres), (0x00034, .segexp), (0x00038, .segavl),
   (0x0003C, .bsstat), (0x00070, .rsst), (0x00074, .rsres), (0x00078, .rspar), (0x0007C, .agg),
   (0x00080, .aggflag)]

/-- The map of R82 at a 4-byte-aligned address; none is unmapped. -/
def targetAt (a : Nat) : Option Target :=
  if 0x00040 ≤ a ∧ a < 0x00060 then some (.x (Fin.ofNat 8 ((a - 0x00040) / 4)))
  else if 0x00060 ≤ a ∧ a < 0x00070 then some (.len (Fin.ofNat 4 ((a - 0x00060) / 4)))
  else if a < 0x00100 then registerMap.lookup a
  else if a < 0x00500 then some (.bufWord (Fin.ofNat 4 ((a - 0x00100) / 0x100)) (a % 0x100 / 4))
  else if a < 0x00600 then some (.synWord (a % 0x100 / 4))
  else if a < 0x00700 then some (.lambdaWord (a % 0x100 / 4))
  else if a < 0x00800 then some (.posWord (a % 0x100 / 4))
  else if a < 0x00900 then some (.magWord (a % 0x100 / 4))
  else if 0x01000 ≤ a ∧ a < 0x02000 then some (.bitsWord ((a - 0x01000) / 4))
  else if 0x02000 ≤ a ∧ a < 0x03098 then
    some (.roleWord ((a - 0x02000) / 24) ((a - 0x02000) % 24 / 4))
  else if 0x04000 ≤ a ∧ a < 0x05098 then
    some (.modWord ((a - 0x04000) / 24) ((a - 0x04000) % 24 / 4))
  else if 0x10000 ≤ a then some (.zzWord ((a - 0x10000) / 4))
  else none

/-! ## Words of windows -/

/-- Four bytes as a little-endian word (R90). -/
def wordOfBytes (bytes : List Byte) : Word :=
  (bytes.getD 3 0 ++ bytes.getD 2 0 ++ bytes.getD 1 0 ++ bytes.getD 0 0 : BitVec (8 + 8 + 8 + 8))

/-- A word's bytes, little-endian (R90). -/
def bytesOfWord (w : Word) : List Byte :=
  [w.extractLsb' 0 8, w.extractLsb' 8 8, w.extractLsb' 16 8, w.extractLsb' 24 8]

/-- Word q of a byte window of an array of `cap` bytes; a byte past the array reads 0 (R90). -/
def readByteWord (a : ArrayName) (m : Memory Byte) (cap q : Nat) : Except Fault Word :=
  (readMany (fun k => if k < cap then readCell a m k else .ok 0) (4 * q) 4).map wordOfBytes

/-- Word j of row r of a bit window (R93): cell c = 32·j + d in bit d; a cell past column 176 reads 0. -/
def readBitWord (a : ArrayName) (m : Memory Bool) (row j : Nat) : Except Fault Word :=
  (readMany (fun c => if c < Config.maxSize then readCell a m (Config.maxSize * row + c) else .ok false)
    (32 * j) 32).map (fun bs => BitVec.ofNat 32 (natOfBits bs.reverse))

/-- A write of word j of row r of a bit window (R93); cells past column 176 are ignored. -/
def writeBitWord (m : Memory Bool) (row j : Nat) (w : Word) : Memory Bool :=
  m.writeBlock (Config.maxSize * row + 32 * j)
    ((bitsOf w.toNat 32).reverse.take (Config.maxSize - 32 * j))

/-- Word q of the BITS window (R92): stream bytes 4q..4q+3, bit 8m of the stream in bit 7 of byte m. -/
def readStreamWord (m : Memory Bool) (q : Nat) : Except Fault Word :=
  (readMany (fun k => (readBlock .bits m (8 * k) 8).map fun bs => BitVec.ofNat 8 (natOfBits bs))
    (4 * q) 4).map wordOfBytes

/-- A write of word q of the BITS window (R92). -/
def writeStreamWord (m : Memory Bool) (q : Nat) (w : Word) : Memory Bool :=
  m.writeBlock (32 * q) ((bytesOfWord w).flatMap (fun b => bitsOf b.toNat 8))

/-- Word q of the ZZ window (R94): entry 2q in the low half, row above column; an entry past the memory
reads 0. -/
def readZzWord (m : Memory (Byte × Byte)) (q : Nat) : Except Fault Word :=
  (readMany (fun k => if k < Config.zzCap then readCell .zz m k else .ok (0, 0)) (2 * q) 2).map
    fun es =>
      let e0 := es.getD 0 (0, 0)
      let e1 := es.getD 1 (0, 0)
      (e1.1 ++ e1.2 ++ e0.1 ++ e0.2 : BitVec (8 + 8 + 8 + 8))

/-! ## Reads and writes -/

/-- What a target reads as (R35 to R56, R88: CMD reads 0). No read changes anything (R83). -/
def State.readTarget (s : State) : Target → Except Fault Word
  | .id => .ok Config.idValue
  | .cmd => .ok 0
  | .status => .ok s.statusWord
  | .irqen => .ok s.irqenWord
  | .errcmd => .ok s.ctl.errcmd
  | .errdata => .ok s.ctl.errdata
  | .cmdcnt => .ok s.ctl.cmdcnt
  | .ver => .ok (BitVec.ofNat 32 s.ver)
  | .capb => .ok (BitVec.ofNat 32 s.capb)
  | .blen => .ok (BitVec.ofNat 32 s.bs.blen)
  | .rpos => .ok (BitVec.ofNat 32 s.bs.rpos)
  | .zzcnt => .ok (BitVec.ofNat 32 s.zig.zzcnt)
  | .segres => .ok s.segresWord
  | .segexp => .ok (BitVec.ofNat 32 s.bs.segexp)
  | .segavl => .ok (BitVec.ofNat 32 s.bs.segavl)
  | .bsstat => .ok s.bsstatWord
  | .x r => .ok (s.getX r)
  | .len b => .ok (BitVec.ofNat 32 (s.lenB b))
  | .rsst => .ok (BitVec.ofNat 32 s.rs.rsst.toNat)
  | .rsres => .ok s.rsresWord
  | .rspar => .ok s.rsparWord
  | .agg => .ok s.aggWord
  | .aggflag => .ok s.aggflagWord
  | .bufWord b q => readByteWord (.buf b) (s.memB b) 256 q
  | .synWord q => readByteWord .syn s.rs.syn 255 q
  | .lambdaWord q => readByteWord .lambda s.rs.lambda 256 q
  | .posWord q => readByteWord .pos s.rs.pos 255 q
  | .magWord q => readByteWord .mag s.rs.mag 255 q
  | .bitsWord q => readStreamWord s.bs.bits q
  | .roleWord row j => readBitWord .role s.zig.role row j
  | .modWord row j => readBitWord .mod s.zig.mod row j
  | .zzWord q => readZzWord s.zig.zz q

/-- A write to a target other than CMD. A read-only target ignores it (R88); a WARL register ignores an
illegal value (R33, R41, R42, R44, R45); a window changes only the cells the word covers (R86, R89). -/
def State.writeTarget (s : State) (t : Target) (w : Word) : State :=
  match t with
  | .id | .cmd | .errcmd | .errdata | .cmdcnt | .zzcnt | .segres | .segexp | .segavl | .bsstat => s
  | .rsst | .rsres | .rspar | .agg | .aggflag => s
  | .synWord _ | .lambdaWord _ | .posWord _ | .magWord _ | .zzWord _ => s
  | .status => s.clearStatus w
  | .irqen => s.writeIrqen w
  | .ver => if Config.verMin ≤ w.toNat ∧ w.toNat ≤ Config.verMax then { s with ver := w.toNat } else s
  | .capb => if w.toNat ≤ Config.capbMax then { s with capb := w.toNat } else s
  | .blen => if w.toNat ≤ Config.bitCap then { s with bs := { s.bs with blen := w.toNat } } else s
  | .rpos => if w.toNat ≤ Config.bitCap then { s with bs := { s.bs with rpos := w.toNat } } else s
  | .x r => s.setX r w
  | .len b => if w.toNat ≤ Config.bufCap then s.setLen b w.toNat else s
  | .bufWord b q => s.writeB b (4 * q) (bytesOfWord w)
  | .bitsWord q => { s with bs := { s.bs with bits := writeStreamWord s.bs.bits q w } }
  | .roleWord row j => { s with zig := { s.zig with role := writeBitWord s.zig.role row j w } }
  | .modWord row j => { s with zig := { s.zig with mod := writeBitWord s.zig.mod row j w } }

/-- The target of a bus access (R84, R85, R87): misaligned or not 32 bits wide, or unmapped, is a bus
error (log entry 8). -/
def busTarget (addr : BitVec 17) (bytes : Nat) : Except Fault Target :=
  if bytes ≠ 4 ∨ addr.toNat % 4 ≠ 0 then .error (.misalignedAccess addr bytes)
  else
    match targetAt addr.toNat with
    | none => .error (.unmappedAccess addr)
    | some t => .ok t

end Sys2Proof.Machine
end

