-- ==== Sys2Proof/Machine/Bch.lean ====
section
/-! DEFINITION. The BCH(15,5) format and BCH(18,6) version codec (45_bch.md): the functions of R300 to R303
over GF(2) polynomials held as numbers, and the six commands (R310 to R315). -/

namespace Sys2Proof.Machine

/-! ## Functions -/

/-- The number of bits of v; `bitlen(0) = 0` (R300). -/
def bitlen (v : Nat) : Nat := if v = 0 then 0 else v.log2 + 1

/-- The loop of R300; each turn shortens v, so `bitlen v` turns are enough. -/
def premLoop (g : Nat) : Nat → Nat → Nat
  | 0, v => v
  | turns + 1, v =>
    if bitlen v ≥ bitlen g then premLoop g turns (v ^^^ (g <<< (bitlen v - bitlen g))) else v

/-- `prem(v, g)` (R300). -/
def prem (v g : Nat) : Nat := premLoop g (bitlen v) v

/-- `fmt_enc(d)`, d of 5 bits (R301). -/
def fmtEnc (d : Nat) : Nat := ((d <<< 10) ||| prem (d <<< 10) Config.gfmt) ^^^ Config.fmask

/-- `ver_enc(v)`, v of 6 bits (R301). -/
def verEnc (v : Nat) : Nat := (v <<< 12) ||| prem (v <<< 12) Config.gver

/-- The flip words of k bit indices lo..lo+width−1, the index sets in increasing lexicographic order
(R302). -/
def flips : Nat → Nat → Nat → List Nat
  | 0, _, _ => [0]
  | _ + 1, _, 0 => []
  | k + 1, lo, width + 1 =>
    (flips k (lo + 1) width).map (fun f => 2 ^ lo + f) ++ flips (k + 1) (lo + 1) width

/-- A decoder's result (R302). -/
structure BchResult where
  ok : Bool
  data : Nat
  errcnt : Nat
  deriving DecidableEq, Repr

/-- The search of R302 by weights `ks`, then within a weight in the order of `flips`: the first flip
word that gives a zero syndrome. -/
def bchSearch (u g bits shift : Nat) : List Nat → BchResult
  | [] => ⟨false, 0, 0⟩
  | k :: ks =>
    match (flips k 0 bits).find? (fun f => prem (u ^^^ f) g == 0) with
    | some f => ⟨true, (u ^^^ f) >>> shift, k⟩
    | none => bchSearch u g bits shift ks

/-- `fmt_dec(w)`, w of 15 bits (R302): the only flip word of weight 0 is 0. -/
def fmtDec (w : Nat) : BchResult := bchSearch (w ^^^ Config.fmask) Config.gfmt 15 10 [0, 1, 2, 3]

/-- `ver_dec(w)`, w of 18 bits (R302). -/
def verDec (w : Nat) : BchResult := bchSearch w Config.gver 18 12 [0, 1, 2]

/-- The packed result of R303: SEL, OK1, OK2 are 0 outside the selectors. -/
def packBch (r : BchResult) (sel ok1 ok2 : Bool) : Word :=
  (0#17 ++ BitVec.ofBool ok2 ++ BitVec.ofBool ok1 ++ BitVec.ofBool sel
    ++ BitVec.ofNat 3 (if r.ok then 4 - r.errcnt else 0) ++ BitVec.ofBool r.ok ++ BitVec.ofNat 2 r.errcnt
    ++ BitVec.ofNat 6 r.data : BitVec (17 + 1 + 1 + 1 + 3 + 1 + 2 + 6))

/-- The choice between two locations (R314): fewer flips win, a tie or a lone location 1 is location 1. -/
def selectBch (a b : BchResult) : Word :=
  let sel := if a.ok then b.ok && decide (b.errcnt < a.errcnt) else b.ok
  packBch (if sel then b else a) sel a.ok b.ok

/-! ## Commands -/

/-- BCHFE (R310). -/
def execBchfe (rd rs1 : XReg) (s : State) : Res :=
  finish (.ok (s.setXNat rd (fmtEnc (s.natX rs1 % 2 ^ 5))))

/-- BCHFD (R311). -/
def execBchfd (rd rs1 : XReg) (s : State) : Res :=
  finish (.ok (s.setX rd (packBch (fmtDec (s.natX rs1 % 2 ^ 15)) false false false)))

/-- BCHVE (R312). -/
def execBchve (rd rs1 : XReg) (s : State) : Res :=
  finish (.ok (s.setXNat rd (verEnc (s.natX rs1 % 2 ^ 6))))

/-- BCHVD (R313). -/
def execBchvd (rd rs1 : XReg) (s : State) : Res :=
  finish (.ok (s.setX rd (packBch (verDec (s.natX rs1 % 2 ^ 18)) false false false)))

/-- FMTSEL (R314). -/
def execFmtsel (rd rs1 rs2 : XReg) (s : State) : Res :=
  finish (.ok (s.setX rd (selectBch (fmtDec (s.natX rs1 % 2 ^ 15)) (fmtDec (s.natX rs2 % 2 ^ 15)))))

/-- VERSEL (R315). -/
def execVersel (rd rs1 rs2 : XReg) (s : State) : Res :=
  finish (.ok (s.setX rd (selectBch (verDec (s.natX rs1 % 2 ^ 18)) (verDec (s.natX rs2 % 2 ^ 18)))))

end Sys2Proof.Machine
end

