-- ==== Sys2Proof/Machine/Bitstream.lean ====
section
/-! DEFINITION. The bitstream mode coder (46_bitstream.md): the stream primitives (R340), the segment format
(R341, R342, R348 to R350, R356 to R358) and the ten commands (R343 to R347, R352 to R354, R359, R361). -/

namespace Sys2Proof.Machine

/-! ## Stream primitives -/

/-- `AVAIL(p) = max(0, BLEN − p)` (R340). -/
def State.avail (s : State) (p : Nat) : Nat := s.bs.blen - p

/-- Append bits at BLEN and advance it (R340); the caller has checked that they fit. -/
def State.appendBits (s : State) (bs : List Bool) : State :=
  { s with bs := { s.bs with
      bits := s.bs.bits.writeBlock s.bs.blen bs
      blen := s.bs.blen + bs.length } }

/-- `append(v, n)` (R340). -/
def State.append (s : State) (v n : Nat) : State := s.appendBits (bitsOf v n)

/-- `peek(p, n)` (R340). -/
def State.peek (s : State) (p n : Nat) : Except Fault Nat :=
  (readBlock .bits s.bs.bits p n).map natOfBits

/-- The bits of bytes in transmission order (R91, R92). -/
def bitsOfBytes (bytes : List Byte) : List Bool := bytes.flatMap (fun b => bitsOf b.toNat 8)

/-! ## The segment format -/

/-- The supported modes (R342). -/
inductive Mode where
  | numeric
  | alnum
  | byte
  deriving DecidableEq, Repr

/-- The mode of an indicator (R342): 1, 2, 4; every other value is unsupported. -/
def modeOf (v : Nat) : Option Mode :=
  if v = 1 then some .numeric else if v = 2 then some .alnum else if v = 4 then some .byte else none

/-- `cci(mode, v)`, the character-count-indicator width by version band (R341). -/
def cci (mode : Mode) (v : Nat) : Nat :=
  match mode with
  | .numeric => if v ≤ 9 then 10 else if v ≤ 26 then 12 else 14
  | .alnum => if v ≤ 9 then 9 else if v ≤ 26 then 11 else 13
  | .byte => if v ≤ 9 then 8 else 16

/-- `pbits(mode, c)` (R349). -/
def pbits (mode : Mode) (c : Nat) : Nat :=
  match mode with
  | .numeric => 10 * (c / 3) + (if c % 3 = 2 then 7 else if c % 3 = 1 then 4 else 0)
  | .alnum => 11 * (c / 2) + 6 * (c % 2)
  | .byte => 8 * c

/-- The bits a segment of `c` characters takes at version `v`: indicator, count, payload (R352). -/
def segmentBits (m : Mode) (v c : Nat) : Nat := 4 + cci m v + pbits m c

/-- The 45 characters of R348, by value, as ASCII bytes. -/
def alnumTable : List Nat :=
  (List.range 10).map (0x30 + ·) ++ (List.range 26).map (0x41 + ·)
    ++ [0x20, 0x24, 0x25, 0x2A, 0x2B, 0x2D, 0x2E, 0x2F, 0x3A]

/-- The value of a character in a mode (R348, R350), none where the mode cannot encode it (R352). -/
def charValue (mode : Mode) (b : Byte) : Option Nat :=
  match mode with
  | .numeric => if 0x30 ≤ b.toNat ∧ b.toNat ≤ 0x39 then some (b.toNat - 0x30) else none
  | .alnum => alnumTable.findIdx? (· == b.toNat)
  | .byte => some b.toNat

/-- The character of a value (R356 to R358). -/
def charOf (mode : Mode) (v : Nat) : Byte :=
  match mode with
  | .numeric => BitVec.ofNat 8 (0x30 + v)
  | .alnum => BitVec.ofNat 8 (alnumTable.getD v 0)
  | .byte => BitVec.ofNat 8 v

/-- How many values one character can have in a mode. -/
def radix : Mode → Nat
  | .numeric => 10
  | .alnum => 45
  | .byte => 256

/-- Characters in a full group (R350). -/
def groupSize : Mode → Nat
  | .numeric => 3
  | .alnum => 2
  | .byte => 1

/-- The groups of c characters, from the start; a shorter one may end them (R350, R356, R357). -/
def groups (mode : Mode) (c : Nat) : List Nat :=
  List.replicate (c / groupSize mode) (groupSize mode)
    ++ (if c % groupSize mode = 0 then [] else [c % groupSize mode])

/-- The width of a group of g characters (R350, R356 to R358). -/
def groupBits (mode : Mode) (g : Nat) : Nat :=
  match mode with
  | .numeric => if g = 3 then 10 else if g = 2 then 7 else 4
  | .alnum => if g = 2 then 11 else 6
  | .byte => 8

/-- The value of a group of character values, first most significant (R350). -/
def groupValue (mode : Mode) (vs : List Nat) : Nat := vs.foldl (fun a v => radix mode * a + v) 0

/-- The g character values of a group's value, first most significant (R356, R357). -/
def groupChars (mode : Mode) (g v : Nat) : List Nat :=
  (List.range g).map (fun j => v / radix mode ^ (g - 1 - j) % radix mode)

/-- The payload bits of character values in groups `gs` (R350). -/
def encodeGroups (mode : Mode) : List Nat → List Nat → List Bool
  | [], _ => []
  | g :: gs, vs =>
    bitsOf (groupValue mode (vs.take g)) (groupBits mode g) ++ encodeGroups mode gs (vs.drop g)

/-- The payload of R350. -/
def encodePayload (mode : Mode) (chars : List Byte) : List Bool :=
  encodeGroups mode (groups mode chars.length) (chars.map (fun b => (charValue mode b).getD 0))

/-- Decode the groups `gs` from stream position q on (R356 to R358), one after another: a group value out
of range ends the decoding with none, before any later group is read (log entry 7). -/
def State.decodeGroups (s : State) (mode : Mode) : List Nat → Nat → Except Fault (Option (List Byte))
  | [], _ => .ok (some [])
  | g :: gs, q =>
    (s.peek q (groupBits mode g)).bind fun v =>
      if v ≥ radix mode ^ g then .ok none
      else (s.decodeGroups mode gs (q + groupBits mode g)).map fun rest =>
        rest.map fun cs => (groupChars mode g v).map (charOf mode) ++ cs

/-! ## Stream commands -/

/-- The decode results and BSSTAT cleared (R343). -/
def execBsclr (s : State) : Res :=
  finish (.ok { s with bs := { s.bs with
    blen := 0, rpos := 0, termseen := false, databits := 0
    segst := .segmentOk, segmode := 0, segstage := .noStage, segcnt := 0, segexp := 0, segavl := 0 } })

/-- BSPUT (R344). -/
def execBsput (rs1 : XReg) (imm : Nat) (s : State) : Res :=
  finish <|
    if imm = 0 ∨ imm > 32 then .ok (s.raise (.bsput rs1 imm) .length imm)
    else if s.bs.blen + imm > Config.bitCap then .ok (s.raise (.bsput rs1 imm) .bitOverflow s.bs.blen)
    else .ok (s.append (s.natX rs1) imm)

/-- BSGET (R345). -/
def execBsget (rd : XReg) (imm : Nat) (s : State) : Res :=
  finish <|
    if imm = 0 ∨ imm > 32 then .ok (s.raise (.bsget rd imm) .length imm)
    else if imm > s.avail s.bs.rpos then
      .ok (s.raise (.bsget rd imm) .bitUnderflow (s.avail s.bs.rpos))
    else (s.peek s.bs.rpos imm).map fun v =>
      { s.setXNat rd v with bs := { s.bs with rpos := s.bs.rpos + imm } }

/-- BSLOAD (R346). -/
def execBsload (ba : BReg) (s : State) : Res :=
  finish <|
    if s.bs.blen + 8 * s.lenB ba > Config.bitCap then .ok (s.raise (.bsload ba) .bitOverflow s.bs.blen)
    else (s.content ba).map fun bytes => s.appendBits (bitsOfBytes bytes)

/-- BSSTORE (R347). -/
def execBsstore (bd : BReg) (rs1 : XReg) (imm : Nat) (s : State) : Res :=
  finish <|
    let o := s.natX rs1
    if imm > Config.bufCap then .ok (s.raise (.bsstore bd rs1 imm) .length imm)
    else if 8 * (o + imm) > s.bs.blen then .ok (s.raise (.bsstore bd rs1 imm) .index o)
    else (readMany (fun k => (s.peek (8 * k) 8).map (BitVec.ofNat 8)) o imm).map (s.produce bd)

/-! ## Segment encoding -/

/-- The first character of buffer ba from index k on that the mode cannot encode (R352: "first bad
character wins"), read in order and no further than it (log entry 7). -/
def State.badChar (s : State) (mode : Mode) (ba : BReg) : Nat → Nat → Except Fault (Option (Nat × Byte))
  | _, 0 => .ok none
  | k, n + 1 =>
    (s.byteB ba k).bind fun b =>
      match charValue mode b with
      | none => .ok (some (k, b))
      | some _ => s.badChar mode ba (k + 1) n

/-- The character check of R352; byte mode has none. -/
def State.checkChars (s : State) (mode : Mode) (ba : BReg) : Except Fault (Option (Nat × Byte)) :=
  match mode with
  | .byte => .ok none
  | .numeric => s.badChar .numeric ba 0 (s.lenB ba)
  | .alnum => s.badChar .alnum ba 0 (s.lenB ba)

/-- SEGENC (R352). -/
def execSegenc (ba : BReg) (imm : Nat) (s : State) : Res :=
  finish <| match modeOf imm with
    | none => .ok (s.raise (.segenc ba imm) .reservedField imm)
    | some mode =>
      let c := s.lenB ba
      let w := cci mode s.ver
      if c ≥ 2 ^ w then .ok (s.raise (.segenc ba imm) .countOverflow c)
      else (s.checkChars mode ba).bind fun bad =>
        match bad with
        | some (k, b) => .ok (s.raise (.segenc ba imm) .invalidChar (k <<< 8 ||| b.toNat))
        | none =>
          if s.bs.blen + (4 + w + pbits mode c) > Config.bitCap then
            .ok (s.raise (.segenc ba imm) .bitOverflow s.bs.blen)
          else (s.content ba).map fun chars =>
            s.appendBits (bitsOf imm 4 ++ bitsOf c w ++ encodePayload mode chars)

/-- The capacity in bits, 8·CAPB (R353). -/
def State.capBits (s : State) : Nat := 8 * s.capb

/-- BSTERM (R353). -/
def execBsterm (s : State) : Res :=
  finish <|
    if s.bs.blen > s.capBits then .ok (s.raise .bsterm .capacity s.bs.blen)
    else .ok (s.append 0 (min 4 (s.capBits - s.bs.blen)))

/-- The k-th pad byte (R354): 0xEC, 0x11, 0xEC, … -/
def padByte (k : Nat) : Byte := if k % 2 = 0 then 0xEC else 0x11

/-- The zero bits to the byte boundary, then pad bytes up to `cap` bits (R354). -/
def padding (blen cap : Nat) : List Bool :=
  let z := (8 - blen % 8) % 8
  List.replicate z false ++ bitsOfBytes ((List.range ((cap - (blen + z)) / 8)).map padByte)

/-- BSPAD (R354). -/
def execBspad (s : State) : Res :=
  finish <|
    if s.bs.blen > s.capBits then .ok (s.raise .bspad .capacity s.bs.blen)
    else .ok (s.appendBits (padding s.bs.blen s.capBits))

/-! ## Segment decoding -/

/-- `out:` of R359: SEGRES, SEGEXP, SEGAVL whole, the fields a path does not set being 0, and
`X[rd] <- zext_32(st)`. -/
def State.segOut (s : State) (rd : XReg) (st : SegStatus) (mode : Nat) (stage : SegStage)
    (cnt exp avl : Nat) : State :=
  { s.setXNat rd st.toNat with bs := { s.bs with
      segst := st, segmode := mode, segstage := stage, segcnt := cnt, segexp := exp, segavl := avl } }

/-- A decoded segment of `total` bits starting at RPOS (R359, SEGMENT_OK): the characters, the cursor and
DATABITS, which stops at 0xFFFF (log entry 11). -/
def State.segAdvance (s : State) (bd : BReg) (chars : List Byte) (total : Nat) : State :=
  { s.produce bd chars with bs := { s.bs with
      rpos := s.bs.rpos + total
      databits := min 0xFFFF (s.bs.databits + total) } }

/-- The payload stage of R359: mode `m` (indicator value `mode`), count `c` in `w` bits read. -/
def State.segPayload (s : State) (rd : XReg) (bd : BReg) (mode : Nat) (m : Mode) (w c : Nat) :
    Except Fault State :=
  let q := s.bs.rpos + 4 + w
  let n := pbits m c
  if s.avail q < n then .ok (s.segOut rd .insufficient mode .payload c n (s.avail q))
  else if c > Config.bufCap then .ok (s.segOut rd .overflow mode .noStage c 0 0)
  else (s.decodeGroups m (groups m c) q).map fun chars? =>
    match chars? with
    | none => s.segOut rd .invalidValue mode .noStage c 0 0
    | some chars => (s.segAdvance bd chars (4 + w + n)).segOut rd .segmentOk mode .noStage c 0 0

/-- The count stage of R359. -/
def State.segCount (s : State) (rd : XReg) (bd : BReg) (mode : Nat) (m : Mode) : Except Fault State :=
  let p := s.bs.rpos
  let w := cci m s.ver
  if s.avail (p + 4) < w then .ok (s.segOut rd .insufficient mode .count 0 w (s.avail (p + 4)))
  else (s.peek (p + 4) w).bind fun c => s.segPayload rd bd mode m w c

/-- SEGDEC's effect (R359). -/
def State.segDecode (s : State) (rd : XReg) (bd : BReg) : Except Fault State :=
  let p := s.bs.rpos
  if s.avail p < 4 then .ok (s.segOut rd .exhausted 0 .noStage 0 4 (s.avail p))
  else (s.peek p 4).bind fun mode =>
    if mode = 0 then
      .ok ({ s with bs := { s.bs with rpos := p + 4, termseen := true } }.segOut
        rd .terminator 0 .noStage 0 0 0)
    else
      match modeOf mode with
      | none => .ok (s.segOut rd .unsupportedMode mode .noStage 0 0 0)
      | some m => s.segCount rd bd mode m

/-- SEGDEC (R359). -/
def execSegdec (rd : XReg) (bd : BReg) (s : State) : Res := finish (s.segDecode rd bd)

/-! ## Decode confidence -/

/-- `matches` and `total` of R361. -/
def State.padCheck (s : State) : Except Fault (Nat × Nat) :=
  let start := 8 * ((s.bs.rpos + 7) / 8)
  let stop := min s.bs.blen s.capBits
  let total := if stop > start then (stop - start) / 8 else 0
  (readMany (fun k => s.peek (start + 8 * k) 8) 0 total).map fun bytes =>
    ((bytes.zipIdx.filter (fun p => p.1 == (padByte p.2).toNat)).length, total)

/-- BSPADCHK (R361). -/
def execBspadchk (rd : XReg) (s : State) : Res :=
  finish (s.padCheck.map fun p => s.setXNat rd (p.1 <<< 16 ||| p.2))

/-- The raw components of the decode confidence (R362): bits consumed by segments; both numbers the rule lets
them be measured against, 8·CAPB and BLEN, so that either choice is BS_CONFIDENCE's own (log entry 12);
whether a terminator was read; and the pad bytes that conform among those there are. -/
structure ConfidenceParts where
  databits : Nat
  capBits : Nat
  blen : Nat
  termseen : Bool
  padMatches : Nat
  padTotal : Nat
  deriving DecidableEq, Repr

/-- The components of a state (R362). -/
def State.confidenceParts (s : State) : Except Fault ConfidenceParts :=
  s.padCheck.map fun p => ⟨s.bs.databits, s.capBits, s.bs.blen, s.bs.termseen, p.1, p.2⟩

/-- The decode confidence under a choice of the open parameter BS_CONFIDENCE (R8, R362; log entry 12). No
command computes it. -/
def State.confidence (bsConfidence : ConfidenceParts → Rat) (s : State) : Except Fault Rat :=
  s.confidenceParts.map bsConfidence

end Sys2Proof.Machine
end

