-- ==== Sys2Proof/Machine/Control.lean ====
section
/-! DEFINITION. The control commands (40_control.md, R150 to R159). -/

namespace Sys2Proof.Machine

/-- NOP (R150). -/
def execNop (s : State) : Res := finish (.ok s)

/-- LDI (R151). -/
def execLdi (rd : XReg) (imm : Nat) (s : State) : Res := finish (.ok (s.setXNat rd imm))

/-- MOV (R152). -/
def execMov (rd rs1 : XReg) (s : State) : Res := finish (.ok (s.setX rd (s.getX rs1)))

/-- XOR (R153), all 32 bits. -/
def execXor (rd rs1 rs2 : XReg) (s : State) : Res :=
  finish (.ok (s.setX rd (s.getX rs1 ^^^ s.getX rs2)))

/-- SETLEN (R154). -/
def execSetlen (bd : BReg) (imm : Nat) (s : State) : Res :=
  finish <|
    if imm > Config.bufCap then .ok (s.raise (.setlen bd imm) .length imm)
    else .ok (s.setLen bd imm)

/-- BGET (R155). -/
def execBget (rd : XReg) (ba : BReg) (rs1 : XReg) (s : State) : Res :=
  finish <|
    let i := s.natX rs1
    if i ≥ s.lenB ba then .ok (s.raise (.bget rd ba rs1) .index i)
    else (s.byteB ba i).map (s.setXByte rd)

/-- BPUT (R156): the length grows to hold the byte. -/
def execBput (bd : BReg) (rs1 rs2 : XReg) (s : State) : Res :=
  finish <|
    let i := s.natX rs1
    if i ≥ Config.bufCap then .ok (s.raise (.bput bd rs1 rs2) .index i)
    else .ok ((s.writeB bd i [s.byteX rs2]).setLen bd (max (s.lenB bd) (i + 1)))

/-- BCOPY (R157). -/
def execBcopy (bd ba : BReg) (s : State) : Res :=
  finish ((s.content ba).map (s.produce bd))

/-- BCAT (R158). -/
def execBcat (bd ba bb : BReg) (s : State) : Res :=
  finish <|
    let n := s.lenB ba + s.lenB bb
    if n > Config.bufCap then .ok (s.raise (.bcat bd ba bb) .length n)
    else (s.contents ba bb).map (fun p => s.produce bd (p.1 ++ p.2))

/-- AGGCLR (R159). -/
def execAggclr (s : State) : Res :=
  finish (.ok { s with rs := { s.rs with aggn := 0, aggv := 0, allok := true } })

end Sys2Proof.Machine
end

