-- ==== Sys2Proof/Machine/Gf.lean ====
section
/-! DEFINITION. The field GF(256): the EXP and LOG tables and the field functions (41_gf256.md, R180 to
R188), and the six scalar commands (R190 to R195). -/

namespace Sys2Proof.Machine

/-! ## Tables -/

/-- The content of EXP (R181) as one number, its sixteen rows one after another, index 0 in the top byte;
the byte of index 255, which does not exist, is 00. `Obligations.TablesAndFieldLaws` states that it is what R180
builds. -/
def expRom : Nat :=
  0x01020408102040801D3A74E8CD871326_4C982D5AB475EAC98F03060C183060C0_9D274E9C254A94356AD4B577EEC19F23_468C050A142850A05DBA69D2B96FDEA1_5FBE61C2992F5EBC65CA890F1E3C78F0_FDE7D3BB6BD6B17FFEE1DFA35BB671E2_D9AF4386112244880D1A3468D0BD67CE_811F3E7CF8EDC7933B76ECC5973366CC_85172E5CB86DDAA94F9E214284152A54_A84D9A2952A455AA49923972E4D5B773_E6D1BF63C6913F7EFCE5D7B37BF6F1FF_E3DBAB4B963162C495376EDCA557AE41_82193264C88D070E1C3870E0DDA753A6_51A259B279F2F9EFC39B2B56AC458A09_122448903D7AF4F5F7F3FBEBCB8B0B16_2C58B07DFAE9CF831B366CD8AD478E00

/-- The content of LOG (R182), sixteen rows one after another, index 0 in the top byte; LOG[0] does not
exist and its byte is 00. -/
def logRom : Nat :=
  0x0000011902321AC603DF33EE1B68C74B_0464E00E348DEF811CC169F8C8084C71_058A652FE1240F2135938EDAF0128245_1DB5C27D6A27F9B9C99A09784DE472A6_06BF8B6266DD30FDE29825B310912288_36D094CE8F96DBBDF1D2135C83384640_1E42B6A3C3487E6E6B3A2854FA85BA3D_CA5E9B9F0A15792B4ED4E5AC73F3A757_0770C0F78C80630D674ADEED31C5FE18_E3A5997726B8B47C114492D92320892E_373FD15B95BCCFCD908797B2DCFCBE61_F256D3AB142A5D9E843C3953476D41A2_1F2D43D8B77BA476C41749EC7F0C6FF6_6CA13B52299D55AAFB6086B1BBCC3E5A_CB595FB09CA9A0510BF516EB7A752CD7_4FAED5E9E6E7ADE874D6F4EAA85058AF

/-- `EXP[i]`, i in 0..254. -/
def expAt (i : Nat) : Byte := BitVec.ofNat 8 (expRom >>> (8 * (255 - i)))

/-- `LOG[x]`, x in 1..255. -/
def logAt (x : Byte) : Nat := (logRom >>> (8 * (255 - x.toNat))) % 256

/-! ## Field functions -/

/-- `gf_add(a, b)` (R188). -/
def gfAdd (a b : Byte) : Byte := a ^^^ b

/-- `gf_mul(a, b)` (R183). -/
def gfMul (a b : Byte) : Byte :=
  if a = 0 ∨ b = 0 then 0 else expAt ((logAt a + logAt b) % 255)

/-- `gf_div(a, b)` (R184); none is DivisionByZero, tested first. -/
def gfDiv (a b : Byte) : Option Byte :=
  if b = 0 then none
  else if a = 0 then some 0
  else some (expAt ((((logAt a : Int) - (logAt b : Int)) % 255).toNat))

/-- `gf_inv(a) = gf_div(1, a)` (R185). -/
def gfInv (a : Byte) : Option Byte := gfDiv 1 a

/-- `gf_exp(i)` for any integer (R186), with the mathematical remainder. -/
def gfExp (i : Int) : Byte := expAt (i % 255).toNat

/-- `gf_log(x)` (R187); none is LogOfZero. -/
def gfLog (x : Byte) : Option Nat := if x = 0 then none else some (logAt x)

/-! ## Commands -/

/-- GADD (R190). -/
def execGadd (rd rs1 rs2 : XReg) (s : State) : Res :=
  finish (.ok (s.setXByte rd (gfAdd (s.byteX rs1) (s.byteX rs2))))

/-- GMUL (R191). -/
def execGmul (rd rs1 rs2 : XReg) (s : State) : Res :=
  finish (.ok (s.setXByte rd (gfMul (s.byteX rs1) (s.byteX rs2))))

/-- GDIV (R192): a zero divisor raises DIV_BY_ZERO with the dividend byte. -/
def execGdiv (rd rs1 rs2 : XReg) (s : State) : Res :=
  finish <| match gfDiv (s.byteX rs1) (s.byteX rs2) with
    | none => .ok (s.raise (.gdiv rd rs1 rs2) .divByZero (s.byteX rs1).toNat)
    | some q => .ok (s.setXByte rd q)

/-- GINV (R193): the inverse of 0 raises DIV_BY_ZERO. -/
def execGinv (rd rs1 : XReg) (s : State) : Res :=
  finish <| match gfInv (s.byteX rs1) with
    | none => .ok (s.raise (.ginv rd rs1) .divByZero 0)
    | some q => .ok (s.setXByte rd q)

/-- GEXP (R194): all 32 bits, signed. -/
def execGexp (rd rs1 : XReg) (s : State) : Res :=
  finish (.ok (s.setXByte rd (gfExp (s.intX rs1))))

/-- GLOG (R195): the logarithm of 0 raises LOG_OF_ZERO. -/
def execGlog (rd rs1 : XReg) (s : State) : Res :=
  finish <| match gfLog (s.byteX rs1) with
    | none => .ok (s.raise (.glog rd rs1) .logOfZero 0)
    | some n => .ok (s.setXNat rd n)

end Sys2Proof.Machine
end

