-- ==== Sys2Proof/Machine/Poly.lean ====
section
/-! DEFINITION. Polynomials over GF(256) (42_polynomial.md): the functions of R211 and the commands PEVAL
and PMUL (R212, R213). -/

namespace Sys2Proof.Machine

/-- `peval_hf(p, x)`: Horner from the highest power (R211). -/
def pevalHf (p : List Byte) (x : Byte) : Byte := p.foldl (fun y c => gfAdd (gfMul y x) c) 0

/-- `peval_lf(q, x)`, a low-first list (R211). -/
def pevalLf (q : List Byte) (x : Byte) : Byte := pevalHf q.reverse x

/-- Coefficientwise sum, the shorter list continued by zeros. -/
def polyAdd : List Byte → List Byte → List Byte
  | [], q => q
  | p, [] => p
  | a :: p, b :: q => gfAdd a b :: polyAdd p q

/-- Every coefficient times `c`. -/
def polyScale (c : Byte) (p : List Byte) : List Byte := p.map (fun a => gfMul c a)

/-- `pmul(a, b)` (R211): the convolution, row by row of the double loop; |a| + |b| − 1 coefficients for
non-empty operands (log entry 15). -/
def pmul : List Byte → List Byte → List Byte
  | [], _ => []
  | [a], b => polyScale a b
  | a :: as, b => polyAdd (polyScale a b) (0 :: pmul as b)

/-- PEVAL (R212). -/
def execPeval (rd : XReg) (ba : BReg) (rs1 : XReg) (s : State) : Res :=
  finish ((s.content ba).map (fun p => s.setXByte rd (pevalHf p (s.byteX rs1))))

/-- PMUL (R213). -/
def execPmul (bd ba bb : BReg) (s : State) : Res :=
  finish <|
    let na := s.lenB ba
    let nb := s.lenB bb
    if na = 0 ∨ nb = 0 then .ok (s.raise (.pmul bd ba bb) .length 0)
    else if na + nb - 1 > Config.bufCap then .ok (s.raise (.pmul bd ba bb) .length (na + nb - 1))
    else (s.contents ba bb).map (fun p => s.produce bd (pmul p.1 p.2))

end Sys2Proof.Machine
end

