-- ==== Sys2Proof/Machine/RsEnc.lean ====
section
/-! DEFINITION. The Reed-Solomon encoder (43_rs_encoder.md): the functions of R230 and R231 and the commands
RSGEN and RSENC (R232, R233). -/

namespace Sys2Proof.Machine

/-- `rs_gen(n)` (R230), high-first. -/
def rsGen (n : Nat) : List Byte :=
  (List.range n).foldl (fun g i => pmul g [1, gfExp i]) [1]

/-- `k` steps of the long division of R231 on the tail of `m` that is still in play: the leading
coefficient is cleared (g[0] = 1) and the rest of the generator, scaled by it, is added (log entry 15). -/
def rsDivide (g : List Byte) : Nat → List Byte → List Byte
  | k + 1, coef :: m =>
    rsDivide g k (if coef = 0 then m else polyAdd m (polyScale coef g.tail))
  | _, m => m

/-- `rs_rem(d, n)` (R231): the remainder of d(x)·x^n by rs_gen(n), n codewords. -/
def rsRem (d : List Byte) (n : Nat) : List Byte :=
  rsDivide (rsGen n) d.length (d ++ List.replicate n 0)

/-- RSGEN (R232). -/
def execRsgen (bd : BReg) (imm : Nat) (s : State) : Res :=
  finish <|
    if imm > 255 then .ok (s.raise (.rsgen bd imm) .length imm)
    else .ok (s.produce bd (rsGen imm))

/-- RSENC (R233). -/
def execRsenc (bd ba : BReg) (imm : Nat) (s : State) : Res :=
  finish <|
    let k := s.lenB ba
    if imm > 255 then .ok (s.raise (.rsenc bd ba imm) .length imm)
    else if k + imm > Config.rsMax then .ok (s.raise (.rsenc bd ba imm) .length (k + imm))
    else (s.content ba).map (fun d => s.produce bd (rsRem d imm))

end Sys2Proof.Machine
end

