-- ==== Sys2Proof/Machine/RsDec.lean ====
section
/-! DEFINITION. The Reed-Solomon decoder (44_rs_decoder.md): the functions of R252 to R257, the five steps as
operations on the state (R259 to R264), and the commands RSSYN, RSBM, RSCHIEN, RSFORNEY, RSAPPLY and RSDEC,
the last being the five steps in a chain (R265). -/

namespace Sys2Proof.Machine

/-! ## Functions -/

/-- The syndromes S_0..S_{ec−1} of a block (R252). -/
def syndromes (r : List Byte) (ec : Nat) : List Byte :=
  (List.range ec).map (fun i => pevalHf r (gfExp i))

/-- The variables of Berlekamp-Massey (R253), lists low-first. -/
structure BmVars where
  c : List Byte
  bp : List Byte
  l : Nat
  m : Nat
  b : Byte
  deriving DecidableEq, Repr

/-- The discrepancy d of iteration n (R253); a coefficient past the end of C is 0. -/
def bmDiscrepancy (syn : List Byte) (v : BmVars) (n : Nat) : Byte :=
  (List.range v.l).foldl
    (fun d j => gfAdd d (gfMul (v.c.getD (j + 1) 0) (syn.getD (n - (j + 1)) 0))) (syn.getD n 0)

/-- Iteration n of Berlekamp-Massey (R253). b is never 0, so the division always has a value. -/
def bmIterate (syn : List Byte) (v : BmVars) (n : Nat) : BmVars :=
  let d := bmDiscrepancy syn v n
  if d = 0 then { v with m := v.m + 1 }
  else
    let q := (gfDiv d v.b).getD 0
    let c' := polyAdd v.c (polyScale q (List.replicate v.m 0 ++ v.bp))
    if 2 * v.l ≤ n then { c := c', bp := v.c, l := n + 1 - v.l, m := 1, b := d }
    else { v with c := c', m := v.m + 1 }

/-- `bm(S)` (R253): Λ_0..Λ_L low-first, and L. -/
def bm (syn : List Byte) : List Byte × Nat :=
  let v := (List.range syn.length).foldl (bmIterate syn) ⟨[1], [1], 0, 1, 1⟩
  ((List.range (v.l + 1)).map (fun k => v.c.getD k 0), v.l)

/-- `chien(Λ, N)` (R254): the array indices N−1−i with Λ(α^(−i)) = 0, in increasing i. -/
def chien (lam : List Byte) (n : Nat) : List Nat :=
  ((List.range n).filter (fun (i : Nat) => pevalLf lam (gfExp (-(i : Int))) == 0)).map
    (fun i => n - 1 - i)

/-- Λ'(x) = Σ_{k odd} Λ_k x^(k−1), low-first (R256). -/
def derivative (lam : List Byte) : List Byte :=
  (List.range (lam.length - 1)).map (fun k => if k % 2 = 0 then lam.getD (k + 1) 0 else 0)

/-- Ω(x) = S(x)·Λ(x) mod x^(2t), low-first (R256). -/
def evaluator (syn lam : List Byte) (t : Nat) : List Byte := (pmul syn lam).take (2 * t)

/-- The magnitude at position p of a block of N codewords (R256); none is a zero denominator. -/
def magnitude (omega lam' : List Byte) (n p : Nat) : Option Byte :=
  let e : Int := (n : Int) - 1 - (p : Int)
  let xinv := gfExp (-e)
  (gfDiv (pevalLf omega xinv) (pevalLf lam' xinv)).map (fun q => gfMul (gfExp e) q)

/-- The magnitudes in the order of P, up to the first zero denominator (R256), and whether there was one. -/
def magnitudes (omega lam' : List Byte) (n : Nat) : List Nat → List Byte × Bool
  | [] => ([], false)
  | p :: ps =>
    match magnitude omega lam' n p with
    | none => ([], true)
    | some m =>
      let (ms, z) := magnitudes omega lam' n ps
      (m :: ms, z)

/-- The trial correction of R257: XOR M[k] at index P[k]. -/
def correct (r : List Byte) : List (Nat × Byte) → List Byte
  | [] => r
  | (p, m) :: pms => correct (r.modify p (fun c => gfAdd c m)) pms

/-! ## The five steps -/

/-- RSSYN's effect on the unit (R259, R260), for the syndromes of a block of N codewords. -/
def RsUnit.synStep (u : RsUnit) (n ec : Nat) (syn : List Byte) : RsUnit :=
  let u : RsUnit := { u with
    nmsg := n, nsyn := ec, ldeg := 0, npos := 0
    reason := .noReason, detected := 0, maxcorr := ec / 2, corrected := 0
    syn := u.syn.writeBlock 0 syn }
  if syn.all (· == 0) then { u.aggregate true with rsst := .noError }
  else { u with rsst := .syndromeReady }

/-- RSSYN after its checks (R260). -/
def State.rsSyn (s : State) (ba : BReg) (ec : Nat) : Except Fault State :=
  (s.content ba).map (fun r => { s with rs := s.rs.synStep r.length ec (syndromes r ec) })

/-- RSBM after its check (R261). -/
def State.rsBm (s : State) : Except Fault State :=
  (readBlock .syn s.rs.syn 0 s.rs.nsyn).map fun syn =>
    { s with rs := { s.rs with
        lambda := s.rs.lambda.writeBlock 0 (bm syn).1
        ldeg := (bm syn).2
        rsst := .locatorReady } }

/-- RSCHIEN's effect on the unit (R259, R262), with the capacity check of R255. -/
def RsUnit.chienStep (u : RsUnit) (p : List Nat) : RsUnit :=
  let u : RsUnit := { u with
    pos := u.pos.writeBlock 0 (p.map (BitVec.ofNat 8))
    npos := p.length
    detected := p.length }
  if p.length > u.nsyn / 2 then { u.aggregate false with reason := .exceedsCapacity, rsst := .failed }
  else { u with rsst := .positionsReady }

/-- RSCHIEN after its check (R262). -/
def State.rsChien (s : State) : Except Fault State :=
  (readBlock .lambda s.rs.lambda 0 (s.rs.ldeg + 1)).map fun lam =>
    { s with rs := s.rs.chienStep (chien lam s.rs.nmsg) }

/-- RSFORNEY's effect on the unit (R259, R263): the magnitudes computed before a zero denominator are
written. -/
def RsUnit.forneyStep (u : RsUnit) (ms : List Byte × Bool) : RsUnit :=
  let u : RsUnit := { u with mag := u.mag.writeBlock 0 ms.1 }
  if ms.2 then { u.aggregate false with reason := .derivativeZero, rsst := .failed }
  else { u with rsst := .magnitudesReady }

/-- The magnitudes RSFORNEY computes from the unit's memories (R256, R263). -/
def RsUnit.forney (u : RsUnit) : Except Fault (List Byte × Bool) :=
  (readBlock .syn u.syn 0 u.nsyn).bind fun syn =>
    (readBlock .lambda u.lambda 0 (u.ldeg + 1)).bind fun lam =>
      (readBlock .pos u.pos 0 u.npos).map fun p =>
        magnitudes (evaluator syn lam (u.nsyn / 2)) (derivative lam) u.nmsg (p.map BitVec.toNat)

/-- RSFORNEY after its check (R263). -/
def State.rsForney (s : State) : Except Fault State :=
  s.rs.forney.map (fun ms => { s with rs := s.rs.forneyStep ms })

/-- The trial correction of the block in buffer ba by the unit's positions and magnitudes (R257). -/
def State.trial (s : State) (ba : BReg) : Except Fault (List Byte) :=
  (readBlock (.buf ba) (s.memB ba) 0 s.rs.nmsg).bind fun r =>
    (readBlock .pos s.rs.pos 0 s.rs.npos).bind fun p =>
      (readBlock .mag s.rs.mag 0 s.rs.npos).map fun m => correct r ((p.map BitVec.toNat).zip m)

/-- RSAPPLY after its checks (R257, R264): the corrected block is written only when every residual
syndrome is 0. -/
def State.rsApply (s : State) (ba : BReg) : Except Fault State :=
  (s.trial ba).map fun c =>
    if (syndromes c s.rs.nsyn).all (· == 0) then
      { s.writeB ba 0 c with
        rs := { s.rs.aggregate true with corrected := s.rs.npos, rsst := .corrected } }
    else { s with rs := { s.rs.aggregate false with reason := .verifyFailed, rsst := .failed } }

/-! ## Commands -/

/-- The checks of RSSYN and RSDEC (R260, R265): the value LENGTH reports, or none. -/
def State.blockLengthError (s : State) (ba : BReg) (ec : Nat) : Option Nat :=
  let n := s.lenB ba
  if n = 0 ∨ n > Config.rsMax then some n
  else if ec = 0 ∨ ec > n then some ec
  else none

/-- RSSYN (R260). -/
def execRssyn (ba : BReg) (imm : Nat) (s : State) : Res :=
  finish <| match s.blockLengthError ba imm with
    | some v => .ok (s.raise (.rssyn ba imm) .length v)
    | none => s.rsSyn ba imm

/-- RSBM (R261). -/
def execRsbm (s : State) : Res :=
  finish <|
    if s.rs.rsst ≠ .syndromeReady then .ok (s.raise .rsbm .sequence s.rs.rsst.toNat)
    else s.rsBm

/-- RSCHIEN (R262). -/
def execRschien (s : State) : Res :=
  finish <|
    if s.rs.rsst ≠ .locatorReady then .ok (s.raise .rschien .sequence s.rs.rsst.toNat)
    else s.rsChien

/-- RSFORNEY (R263). -/
def execRsforney (s : State) : Res :=
  finish <|
    if s.rs.rsst ≠ .positionsReady then .ok (s.raise .rsforney .sequence s.rs.rsst.toNat)
    else s.rsForney

/-- RSAPPLY (R264). -/
def execRsapply (ba : BReg) (s : State) : Res :=
  finish <|
    if s.rs.rsst ≠ .magnitudesReady then .ok (s.raise (.rsapply ba) .sequence s.rs.rsst.toNat)
    else if s.lenB ba ≠ s.rs.nmsg then .ok (s.raise (.rsapply ba) .length (s.lenB ba))
    else s.rsApply ba

/-- The next step of the chain, unless the block is already in the terminal state `stop` (R265). -/
def unlessIn (stop : RsState) (next : State → Except Fault State) (s : State) : Except Fault State :=
  if s.rs.rsst = stop then .ok s else next s

/-- The chain of R265. -/
def State.rsDecode (s : State) (ba : BReg) (ec : Nat) : Except Fault State :=
  (s.rsSyn ba ec).bind <| unlessIn .noError fun s =>
    s.rsBm.bind fun s =>
      s.rsChien.bind <| unlessIn .failed fun s =>
        s.rsForney.bind <| unlessIn .failed fun s => s.rsApply ba

/-- RSDEC (R265). -/
def execRsdec (ba : BReg) (imm : Nat) (s : State) : Res :=
  finish <| match s.blockLengthError ba imm with
    | some v => .ok (s.raise (.rsdec ba imm) .length v)
    | none => s.rsDecode ba imm

end Sys2Proof.Machine
end

