-- ==== Sys2Proof/Machine/Zigzag.lean ====
section
/-! DEFINITION. The zigzag unit (47_zigzag.md): the traversal of R402 and the commands ZZGEN, ZZPLACE and
ZZREAD (R403 to R405). -/

namespace Sys2Proof.Machine

/-- The index of cell (r, c) in ROLE and MOD: row after row of 177 (R54, R55). -/
def cellIndex (r c : Nat) : Nat := Config.maxSize * r + c

/-- The cells of the column pair (col, col − 1), bottom-to-top or top-to-bottom, the right column first
(R402). -/
def pairCells (size col : Nat) (up : Bool) : List (Nat × Nat) :=
  let rows := List.range size
  (if up then rows.reverse else rows).flatMap (fun r => [(r, col), (r, col - 1)])

/-- The loop of R402 from column `col` on; each turn moves at least two columns left, so `size` turns are
enough. -/
def visitFrom (size : Nat) : Nat → Nat → Bool → List (Nat × Nat)
  | 0, _, _ => []
  | turns + 1, col, up =>
    if col = 0 then []
    else
      let col := if col = 6 then col - 1 else col
      pairCells size col up ++ visitFrom size turns (col - 2) (!up)

/-- Every cell the traversal visits, in order (R402). -/
def visited (size : Nat) : List (Nat × Nat) := visitFrom size size (size - 1) true

/-- The visited cells whose role is data (R402); only those cells' roles are read (R403). -/
def keepData (role : Memory Bool) : List (Nat × Nat) → Except Fault (List (Nat × Nat))
  | [] => .ok []
  | rc :: rcs =>
    (readCell .role role (cellIndex rc.1 rc.2)).bind fun isData =>
      (keepData role rcs).map fun l => if isData then rc :: l else l

/-- `zigzag(size, ROLE)` (R402). -/
def zigzag (size : Nat) (role : Memory Bool) : Except Fault (List (Nat × Nat)) :=
  keepData role (visited size)

/-- ZZGEN (R403). -/
def execZzgen (s : State) : Res :=
  finish <| (zigzag (Config.size s.ver) s.zig.role).map fun l =>
    { s with zig := { s.zig with
        zz := s.zig.zz.writeBlock 0 (l.map fun rc => (BitVec.ofNat 8 rc.1, BitVec.ofNat 8 rc.2))
        zzcnt := l.length } }

/-- The cell index of a ZZ entry. -/
def entryIndex (e : Byte × Byte) : Nat := cellIndex e.1.toNat e.2.toNat

/-- The first ZZCNT entries of ZZ, as cell indexes. -/
def State.zzCells (s : State) : Except Fault (List Nat) :=
  (readBlock .zz s.zig.zz 0 s.zig.zzcnt).map (fun es => es.map entryIndex)

/-- Write one cell after another. -/
def writeCells (m : Memory Bool) : List (Nat × Bool) → Memory Bool
  | [] => m
  | (k, v) :: kvs => writeCells (m.write k v) kvs

/-- ZZPLACE (R404): stream bits to the cells in order, 0 past the end of the stream. -/
def execZzplace (s : State) : Res :=
  finish <| s.zzCells.bind fun cells =>
    (readBlock .bits s.bs.bits 0 (min s.bs.blen s.zig.zzcnt)).map fun bs =>
      let vs := bs ++ List.replicate (s.zig.zzcnt - s.bs.blen) false
      { s with zig := { s.zig with mod := writeCells s.zig.mod (cells.zip vs) } }

/-- The modules of a list of cells, in order. -/
def readModules (m : Memory Bool) : List Nat → Except Fault (List Bool)
  | [] => .ok []
  | k :: ks => (readCell .mod m k).bind fun v => (readModules m ks).map fun vs => v :: vs

/-- ZZREAD (R405): the modules in order become the stream. -/
def execZzread (s : State) : Res :=
  finish <| s.zzCells.bind fun cells =>
    (readModules s.zig.mod cells).map fun bs =>
      { s with bs := { s.bs with
          bits := s.bs.bits.writeBlock 0 bs
          blen := s.zig.zzcnt
          rpos := 0
          termseen := false
          databits := 0 } }

end Sys2Proof.Machine
end

