-- ==== Sys2Proof/Machine/Dispatch.lean ====
section
/-! DEFINITION. The meaning of every command, one arm a constructor. `exec i s` is the whole of command `i`
after its acceptance and decoding: its checks, its effects or its exception, and the completion
effects (R12, R430, R431, R436). -/

namespace Sys2Proof.Machine

def exec (i : Instr) (s : State) : Host.Outcome State Fault Refusal :=
  match i with
  | .nop => Sys2Proof.Machine.execNop s
  | .ldi rd imm => Sys2Proof.Machine.execLdi rd imm s
  | .mov rd rs1 => Sys2Proof.Machine.execMov rd rs1 s
  | .xor rd rs1 rs2 => Sys2Proof.Machine.execXor rd rs1 rs2 s
  | .setlen bd imm => Sys2Proof.Machine.execSetlen bd imm s
  | .bget rd ba rs1 => Sys2Proof.Machine.execBget rd ba rs1 s
  | .bput bd rs1 rs2 => Sys2Proof.Machine.execBput bd rs1 rs2 s
  | .bcopy bd ba => Sys2Proof.Machine.execBcopy bd ba s
  | .bcat bd ba bb => Sys2Proof.Machine.execBcat bd ba bb s
  | .aggclr => Sys2Proof.Machine.execAggclr s
  | .gadd rd rs1 rs2 => Sys2Proof.Machine.execGadd rd rs1 rs2 s
  | .gmul rd rs1 rs2 => Sys2Proof.Machine.execGmul rd rs1 rs2 s
  | .gdiv rd rs1 rs2 => Sys2Proof.Machine.execGdiv rd rs1 rs2 s
  | .ginv rd rs1 => Sys2Proof.Machine.execGinv rd rs1 s
  | .gexp rd rs1 => Sys2Proof.Machine.execGexp rd rs1 s
  | .glog rd rs1 => Sys2Proof.Machine.execGlog rd rs1 s
  | .peval rd ba rs1 => Sys2Proof.Machine.execPeval rd ba rs1 s
  | .pmul bd ba bb => Sys2Proof.Machine.execPmul bd ba bb s
  | .rsgen bd imm => Sys2Proof.Machine.execRsgen bd imm s
  | .rsenc bd ba imm => Sys2Proof.Machine.execRsenc bd ba imm s
  | .rssyn ba imm => Sys2Proof.Machine.execRssyn ba imm s
  | .rsbm => Sys2Proof.Machine.execRsbm s
  | .rschien => Sys2Proof.Machine.execRschien s
  | .rsforney => Sys2Proof.Machine.execRsforney s
  | .rsapply ba => Sys2Proof.Machine.execRsapply ba s
  | .rsdec ba imm => Sys2Proof.Machine.execRsdec ba imm s
  | .bchfe rd rs1 => Sys2Proof.Machine.execBchfe rd rs1 s
  | .bchfd rd rs1 => Sys2Proof.Machine.execBchfd rd rs1 s
  | .bchve rd rs1 => Sys2Proof.Machine.execBchve rd rs1 s
  | .bchvd rd rs1 => Sys2Proof.Machine.execBchvd rd rs1 s
  | .fmtsel rd rs1 rs2 => Sys2Proof.Machine.execFmtsel rd rs1 rs2 s
  | .versel rd rs1 rs2 => Sys2Proof.Machine.execVersel rd rs1 rs2 s
  | .bsclr => Sys2Proof.Machine.execBsclr s
  | .bsput rs1 imm => Sys2Proof.Machine.execBsput rs1 imm s
  | .bsget rd imm => Sys2Proof.Machine.execBsget rd imm s
  | .bsload ba => Sys2Proof.Machine.execBsload ba s
  | .bsstore bd rs1 imm => Sys2Proof.Machine.execBsstore bd rs1 imm s
  | .segenc ba imm => Sys2Proof.Machine.execSegenc ba imm s
  | .bsterm => Sys2Proof.Machine.execBsterm s
  | .bspad => Sys2Proof.Machine.execBspad s
  | .segdec rd bd => Sys2Proof.Machine.execSegdec rd bd s
  | .bspadchk rd => Sys2Proof.Machine.execBspadchk rd s
  | .zzgen => Sys2Proof.Machine.execZzgen s
  | .zzplace => Sys2Proof.Machine.execZzplace s
  | .zzread => Sys2Proof.Machine.execZzread s

end Sys2Proof.Machine
end

