-- ==== Sys2Proof/Machine/Command.lean ====
section
/-! DEFINITION. Running a command word (R124, R430), the engine beside the host (R439, R474, R475, R478, R480)
and what each host action does (R57, R130, R470). -/

namespace Sys2Proof.Machine

/-- The whole of an accepted command word: decoding, which may raise (R124, R434), then the command. -/
def runWord (w : Word) (s : State) : Res :=
  match decode w with
  | .error e => finish (.ok (s.raiseDecode w e))
  | .ok i => exec i s

/-- The overrun of R439: the word is dropped and reported. -/
def State.overrun (s : State) (w : Word) : State := s.report .busyOverrun w 0

/-! ## The data hazard (R475) -/

/-- What a command uses of the state the host can write, with its extent: whole registers, a run of cells of
a buffer or of the stream, the roles of a matrix of some size, the words of MOD that hold listed cells. -/
inductive Part where
  | x (r : XReg)
  | len (b : BReg)
  | ver
  | capb
  | blen
  | rpos
  | bytes (b : BReg) (lo n : Nat)
  | bits (lo n : Nat)
  | roles (size : Nat)
  | modules (words : List (Nat × Nat))
  deriving DecidableEq, Repr

/-- The cells lo..lo+n−1 and lo'..lo'+n'−1 have one in common. -/
def runsMeet (lo n lo' n' : Nat) : Bool := decide (max lo lo' < min (lo + n) (lo' + n'))

/-- A part has something in the word a target is: R475 and U2 go by the word. A target of no part is one
whose write changes nothing (read-only targets, R88) or nothing a command uses (IRQEN; log entry 16). -/
def Part.isIn : Part → Target → Bool
  | .x r, .x r' => r == r'
  | .len b, .len b' => b == b'
  | .ver, .ver => true
  | .capb, .capb => true
  | .blen, .blen => true
  | .rpos, .rpos => true
  | .bytes b lo n, .bufWord b' q => b == b' && runsMeet lo n (4 * q) 4
  | .bits lo n, .bitsWord q => runsMeet lo n (32 * q) 32
  | .roles size, .roleWord row j => decide (row < size) && decide (32 * j < size)
  | .modules ws, .modWord row j => ws.contains (row, j)
  | _, _ => false

/-- The words of MOD that hold a cell of ZZ, as (row, word in the row) (R93, R404, R405). -/
def State.listedModWords (s : State) : List (Nat × Nat) :=
  (s.zig.zz.filter (fun c => decide (c.1 < s.zig.zzcnt))).map fun c => (c.2.1.toNat, c.2.2.toNat / 32)

/-- The stream bits the groups `gs` from position q on are read from, up to the first that is out of range,
and whether none is (R356 to R359; log entry 7). -/
def groupsRead (stream : Memory Bool) (mode : Mode) : List Nat → Nat → Nat × Bool
  | [], _ => (0, true)
  | g :: gs, q =>
    let n := groupBits mode g
    match ((readBlock .bits stream q n).map natOfBits).toOption with
    | none => (n, false)
    | some v =>
      if v ≥ radix mode ^ g then (n, false)
      else
        let rest := groupsRead stream mode gs (q + n)
        (n + rest.1, rest.2)

/-- What SEGDEC uses beside its operands and the cursor: whether it reads VER, how many stream bits it reads
from the cursor on, and how many characters it writes. -/
structure SegdecUse where
  readsVer : Bool
  bits : Nat
  chars : Nat
  deriving DecidableEq, Repr

/-- What SEGDEC uses, along the path R359 takes in this state. -/
def State.segdecUse (s : State) : SegdecUse :=
  let p := s.bs.rpos
  if s.avail p < 4 then ⟨false, 0, 0⟩
  else
    match (s.peek p 4).toOption.bind modeOf with
    | none => ⟨false, 4, 0⟩
    | some m =>
      let w := cci m s.ver
      if s.avail (p + 4) < w then ⟨true, 4, 0⟩
      else
        match (s.peek (p + 4) w).toOption with
        | none => ⟨true, 4 + w, 0⟩
        | some c =>
          if s.avail (p + 4 + w) < pbits m c ∨ c > Config.bufCap then ⟨true, 4 + w, 0⟩
          else
            let payload := groupsRead s.bs.bits m (groups m c) (p + 4 + w)
            ⟨true, 4 + w + payload.1, if payload.2 then c else 0⟩

/-- A part that is in use only on some paths. -/
def Part.when (reached : Prop) [Decidable reached] (p : Part) : List Part := if reached then [p] else []

/-- The parts a command reads or writes in a state (R475), a buffer or stream by the cells: what its operands and
its *Writes* line name, whether or not its checks pass (log entry 5); and what only its checks and its
pseudocode read, where the path it takes comes to that (R430: a command whose check fails performs no
pseudocode; R340: no command reads a bit at or past BLEN). STATUS, which every command writes (R436), is
added in `inUse`. -/
def partsOf (i : Instr) (s : State) : List Part :=
  let content (b : BReg) : Part := .bytes b 0 (s.lenB b)
  let append (n : Nat) : List Part := [.blen, .bits s.bs.blen n]
  match i with
  | .nop => []
  | .ldi rd _ => [.x rd]
  | .mov rd rs1 => [.x rd, .x rs1]
  | .xor rd rs1 rs2 => [.x rd, .x rs1, .x rs2]
  | .setlen bd _ => [.len bd]
  | .bget rd ba rs1 =>
    [.x rd, .x rs1, .len ba] ++ (Part.bytes ba (s.natX rs1) 1).when (s.natX rs1 < s.lenB ba)
  | .bput bd rs1 rs2 => [.x rs1, .x rs2, .len bd, .bytes bd (s.natX rs1) 1]
  | .bcopy bd ba => [.len bd, .bytes bd 0 (s.lenB ba), .len ba, content ba]
  | .bcat bd ba bb =>
    [.len bd, .bytes bd 0 (s.lenB ba + s.lenB bb), .len ba, content ba, .len bb, content bb]
  | .aggclr => []
  | .gadd rd rs1 rs2 => [.x rd, .x rs1, .x rs2]
  | .gmul rd rs1 rs2 => [.x rd, .x rs1, .x rs2]
  | .gdiv rd rs1 rs2 => [.x rd, .x rs1, .x rs2]
  | .ginv rd rs1 => [.x rd, .x rs1]
  | .gexp rd rs1 => [.x rd, .x rs1]
  | .glog rd rs1 => [.x rd, .x rs1]
  | .peval rd ba rs1 => [.x rd, .x rs1, .len ba, content ba]
  | .pmul bd ba bb =>
    [.len bd, .bytes bd 0 (s.lenB ba + s.lenB bb - 1), .len ba, content ba, .len bb, content bb]
  | .rsgen bd n => [.len bd, .bytes bd 0 (n + 1)]
  | .rsenc bd ba n => [.len bd, .bytes bd 0 n, .len ba, content ba]
  | .rssyn ba _ => [.len ba, content ba]
  | .rsbm => []
  | .rschien => []
  | .rsforney => []
  | .rsapply ba => [.len ba, content ba]
  | .rsdec ba _ => [.len ba, content ba]
  | .bchfe rd rs1 => [.x rd, .x rs1]
  | .bchfd rd rs1 => [.x rd, .x rs1]
  | .bchve rd rs1 => [.x rd, .x rs1]
  | .bchvd rd rs1 => [.x rd, .x rs1]
  | .fmtsel rd rs1 rs2 => [.x rd, .x rs1, .x rs2]
  | .versel rd rs1 rs2 => [.x rd, .x rs1, .x rs2]
  | .bsclr => [.blen, .rpos]
  | .bsput rs1 n => .x rs1 :: append n
  | .bsget rd n =>
    [.x rd, .rpos] ++ Part.blen.when (1 ≤ n ∧ n ≤ 32)
      ++ (Part.bits s.bs.rpos n).when (1 ≤ n ∧ n ≤ 32 ∧ n ≤ s.avail s.bs.rpos)
  | .bsload ba => .len ba :: content ba :: append (8 * s.lenB ba)
  | .bsstore bd rs1 n =>
    [.x rs1, .len bd, .bytes bd 0 n] ++ Part.blen.when (n ≤ Config.bufCap)
      ++ (Part.bits (8 * s.natX rs1) (8 * n)).when (n ≤ Config.bufCap ∧ 8 * (s.natX rs1 + n) ≤ s.bs.blen)
  | .segenc ba mode =>
    .len ba :: content ba ::
      match modeOf mode with
      | none => [.blen]
      | some m => .ver :: append (segmentBits m s.ver (s.lenB ba))
  | .bsterm => .capb :: append (min 4 (s.capBits - s.bs.blen))
  | .bspad => .capb :: append (s.capBits - s.bs.blen)
  | .segdec rd bd =>
    let use := s.segdecUse
    [.x rd, .len bd, .bytes bd 0 use.chars, .blen, .rpos, .bits s.bs.rpos use.bits]
      ++ Part.ver.when (use.readsVer = true)
  | .bspadchk rd =>
    let start := 8 * ((s.bs.rpos + 7) / 8)
    [.x rd, .capb, .blen, .rpos, .bits start (8 * ((min s.bs.blen s.capBits - start) / 8))]
  | .zzgen => [.ver, .roles (Config.size s.ver)]
  | .zzplace =>
    [.bits 0 (min s.bs.blen s.zig.zzcnt), .modules s.listedModWords] ++ Part.blen.when (0 < s.zig.zzcnt)
  | .zzread => [.blen, .rpos, .bits 0 s.zig.zzcnt, .modules s.listedModWords]

/-- The running word uses something of the target a host write would change (R475). A word that decodes to
no command uses only the status. -/
def State.inUse (s : State) (w : Word) (t : Target) : Bool :=
  t == .status ||
    match decode w with
    | .error _ => false
    | .ok i => (partsOf i s).any (·.isIn t)

/-! ## The engine beside the host -/

/-- After a host action (or while the host is idle) a running command comes one action nearer its
completion, and completes when none is left: all its effects at once (R96, R478, R480). -/
def tick (s : State) : Res :=
  match s.ctl.running with
  | none => .next s
  | some r =>
    if r.left ≤ 1 then runWord r.word s
    else .next { s with ctl := { s.ctl with running := some { r with left := r.left - 1 } } }

/-- The action list moves on (R57, R132). -/
def State.advance (s : State) : State := { s with host := { s.host with pc := s.host.pc + 1 } }

/-- The host's data register takes the word a read returned (log entry 9). -/
def State.setRdata (s : State) (v : Word) : State := { s with host := { s.host with rdata := v } }

/-- The next command takes the next latency (log entry 2). -/
def State.takeLatency (s : State) : State :=
  { s with host := { s.host with latencies := s.host.latencies.tail } }

/-- A free choice is made and numbered (log entry 4). -/
def State.takeChoice (s : State) : State :=
  { s with host := { s.host with freeCtr := s.host.freeCtr + 1 } }

/-! ## Host actions -/

/-- A write of CMD: accepted when BUSY = 0 (R430), complete at once with latency 0 (R480), else left
running; dropped and reported when BUSY = 1 (R439). -/
def State.writeCmd (s : State) (w : Word) : Res :=
  if s.busy then tick (s.overrun w)
  else
    let n := s.host.latencies.headD 0
    let s' := s.takeLatency.accept w n
    if n = 0 then runWord w s' else .next s'

/-- A host write (R83, R86, R88, R475). -/
def State.hostWrite (s : State) (addr : BitVec 17) (bytes : Nat) (v : Word) : Res :=
  match busTarget addr bytes with
  | .error f => .fault f
  | .ok .cmd => s.writeCmd v
  | .ok t =>
    match s.ctl.running with
    | none => .next (s.writeTarget t v)
    | some r => if s.inUse r.word t then .refused (.writeToStateInUse addr) else tick (s.writeTarget t v)

/-- A read made while the command `w` runs (R475): STATUS as it is; any other word as it is before the
command or after it, as a free choice says (log entry 4). -/
def State.busyRead (s : State) (w : Word) (t : Target) : Except Fault Word :=
  if t = .status then s.readTarget t
  else
    match runWord w s with
    | .next s' => if Config.busyReadSeesNew s.host.freeCtr then s'.readTarget t else s.readTarget t
    | .fault _ => s.readTarget t
    | .refused _ => s.readTarget t

/-- A host read (R83: it changes nothing in the core). -/
def State.hostRead (s : State) (addr : BitVec 17) (bytes : Nat) : Res :=
  match busTarget addr bytes with
  | .error f => .fault f
  | .ok t =>
    match s.ctl.running with
    | none =>
      match s.readTarget t with
      | .error f => .fault f
      | .ok v => .next (s.setRdata v)
    | some r =>
      match s.busyRead r.word t with
      | .error f => .fault f
      | .ok v => tick (s.setRdata v).takeChoice

/-- The host reads STATUS until BUSY = 0 (R130): a running command completes, and the last read returns
STATUS as it then is (log entry 9). -/
def State.hostWait (s : State) : Res :=
  match s.ctl.running with
  | none => .next (s.setRdata s.statusWord)
  | some r =>
    match runWord r.word s with
    | .next s' => .next (s'.setRdata s'.statusWord)
    | .fault f => .fault f
    | .refused e => .refused e

/-- The platform asserts and releases reset (R470): every item of state at its reset value, a running
command abandoned. The host's side is no state of the core and stays (log entry 13). -/
def State.platformReset (s : State) : State := { State.reset with host := s.host }

/-- One host action, the position already moved on (R57). -/
def State.perform (s : State) : HostAction → Res
  | .busWrite addr bytes v => s.hostWrite addr bytes v
  | .busRead addr bytes => s.hostRead addr bytes
  | .wait => s.hostWait
  | .platformReset => .next s.platformReset

/-- The address of CMD (R82). -/
def cmdAddr : BitVec 17 := 0x00004

/-- The host action that issues a command word (R130). -/
def issue (w : Word) : HostAction := .busWrite cmdAddr 4 w

end Sys2Proof.Machine
end

