-- ==== Sys2Proof/Machine/Step.lean ====
section
/-! DEFINITION. One step of the machine: the next host action of the command program (R57, R132), or, when
the program is at its end, the engine alone; and where the next command word is placed. -/

namespace Sys2Proof.Machine

def step (s : State) : Host.Outcome State Fault Refusal :=
  match s.host.prog[s.host.pc]? with
  | some a => s.advance.perform a
  | none => tick s

/-- The action list with `a` as the action at the host's position. -/
def State.placeAction (s : State) (a : HostAction) : State :=
  { s with host := { s.host with
      prog := s.host.prog.take s.host.pc
        ++ List.replicate (s.host.pc - s.host.prog.length) .wait
        ++ a :: s.host.prog.drop (s.host.pc + 1) } }

/-- The command word `w` is what the host writes to CMD next, with the engine idle and the command's
latency 0, so that the very next step runs it (log entries 1 and 2). Every command is 32 bits long
(R120), so the word is the low `nbits` bits of `w`. -/
def State.withFetchWord (s : State) (nbits w : Nat) : State :=
  let s := s.placeAction (issue (BitVec.ofNat 32 (w % 2 ^ nbits)))
  { s with
    ctl := { s.ctl with running := none }
    host := { s.host with latencies := 0 :: s.host.latencies } }

end Sys2Proof.Machine
end

