-- ==== Sys2Proof/Safety.lean ====
section
/-! DEFINITION. What the claims are stated in: the invariants a good state meets, how one state follows
another when a command writes one register, one buffer, the stream or only the exception report, and
what an admissible BS_CONFIDENCE must meet (R362). -/

namespace Sys2Proof.Machine

/-! ## Invariants -/

/-- Every array is in its canonical form and lists only cells that exist (R32, R43, R52, R54 to R56). -/
structure State.ArraysOk (s : State) : Prop where
  buf : ∀ b : BReg, (s.memB b).wf ∧ (s.memB b).below Config.bufCap
  bits : s.bs.bits.wf ∧ s.bs.bits.below Config.bitCap
  syn : s.rs.syn.wf ∧ s.rs.syn.below 255
  lambda : s.rs.lambda.wf ∧ s.rs.lambda.below 256
  pos : s.rs.pos.wf ∧ s.rs.pos.below 255
  mag : s.rs.mag.wf ∧ s.rs.mag.below 255
  role : s.zig.role.wf ∧ s.zig.role.below Config.zzCap
  mod : s.zig.mod.wf ∧ s.zig.mod.below Config.zzCap
  zz : s.zig.zz.wf ∧ s.zig.zz.below Config.zzCap

/-- Every register holds a value its field can hold, and a legal one where the spec names the legal values
(R33, R41, R42, R44 to R48, R50, R51, R53, R56). -/
structure State.RangesOk (s : State) : Prop where
  len : ∀ b : BReg, s.lenB b ≤ Config.bufCap
  ver : Config.verMin ≤ s.ver ∧ s.ver ≤ Config.verMax
  capb : s.capb ≤ Config.capbMax
  blen : s.bs.blen ≤ Config.bitCap
  rpos : s.bs.rpos ≤ Config.bitCap
  segmode : s.bs.segmode < 2 ^ 4
  segcnt : s.bs.segcnt < 2 ^ 16
  segexp : s.bs.segexp < 2 ^ 32
  segavl : s.bs.segavl < 2 ^ 32
  databits : s.bs.databits < 2 ^ 16
  detected : s.rs.detected ≤ 255
  maxcorr : s.rs.maxcorr ≤ 255
  corrected : s.rs.corrected ≤ 255
  nmsg : s.rs.nmsg ≤ 255
  nsyn : s.rs.nsyn ≤ 255
  ldeg : s.rs.ldeg ≤ 255
  npos : s.rs.npos ≤ 255
  aggn : s.rs.aggn ≤ 0xFFFF
  aggv : s.rs.aggv ≤ 0xFFFF
  zzcnt : s.zig.zzcnt ≤ Config.zzCap
  entries : ∀ e ∈ s.zig.zz, e.2.1.toNat < Config.maxSize ∧ e.2.2.toNat < Config.maxSize
  left : ∀ r, s.ctl.running = some r → 0 < r.left

/-- The state is one the core can hold. -/
structure State.Inv (s : State) : Prop where
  arrays : s.ArraysOk
  ranges : s.RangesOk

/-- The cells from k on hold `vs`. -/
def Memory.holds {α : Type} (m : Memory α) (k : Nat) (vs : List α) : Prop :=
  ∀ j, j < vs.length → m.read (k + j) = vs[j]?

/-- An array agrees with another outside the cells k..k+n−1. -/
def Memory.sameOutside {α : Type} (m m' : Memory α) (k n : Nat) : Prop :=
  ∀ a, a < k ∨ k + n ≤ a → m'.read a = m.read a

/-- The content of buffer b, B[b][0..LEN[b]−1], is `d`. -/
def State.Holds (s : State) (b : BReg) (d : List Byte) : Prop :=
  d.length = s.lenB b ∧ (s.memB b).holds 0 d

/-- The stream bits from index k on are `bs`, and they lie below BLEN. -/
def State.StreamHolds (s : State) (k : Nat) (bs : List Bool) : Prop :=
  k + bs.length ≤ s.bs.blen ∧ s.bs.bits.holds k bs

/-- Nothing has written cell k of the array named `a` (R472, U1). -/
def State.unwritten (s : State) (a : ArrayName) (k : Nat) : Prop :=
  match a with
  | .buf b => (s.memB b).read k = none
  | .bits => s.bs.bits.read k = none
  | .syn => s.rs.syn.read k = none
  | .lambda => s.rs.lambda.read k = none
  | .pos => s.rs.pos.read k = none
  | .mag => s.rs.mag.read k = none
  | .role => s.zig.role.read k = none
  | .mod => s.zig.mod.read k = none
  | .zz => s.zig.zz.read k = none

/-- Cells 0..n−1 of an array are written. -/
def Memory.written {α : Type} (m : Memory α) (n : Nat) : Prop := ∀ k, k < n → (m.read k).isSome = true

/-- A block is with the decoder, or was (R49). -/
def RsState.started (r : RsState) : Bool := r != .idle

/-- Λ has been computed for the current block, positions found within capacity, magnitudes computed (R49,
R251). -/
def RsState.hasLocator : RsState → Bool
  | .locatorReady | .positionsReady | .magnitudesReady | .corrected | .failed => true
  | .idle | .syndromeReady | .noError => false

def RsState.hasPositions : RsState → Bool
  | .positionsReady | .magnitudesReady | .corrected => true
  | .idle | .syndromeReady | .locatorReady | .noError | .failed => false

def RsState.hasMagnitudes : RsState → Bool
  | .magnitudesReady | .corrected => true
  | .idle | .syndromeReady | .locatorReady | .positionsReady | .noError | .failed => false

/-- NO_ERROR, CORRECTED, FAILED (R49). -/
def RsState.terminal : RsState → Bool
  | .noError | .corrected | .failed => true
  | .idle | .syndromeReady | .locatorReady | .positionsReady | .magnitudesReady => false

/-- The decoder's registers and memories agree with its state (R49 to R53, R251, R258, R259). -/
structure RsUnit.Consistent (u : RsUnit) : Prop where
  sizes : u.rsst.started = true → 1 ≤ u.nsyn ∧ u.nsyn ≤ u.nmsg ∧ u.nmsg ≤ 255
  syn : u.rsst.started = true → u.syn.written u.nsyn
  lambda : u.rsst.hasLocator = true → u.lambda.written (u.ldeg + 1)
  pos : u.rsst.hasPositions = true → u.npos ≤ u.nsyn / 2 ∧ u.pos.written u.npos
    ∧ ∀ k p, k < u.npos → u.pos.read k = some p → p.toNat < u.nmsg
  mag : u.rsst.hasMagnitudes = true → u.mag.written u.npos
  reason : u.reason = .noReason ↔ u.rsst ≠ .failed
  corrected : u.corrected = if u.rsst = .corrected then u.npos else 0
  detected : u.detected = u.npos
  maxcorr : u.maxcorr = u.nsyn / 2
  aggregate : u.aggv ≤ u.aggn ∧ (u.allok = true → u.aggv = u.aggn)

/-- The first ZZCNT coordinates are written, distinct, and none is in column 6 (R402, R406). -/
structure Zigzag.Consistent (z : Zigzag) : Prop where
  written : z.zz.written z.zzcnt
  distinct : ∀ i j e, i < z.zzcnt → j < z.zzcnt → z.zz.read i = some e → z.zz.read j = some e → i = j
  noTiming : ∀ k e, k < z.zzcnt → z.zz.read k = some e → e.2.toNat ≠ 6

/-! ## How a command's next state follows from the state -/

/-- The completion effects and nothing else in the control registers (R436): ERR, EOVF, ERRCODE, ERRCMD,
ERRDATA and IRQEN stay. -/
def Completed (s t : State) : Prop :=
  t.ctl = { s.ctl with running := none, done := true, cmdcnt := s.ctl.cmdcnt + 1 }

/-- A command that writes register `rd` and nothing else: the register holds `v`, every other register,
buffer, length, array and unit register is as before. -/
structure WritesX (s t : State) (rd : XReg) (v : Word) : Prop where
  completed : Completed s t
  result : t.getX rd = v
  others : ∀ r, r ≠ rd → t.getX r = s.getX r
  host : t.host = s.host
  len : t.len = s.len
  buf : t.buf = s.buf
  ver : t.ver = s.ver
  capb : t.capb = s.capb
  bs : t.bs = s.bs
  rs : t.rs = s.rs
  zig : t.zig = s.zig

/-- A command that writes the bytes `vs` from index `k` of buffer `bd` on and sets its length to `n`, and
nothing else: every byte outside k..k+|vs|−1 and every other buffer reads as before. -/
structure WritesB (s t : State) (bd : BReg) (k : Nat) (vs : List Byte) (n : Nat) : Prop where
  completed : Completed s t
  length : t.lenB bd = n
  bytes : (t.memB bd).holds k vs
  frame : (s.memB bd).sameOutside (t.memB bd) k vs.length
  others : ∀ b, b ≠ bd → t.lenB b = s.lenB b ∧ t.memB b = s.memB b
  host : t.host = s.host
  x : t.x = s.x
  ver : t.ver = s.ver
  capb : t.capb = s.capb
  bs : t.bs = s.bs
  rs : t.rs = s.rs
  zig : t.zig = s.zig

/-- A command that appends the bits `new` to the stream and does nothing else: every bit outside
BLEN..BLEN+|new|−1 reads as before. -/
structure AppendsBits (s t : State) (new : List Bool) : Prop where
  completed : Completed s t
  blen : t.bs.blen = s.bs.blen + new.length
  bits : t.bs.bits.holds s.bs.blen new
  frame : s.bs.bits.sameOutside t.bs.bits s.bs.blen new.length
  stream : t.bs = { s.bs with bits := t.bs.bits, blen := t.bs.blen }
  host : t.host = s.host
  x : t.x = s.x
  len : t.len = s.len
  buf : t.buf = s.buf
  ver : t.ver = s.ver
  capb : t.capb = s.capb
  rs : t.rs = s.rs
  zig : t.zig = s.zig

/-- A command that raises (R431, R436): the control registers take the report and the completion effects,
and everything else is as before. -/
def Raises (s t : State) (code : ErrCode) (w data : Word) : Prop :=
  t = { s with ctl := { s.ctl with
          running := none
          done := true
          err := true
          eovf := s.ctl.eovf || s.ctl.err
          errcode := code
          errcmd := w
          errdata := data
          cmdcnt := s.ctl.cmdcnt + 1 } }

/-- A command of the decoder unit that touches nothing but the unit's registers and memories. -/
structure WritesRs (s t : State) (u : RsUnit) : Prop where
  completed : Completed s t
  rs : t.rs = u
  host : t.host = s.host
  x : t.x = s.x
  len : t.len = s.len
  buf : t.buf = s.buf
  ver : t.ver = s.ver
  capb : t.capb = s.capb
  bs : t.bs = s.bs
  zig : t.zig = s.zig

/-! ## Words, outcomes and whole-machine tables -/

/-- The word of R131: the opcode and the fields at their places, every other field 0. -/
def commandWord (op : Nat) (rd rs1 rs2 : XReg) (bd ba bb : BReg) (imm : Nat) : Word :=
  BitVec.ofNat 32 (op * 2 ^ 24 + rd.val * 2 ^ 21 + rs1.val * 2 ^ 18 + rs2.val * 2 ^ 15
    + bd.val * 2 ^ 13 + ba.val * 2 ^ 11 + bb.val * 2 ^ 9 + imm)

/-- The used field bits of each opcode, opcode by opcode as spec/opcode_table.json lists them (R127), written
with the masks of R121. -/
def usedMask : List (Nat × Nat) :=
  let rd := 0x00E00000; let rs1 := 0x001C0000; let rs2 := 0x00038000
  let bd := 0x00006000; let ba := 0x00001800; let bb := 0x00000600; let imm := 0x000001FF
    [(0x00, 0), (0x01, rd + imm), (0x02, rd + rs1), (0x03, rd + rs1 + rs2), (0x04, bd + imm),
     (0x05, rd + ba + rs1), (0x06, bd + rs1 + rs2), (0x07, bd + ba), (0x08, bd + ba + bb), (0x09, 0)]
    ++ [(0x10, rd + rs1 + rs2), (0x11, rd + rs1 + rs2), (0x12, rd + rs1 + rs2), (0x13, rd + rs1),
     (0x14, rd + rs1), (0x15, rd + rs1), (0x20, rd + ba + rs1), (0x21, bd + ba + bb)]
    ++ [(0x30, bd + imm), (0x31, bd + ba + imm), (0x40, ba + imm), (0x41, 0), (0x42, 0), (0x43, 0),
     (0x44, ba), (0x45, ba + imm)]
    ++ [(0x50, rd + rs1), (0x51, rd + rs1), (0x52, rd + rs1), (0x53, rd + rs1), (0x54, rd + rs1 + rs2),
     (0x55, rd + rs1 + rs2)]
    ++ [(0x60, 0), (0x61, rs1 + imm), (0x62, rd + imm), (0x63, ba), (0x64, bd + rs1 + imm),
     (0x65, ba + imm), (0x66, 0), (0x67, 0), (0x68, rd + bd), (0x69, rd)]
    ++ [(0x70, 0), (0x71, 0), (0x72, 0)]

/-- The number of ones among bits 0..n−1 of v. -/
def ones (n v : Nat) : Nat := ((List.range n).filter (fun i => v.testBit i)).length

/-- The packed BCH result of R303 as a number. -/
def packedNat (r : BchResult) (sel ok1 ok2 : Bool) : Nat :=
  r.data + 2 ^ 6 * r.errcnt + 2 ^ 8 * r.ok.toNat + 2 ^ 9 * (if r.ok then 4 - r.errcnt else 0)
    + 2 ^ 12 * sel.toNat + 2 ^ 13 * ok1.toNat + 2 ^ 14 * ok2.toNat

/-- The eight bits of a byte, most significant first (R91). -/
def byteBits (b : Byte) : List Bool := (List.range 8).map (fun j => b.getLsbD (7 - j))

/-- The bits of an n-bit field, most significant first (R91). -/
def fieldBits (v n : Nat) : List Bool := (List.range n).map (fun j => v.testBit (n - 1 - j))

/-- The alphanumeric characters in the order of R348. -/
def alnumChars : List Nat :=
  "0123456789ABCDEFGHIJKLMNOPQRSTUVWXYZ $%*+-./:".toList.map Char.toNat

/-- A character a mode can encode (R348, R352). -/
def validChar (m : Mode) (b : Byte) : Prop :=
  match m with
  | .numeric => 0x30 ≤ b.toNat ∧ b.toNat ≤ 0x39
  | .alnum => b.toNat ∈ alnumChars
  | .byte => True

/-- The indicator of a mode (R342). -/
def modeIndicator : Mode → Nat
  | .numeric => 1
  | .alnum => 2
  | .byte => 4

/-- One command after another: the second runs in the state the first leaves. -/
def thenRun (r : Res) (next : State → Res) : Res :=
  match r with
  | .next s => next s
  | .fault f => .fault f
  | .refused e => .refused e

/-- The five decoder commands in sequence, a terminal state ending them (R265). -/
def fiveSteps (ba : BReg) (ec : Nat) (s : State) : Res :=
  thenRun (exec (.rssyn ba ec) s) fun s =>
    if s.rs.rsst = .noError then .next s
    else thenRun (exec .rsbm s) fun s =>
      thenRun (exec .rschien s) fun s =>
        if s.rs.rsst = .failed then .next s
        else thenRun (exec .rsforney s) fun s =>
          if s.rs.rsst = .failed then .next s else exec (.rsapply ba) s

/-- The states a decoder command can lead to from a state without raising (R251); a command of no
decoder step leaves RSST as it is. -/
def rsMoves (i : Instr) (from_ : RsState) : List RsState :=
  match i with
  | .rssyn _ _ => [.noError, .syndromeReady]
  | .rsbm => if from_ = .syndromeReady then [.locatorReady] else []
  | .rschien => if from_ = .locatorReady then [.positionsReady, .failed] else []
  | .rsforney => if from_ = .positionsReady then [.magnitudesReady, .failed] else []
  | .rsapply _ => if from_ = .magnitudesReady then [.corrected, .failed] else []
  | .rsdec _ _ => [.noError, .corrected, .failed]
  | _ => [from_]

/-- The units a command's rule may write beside X and the buffers. -/
inductive CoreUnit where
  | decoder
  | stream
  | zigzag
  deriving DecidableEq, Repr

/-- The scalar register the *Writes* line of a command names. -/
def destX : Instr → Option XReg
  | .ldi rd _ | .mov rd _ | .xor rd _ _ | .bget rd _ _ => some rd
  | .gadd rd _ _ | .gmul rd _ _ | .gdiv rd _ _ | .ginv rd _ | .gexp rd _ | .glog rd _ => some rd
  | .peval rd _ _ => some rd
  | .bchfe rd _ | .bchfd rd _ | .bchve rd _ | .bchvd rd _ | .fmtsel rd _ _ | .versel rd _ _ => some rd
  | .bsget rd _ | .segdec rd _ | .bspadchk rd => some rd
  | _ => none

/-- The buffer the *Writes* line of a command names. -/
def destB : Instr → Option BReg
  | .setlen bd _ | .bput bd _ _ | .bcopy bd _ | .bcat bd _ _ | .pmul bd _ _ => some bd
  | .rsgen bd _ | .rsenc bd _ _ | .bsstore bd _ _ | .segdec _ bd => some bd
  | .rsapply ba | .rsdec ba _ => some ba
  | _ => none

/-- The units the *Writes* line of a command names. -/
def destUnits : Instr → List CoreUnit
  | .aggclr | .rssyn _ _ | .rsbm | .rschien | .rsforney | .rsapply _ | .rsdec _ _ => [.decoder]
  | .bsclr | .bsput _ _ | .bsget _ _ | .bsload _ | .segenc _ _ | .bsterm | .bspad | .segdec _ _ => [.stream]
  | .zzgen | .zzplace => [.zigzag]
  | .zzread => [.stream]
  | _ => []

/-- The exception codes a command can raise after decoding, the *raised by* column of R432. -/
def mayRaise : Instr → List ErrCode
  | .setlen _ _ | .bcat _ _ _ | .pmul _ _ _ | .rsgen _ _ | .rsenc _ _ _ | .rssyn _ _ | .rsdec _ _ => [.length]
  | .bget _ _ _ | .bput _ _ _ => [.index]
  | .gdiv _ _ _ | .ginv _ _ => [.divByZero]
  | .glog _ _ => [.logOfZero]
  | .rsbm | .rschien | .rsforney => [.sequence]
  | .rsapply _ => [.sequence, .length]
  | .bsput _ _ => [.length, .bitOverflow]
  | .bsget _ _ => [.length, .bitUnderflow]
  | .bsload _ => [.bitOverflow]
  | .bsstore _ _ _ => [.length, .index]
  | .segenc _ _ => [.reservedField, .countOverflow, .invalidChar, .bitOverflow]
  | .bsterm | .bspad => [.capacity]
  | _ => []

/-- What each register of the map reads as, address by address, the packed ones field by field (R82,
R35 to R42, R44 to R51, R53, R56). -/
def State.registerValues (s : State) : List (Nat × Nat) :=
  [(0x00000, 0x51520007), (0x00004, 0),
   (0x00008, s.ctl.running.isSome.toNat + 2 * s.ctl.done.toNat + 4 * s.ctl.err.toNat
      + 8 * s.ctl.eovf.toNat + 2 ^ 8 * s.ctl.errcode.toNat),
   (0x0000C, s.ctl.doneie.toNat + 2 * s.ctl.errie.toNat),
   (0x00010, s.ctl.errcmd.toNat), (0x00014, s.ctl.errdata.toNat), (0x00018, s.ctl.cmdcnt.toNat),
   (0x0001C, s.ver), (0x00020, s.capb), (0x00024, s.bs.blen), (0x00028, s.bs.rpos),
   (0x0002C, s.zig.zzcnt),
   (0x00030, s.bs.segst.toNat + 2 ^ 4 * s.bs.segmode + 2 ^ 8 * s.bs.segstage.toNat
      + 2 ^ 16 * s.bs.segcnt),
   (0x00034, s.bs.segexp), (0x00038, s.bs.segavl),
   (0x0003C, s.bs.termseen.toNat + 2 ^ 16 * s.bs.databits)]
  ++ (List.finRange 8).map (fun r => (0x00040 + 4 * r.val, (s.getX r).toNat))
  ++ (List.finRange 4).map (fun b => (0x00060 + 4 * b.val, s.lenB b))
  ++ [(0x00070, s.rs.rsst.toNat),
   (0x00074, s.rs.reason.toNat + 2 ^ 8 * s.rs.detected + 2 ^ 16 * s.rs.maxcorr
      + 2 ^ 24 * s.rs.corrected),
   (0x00078, s.rs.nmsg + 2 ^ 8 * s.rs.nsyn + 2 ^ 16 * s.rs.ldeg + 2 ^ 24 * s.rs.npos),
   (0x0007C, s.rs.aggn + 2 ^ 16 * s.rs.aggv), (0x00080, s.rs.allok.toNat)]

/-- The host is about to perform the action `a`. -/
def State.atAction (s : State) (a : HostAction) : Prop := s.host.prog[s.host.pc]? = some a

/-! ## What a command uses (R475) -/

/-- The scalar registers among a command's operands. -/
def operandX : Instr → List XReg
  | .ldi rd _ | .bsget rd _ | .segdec rd _ | .bspadchk rd => [rd]
  | .mov rd rs1 | .bget rd _ rs1 | .ginv rd rs1 | .gexp rd rs1 | .glog rd rs1 | .peval rd _ rs1 => [rd, rs1]
  | .bchfe rd rs1 | .bchfd rd rs1 | .bchve rd rs1 | .bchvd rd rs1 => [rd, rs1]
  | .xor rd rs1 rs2 | .gadd rd rs1 rs2 | .gmul rd rs1 rs2 | .gdiv rd rs1 rs2 => [rd, rs1, rs2]
  | .fmtsel rd rs1 rs2 | .versel rd rs1 rs2 => [rd, rs1, rs2]
  | .bput _ rs1 rs2 => [rs1, rs2]
  | .bsput rs1 _ | .bsstore _ rs1 _ => [rs1]
  | _ => []

/-- The buffers among a command's operands. -/
def operandB : Instr → List BReg
  | .setlen bd _ | .bput bd _ _ | .rsgen bd _ | .bsstore bd _ _ | .segdec _ bd => [bd]
  | .bget _ ba _ | .peval _ ba _ | .rssyn ba _ | .rsapply ba | .rsdec ba _ | .bsload ba | .segenc ba _ => [ba]
  | .bcopy bd ba | .rsenc bd ba _ => [bd, ba]
  | .bcat bd ba bb | .pmul bd ba bb => [bd, ba, bb]
  | _ => []

/-- The byte of buffer b at index k is one the command's operands or *Writes* line name in this state: the
indexed byte, the content of a source, what is written. -/
def usesByte (i : Instr) (s : State) (b : BReg) (k : Nat) : Prop :=
  match i with
  | .bget _ ba rs1 => b = ba ∧ k = (s.getX rs1).toNat ∧ k < s.lenB ba
  | .bput bd rs1 _ => b = bd ∧ k = (s.getX rs1).toNat
  | .bcopy bd ba => (b = bd ∨ b = ba) ∧ k < s.lenB ba
  | .bcat bd ba bb => (b = bd ∧ k < s.lenB ba + s.lenB bb) ∨ (b = ba ∨ b = bb) ∧ k < s.lenB b
  | .pmul bd ba bb => (b = bd ∧ k < s.lenB ba + s.lenB bb - 1) ∨ (b = ba ∨ b = bb) ∧ k < s.lenB b
  | .peval _ ba _ | .rssyn ba _ | .rsapply ba | .rsdec ba _ | .bsload ba | .segenc ba _ => b = ba ∧ k < s.lenB ba
  | .rsgen bd n => b = bd ∧ k ≤ n
  | .rsenc bd ba n => (b = bd ∧ k < n) ∨ (b = ba ∧ k < s.lenB ba)
  | .bsstore bd _ n => b = bd ∧ k < n
  | .segdec _ bd => b = bd ∧ k < s.segdecUse.chars
  | _ => False

/-- Stream bit k is one the command's *Writes* line names in this state, or one it reads, its checks passing: such
a bit lies below BLEN (R340). -/
def usesBit (i : Instr) (s : State) (k : Nat) : Prop :=
  let from_ (lo n : Nat) : Prop := lo ≤ k ∧ k < lo + n
  match i with
  | .bsput _ n => from_ s.bs.blen n
  | .bsget _ n => n ≤ 32 ∧ s.bs.rpos + n ≤ s.bs.blen ∧ from_ s.bs.rpos n
  | .bsload ba => from_ s.bs.blen (8 * s.lenB ba)
  | .bsstore _ rs1 n =>
    let o := (s.getX rs1).toNat
    n ≤ 256 ∧ 8 * (o + n) ≤ s.bs.blen ∧ from_ (8 * o) (8 * n)
  | .segenc ba mode => ∃ m, mode = modeIndicator m ∧ from_ s.bs.blen (4 + cci m s.ver + pbits m (s.lenB ba))
  | .bsterm => from_ s.bs.blen (min 4 (8 * s.capb - s.bs.blen))
  | .bspad => s.bs.blen ≤ k ∧ k < 8 * s.capb
  | .segdec _ _ => from_ s.bs.rpos s.segdecUse.bits
  | .bspadchk _ =>
    let start := 8 * ((s.bs.rpos + 7) / 8)
    from_ start (8 * ((min s.bs.blen (8 * s.capb) - start) / 8))
  | .zzplace => k < s.bs.blen ∧ k < s.zig.zzcnt
  | .zzread => k < s.zig.zzcnt
  | _ => False

/-- The command reads or writes something of the word a target is (R475, U2): its operands or its *Writes* line
name it, or its checks or pseudocode read it on the path they take in this state. -/
def usesWord (i : Instr) (s : State) : Target → Prop
  | .status => True
  | .x r => r ∈ operandX i
  | .len b => b ∈ operandB i
  | .ver => i = .zzgen ∨ (∃ ba m, i = .segenc ba (modeIndicator m))
      ∨ ∃ rd bd, i = .segdec rd bd ∧ s.segdecUse.readsVer = true
  | .capb => i = .bsterm ∨ i = .bspad ∨ ∃ rd, i = .bspadchk rd
  | .blen => match i with
    | .bsclr | .bsput _ _ | .bsload _ | .segenc _ _ | .bsterm | .bspad | .segdec _ _ | .bspadchk _ | .zzread => True
    | .bsget _ n => 1 ≤ n ∧ n ≤ 32
    | .bsstore _ _ n => n ≤ 256
    | .zzplace => 0 < s.zig.zzcnt
    | _ => False
  | .rpos => i = .bsclr ∨ i = .zzread ∨ (∃ rd n, i = .bsget rd n) ∨ (∃ rd bd, i = .segdec rd bd)
      ∨ ∃ rd, i = .bspadchk rd
  | .bufWord b q => ∃ k, 4 * q ≤ k ∧ k < 4 * q + 4 ∧ usesByte i s b k
  | .bitsWord q => ∃ k, 32 * q ≤ k ∧ k < 32 * q + 32 ∧ usesBit i s k
  | .roleWord row j => i = .zzgen ∧ ∃ c, c / 32 = j ∧ c ≠ 6 ∧ row < 21 + 4 * (s.ver - 1) ∧ c < 21 + 4 * (s.ver - 1)
  | .modWord row j => (i = .zzplace ∨ i = .zzread) ∧ ∃ (k : Nat) (e : Byte × Byte),
      k < s.zig.zzcnt ∧ s.zig.zz.read k = some e ∧ e.1.toNat = row ∧ e.2.toNat / 32 = j
  | _ => False

/-! ## The open parameter BS_CONFIDENCE -/

/-- `d` is the number of bits that one or more SEGENC commands append at version `v` without raising: each
segment has at most 256 characters, and its count fits the indicator (R352, R363). -/
def SegmentTotal (v d : Nat) : Prop :=
  ∃ segs : List (Mode × Nat), segs ≠ [] ∧ (∀ mc ∈ segs, mc.2 ≤ Config.bufCap ∧ mc.2 < 2 ^ cci mc.1 v)
    ∧ d = (segs.map fun mc => segmentBits mc.1 v mc.2).sum

/-- What any choice of BS_CONFIDENCE must meet (R362, 90_conflicts.md C7): 1 on every stream of R363, with
TERMSEEN and DATABITS clear before the first SEGDEC. Such a stream holds `d` segment bits in a capacity of
`cap` bits, and BSPAD makes BLEN `cap`; SEGDEC consumes them all; the terminator is whole exactly when 4
bits are left (R353), and every pad byte conforms. That the empty sequence of SEGENC commands is no stream
of R363 is the model's choice (log entry 12). -/
def BsConfidenceAdmissible (f : ConfidenceParts → Rat) : Prop :=
  ∀ v d capb : Nat, Config.verMin ≤ v → v ≤ Config.verMax → SegmentTotal v d →
    d ≤ 8 * capb → capb ≤ Config.capbMax →
    let cap := 8 * capb
    let pads := (cap - 8 * ((d + min 4 (cap - d) + 7) / 8)) / 8
    f ⟨d, cap, cap, decide (d + 4 ≤ cap), pads, pads⟩ = 1

end Sys2Proof.Machine
end

