-- ==== Sys2Proof/Certificates/Slice0/Obligations.lean ====
section
/-! DEFINITION. The statements for the provers. Each docstring names the rules of spec/ its statement
formalises. Where a statement says `∃ t, exec i s = .next t ∧ …`, the command completes in every state
that meets the hypotheses, and what follows is all it changes. -/

open Sys2Proof Sys2Proof.Machine

/-! ## Encoding -/

/-- Decoding the word of a command gives the command back, with every operand at every value its field holds;
and a word that decodes is the word of the command it decodes to, which is the word ERRCMD records (R121,
R122, R124, R131). -/
def Obligations.DecodeAndEncodeAgree : Prop :=
  (∀ i : Instr, i.wellFormed = true → decode (encode i) = .ok i)
  ∧ ∀ (w : Word) (i : Instr), decode w = .ok i → i.wellFormed = true ∧ encode i = w

/-- R124 and R434: the opcode is tested first, then the unused fields; the masks are the ones of R121 for
the fields of R127, and nothing else is rejected. -/
def Obligations.DecodeRejectsByName : Prop :=
  ∀ w : Word,
    (usedMask.lookup (w.toNat / 2 ^ 24) = none → decode w = .error (.illegalOpcode (w.extractLsb' 24 8)))
    ∧ ∀ m, usedMask.lookup (w.toNat / 2 ^ 24) = some m →
        let unused := w &&& ~~~(0xFF000000 ||| BitVec.ofNat 32 m)
        (unused ≠ 0 → decode w = .error (.reservedField unused))
        ∧ (unused = 0 → ∃ i, decode w = .ok i)

/-- The words of the examples of the command rules decode to the commands they stand for, one of each
family (R131, R151, R155, R191, R212, R233, R265, R314, R347, R359, R404). -/
def Obligations.ExampleWordsDecode : Prop :=
  decode 0x01200053 = .ok (.ldi 1 0x53) ∧ decode 0x05640000 = .ok (.bget 3 0 1)
  ∧ decode 0x0605C000 = .ok (.bput 2 1 3) ∧ decode 0x11650000 = .ok (.gmul 3 1 2)
  ∧ decode 0x20440000 = .ok (.peval 2 0 1) ∧ decode 0x3100200A = .ok (.rsenc 1 0 10)
  ∧ decode 0x4500100A = .ok (.rsdec 2 10) ∧ decode 0x54850000 = .ok (.fmtsel 4 1 2)
  ∧ decode 0x64000010 = .ok (.bsstore 0 0 16) ∧ decode 0x68204000 = .ok (.segdec 1 2)
  ∧ decode 0x71000000 = .ok .zzplace

/-! ## The host's actions and the engine -/

/-- A step runs the decoded command: when the host's next action writes a word to CMD, BUSY = 0, the
command's latency is 0 and the word decodes to `i`, the step is `exec i` in the state in which the word
is accepted (BUSY ← 1, DONE ← 0, R430), the action list has moved on (R57) and the latency is used up
(log entry 2). -/
def Obligations.StepRunsDecodedCommand : Prop :=
  ∀ (s : State) (w : Word) (i : Instr), s.atAction (issue w) → s.ctl.running = none →
    s.host.latencies.headD 0 = 0 → decode w = .ok i →
    step s = exec i { s with
      host := { s.host with pc := s.host.pc + 1, latencies := s.host.latencies.tail }
      ctl := { s.ctl with running := some ⟨w, 0⟩, done := false } }

/-- A word that is no command has no effect except the exception report and the completion effects (R124,
R431, R436): ILLEGAL_OPCODE with the opcode, RESERVED_FIELD with the unused bits. -/
def Obligations.UndecodableWordRaises : Prop :=
  ∀ (s : State) (w : Word), s.atAction (issue w) → s.ctl.running = none → s.host.latencies.headD 0 = 0 →
    let s' : State := { s with
      host := { s.host with pc := s.host.pc + 1, latencies := s.host.latencies.tail } }
    (∀ op, decode w = .error (.illegalOpcode op) →
      ∃ t, step s = .next t ∧ Raises s' t .illegalOpcode w (op.setWidth 32))
    ∧ (∀ unused, decode w = .error (.reservedField unused) →
      ∃ t, step s = .next t ∧ Raises s' t .reservedField w unused)

/-- R57, R132: every action, including a command that raises, advances `pc` by exactly 1; nothing else
changes it, and the action list itself never changes. -/
def Obligations.EveryActionAdvancesPc : Prop :=
  ∀ s t : State, step s = .next t → t.host.prog = s.host.prog ∧
    t.host.pc = if s.host.pc < s.host.prog.length then s.host.pc + 1 else s.host.pc

/-- R430, R478, R96: an accepted command only sets BUSY and clears DONE until its effects are complete, and
none of them is in the state until all of them are. While it runs, a step of the engine alone, a read, or a
write to state it does not use (log entry 5) only counts down beside the access itself, or is the access and
then the whole command. A WAIT is the whole command, and the host's last read returns STATUS with BUSY = 0
(R130). The count is log entry 2's, the word read log entry 9's, its number log entry 4's, and that a WAIT is
one step log entry 19's. -/
def Obligations.RunningCommandCompletesAtOnce : Prop :=
  (∀ (s : State) (w : Word) (n : Nat) (rest : List Nat), s.atAction (issue w) → s.ctl.running = none →
    s.host.latencies = (n + 1) :: rest →
    step s = .next { s with
      host := { s.host with pc := s.host.pc + 1, latencies := rest }
      ctl := { s.ctl with running := some ⟨w, n + 1⟩, done := false } })
  ∧ ∀ (s : State) (w : Word) (n : Nat), s.ctl.running = some ⟨w, n⟩ →
    let counted (t : State) : State := { t with ctl := { t.ctl with running := some ⟨w, n - 1⟩ } }
    let goesOn (t : State) : Prop := (2 ≤ n → step s = .next (counted t)) ∧ (n ≤ 1 → step s = runWord w t)
    (s.host.prog.length ≤ s.host.pc → goesOn s)
    ∧ (s.atAction .wait →
        step s = thenRun (runWord w s.advance) fun t =>
          .next { t with host := { t.host with rdata := t.statusWord } })
    ∧ (∀ (a : BitVec 17) (tgt : Target), s.atAction (.busRead a 4) → busTarget a 4 = .ok tgt →
        (∃ x, s.readTarget tgt = .ok x) → (∀ u, runWord w s.advance = .next u → ∃ x, u.readTarget tgt = .ok x) →
        ∃ x, goesOn { s with
          host := { s.host with pc := s.host.pc + 1, rdata := x, freeCtr := s.host.freeCtr + 1 } })
    ∧ ∀ (a : BitVec 17) (tgt : Target) (v : Word), s.atAction (.busWrite a 4 v) → busTarget a 4 = .ok tgt →
        tgt ≠ .cmd → s.inUse w tgt = false → goesOn (s.advance.writeTarget tgt v)

/-- A command issued and waited for gives the same outcome whatever its latency: what the spec infers, in
R480, from R475, R476 and R478; latencies are the model's (log entry 2). -/
def Obligations.LatencyChangesNothing : Prop :=
  ∀ (s : State) (w : Word) (n : Nat) (rest : List Nat), s.atAction (issue w) →
    s.host.prog[s.host.pc + 1]? = some .wait → s.ctl.running = none →
    let from_ (k : Nat) : State := { s with host := { s.host with latencies := k :: rest } }
    thenRun (step (from_ n)) step = thenRun (step (from_ 0)) step

/-- R439: a CMD write while BUSY = 1 only reports BUSY_OVERRUN: the word is dropped, CMDCNT and DONE are as
they were, the running command is not affected, and EOVF is set when ERR was. The countdown is the model's
(log entry 2): the dropped write is a host action like any other, so the running command comes one action
nearer its completion, and when that was its last it completes in the state that holds the report. -/
def Obligations.OverrunOnlyReports : Prop :=
  ∀ (s : State) (w v : Word) (n : Nat), s.atAction (issue v) → s.ctl.running = some ⟨w, n⟩ →
    let reported : State := { s with
      host := { s.host with pc := s.host.pc + 1 }
      ctl := { s.ctl with
        eovf := s.ctl.eovf || s.ctl.err, err := true, errcode := .busyOverrun, errcmd := v, errdata := 0 } }
    (2 ≤ n → step s = .next { reported with ctl := { reported.ctl with running := some ⟨w, n - 1⟩ } })
    ∧ (n ≤ 1 → step s = runWord w reported)

/-! ## Exceptions and completion -/

/-- R431, R436, with the codes R432 lists for each command: whatever a command does, it ends with the
completion effects: it counts itself modulo 2^32, sets DONE and clears BUSY. Beside them it either leaves
the control registers as they were, or it raises one of its codes, and then nothing else changes. -/
def Obligations.EveryCommandCompletesOrRaisesPrecisely : Prop :=
  ∀ (i : Instr) (s t : State), exec i s = .next t →
    t.ctl.cmdcnt.toNat = (s.ctl.cmdcnt.toNat + 1) % 2 ^ 32 ∧ t.ctl.done = true ∧ t.ctl.running = none
    ∧ (Completed s t ∨ ∃ code data, code ∈ mayRaise i ∧ Raises s t code (encode i) data)

/-- Every command is executed: it ends in a next state, or it used an array cell that nothing has written, which
is a fault (R472, U1; log entry 6). It is never refused. The second part says of the commands that read a
buffer, the stream, ROLE, MOD or ZZ that they stop so, and where: at the first unwritten cell they read, once
their checks pass. -/
def Obligations.OnlyUnwrittenCellsStopACommand : Prop :=
  (∀ (i : Instr) (s : State), (∃ t, exec i s = .next t) ∨
    ∃ a k, s.unwritten a k ∧ exec i s = .fault (.unwrittenRead a k))
  ∧ ∀ (s : State) (rd rs1 : XReg) (bd ba bb : BReg) (n k : Nat) (m : Mode),
    let len := s.lenB ba
    let stops (i : Instr) (a : ArrayName) (k : Nat) : Prop := exec i s = .fault (.unwrittenRead a k)
    let first (a : ArrayName) (lo k : Nat) : Prop :=
      (∀ j : Nat, j < k → ¬ s.unwritten a (lo + j)) ∧ s.unwritten a (lo + k)
    let idx := (s.getX rs1).toNat
    let p := s.bs.rpos
    let w := cci m s.ver
    (idx < len → s.unwritten (.buf ba) idx → stops (.bget rd ba rs1) (.buf ba) idx)
    ∧ (k < len → first (.buf ba) 0 k →
      stops (.bcopy bd ba) (.buf ba) k ∧ stops (.peval rd ba rs1) (.buf ba) k
      ∧ (len + s.lenB bb ≤ 256 → stops (.bcat bd ba bb) (.buf ba) k)
      ∧ (s.lenB bb ≠ 0 → len + s.lenB bb - 1 ≤ 256 → stops (.pmul bd ba bb) (.buf ba) k)
      ∧ (len + n ≤ 255 → stops (.rsenc bd ba n) (.buf ba) k)
      ∧ (1 ≤ n → n ≤ len → len ≤ 255 →
          stops (.rssyn ba n) (.buf ba) k ∧ stops (.rsdec ba n) (.buf ba) k)
      ∧ (s.rs.rsst = .magnitudesReady → len = s.rs.nmsg → stops (.rsapply ba) (.buf ba) k)
      ∧ (s.bs.blen + 8 * len ≤ 32768 → stops (.bsload ba) (.buf ba) k)
      ∧ (len < 2 ^ w → (∀ (j : Nat) (b : Byte), j < k → (s.memB ba).read j = some b → validChar m b) →
          (m = .byte → s.bs.blen + (4 + w + 8 * len) ≤ 32768) →
          stops (.segenc ba (modeIndicator m)) (.buf ba) k))
    ∧ (k < s.lenB bb → (∀ j : Nat, j < len → ¬ s.unwritten (.buf ba) j) → first (.buf bb) 0 k →
      (len + s.lenB bb ≤ 256 → stops (.bcat bd ba bb) (.buf bb) k)
      ∧ (len ≠ 0 → len + s.lenB bb - 1 ≤ 256 → stops (.pmul bd ba bb) (.buf bb) k))
    ∧ (n ≤ 32 → p + n ≤ s.bs.blen → k < n → first .bits p k → stops (.bsget rd n) .bits (p + k))
    ∧ (n ≤ 256 → 8 * (idx + n) ≤ s.bs.blen → k < 8 * n → first .bits (8 * idx) k →
        stops (.bsstore bd rs1 n) .bits (8 * idx + k))
    ∧ (let start := 8 * ((p + 7) / 8)
      k < 8 * ((min s.bs.blen (8 * s.capb) - start) / 8) → first .bits start k →
        stops (.bspadchk rd) .bits (start + k))
    ∧ (p + 4 ≤ s.bs.blen → k < 4 → first .bits p k → stops (.segdec rd bd) .bits (p + k))
    ∧ (s.StreamHolds p (fieldBits (modeIndicator m) 4) → p + 4 + w ≤ s.bs.blen → k < w → first .bits (p + 4) k →
        stops (.segdec rd bd) .bits (p + 4 + k))
    ∧ (∀ (c : Nat) (good : List Byte),
        let q := p + 4 + w
        let size := match m with | .numeric => 3 | .alnum => 2 | .byte => 1
        let width := match m, min size (c - good.length) with
          | .numeric, 3 => 10
          | .numeric, 2 => 7
          | .numeric, _ => 4
          | .alnum, 2 => 11
          | .alnum, _ => 6
          | .byte, _ => 8
        let z := q + (encodePayload m good).length
        c ≤ 256 → c < 2 ^ w → s.StreamHolds p (fieldBits (modeIndicator m) 4 ++ fieldBits c w) →
        pbits m c ≤ s.bs.blen - q → good.length % size = 0 → good.length < c → (∀ x ∈ good, validChar m x) →
        s.StreamHolds q (encodePayload m good) → k < width → first .bits z k →
        stops (.segdec rd bd) .bits (z + k))
    ∧ (∀ r c : Nat, let cells := visited (21 + 4 * (s.ver - 1))
      cells[k]? = some (r, c) → s.unwritten .role (177 * r + c) →
        (∀ (j : Nat) (rc : Nat × Nat), j < k → cells[j]? = some rc → ¬ s.unwritten .role (177 * rc.1 + rc.2)) →
        stops .zzgen .role (177 * r + c))
    ∧ (k < s.zig.zzcnt → first .zz 0 k → stops .zzplace .zz k ∧ stops .zzread .zz k)
    ∧ (s.zig.zz.written s.zig.zzcnt → k < min s.bs.blen s.zig.zzcnt → first .bits 0 k → stops .zzplace .bits k)
    ∧ ∀ e : Byte × Byte, s.zig.zz.written s.zig.zzcnt → k < s.zig.zzcnt → s.zig.zz.read k = some e →
        s.unwritten .mod (177 * e.1.toNat + e.2.toNat) →
        (∀ (j : Nat) (e' : Byte × Byte), j < k → s.zig.zz.read j = some e' →
          ¬ s.unwritten .mod (177 * e'.1.toNat + e'.2.toNat)) →
        stops .zzread .mod (177 * e.1.toNat + e.2.toNat)

/-- The *Writes* lines of all the command rules together: a command writes no scalar register, buffer,
length or unit register that its rule does not name; no command writes the host's side, VER, CAPB or
ROLE. -/
def Obligations.CommandsWriteOnlyTheirDestinations : Prop :=
  ∀ (i : Instr) (s t : State), exec i s = .next t →
    t.host = s.host ∧ t.ver = s.ver ∧ t.capb = s.capb ∧ t.zig.role = s.zig.role
    ∧ (∀ r, destX i ≠ some r → t.getX r = s.getX r)
    ∧ (∀ b, destB i ≠ some b → t.lenB b = s.lenB b ∧ t.memB b = s.memB b)
    ∧ (.decoder ∉ destUnits i → t.rs = s.rs)
    ∧ (.stream ∉ destUnits i → t.bs = s.bs)
    ∧ (.zigzag ∉ destUnits i → t.zig = s.zig)

/-- R437, R440, R37: IRQ is the level of STATUS and IRQEN as the host reads them; a completed command raises it
when DONEIE is set, a command that raised when ERRIE is; accepting a command with ERR = 0 lowers it; it is
0 after reset. The host's write to STATUS clears each of DONE, ERR and EOVF written as 1 and changes
nothing else, ERRCODE, ERRCMD and ERRDATA keeping the report; clearing DONE and ERR lowers IRQ. -/
def Obligations.InterruptAndStatusWrite : Prop :=
  (∀ s : State, s.irq = ((s.statusWord.getLsbD 1 && s.irqenWord.getLsbD 0)
    || (s.statusWord.getLsbD 2 && s.irqenWord.getLsbD 1)))
  ∧ (∀ (i : Instr) (s t : State), exec i s = .next t → s.ctl.doneie = true → t.irq = true)
  ∧ (∀ (i : Instr) (s t : State) (code : ErrCode) (data : Word), exec i s = .next t →
      Raises s t code (encode i) data → s.ctl.errie = true → t.irq = true)
  ∧ (∀ (s : State) (w : Word) (n : Nat), s.ctl.err = false → (s.accept w n).irq = false)
  ∧ State.reset.irq = false
  ∧ (∀ (s : State) (v : Word), s.atAction (.busWrite 0x00008 4 v) → s.ctl.running = none →
      step s = .next { s with
        host := { s.host with pc := s.host.pc + 1 }
        ctl := { s.ctl with
          done := s.ctl.done && !v.getLsbD 1
          err := s.ctl.err && !v.getLsbD 2
          eovf := s.ctl.eovf && !v.getLsbD 3 } })
  ∧ ∀ (s t : State) (v : Word), s.atAction (.busWrite 0x00008 4 v) → s.ctl.running = none →
      v.getLsbD 1 = true → v.getLsbD 2 = true → step s = .next t → t.irq = false

/-! ## Control commands -/

/-- R150 to R154 and R159: NOP has no effect but the completion effects; LDI, MOV and XOR write rd; SETLEN sets a
length up to 256 and no byte, and raises LENGTH with a larger one; AGGCLR clears the aggregate. -/
def Obligations.ControlCommands : Prop :=
  ∀ (s : State) (rd rs1 rs2 : XReg) (bd : BReg) (imm : Nat), imm < 512 →
    encode .nop = 0x00000000
    ∧ encode (.ldi rd imm) = commandWord 0x01 rd 0 0 0 0 0 imm
    ∧ encode (.mov rd rs1) = commandWord 0x02 rd rs1 0 0 0 0 0
    ∧ encode (.xor rd rs1 rs2) = commandWord 0x03 rd rs1 rs2 0 0 0 0
    ∧ encode (.setlen bd imm) = commandWord 0x04 0 0 0 bd 0 0 imm
    ∧ encode .aggclr = 0x09000000
    ∧ (∃ t, exec .nop s = .next t ∧ Completed s t ∧ t = { s with ctl := t.ctl })
    ∧ (∃ t, exec (.ldi rd imm) s = .next t ∧ WritesX s t rd (BitVec.ofNat 32 imm))
    ∧ (∃ t, exec (.mov rd rs1) s = .next t ∧ WritesX s t rd (s.getX rs1))
    ∧ (∃ t, exec (.xor rd rs1 rs2) s = .next t ∧ WritesX s t rd (s.getX rs1 ^^^ s.getX rs2))
    ∧ (imm ≤ 256 → ∃ t, exec (.setlen bd imm) s = .next t ∧ WritesB s t bd 0 [] imm)
    ∧ (256 < imm → ∃ t, exec (.setlen bd imm) s = .next t
        ∧ Raises s t .length (encode (.setlen bd imm)) (BitVec.ofNat 32 imm))
    ∧ ∃ t, exec .aggclr s = .next t ∧ Completed s t
        ∧ t = { s with ctl := t.ctl, rs := { s.rs with aggn := 0, aggv := 0, allok := true } }

/-- R155, R156: BGET reads the byte the index names, BPUT writes it and grows the length to hold it; an index
not below the length, or of 256 or more, raises INDEX with it. -/
def Obligations.ByteCommands : Prop :=
  ∀ (s : State) (rd rs1 rs2 : XReg) (bd ba : BReg),
    let k := (s.getX rs1).toNat
    encode (.bget rd ba rs1) = commandWord 0x05 rd rs1 0 0 ba 0 0
    ∧ encode (.bput bd rs1 rs2) = commandWord 0x06 0 rs1 rs2 bd 0 0 0
    ∧ (∀ b : Byte, k < s.lenB ba → (s.memB ba).read k = some b →
        ∃ t, exec (.bget rd ba rs1) s = .next t ∧ WritesX s t rd (b.setWidth 32))
    ∧ (s.lenB ba ≤ k → ∃ t, exec (.bget rd ba rs1) s = .next t
        ∧ Raises s t .index (encode (.bget rd ba rs1)) (s.getX rs1))
    ∧ (k < 256 → ∃ t, exec (.bput bd rs1 rs2) s = .next t
        ∧ WritesB s t bd k [(s.getX rs2).setWidth 8] (max (s.lenB bd) (k + 1)))
    ∧ (256 ≤ k → ∃ t, exec (.bput bd rs1 rs2) s = .next t
        ∧ Raises s t .index (encode (.bput bd rs1 rs2)) (s.getX rs1))

/-- R157, R158: BCOPY and BCAT produce the old contents of their sources, whatever the aliasing (R125), and
bytes past the new length keep their values; a concatenation of more than 256 bytes raises LENGTH. -/
def Obligations.CopiesProduceOldContents : Prop :=
  ∀ (s : State) (bd ba bb : BReg) (a b : List Byte),
    encode (.bcopy bd ba) = commandWord 0x07 0 0 0 bd ba 0 0
    ∧ encode (.bcat bd ba bb) = commandWord 0x08 0 0 0 bd ba bb 0
    ∧ (s.Holds ba a → ∃ t, exec (.bcopy bd ba) s = .next t ∧ WritesB s t bd 0 a a.length)
    ∧ (s.Holds ba a → s.Holds bb b → a.length + b.length ≤ 256 →
        ∃ t, exec (.bcat bd ba bb) s = .next t ∧ WritesB s t bd 0 (a ++ b) (a.length + b.length))
    ∧ (256 < s.lenB ba + s.lenB bb → ∃ t, exec (.bcat bd ba bb) s = .next t
        ∧ Raises s t .length (encode (.bcat bd ba bb)) (BitVec.ofNat 32 (s.lenB ba + s.lenB bb)))

/-! ## GF(256) -/

/-- R180: the ROMs are what the construction builds: EXP starts at 1, each entry is the one before shifted
left with the carry reduced by 0x11D, and LOG inverts EXP. The field laws, which the spec infers from the
tables in R197, hold over all bytes. -/
def Obligations.TablesAndFieldLaws : Prop :=
  expAt 0 = 1
  ∧ (∀ i : Nat, i < 254 → (expAt (i + 1)).toNat =
      if 2 * (expAt i).toNat < 256 then 2 * (expAt i).toNat else (2 * (expAt i).toNat) ^^^ 0x11D)
  ∧ (∀ i : Nat, i < 255 → expAt i ≠ 0 ∧ logAt (expAt i) = i)
  ∧ (∀ x : Byte, x ≠ 0 → logAt x < 255 ∧ expAt (logAt x) = x)
  ∧ (∀ a b : Byte, gfMul a b = gfMul b a)
  ∧ (∀ a b c : Byte, gfMul (gfMul a b) c = gfMul a (gfMul b c))
  ∧ (∀ a : Byte, gfMul 1 a = a ∧ gfMul 0 a = 0)
  ∧ (∀ a b c : Byte, gfMul a (gfAdd b c) = gfAdd (gfMul a b) (gfMul a c))
  ∧ (∀ a b : Byte, gfMul a b = 0 ↔ a = 0 ∨ b = 0)
  ∧ ∀ a b : Byte, b ≠ 0 → ∃ q r, gfDiv a b = some q ∧ gfInv b = some r ∧ gfMul q b = a ∧ q = gfMul a r

/-- R190 to R195: the field commands write rd, zero-extended, from the low bytes of their sources, GEXP from all
32 bits, signed. GADD, GMUL and GEXP never raise. A zero divisor, an inverse of 0 and a logarithm of 0
raise and write no register: a divisor register of 0x100 raises. -/
def Obligations.FieldCommands : Prop :=
  ∀ (s : State) (rd rs1 rs2 : XReg),
    let a : Byte := (s.getX rs1).setWidth 8
    let b : Byte := (s.getX rs2).setWidth 8
    encode (.gadd rd rs1 rs2) = commandWord 0x10 rd rs1 rs2 0 0 0 0
    ∧ encode (.gmul rd rs1 rs2) = commandWord 0x11 rd rs1 rs2 0 0 0 0
    ∧ encode (.gdiv rd rs1 rs2) = commandWord 0x12 rd rs1 rs2 0 0 0 0
    ∧ encode (.ginv rd rs1) = commandWord 0x13 rd rs1 0 0 0 0 0
    ∧ encode (.gexp rd rs1) = commandWord 0x14 rd rs1 0 0 0 0 0
    ∧ encode (.glog rd rs1) = commandWord 0x15 rd rs1 0 0 0 0 0
    ∧ (∃ t, exec (.gadd rd rs1 rs2) s = .next t ∧ WritesX s t rd ((a ^^^ b).setWidth 32))
    ∧ (∃ t, exec (.gmul rd rs1 rs2) s = .next t ∧ WritesX s t rd ((gfMul a b).setWidth 32))
    ∧ (∃ t, exec (.gexp rd rs1) s = .next t
        ∧ WritesX s t rd ((expAt ((s.getX rs1).toInt % 255).toNat).setWidth 32))
    ∧ (b ≠ 0 → ∃ t q, exec (.gdiv rd rs1 rs2) s = .next t ∧ gfDiv a b = some q
        ∧ WritesX s t rd (q.setWidth 32))
    ∧ (b = 0 → ∃ t, exec (.gdiv rd rs1 rs2) s = .next t
        ∧ Raises s t .divByZero (encode (.gdiv rd rs1 rs2)) (a.setWidth 32))
    ∧ (a ≠ 0 → ∃ t q, exec (.ginv rd rs1) s = .next t ∧ gfMul q a = 1 ∧ WritesX s t rd (q.setWidth 32))
    ∧ (a = 0 → ∃ t, exec (.ginv rd rs1) s = .next t
        ∧ Raises s t .divByZero (encode (.ginv rd rs1)) 0)
    ∧ (a ≠ 0 → ∃ t n, exec (.glog rd rs1) s = .next t ∧ n < 255 ∧ expAt n = a
        ∧ WritesX s t rd (BitVec.ofNat 32 n))
    ∧ (a = 0 → ∃ t, exec (.glog rd rs1) s = .next t
        ∧ Raises s t .logOfZero (encode (.glog rd rs1)) 0)

/-! ## Polynomials and the Reed-Solomon encoder -/

/-- R212, R213: PEVAL writes the value of the content at the point; PMUL produces the product, of
na + nb − 1 coefficients, and raises LENGTH for an empty operand or a product of more than 256. -/
def Obligations.PolynomialCommands : Prop :=
  ∀ (s : State) (rd rs1 : XReg) (bd ba bb : BReg) (a b : List Byte),
    encode (.peval rd ba rs1) = commandWord 0x20 rd rs1 0 0 ba 0 0
    ∧ encode (.pmul bd ba bb) = commandWord 0x21 0 0 0 bd ba bb 0
    ∧ (s.Holds ba a → ∃ t, exec (.peval rd ba rs1) s = .next t
        ∧ WritesX s t rd ((pevalHf a ((s.getX rs1).setWidth 8)).setWidth 32))
    ∧ (s.Holds ba a → s.Holds bb b → a ≠ [] → b ≠ [] → a.length + b.length - 1 ≤ 256 →
        ∃ t, exec (.pmul bd ba bb) s = .next t
          ∧ WritesB s t bd 0 (pmul a b) (a.length + b.length - 1))
    ∧ (s.lenB ba = 0 ∨ s.lenB bb = 0 → ∃ t, exec (.pmul bd ba bb) s = .next t
        ∧ Raises s t .length (encode (.pmul bd ba bb)) 0)
    ∧ (s.lenB ba ≠ 0 → s.lenB bb ≠ 0 → 256 < s.lenB ba + s.lenB bb - 1 →
        ∃ t, exec (.pmul bd ba bb) s = .next t
          ∧ Raises s t .length (encode (.pmul bd ba bb)) (BitVec.ofNat 32 (s.lenB ba + s.lenB bb - 1)))

/-- R210, R211, R252: Horner's value at α^i is the power sum over the degrees of the coefficients, and the
product's coefficients are the convolution. -/
def Obligations.HornerAndConvolution : Prop :=
  (∀ (p : List Byte) (i : Nat), pevalHf p (gfExp i) =
    (List.range p.length).foldl
      (fun y k => y ^^^ gfMul (p.getD k 0) (gfExp (i * (p.length - 1 - k) : Nat))) 0)
  ∧ ∀ a b : List Byte, a ≠ [] → b ≠ [] → (pmul a b).length = a.length + b.length - 1
    ∧ ∀ n : Nat, n < a.length + b.length - 1 → (pmul a b)[n]? = some
        ((List.range (n + 1)).foldl (fun c i => c ^^^ gfMul (a.getD i 0) (b.getD (n - i) 0)) 0)

/-- pmul is commutative and associative, has [1] as identity, and evaluation turns it into the field
product: what the spec infers, in R214, from R211 and R197. -/
def Obligations.ProductLaws : Prop :=
  ∀ a b c : List Byte, a ≠ [] → b ≠ [] → c ≠ [] →
    pmul a b = pmul b a ∧ pmul (pmul a b) c = pmul a (pmul b c) ∧ pmul [1] a = a
    ∧ ∀ x : Byte, pevalHf (pmul a b) x = gfMul (pevalHf a x) (pevalHf b x)

/-- R232, R233: RSGEN produces the generator and RSENC the remainder, of n codewords; a count over 255 or a
block over 255 codewords raises LENGTH. -/
def Obligations.EncoderCommands : Prop :=
  ∀ (s : State) (bd ba : BReg) (n : Nat) (d : List Byte), n < 512 →
    encode (.rsgen bd n) = commandWord 0x30 0 0 0 bd 0 0 n
    ∧ encode (.rsenc bd ba n) = commandWord 0x31 0 0 0 bd ba 0 n
    ∧ (n ≤ 255 → ∃ t, exec (.rsgen bd n) s = .next t ∧ WritesB s t bd 0 (rsGen n) (n + 1))
    ∧ (255 < n → ∃ t, exec (.rsgen bd n) s = .next t
        ∧ Raises s t .length (encode (.rsgen bd n)) (BitVec.ofNat 32 n))
    ∧ (s.Holds ba d → d.length + n ≤ 255 →
        ∃ t, exec (.rsenc bd ba n) s = .next t ∧ WritesB s t bd 0 (rsRem d n) n)
    ∧ (255 < n → ∃ t, exec (.rsenc bd ba n) s = .next t
        ∧ Raises s t .length (encode (.rsenc bd ba n)) (BitVec.ofNat 32 n))
    ∧ (n ≤ 255 → 255 < s.lenB ba + n → ∃ t, exec (.rsenc bd ba n) s = .next t
        ∧ Raises s t .length (encode (.rsenc bd ba n)) (BitVec.ofNat 32 (s.lenB ba + n)))

/-- The generator of n codewords has n + 1 coefficients and leads with 1 (R230), and vanishes at α^0, …,
α^(n−1); data followed by its remainder, n codewords, vanishes there too, and is a multiple of the
generator: what the spec infers, in R234, from R230 and R231. -/
def Obligations.EncodedBlockIsACodeword : Prop :=
  ∀ (d : List Byte) (n : Nat), (rsGen n).length = n + 1 ∧ (rsGen n).head? = some 1
    ∧ (∀ i : Nat, i < n → pevalHf (rsGen n) (gfExp i) = 0)
    ∧ (rsRem d n).length = n
    ∧ (∀ i : Nat, i < n → pevalHf (d ++ rsRem d n) (gfExp i) = 0)
    ∧ (d ≠ [] → ∃ q, q.length = d.length ∧ pmul q (rsGen n) = d ++ rsRem d n)

/-! ## Reed-Solomon decoder -/

/-- R260, R259, R252: RSSYN checks the block and ec in order, then starts the block: the counts, the cleared
result, the syndromes, and NO_ERROR (counted in the aggregate, R258) or SYNDROME_READY. -/
def Obligations.SyndromeStep : Prop :=
  ∀ (s : State) (ba : BReg) (ec : Nat) (r : List Byte), ec < 512 →
    encode (.rssyn ba ec) = commandWord 0x40 0 0 0 0 ba 0 ec
    ∧ (s.lenB ba = 0 ∨ 255 < s.lenB ba → ∃ t, exec (.rssyn ba ec) s = .next t
        ∧ Raises s t .length (encode (.rssyn ba ec)) (BitVec.ofNat 32 (s.lenB ba)))
    ∧ (1 ≤ s.lenB ba → s.lenB ba ≤ 255 → (ec = 0 ∨ s.lenB ba < ec) → ∃ t, exec (.rssyn ba ec) s = .next t
        ∧ Raises s t .length (encode (.rssyn ba ec)) (BitVec.ofNat 32 ec))
    ∧ (s.Holds ba r → 1 ≤ r.length → r.length ≤ 255 → 1 ≤ ec → ec ≤ r.length →
        let syn := (List.range ec).map (fun i => pevalHf r (gfExp i))
        ∃ t, exec (.rssyn ba ec) s = .next t
          ∧ t.rs.syn.holds 0 syn ∧ s.rs.syn.sameOutside t.rs.syn 0 ec
          ∧ ((∀ x ∈ syn, x = 0) → WritesRs s t { s.rs with
              nmsg := r.length, nsyn := ec, ldeg := 0, npos := 0, reason := .noReason, detected := 0
              maxcorr := ec / 2, corrected := 0, syn := t.rs.syn, rsst := .noError
              aggn := min (s.rs.aggn + 1) 0xFFFF, aggv := min (s.rs.aggv + 1) 0xFFFF })
          ∧ ((∃ x ∈ syn, x ≠ 0) → WritesRs s t { s.rs with
              nmsg := r.length, nsyn := ec, ldeg := 0, npos := 0, reason := .noReason, detected := 0
              maxcorr := ec / 2, corrected := 0, syn := t.rs.syn, rsst := .syndromeReady }))

/-- R261, R262, R254, R255: RSBM computes Λ and L from the syndromes in state 1; RSCHIEN lists, in state 2, the
array indices N−1−i with Λ(α^(−i)) = 0 in increasing i, and more than ⌊NSYN/2⌋ of them end the block with
EXCEEDS_CAPACITY, counted in the aggregate (R258). In any other state each raises SEQUENCE with the
state. -/
def Obligations.LocatorAndPositionSteps : Prop :=
  encode .rsbm = 0x41000000 ∧ encode .rschien = 0x42000000 ∧ ∀ (s : State) (syn lam : List Byte),
    (s.rs.rsst ≠ .syndromeReady → ∃ t, exec .rsbm s = .next t
        ∧ Raises s t .sequence (encode .rsbm) (BitVec.ofNat 32 s.rs.rsst.toNat))
    ∧ (s.rs.rsst = .syndromeReady → syn.length = s.rs.nsyn → s.rs.syn.holds 0 syn →
        ∃ t, exec .rsbm s = .next t
          ∧ t.rs.lambda.holds 0 (bm syn).1
          ∧ s.rs.lambda.sameOutside t.rs.lambda 0 ((bm syn).2 + 1)
          ∧ WritesRs s t { s.rs with
              lambda := t.rs.lambda, ldeg := (bm syn).2, rsst := .locatorReady })
    ∧ (s.rs.rsst ≠ .locatorReady → ∃ t, exec .rschien s = .next t
        ∧ Raises s t .sequence (encode .rschien) (BitVec.ofNat 32 s.rs.rsst.toNat))
    ∧ (s.rs.rsst = .locatorReady → lam.length = s.rs.ldeg + 1 → s.rs.lambda.holds 0 lam →
        let roots := (List.range s.rs.nmsg).filter
          (fun (i : Nat) => pevalHf lam.reverse (gfExp (-(i : Int))) = 0)
        let p := roots.map (fun i => s.rs.nmsg - 1 - i)
        ∃ t, exec .rschien s = .next t
          ∧ t.rs.pos.holds 0 (p.map (BitVec.ofNat 8)) ∧ s.rs.pos.sameOutside t.rs.pos 0 p.length
          ∧ (p.length ≤ s.rs.nsyn / 2 → WritesRs s t { s.rs with
              pos := t.rs.pos, npos := p.length, detected := p.length, rsst := .positionsReady })
          ∧ (s.rs.nsyn / 2 < p.length → WritesRs s t { s.rs with
              pos := t.rs.pos, npos := p.length, detected := p.length, rsst := .failed
              reason := .exceedsCapacity, aggn := min (s.rs.aggn + 1) 0xFFFF, allok := false }))

/-- What the algorithm of R253 returns is a locator for its syndromes (the spec takes deg C ≤ L there from
general knowledge): Λ_0 = 1, L + 1 coefficients, L at
most their number, and every syndrome from S_L on is the combination of the L before it that Λ gives. -/
def Obligations.LocatorGeneratesSyndromes : Prop :=
  ∀ syn : List Byte, (bm syn).1.length = (bm syn).2 + 1 ∧ (bm syn).2 ≤ syn.length
    ∧ (bm syn).1[0]? = some 1
    ∧ ∀ n : Nat, (bm syn).2 ≤ n → n < syn.length →
        (List.range ((bm syn).2 + 1)).foldl
          (fun c k => c ^^^ gfMul ((bm syn).1.getD k 0) (syn.getD (n - k) 0)) 0 = 0

/-- R263, R256: RSFORNEY computes X_p·Ω(X_p⁻¹)/Λ'(X_p⁻¹) position by position. It writes the `n` magnitudes
before the first zero denominator; if there is one, the block ends with DERIVATIVE_ZERO, counted in the
aggregate. -/
def Obligations.MagnitudeStep : Prop :=
  encode .rsforney = 0x43000000 ∧ ∀ (s : State) (syn lam : List Byte) (pos : List Byte),
    (s.rs.rsst ≠ .positionsReady → ∃ t, exec .rsforney s = .next t
        ∧ Raises s t .sequence (encode .rsforney) (BitVec.ofNat 32 s.rs.rsst.toNat))
    ∧ (s.rs.rsst = .positionsReady → syn.length = s.rs.nsyn → s.rs.syn.holds 0 syn →
        lam.length = s.rs.ldeg + 1 → s.rs.lambda.holds 0 lam →
        pos.length = s.rs.npos → s.rs.pos.holds 0 pos →
        let omega := (pmul syn lam).take (2 * (s.rs.nsyn / 2))
        let lam' := (List.range s.rs.ldeg).map (fun k => if k % 2 = 0 then lam.getD (k + 1) 0 else 0)
        let deg (k : Nat) : Int := (s.rs.nmsg : Int) - 1 - (pos.getD k 0).toNat
        let den (k : Nat) : Byte := pevalHf lam'.reverse (gfExp (-(deg k)))
        ∀ n : Nat, n ≤ s.rs.npos → (∀ k : Nat, k < n → den k ≠ 0) → (n < s.rs.npos → den n = 0) →
          ∃ t mag, exec .rsforney s = .next t ∧ mag.length = n
            ∧ (∀ k : Nat, k < n → ∃ q, gfDiv (pevalHf omega.reverse (gfExp (-(deg k)))) (den k) = some q
                ∧ mag[k]? = some (gfMul (gfExp (deg k)) q))
            ∧ t.rs.mag.holds 0 mag ∧ s.rs.mag.sameOutside t.rs.mag 0 n
            ∧ (n = s.rs.npos → WritesRs s t { s.rs with mag := t.rs.mag, rsst := .magnitudesReady })
            ∧ (n < s.rs.npos → WritesRs s t { s.rs with
                mag := t.rs.mag, rsst := .failed, reason := .derivativeZero
                aggn := min (s.rs.aggn + 1) 0xFFFF, allok := false }))

/-- R264, R257: RSAPPLY XORs the magnitudes at the positions and keeps the corrected block only when every
residual syndrome is 0; otherwise the buffer keeps the received block and the block ends with
VERIFY_FAILED. Both ends are counted in the aggregate. -/
def Obligations.ApplyStep : Prop :=
  ∀ (s : State) (ba : BReg) (r pos mag : List Byte),
    encode (.rsapply ba) = commandWord 0x44 0 0 0 0 ba 0 0
    ∧ (s.rs.rsst ≠ .magnitudesReady → ∃ t, exec (.rsapply ba) s = .next t
        ∧ Raises s t .sequence (encode (.rsapply ba)) (BitVec.ofNat 32 s.rs.rsst.toNat))
    ∧ (s.rs.rsst = .magnitudesReady → s.lenB ba ≠ s.rs.nmsg → ∃ t, exec (.rsapply ba) s = .next t
        ∧ Raises s t .length (encode (.rsapply ba)) (BitVec.ofNat 32 (s.lenB ba)))
    ∧ (s.rs.rsst = .magnitudesReady → s.lenB ba = s.rs.nmsg → s.Holds ba r →
        pos.length = s.rs.npos → s.rs.pos.holds 0 pos → mag.length = s.rs.npos → s.rs.mag.holds 0 mag →
        let c := (pos.zip mag).foldl (fun c pm => c.modify pm.1.toNat (fun x => x ^^^ pm.2)) r
        let ok : RsUnit := { s.rs with
          corrected := s.rs.npos, rsst := .corrected
          aggn := min (s.rs.aggn + 1) 0xFFFF, aggv := min (s.rs.aggv + 1) 0xFFFF }
        let bad : RsUnit := { s.rs with
          reason := .verifyFailed, rsst := .failed, aggn := min (s.rs.aggn + 1) 0xFFFF, allok := false }
        ((∀ i : Nat, i < s.rs.nsyn → pevalHf c (gfExp i) = 0) → ∃ t, exec (.rsapply ba) s = .next t
            ∧ WritesB { s with rs := ok } t ba 0 c s.rs.nmsg)
        ∧ ((∃ i : Nat, i < s.rs.nsyn ∧ pevalHf c (gfExp i) ≠ 0) → ∃ t, exec (.rsapply ba) s = .next t
            ∧ WritesRs s t bad))

/-- R265: RSDEC is one command with the effect of the five in sequence: the same unit, buffers and fault,
one completion, no report; its checks are RSSYN's, and it never raises SEQUENCE. -/
def Obligations.WholeBlockIsTheFiveSteps : Prop :=
  ∀ (s : State) (ba : BReg) (ec : Nat), ec < 512 →
    encode (.rsdec ba ec) = commandWord 0x45 0 0 0 0 ba 0 ec
    ∧ (s.lenB ba = 0 ∨ 255 < s.lenB ba → ∃ t, exec (.rsdec ba ec) s = .next t
        ∧ Raises s t .length (encode (.rsdec ba ec)) (BitVec.ofNat 32 (s.lenB ba)))
    ∧ (1 ≤ s.lenB ba → s.lenB ba ≤ 255 → (ec = 0 ∨ s.lenB ba < ec) → ∃ t, exec (.rsdec ba ec) s = .next t
        ∧ Raises s t .length (encode (.rsdec ba ec)) (BitVec.ofNat 32 ec))
    ∧ (1 ≤ s.lenB ba → s.lenB ba ≤ 255 → 1 ≤ ec → ec ≤ s.lenB ba →
        (∀ t, fiveSteps ba ec s = .next t → ∃ u, exec (.rsdec ba ec) s = .next u
          ∧ Completed s u ∧ u = { t with ctl := u.ctl })
        ∧ ∀ f, fiveSteps ba ec s = .fault f → exec (.rsdec ba ec) s = .fault f)

/-- R257, R251, R265: on every readable block RSDEC completes in NO_ERROR, CORRECTED or FAILED; NO_ERROR
leaves a block whose syndromes are all 0, CORRECTED leaves one that differs from the received block in at
most ⌊ec/2⌋ codewords and whose syndromes are all 0, FAILED leaves the received block. -/
def Obligations.DecodedBlockIsVerified : Prop :=
  ∀ (s : State) (ba : BReg) (ec : Nat) (r : List Byte), s.Holds ba r → 1 ≤ r.length → r.length ≤ 255 →
    1 ≤ ec → ec ≤ r.length →
    let isCodeword (c : List Byte) : Prop := ∀ i : Nat, i < ec → pevalHf c (gfExp i) = 0
    ∃ t c, exec (.rsdec ba ec) s = .next t ∧ Completed s t ∧ t.Holds ba c
      ∧ ((t.rs.rsst = .noError ∧ c = r ∧ isCodeword r)
        ∨ (t.rs.rsst = .corrected ∧ isCodeword c ∧ ¬ isCodeword r ∧ t.rs.corrected ≤ ec / 2
            ∧ ((List.range r.length).filter (fun k => c.getD k 0 ≠ r.getD k 0)).length ≤ t.rs.corrected)
        ∨ (t.rs.rsst = .failed ∧ c = r ∧ ¬ isCodeword r ∧ t.rs.reason ≠ .noReason))

/-- R251: RSST moves only as the state machine says: a command that does not raise takes it to one of the
states the table lists for the pair, and a pair the table does not list raises SEQUENCE. -/
def Obligations.DecoderStateMachine : Prop :=
  ∀ (i : Instr) (s t : State), exec i s = .next t →
    (rsMoves i s.rs.rsst = [] → Raises s t .sequence (encode i) (BitVec.ofNat 32 s.rs.rsst.toNat))
    ∧ (t.rs.rsst ∈ rsMoves i s.rs.rsst ∨ ∃ code data, Raises s t code (encode i) data)

/-- R258, R53: the aggregate changes exactly when a decoder command brings the block to a terminal state, and
on AGGCLR: AGGN counts it, AGGV counts it when it is NO_ERROR or CORRECTED, FAILED clears ALLOK; both
counters stop at 0xFFFF. -/
def Obligations.AggregateCountsTerminalBlocks : Prop :=
  ∀ (i : Instr) (s t : State), exec i s = .next t → i ≠ .aggclr →
    let isStep := i = .rschien ∨ i = .rsforney ∨ (∃ ba ec, i = .rssyn ba ec) ∨ (∃ ba, i = .rsapply ba)
      ∨ ∃ ba ec, i = .rsdec ba ec
    let ends := isStep ∧ t.rs.rsst.terminal = true ∧ ¬ ∃ code data, Raises s t code (encode i) data
    (ends →
      t.rs.aggn = min (s.rs.aggn + 1) 0xFFFF
      ∧ t.rs.aggv = (if t.rs.rsst = .failed then s.rs.aggv else min (s.rs.aggv + 1) 0xFFFF)
      ∧ t.rs.allok = (s.rs.allok && t.rs.rsst != .failed))
    ∧ (¬ ends → t.rs.aggn = s.rs.aggn ∧ t.rs.aggv = s.rs.aggv ∧ t.rs.allok = s.rs.allok)

/-- The correction law for one error, which the spec states of R252 to R257 from general knowledge (R266): a
codeword with one codeword changed, ec at least 2, is corrected to it by RSDEC,
which reports one correction. -/
def Obligations.OneErrorIsCorrected : Prop :=
  ∀ (s : State) (ba : BReg) (ec : Nat) (c : List Byte) (p : Nat) (e : Byte), c.length ≤ 255 → 2 ≤ ec →
    ec ≤ c.length → (∀ i : Nat, i < ec → pevalHf c (gfExp i) = 0) → p < c.length → e ≠ 0 →
    s.Holds ba (c.modify p (fun x => x ^^^ e)) →
    ∃ t, exec (.rsdec ba ec) s = .next t ∧ t.rs.rsst = .corrected ∧ t.rs.corrected = 1 ∧ t.Holds ba c

/-- The correction law, which the spec states of R252 to R257 from general knowledge (R266): a codeword with
at most ⌊ec/2⌋ codewords changed is decoded to it by RSDEC: NO_ERROR when none is,
CORRECTED with their number otherwise. -/
def Obligations.ErrorsWithinCapacityAreCorrected : Prop :=
  ∀ (s : State) (ba : BReg) (ec : Nat) (c r : List Byte), 1 ≤ ec → ec ≤ c.length → c.length ≤ 255 →
    (∀ i : Nat, i < ec → pevalHf c (gfExp i) = 0) → r.length = c.length → s.Holds ba r →
    let changed := ((List.range c.length).filter (fun k => c.getD k 0 ≠ r.getD k 0)).length
    changed ≤ ec / 2 →
    ∃ t, exec (.rsdec ba ec) s = .next t ∧ t.Holds ba c ∧ t.rs.corrected = changed
      ∧ t.rs.rsst = if changed = 0 then .noError else .corrected

/-! ## BCH -/

/-- R300, R301: prem is the remainder of the division over GF(2): shorter than the divisor, and v minus a sum of
shifts of g. The encoded words are the data bits followed by the check bits that make them divisible by
the generator, the format word masked with 0x5412. -/
def Obligations.BchWordsAreDivisible : Prop :=
  (∀ v g : Nat, 0 < g → prem v g < 2 ^ g.log2
    ∧ ∃ shifts : List Nat, v = shifts.foldl (fun a k => a ^^^ (g <<< k)) (prem v g))
  ∧ (∀ d : Nat, d < 2 ^ 5 → fmtEnc d < 2 ^ 15 ∧ (fmtEnc d ^^^ 0x5412) / 2 ^ 10 = d
    ∧ prem (fmtEnc d ^^^ 0x5412) 0x537 = 0)
  ∧ ∀ v : Nat, v < 2 ^ 6 → verEnc v < 2 ^ 18 ∧ verEnc v / 2 ^ 12 = v ∧ prem (verEnc v) 0x1F25 = 0

/-- R310 to R315, R303: the BCH commands write rd and nothing else, from the low bits of their sources: the
encoded word; the packed result, its bits 14:12 zero; for FMTSEL and VERSEL the better of two decoded
locations, which is the one that decodes, of two the one with fewer flips, a tie going to location 1. -/
def Obligations.BchCommands : Prop :=
  ∀ (s : State) (rd rs1 rs2 : XReg),
    let n := (s.getX rs1).toNat
    let m := (s.getX rs2).toNat
    let choice (a b : BchResult) : Nat :=
      if b.ok ∧ (¬ a.ok ∨ b.errcnt < a.errcnt) then packedNat b true a.ok b.ok
      else packedNat a false a.ok b.ok
    encode (.bchfe rd rs1) = commandWord 0x50 rd rs1 0 0 0 0 0
    ∧ encode (.bchfd rd rs1) = commandWord 0x51 rd rs1 0 0 0 0 0
    ∧ encode (.bchve rd rs1) = commandWord 0x52 rd rs1 0 0 0 0 0
    ∧ encode (.bchvd rd rs1) = commandWord 0x53 rd rs1 0 0 0 0 0
    ∧ encode (.fmtsel rd rs1 rs2) = commandWord 0x54 rd rs1 rs2 0 0 0 0
    ∧ encode (.versel rd rs1 rs2) = commandWord 0x55 rd rs1 rs2 0 0 0 0
    ∧ (∃ t, exec (.bchfe rd rs1) s = .next t ∧ WritesX s t rd (BitVec.ofNat 32 (fmtEnc (n % 2 ^ 5))))
    ∧ (∃ t, exec (.bchfd rd rs1) s = .next t ∧ WritesX s t rd
        (BitVec.ofNat 32 (packedNat (fmtDec (n % 2 ^ 15)) false false false)))
    ∧ (∃ t, exec (.bchve rd rs1) s = .next t ∧ WritesX s t rd (BitVec.ofNat 32 (verEnc (n % 2 ^ 6))))
    ∧ (∃ t, exec (.bchvd rd rs1) s = .next t ∧ WritesX s t rd
        (BitVec.ofNat 32 (packedNat (verDec (n % 2 ^ 18)) false false false)))
    ∧ (∃ t, exec (.fmtsel rd rs1 rs2) s = .next t ∧ WritesX s t rd
        (BitVec.ofNat 32 (choice (fmtDec (n % 2 ^ 15)) (fmtDec (m % 2 ^ 15)))))
    ∧ ∃ t, exec (.versel rd rs1 rs2) s = .next t ∧ WritesX s t rd
        (BitVec.ofNat 32 (choice (verDec (n % 2 ^ 18)) (verDec (m % 2 ^ 18))))

/-- What the spec found by running R301 and R302 (R316): up to three flipped bits of a format word, up to two of a version word, are corrected, and counted;
no format word with four bits flipped is reported with fewer than three flips. `f` is the flip word. -/
def Obligations.BchCorrectionLaws : Prop :=
  (∀ d f : Nat, d < 2 ^ 5 → f < 2 ^ 15 → ones 15 f ≤ 3 → fmtDec (fmtEnc d ^^^ f) = ⟨true, d, ones 15 f⟩)
  ∧ (∀ d f : Nat, d < 2 ^ 5 → f < 2 ^ 15 → ones 15 f = 4 → (fmtDec (fmtEnc d ^^^ f)).ok = true →
      (fmtDec (fmtEnc d ^^^ f)).errcnt = 3)
  ∧ ∀ v f : Nat, v < 2 ^ 6 → f < 2 ^ 18 → ones 18 f ≤ 2 → verDec (verEnc v ^^^ f) = ⟨true, v, ones 18 f⟩

/-- R302: what a decoder returns with OK = 1 is a codeword's data, at the distance it counts, within the
search radius; with OK = 0 it returns zeros, and no codeword lies within the radius. -/
def Obligations.BchDecodersAnswerTheNearest : Prop :=
  (∀ w : Nat, w < 2 ^ 15 →
    ((fmtDec w).ok = true → (fmtDec w).data < 2 ^ 5 ∧ (fmtDec w).errcnt ≤ 3
      ∧ ones 15 (w ^^^ fmtEnc (fmtDec w).data) = (fmtDec w).errcnt)
    ∧ ((fmtDec w).ok = false → fmtDec w = ⟨false, 0, 0⟩ ∧ ∀ d : Nat, d < 2 ^ 5 → 3 < ones 15 (w ^^^ fmtEnc d)))
  ∧ ∀ w : Nat, w < 2 ^ 18 →
    ((verDec w).ok = true → (verDec w).data < 2 ^ 6 ∧ (verDec w).errcnt ≤ 2
      ∧ ones 18 (w ^^^ verEnc (verDec w).data) = (verDec w).errcnt)
    ∧ ((verDec w).ok = false → verDec w = ⟨false, 0, 0⟩ ∧ ∀ v : Nat, v < 2 ^ 6 → 2 < ones 18 (w ^^^ verEnc v))

/-! ## Bitstream -/

/-- R343, R344, R346: BSCLR empties the stream and clears the decode results and BSSTAT, BITS keeping its
contents; BSPUT and BSLOAD append, most significant bit first; a width of 0 or over 32 raises LENGTH,
bits past 32768 raise BIT_OVERFLOW with BLEN. -/
def Obligations.ClearingAndAppendingCommands : Prop :=
  ∀ (s : State) (rs1 : XReg) (ba : BReg) (n : Nat) (d : List Byte), n < 512 →
    encode .bsclr = 0x60000000
    ∧ encode (.bsput rs1 n) = commandWord 0x61 0 rs1 0 0 0 0 n
    ∧ encode (.bsload ba) = commandWord 0x63 0 0 0 0 ba 0 0
    ∧ (∃ t, exec .bsclr s = .next t ∧ Completed s t ∧ t = { s with
        ctl := t.ctl
        bs := ⟨s.bs.bits, 0, 0, .segmentOk, 0, .noStage, 0, 0, 0, false, 0⟩ })
    ∧ (n = 0 ∨ 32 < n → ∃ t, exec (.bsput rs1 n) s = .next t
        ∧ Raises s t .length (encode (.bsput rs1 n)) (BitVec.ofNat 32 n))
    ∧ (1 ≤ n → n ≤ 32 → 32768 < s.bs.blen + n → ∃ t, exec (.bsput rs1 n) s = .next t
        ∧ Raises s t .bitOverflow (encode (.bsput rs1 n)) (BitVec.ofNat 32 s.bs.blen))
    ∧ (1 ≤ n → n ≤ 32 → s.bs.blen + n ≤ 32768 → ∃ t, exec (.bsput rs1 n) s = .next t
        ∧ AppendsBits s t (fieldBits (s.getX rs1).toNat n))
    ∧ (32768 < s.bs.blen + 8 * s.lenB ba → ∃ t, exec (.bsload ba) s = .next t
        ∧ Raises s t .bitOverflow (encode (.bsload ba)) (BitVec.ofNat 32 s.bs.blen))
    ∧ (s.Holds ba d → s.bs.blen + 8 * d.length ≤ 32768 → ∃ t, exec (.bsload ba) s = .next t
        ∧ AppendsBits s t (d.flatMap byteBits))

/-- R345, R347, R340: BSGET reads the field at the cursor, most significant bit first, and moves the cursor
past it; BSSTORE produces the stream bytes from offset o on and leaves the cursor. A width of 0 or over 32
and a count over 256 raise LENGTH, too few bits BIT_UNDERFLOW with what is left, bytes not all below BLEN
INDEX with the offset. `v` is the number, `d` are the bytes whose bits the stream holds there. -/
def Obligations.StreamReads : Prop :=
  ∀ (s : State) (rd rs1 : XReg) (bd : BReg) (n v : Nat) (d : List Byte), n < 512 →
    let o := (s.getX rs1).toNat
    encode (.bsget rd n) = commandWord 0x62 rd 0 0 0 0 0 n
    ∧ encode (.bsstore bd rs1 n) = commandWord 0x64 0 rs1 0 bd 0 0 n
    ∧ (n = 0 ∨ 32 < n → ∃ t, exec (.bsget rd n) s = .next t
        ∧ Raises s t .length (encode (.bsget rd n)) (BitVec.ofNat 32 n))
    ∧ (1 ≤ n → n ≤ 32 → s.bs.blen - s.bs.rpos < n → ∃ t, exec (.bsget rd n) s = .next t
        ∧ Raises s t .bitUnderflow (encode (.bsget rd n)) (BitVec.ofNat 32 (s.bs.blen - s.bs.rpos)))
    ∧ (1 ≤ n → n ≤ 32 → v < 2 ^ n → s.StreamHolds s.bs.rpos (fieldBits v n) →
        ∃ t, exec (.bsget rd n) s = .next t
          ∧ WritesX { s with bs := { s.bs with rpos := s.bs.rpos + n } } t rd (BitVec.ofNat 32 v))
    ∧ (256 < n → ∃ t, exec (.bsstore bd rs1 n) s = .next t
        ∧ Raises s t .length (encode (.bsstore bd rs1 n)) (BitVec.ofNat 32 n))
    ∧ (n ≤ 256 → s.bs.blen < 8 * (o + n) → ∃ t, exec (.bsstore bd rs1 n) s = .next t
        ∧ Raises s t .index (encode (.bsstore bd rs1 n)) (s.getX rs1))
    ∧ (n ≤ 256 → d.length = n → s.StreamHolds (8 * o) (d.flatMap byteBits) →
        ∃ t, exec (.bsstore bd rs1 n) s = .next t ∧ WritesB s t bd 0 d n)

/-- R348, R349, R350: the payload, group by group from the start, in each mode, and its length; `val` is a
character's value. -/
def Obligations.PayloadEncoding : Prop :=
  let val (c : Byte) : Nat := alnumChars.idxOf c.toNat
  (∀ m, encodePayload m [] = [])
  ∧ (∀ (a b c : Byte) (rest : List Byte), (∀ x ∈ [a, b, c], validChar .numeric x) →
      encodePayload .numeric (a :: b :: c :: rest) =
        fieldBits (100 * (a.toNat - 0x30) + 10 * (b.toNat - 0x30) + (c.toNat - 0x30)) 10
          ++ encodePayload .numeric rest
      ∧ encodePayload .numeric [a, b] = fieldBits (10 * (a.toNat - 0x30) + (b.toNat - 0x30)) 7
      ∧ encodePayload .numeric [a] = fieldBits (a.toNat - 0x30) 4)
  ∧ (∀ (a b : Byte) (rest : List Byte), (∀ x ∈ [a, b], validChar .alnum x) →
      encodePayload .alnum (a :: b :: rest) = fieldBits (45 * val a + val b) 11 ++ encodePayload .alnum rest
      ∧ encodePayload .alnum [a] = fieldBits (val a) 6)
  ∧ (∀ (a : Byte) (rest : List Byte),
      encodePayload .byte (a :: rest) = byteBits a ++ encodePayload .byte rest)
  ∧ ∀ (m : Mode) (chars : List Byte), let c := chars.length
      (encodePayload m chars).length = (match m with
        | .numeric => 10 * (c / 3) + (if c % 3 = 2 then 7 else if c % 3 = 1 then 4 else 0)
        | .alnum => 11 * (c / 2) + 6 * (c % 2)
        | .byte => 8 * c)

/-- R352, R341, R342, R434: SEGENC's checks in their order, each with what it reports, and the segment it
appends: indicator, count, payload. -/
def Obligations.SegencAppendsOneSegment : Prop :=
  ∀ (s : State) (ba : BReg) (chars : List Byte) (m : Mode),
    let band := if s.ver ≤ 9 then 0 else if s.ver ≤ 26 then 1 else 2
    let w := match m with
      | .numeric => [10, 12, 14].getD band 0
      | .alnum => [9, 11, 13].getD band 0
      | .byte => [8, 16, 16].getD band 0
    let i : Instr := .segenc ba (modeIndicator m)
    encode i = commandWord 0x65 0 0 0 0 ba 0 (modeIndicator m)
    ∧ (∀ imm : Nat, imm < 512 → imm ∉ [1, 2, 4] → ∃ t, exec (.segenc ba imm) s = .next t
        ∧ Raises s t .reservedField (encode (.segenc ba imm)) (BitVec.ofNat 32 imm))
    ∧ (2 ^ w ≤ s.lenB ba → ∃ t, exec i s = .next t
        ∧ Raises s t .countOverflow (encode i) (BitVec.ofNat 32 (s.lenB ba)))
    ∧ (∀ (k : Nat) (b : Byte), s.lenB ba < 2 ^ w → k < s.lenB ba → (s.memB ba).read k = some b →
        ¬ validChar m b →
        (∀ j : Nat, j < k → ∃ a, (s.memB ba).read j = some a ∧ validChar m a) →
        ∃ t, exec i s = .next t ∧ Raises s t .invalidChar (encode i) (BitVec.ofNat 32 (2 ^ 8 * k + b.toNat)))
    ∧ (s.lenB ba < 2 ^ w → s.Holds ba chars → (∀ c ∈ chars, validChar m c) →
        let bits := fieldBits (modeIndicator m) 4 ++ fieldBits chars.length w ++ encodePayload m chars
        (32768 < s.bs.blen + bits.length → ∃ t, exec i s = .next t
          ∧ Raises s t .bitOverflow (encode i) (BitVec.ofNat 32 s.bs.blen))
        ∧ (s.bs.blen + bits.length ≤ 32768 → ∃ t, exec i s = .next t ∧ AppendsBits s t bits))

/-- R353, R354: BSTERM appends up to four zeros, as many as the capacity leaves; BSPAD appends zeros to the
byte boundary and the bytes EC, 11, EC, … up to the capacity exactly; a stream longer than the capacity
raises CAPACITY with BLEN. -/
def Obligations.TerminatorAndPadding : Prop :=
  encode .bsterm = 0x66000000 ∧ encode .bspad = 0x67000000 ∧ ∀ s : State,
    let cap := 8 * s.capb
    let zeros := (8 - s.bs.blen % 8) % 8
    let pads := (List.range ((cap - s.bs.blen - zeros) / 8)).map
      (fun k => if k % 2 = 0 then (0xEC : Byte) else 0x11)
    (cap < s.bs.blen → ∃ t, exec .bsterm s = .next t
        ∧ Raises s t .capacity (encode .bsterm) (BitVec.ofNat 32 s.bs.blen))
    ∧ (cap < s.bs.blen → ∃ t, exec .bspad s = .next t
        ∧ Raises s t .capacity (encode .bspad) (BitVec.ofNat 32 s.bs.blen))
    ∧ (s.bs.blen ≤ cap → ∃ t, exec .bsterm s = .next t
        ∧ AppendsBits s t (List.replicate (min 4 (cap - s.bs.blen)) false))
    ∧ (s.bs.blen ≤ cap → ∃ t, exec .bspad s = .next t ∧ t.bs.blen = cap
        ∧ AppendsBits s t (List.replicate zeros false ++ pads.flatMap byteBits))

/-- R359, the paths that decode no segment, in their order: EXHAUSTED, TERMINATOR, UNSUPPORTED_MODE,
INSUFFICIENT at the count and at the payload, OVERFLOW. X[rd] and SEGRES, SEGEXP, SEGAVL take the outcome,
the fields a path does not set are 0, and nothing else changes, the cursor only on TERMINATOR (R355). -/
def Obligations.SegdecReportsOutcomes : Prop :=
  ∀ (s : State) (rd : XReg) (bd : BReg),
    let i : Instr := .segdec rd bd
    let p := s.bs.rpos
    let out (st : SegStatus) (mode : Nat) (stage : SegStage) (cnt exp avl : Nat) : State := { s with bs :=
      { s.bs with segst := st, segmode := mode, segstage := stage, segcnt := cnt, segexp := exp, segavl := avl } }
    let ends (s' : State) (st : Nat) : Prop := ∃ t, exec i s = .next t ∧ WritesX s' t rd (BitVec.ofNat 32 st)
    encode i = commandWord 0x68 rd 0 0 bd 0 0 0
    ∧ (s.bs.blen - p < 4 → ends (out .exhausted 0 .noStage 0 4 (s.bs.blen - p)) 2)
    ∧ (s.StreamHolds p (fieldBits 0 4) →
        let o := out .terminator 0 .noStage 0 0 0
        ends { o with bs := { o.bs with rpos := p + 4, termseen := true } } 1)
    ∧ (∀ mode : Nat, mode < 16 → mode ∉ [0, 1, 2, 4] → s.StreamHolds p (fieldBits mode 4) →
        ends (out .unsupportedMode mode .noStage 0 0 0) 3)
    ∧ ∀ m : Mode, s.StreamHolds p (fieldBits (modeIndicator m) 4) →
        let w := cci m s.ver
        (s.bs.blen - (p + 4) < w →
          ends (out .insufficient (modeIndicator m) .count 0 w (s.bs.blen - (p + 4))) 4)
        ∧ ∀ c : Nat, c < 2 ^ w → s.StreamHolds (p + 4) (fieldBits c w) →
            let q := p + 4 + w
            (s.bs.blen - q < pbits m c →
              ends (out .insufficient (modeIndicator m) .payload c (pbits m c) (s.bs.blen - q)) 4)
            ∧ (pbits m c ≤ s.bs.blen - q → 256 < c →
              ends (out .overflow (modeIndicator m) .noStage c 0 0) 6)

/-- R359, R356, R357: a group value out of range is INVALID_VALUE: after `good`, whole groups of valid
characters, the next group of g characters holds a number of radix^g or more. The cursor and the buffer
stay. -/
def Obligations.SegdecRejectsInvalidGroups : Prop :=
  ∀ (s : State) (rd : XReg) (bd : BReg) (m : Mode) (c v : Nat) (good : List Byte),
    let w := cci m s.ver
    let q := s.bs.rpos + 4 + w
    let size := if m = .numeric then 3 else 2
    let radix := if m = .numeric then 10 else 45
    let g := min size (c - good.length)
    let width := match m, g with
      | .numeric, 3 => 10
      | .numeric, 2 => 7
      | .numeric, _ => 4
      | _, 2 => 11
      | _, _ => 6
    m ≠ .byte → c ≤ 256 → s.StreamHolds s.bs.rpos (fieldBits (modeIndicator m) 4 ++ fieldBits c w) →
    pbits m c ≤ s.bs.blen - q → good.length % size = 0 → good.length < c → (∀ x ∈ good, validChar m x) →
    radix ^ g ≤ v → v < 2 ^ width →
    s.StreamHolds q (encodePayload m good ++ fieldBits v width) →
    ∃ t, exec (.segdec rd bd) s = .next t
      ∧ WritesX { s with bs := { s.bs with
          segst := .invalidValue, segmode := modeIndicator m, segstage := .noStage
          segcnt := c, segexp := 0, segavl := 0 } } t rd 5

/-- R359, and what the spec infers from it and R352 in R363, for one segment: SEGDEC gives back the characters of any segment SEGENC can have appended,
with SEGMENT_OK, the cursor and DATABITS past it, DATABITS stopping at 0xFFFF. -/
def Obligations.SegdecReturnsTheSegment : Prop :=
  ∀ (s : State) (rd : XReg) (bd : BReg) (m : Mode) (chars : List Byte),
    let w := cci m s.ver
    let bits := fieldBits (modeIndicator m) 4 ++ fieldBits chars.length w ++ encodePayload m chars
    chars.length ≤ 256 → chars.length < 2 ^ w → (∀ c ∈ chars, validChar m c) →
    s.StreamHolds s.bs.rpos bits →
    ∃ t, exec (.segdec rd bd) s = .next t ∧ Completed s t
      ∧ t.Holds bd chars ∧ (s.memB bd).sameOutside (t.memB bd) 0 chars.length
      ∧ t.getX rd = 0
      ∧ t.bs = { s.bs with
          rpos := s.bs.rpos + bits.length
          databits := min 0xFFFF (s.bs.databits + bits.length)
          segst := .segmentOk, segmode := modeIndicator m, segstage := .noStage
          segcnt := chars.length, segexp := 0, segavl := 0 }

/-- R361: BSPADCHK counts, of the whole bytes from the first byte boundary at or after RPOS to the end of the
stream or the capacity, how many are EC, 11, EC, … in turn, and writes the count over their number. -/
def Obligations.BspadchkCountsPadBytes : Prop :=
  ∀ (s : State) (rd : XReg) (bytes : List Byte), s.Inv →
    let start := 8 * ((s.bs.rpos + 7) / 8)
    let stop := min s.bs.blen (8 * s.capb)
    let total := (stop - start) / 8
    let conforming := ((List.range total).filter
      (fun k => bytes.getD k 0 = if k % 2 = 0 then (0xEC : Byte) else 0x11)).length
    bytes.length = total → s.bs.bits.holds start (bytes.flatMap byteBits) →
    encode (.bspadchk rd) = commandWord 0x69 rd 0 0 0 0 0 0
    ∧ ∃ t, exec (.bspadchk rd) s = .next t
        ∧ WritesX s t rd (BitVec.ofNat 32 (2 ^ 16 * conforming + total))

/-! ## Zigzag -/

/-- R402, R403: ZZGEN lists the data cells of the traversal in its order, reads the roles of rows and columns
below SIZE(VER), column 6 apart, and writes ZZ and ZZCNT alone. The order, for a legal version: pair
number p, from the right, skipping column 6; row step j, upwards in even pairs; h = 0 the right column,
h = 1 the left. -/
def Obligations.ZzgenListsTheTraversal : Prop :=
  encode .zzgen = 0x70000000
  ∧ (∀ v : Nat, 1 ≤ v → v ≤ 40 → let size := 21 + 4 * (v - 1)
    (visited size).length = size * (size - 1)
    ∧ ∀ p j h : Nat, p < (size - 1) / 2 → j < size → h < 2 →
        let right := if 7 < size - 1 - 2 * p then size - 1 - 2 * p else size - 2 - 2 * p
        (visited size)[2 * size * p + 2 * j + h]? =
          some (if p % 2 = 0 then size - 1 - j else j, right - h))
  ∧ ∀ s : State,
    let size := 21 + 4 * (s.ver - 1)
    (∀ r c : Nat, r < size → c < size → c ≠ 6 → (s.zig.role.read (177 * r + c)).isSome = true) →
    let l := (visited size).filter (fun rc => s.zig.role.read (177 * rc.1 + rc.2) = some true)
    ∃ t, exec .zzgen s = .next t ∧ Completed s t
      ∧ t.zig.zz.holds 0 (l.map (fun rc => (BitVec.ofNat 8 rc.1, BitVec.ofNat 8 rc.2)))
      ∧ s.zig.zz.sameOutside t.zig.zz 0 l.length
      ∧ t = { s with ctl := t.ctl, zig := { s.zig with zz := t.zig.zz, zzcnt := l.length } }

/-- What the spec infers from R402 in R406 (a): after ZZGEN the entries are distinct, none is in column 6, and they are exactly the data cells of
the matrix outside column 6. -/
def Obligations.TraversalLaws : Prop :=
  ∀ s t : State, s.Inv → exec .zzgen s = .next t →
    let size := 21 + 4 * (s.ver - 1)
    t.zig.Consistent ∧ ∀ r c : Nat, r < 177 → c < 177 →
      ((∃ k, k < t.zig.zzcnt ∧ t.zig.zz.read k = some (BitVec.ofNat 8 r, BitVec.ofNat 8 c)) ↔
        (r < size ∧ c < size ∧ c ≠ 6 ∧ s.zig.role.read (177 * r + c) = some true))

/-- R404, R405: ZZPLACE writes stream bit k, or 0 past the end of the stream, to the k-th cell of ZZ, and no
other state; ZZREAD makes the modules at the cells of ZZ the stream, rewinds the cursor and clears BSSTAT,
SEGRES, SEGEXP, SEGAVL and the bits past ZZCNT staying. -/
def Obligations.PlaceAndReadModules : Prop :=
  encode .zzplace = 0x71000000 ∧ encode .zzread = 0x72000000
  ∧ (∀ s : State, s.Inv → s.zig.Consistent →
    (∀ k : Nat, k < min s.bs.blen s.zig.zzcnt → (s.bs.bits.read k).isSome = true) →
    ∃ t, exec .zzplace s = .next t ∧ Completed s t
      ∧ t = { s with ctl := t.ctl, zig := { s.zig with mod := t.zig.mod } }
      ∧ (∀ (k : Nat) (e : Byte × Byte), k < s.zig.zzcnt → s.zig.zz.read k = some e →
          t.zig.mod.read (177 * e.1.toNat + e.2.toNat) =
            if k < s.bs.blen then s.bs.bits.read k else some false)
      ∧ ∀ a : Nat, (∀ (k : Nat) (e : Byte × Byte), k < s.zig.zzcnt → s.zig.zz.read k = some e → 177 * e.1.toNat + e.2.toNat ≠ a) →
          t.zig.mod.read a = s.zig.mod.read a)
  ∧ ∀ s : State, s.zig.zz.written s.zig.zzcnt →
    (∀ (k : Nat) (e : Byte × Byte), k < s.zig.zzcnt → s.zig.zz.read k = some e →
      (s.zig.mod.read (177 * e.1.toNat + e.2.toNat)).isSome = true) →
    ∃ t, exec .zzread s = .next t ∧ Completed s t
      ∧ t = { s with ctl := t.ctl, bs := { s.bs with
          bits := t.bs.bits, blen := s.zig.zzcnt, rpos := 0, termseen := false, databits := 0 } }
      ∧ (∀ (k : Nat) (e : Byte × Byte), k < s.zig.zzcnt → s.zig.zz.read k = some e →
          t.bs.bits.read k = s.zig.mod.read (177 * e.1.toNat + e.2.toNat))
      ∧ s.bs.bits.sameOutside t.bs.bits 0 s.zig.zzcnt

/-- What the spec infers in R406 (b): ZZREAD after ZZPLACE gives the placed bits back. -/
def Obligations.PlacedBitsReadBack : Prop :=
  ∀ s t : State, s.Inv → s.zig.Consistent → exec .zzplace s = .next t →
    ∃ u, exec .zzread t = .next u ∧ u.bs.blen = s.zig.zzcnt
      ∧ ∀ k : Nat, k < min s.bs.blen s.zig.zzcnt → u.bs.bits.read k = s.bs.bits.read k

/-! ## The bus -/

/-- R82, R83, R88 and the register layouts of 10_state.md: with the engine idle, a read of each register of
the map returns its fields at their places, reserved bits 0, and changes nothing in the core; the word is
in the model's `rdata` (log entry 9). -/
def Obligations.RegisterReadsReturnTheirFields : Prop :=
  ∀ (s : State) (a v : Nat), s.Inv → s.ctl.running = none → (a, v) ∈ s.registerValues →
    s.atAction (.busRead (BitVec.ofNat 17 a) 4) →
    step s = .next { s with host := { s.host with pc := s.host.pc + 1, rdata := BitVec.ofNat 32 v } }

/-- R30, R33, R38, R41, R42, R44, R45, R88: a write with the engine idle sets a register to a legal value and
ignores an illegal one; a write to a read-only register is ignored. -/
def Obligations.RegisterWritesAreLegalized : Prop :=
  ∀ (s : State) (a : Nat) (v : Word), s.ctl.running = none →
    s.atAction (.busWrite (BitVec.ofNat 17 a) 4 v) →
    let s' : State := { s with host := { s.host with pc := s.host.pc + 1 } }
    let n := v.toNat
    (a = 0x0000C → step s = .next { s' with ctl := { s.ctl with
        doneie := v.getLsbD 0, errie := v.getLsbD 1 } })
    ∧ (a = 0x0001C → step s = .next { s' with ver := if 1 ≤ n ∧ n ≤ 40 then n else s.ver })
    ∧ (a = 0x00020 → step s = .next { s' with capb := if n ≤ 4096 then n else s.capb })
    ∧ (a = 0x00024 → step s = .next { s' with bs := { s.bs with
        blen := if n ≤ 32768 then n else s.bs.blen } })
    ∧ (a = 0x00028 → step s = .next { s' with bs := { s.bs with
        rpos := if n ≤ 32768 then n else s.bs.rpos } })
    ∧ (∀ r : XReg, a = 0x00040 + 4 * r.val → step s = .next { s' with x := s.x.set r v })
    ∧ (∀ b : BReg, a = 0x00060 + 4 * b.val → step s = .next { s' with
        len := s.len.set b (if n ≤ 256 then n else s.lenB b) })
    ∧ (a ∈ [0x00000, 0x00010, 0x00014, 0x00018, 0x0002C, 0x00030, 0x00034, 0x00038, 0x0003C, 0x00070,
        0x00074, 0x00078, 0x0007C, 0x00080] → step s = .next s')
    ∧ ((0x00500 ≤ a ∧ a < 0x00900) ∨ (0x10000 ≤ a ∧ a < 0x20000) → a % 4 = 0 → step s = .next s')

/-- R86, R89, R90, R92, R93, R94: a write of a buffer window's word q changes bytes 4q..4q+3, the low byte
first, and neither the length nor any other byte. A write of the BITS window's word q sets stream bits
32q..32q+31, byte 0 of the word first and each byte most significant bit first, and neither BLEN nor RPOS. A
write of ROLE or MOD word j of row r sets cells 32j.. of the row from bit 0 up, cells past column 176 ignored.
A read of a word whose cells are written returns them in the same order: of B0..B3, SYN, LAMBDA, POS and MAG,
byte 255 of SYN, POS and MAG reading 0; of BITS; of ROLE and MOD, cells past column 176 reading 0; and of ZZ,
entry 2q in the low half, row above column, entries from 31329 on reading 0. A read changes nothing in the
core, and the word is in the model's `rdata` (log entry 9). -/
def Obligations.WindowsKeepTheirOrder : Prop :=
  ∀ (s : State) (v : Word), s.ctl.running = none →
    let s' : State := { s with host := { s.host with pc := s.host.pc + 1 } }
    let returns (x : Word) : Prop := step s = .next { s' with host := { s'.host with rdata := x } }
    (∀ (b : BReg) (q : Nat), q < 64 →
      (s.atAction (.busWrite (BitVec.ofNat 17 (0x00100 + 0x100 * b.val + 4 * q)) 4 v) →
        ∃ t, step s = .next t ∧ t = { s' with buf := t.buf }
          ∧ (t.memB b).holds (4 * q)
              [v.extractLsb' 0 8, v.extractLsb' 8 8, v.extractLsb' 16 8, v.extractLsb' 24 8]
          ∧ (s.memB b).sameOutside (t.memB b) (4 * q) 4
          ∧ ∀ b', b' ≠ b → t.memB b' = s.memB b')
      ∧ ∀ b0 b1 b2 b3 : Byte, (s.memB b).holds (4 * q) [b0, b1, b2, b3] →
          s.atAction (.busRead (BitVec.ofNat 17 (0x00100 + 0x100 * b.val + 4 * q)) 4) →
          let w := b0.toNat + 2 ^ 8 * b1.toNat + 2 ^ 16 * b2.toNat + 2 ^ 24 * b3.toNat
          returns (BitVec.ofNat 32 w))
    ∧ (∀ q : Nat, q < 1024 → s.atAction (.busWrite (BitVec.ofNat 17 (0x01000 + 4 * q)) 4 v) →
      ∃ t, step s = .next t ∧ t = { s' with bs := { s.bs with bits := t.bs.bits } }
        ∧ (∀ m k : Nat, m < 4 → k < 8 → t.bs.bits.read (32 * q + 8 * m + k) = some (v.getLsbD (8 * m + 7 - k)))
        ∧ s.bs.bits.sameOutside t.bs.bits (32 * q) 32)
    ∧ (∀ r j : Nat, r < 177 → j < 6 → s.atAction (.busWrite (BitVec.ofNat 17 (0x02000 + 24 * r + 4 * j)) 4 v) →
      ∃ t, step s = .next t ∧ t = { s' with zig := { s.zig with role := t.zig.role } }
        ∧ (∀ c : Nat, 32 * j ≤ c → c < 32 * j + 32 → c < 177 →
            t.zig.role.read (177 * r + c) = some (v.getLsbD (c % 32)))
        ∧ s.zig.role.sameOutside t.zig.role (177 * r + 32 * j) (min 32 (177 - 32 * j)))
    ∧ (∀ r j : Nat, r < 177 → j < 6 → s.atAction (.busWrite (BitVec.ofNat 17 (0x04000 + 24 * r + 4 * j)) 4 v) →
      ∃ t, step s = .next t ∧ t = { s' with zig := { s.zig with mod := t.zig.mod } }
        ∧ (∀ c : Nat, 32 * j ≤ c → c < 32 * j + 32 → c < 177 →
            t.zig.mod.read (177 * r + c) = some (v.getLsbD (c % 32)))
        ∧ s.zig.mod.sameOutside t.zig.mod (177 * r + 32 * j) (min 32 (177 - 32 * j)))
    ∧ (∀ (base cap : Nat) (mem : Memory Byte) (q : Nat) (b : Nat → Byte),
        (base, cap, mem) ∈ [(0x00500, 255, s.rs.syn), (0x00600, 256, s.rs.lambda), (0x00700, 255, s.rs.pos),
          (0x00800, 255, s.rs.mag)] → q < 64 →
        s.atAction (.busRead (BitVec.ofNat 17 (base + 4 * q)) 4) →
        (∀ k : Nat, k < 4 → if 4 * q + k < cap then mem.read (4 * q + k) = some (b k) else b k = 0) →
        returns (BitVec.ofNat 32
          ((b 0).toNat + 2 ^ 8 * (b 1).toNat + 2 ^ 16 * (b 2).toNat + 2 ^ 24 * (b 3).toNat)))
    ∧ (∀ q : Nat, q < 1024 → s.atAction (.busRead (BitVec.ofNat 17 (0x01000 + 4 * q)) 4) →
        (∀ k : Nat, k < 32 → (s.bs.bits.read (32 * q + k)).isSome = true) →
        ∃ x : Word, returns x
          ∧ ∀ m k : Nat, m < 4 → k < 8 → s.bs.bits.read (32 * q + 8 * m + k) = some (x.getLsbD (8 * m + 7 - k)))
    ∧ (∀ (base : Nat) (mem : Memory Bool) (r j : Nat),
        (base, mem) ∈ [(0x02000, s.zig.role), (0x04000, s.zig.mod)] → r < 177 → j < 6 →
        s.atAction (.busRead (BitVec.ofNat 17 (base + 24 * r + 4 * j)) 4) →
        (∀ c : Nat, 32 * j ≤ c → c < 32 * j + 32 → c < 177 → (mem.read (177 * r + c)).isSome = true) →
        ∃ x : Word, returns x ∧ ∀ d : Nat, d < 32 →
          if 32 * j + d < 177 then mem.read (177 * r + (32 * j + d)) = some (x.getLsbD d)
          else x.getLsbD d = false)
    ∧ ∀ q : Nat, q < 16384 → s.atAction (.busRead (BitVec.ofNat 17 (0x10000 + 4 * q)) 4) →
        (∀ k : Nat, 2 * q ≤ k → k < 2 * q + 2 → k < 31329 → (s.zig.zz.read k).isSome = true) →
        ∃ x : Word, returns x ∧ ∀ h : Nat, h < 2 →
          if 2 * q + h < 31329 then
            s.zig.zz.read (2 * q + h) = some (x.extractLsb' (16 * h + 8) 8, x.extractLsb' (16 * h) 8)
          else x.extractLsb' (16 * h) 16 = 0

/-- R85, R87, R82: a misaligned or non-32-bit access and an access to an unmapped address are bus errors; that
each stops the run with a fault of its own is the model's reading (log entry 8). Every other access finds a
register or a window and stops with neither. -/
def Obligations.BusErrorsStopTheRun : Prop :=
  ∀ (s : State) (addr : BitVec 17) (bytes : Nat) (v : Word),
    let a := addr.toNat
    let unmapped := (0x00084 ≤ a ∧ a < 0x00100) ∨ (0x00900 ≤ a ∧ a < 0x01000)
      ∨ (0x03098 ≤ a ∧ a < 0x04000) ∨ (0x05098 ≤ a ∧ a < 0x10000)
    let act (x : HostAction) : Prop := x = .busRead addr bytes ∨ x = .busWrite addr bytes v
    ∀ x, act x → s.atAction x →
      (bytes ≠ 4 ∨ a % 4 ≠ 0 → step s = .fault (.misalignedAccess addr bytes))
      ∧ (bytes = 4 → a % 4 = 0 → unmapped → step s = .fault (.unmappedAccess addr))
      ∧ (bytes = 4 → a % 4 = 0 → ¬ unmapped →
          step s ≠ .fault (.misalignedAccess addr bytes) ∧ step s ≠ .fault (.unmappedAccess addr))

/-- R475, U2, R38: a read of any word while a command runs returns the word before the command or after it,
STATUS as it is (which of the two is a free choice, log entry 4, and the word is in `rdata`, log entry 9). A
write to a word the command uses is refused: STATUS, an operand register, an operand buffer's length, VER,
CAPB, BLEN, RPOS, or a word of a buffer, BITS, ROLE or MOD, where its operands or *Writes* line name it or a
cell in it, or it reads that on the path its checks take (that a failing check changes nothing of what the
operands and the *Writes* line name is the model's reading, log entry 5). A write to any other word takes place and only counts the
command down (log entry 2), and so does one to IRQEN (log entry 16). -/
def Obligations.BusyAccessesRespectTheHazard : Prop :=
  ∀ (s : State) (i : Instr) (n : Nat) (a : BitVec 17) (tgt : Target), 2 ≤ n →
    s.ctl.running = some ⟨encode i, n⟩ → i.wellFormed = true → busTarget a 4 = .ok tgt →
    (∀ t, s.atAction (.busRead a 4) → step s = .next t →
      s.readTarget tgt = .ok t.host.rdata
      ∨ ∃ u, exec i s.advance = .next u ∧ tgt ≠ .status ∧ u.readTarget tgt = .ok t.host.rdata)
    ∧ (∀ v, tgt ≠ .cmd → ((∃ row j, tgt = .modWord row j) → s.zig.zz.wf) → s.atAction (.busWrite a 4 v) →
        (usesWord i s tgt → step s = .refused (.writeToStateInUse a))
        ∧ (¬ usesWord i s tgt →
            let t := s.advance.writeTarget tgt v
            step s = .next { t with ctl := { t.ctl with running := some ⟨encode i, n - 1⟩ } }))
    ∧ ∀ v, tgt = .irqen → s.atAction (.busWrite a 4 v) → step s = .next { s with
        host := { s.host with pc := s.host.pc + 1 }
        ctl := { s.ctl with
          running := some ⟨encode i, n - 1⟩, doneie := v.getLsbD 0, errie := v.getLsbD 1 } }

/-! ## Reset and invariants -/

/-- R59, R470, R472: after reset every register reads its reset value and no array cell is written; a platform
reset gives every item of the core that value and abandons a running command, the host going on with its
next action (log entry 13). -/
def Obligations.ResetValues : Prop :=
  (∀ a v, (a, v) ∈ State.reset.registerValues →
    v = if a = 0x00000 then 0x51520007 else if a = 0x0001C then 1 else if a = 0x00080 then 1 else 0)
  ∧ State.reset.irq = false ∧ (∀ a k, State.reset.unwritten a k)
  ∧ ∀ s : State, s.atAction .platformReset →
    step s = .next { State.reset with host := { s.host with pc := s.host.pc + 1 } }

/-- Every step keeps the state one the core can hold: arrays in canonical form and within their bounds,
registers within their ranges and legal (R32, R33, R41 to R48, R50 to R56). -/
def Obligations.StepKeepsInvariant : Prop := ∀ s t : State, s.Inv → step s = .next t → t.Inv

/-- Every step keeps the decoder's registers and memories in agreement with its state (R49 to R53, R251), and the
coordinate list written, distinct and out of column 6 (R402). -/
def Obligations.StepKeepsUnitsConsistent : Prop :=
  (∀ s t : State, s.Inv → s.rs.Consistent → step s = .next t → t.rs.Consistent)
  ∧ ∀ s t : State, s.Inv → s.zig.Consistent → step s = .next t → t.zig.Consistent

/-- The state after reset meets the invariants. -/
def Obligations.ResetMeetsInvariants : Prop :=
  State.reset.Inv ∧ State.reset.rs.Consistent ∧ State.reset.zig.Consistent
end

