-- ==== Sys2Proof/Laws/Memory.lean ====
section
/-! SUPPORT. The array operations: what reads after a write, and that a write keeps the canonical form. -/

namespace Sys2Proof.Machine

theorem Memory.read_append {α : Type} (m m' : Memory α) (a : Nat) :
    Memory.read (m ++ m') a = (m.read a).or (Memory.read m' a) := by
  induction m with
  | nil => simp [Memory.read]
  | cons c m ih =>
    obtain ⟨j, v⟩ := c
    by_cases h : j = a <;> simp [Memory.read, h, ih]

theorem Memory.read_filter {α : Type} (m : Memory α) (p : Nat → Bool) (a : Nat) :
    Memory.read (m.filter (fun c => p c.1)) a = if p a then m.read a else none := by
  induction m with
  | nil => simp [Memory.read]
  | cons c m ih =>
    obtain ⟨j, v⟩ := c
    by_cases hp : p j = true
    · by_cases h : j = a
      · subst h; simp [Memory.read, hp]
      · simp [Memory.read, hp, h, ih]
    · by_cases h : j = a
      · subst h; simp [hp, ih]
      · simp [Memory.read, hp, h, ih]

theorem Memory.read_cellsFrom {α : Type} (k : Nat) (vs : List α) (a : Nat) :
    Memory.read (cellsFrom k vs) a = if k ≤ a then vs[a - k]? else none := by
  induction vs generalizing k with
  | nil => simp [cellsFrom, Memory.read]
  | cons v vs ih =>
    simp only [cellsFrom, Memory.read]
    by_cases h : k = a
    · subst h; simp
    · rw [if_neg h, ih]
      by_cases hk : k ≤ a
      · have : k + 1 ≤ a := by omega
        have e : a - k = (a - (k + 1)) + 1 := by omega
        simp [hk, this, e]
      · have : ¬ k + 1 ≤ a := by omega
        simp [hk, this]

/-- What a cell reads after a block write. -/
theorem Memory.read_writeBlock {α : Type} (m : Memory α) (k : Nat) (vs : List α) (a : Nat) :
    (m.writeBlock k vs).read a = if k ≤ a ∧ a < k + vs.length then vs[a - k]? else m.read a := by
  unfold Memory.writeBlock
  rw [Memory.read_append, Memory.read_append, Memory.read_filter m (fun i => decide (i < k)),
    Memory.read_cellsFrom, Memory.read_filter m (fun i => decide (k + vs.length ≤ i))]
  by_cases h1 : a < k
  · have : ¬ (k ≤ a ∧ a < k + vs.length) := by omega
    have h2 : ¬ k ≤ a := by omega
    have h3 : ¬ k + vs.length ≤ a := by omega
    simp [h1, h2, h3]
  · by_cases h2 : a < k + vs.length
    · have h3 : a - k < vs.length := by omega
      have h4 : k ≤ a := by omega
      have h5 : ¬ k + vs.length ≤ a := by omega
      simp [h1, h2, h4, h5, h3]
    · have h3 : vs.length ≤ a - k := by omega
      have h4 : k ≤ a := by omega
      have h5 : k + vs.length ≤ a := by omega
      simp [h1, h2, h4, h5, h3]

theorem Memory.holds_writeBlock {α : Type} (m : Memory α) (k : Nat) (vs : List α) :
    (m.writeBlock k vs).holds k vs := by
  intro j hj
  rw [Memory.read_writeBlock, if_pos (by omega), Nat.add_sub_cancel_left]

theorem Memory.sameOutside_writeBlock {α : Type} (m : Memory α) (k : Nat) (vs : List α) :
    m.sameOutside (m.writeBlock k vs) k vs.length := by
  intro a ha
  rw [Memory.read_writeBlock, if_neg (by omega)]

theorem mem_cellsFrom {α : Type} {k : Nat} {vs : List α} {c : Nat × α} (h : c ∈ cellsFrom k vs) :
    k ≤ c.1 ∧ c.1 < k + vs.length ∧ c.2 ∈ vs := by
  induction vs generalizing k with
  | nil => simp [cellsFrom] at h
  | cons v vs ih =>
    simp only [cellsFrom, List.mem_cons] at h
    rcases h with rfl | h
    · simp
    · obtain ⟨h1, h2, h3⟩ := ih h
      exact ⟨by omega, by simp only [List.length_cons]; omega, List.mem_cons_of_mem _ h3⟩

theorem cellsFrom_wf {α : Type} (k : Nat) (vs : List α) : Memory.wf (cellsFrom k vs) := by
  induction vs generalizing k with
  | nil => simp [cellsFrom]
  | cons v vs ih =>
    refine List.pairwise_cons.2 ⟨fun c hc => ?_, ih (k + 1)⟩
    have := (mem_cellsFrom hc).1
    show k < c.1
    omega

/-- Every write keeps the canonical form. -/
theorem Memory.wf_writeBlock {α : Type} {m : Memory α} (k : Nat) (vs : List α) (h : m.wf) :
    (m.writeBlock k vs).wf := by
  refine List.pairwise_append.2 ⟨List.pairwise_append.2
    ⟨List.Pairwise.filter _ h, cellsFrom_wf k vs, fun a ha b hb => ?_⟩,
    List.Pairwise.filter _ h, fun a ha b hb => ?_⟩
  · have h1 := (List.mem_filter.1 ha).2
    have h2 := (mem_cellsFrom hb).1
    simp only [decide_eq_true_eq] at h1
    omega
  · have h2 := (List.mem_filter.1 hb).2
    simp only [decide_eq_true_eq] at h2
    rcases List.mem_append.1 ha with ha | ha
    · have h1 := (List.mem_filter.1 ha).2
      simp only [decide_eq_true_eq] at h1
      omega
    · have h1 := (mem_cellsFrom ha).2.1
      omega

theorem Memory.wf_write {α : Type} {m : Memory α} (k : Nat) (v : α) (h : m.wf) : (m.write k v).wf :=
  Memory.wf_writeBlock k [v] h

/-- A write within the array lists only cells that exist. -/
theorem Memory.below_writeBlock {α : Type} {m : Memory α} {cap k : Nat} {vs : List α} (h : m.below cap)
    (hk : k + vs.length ≤ cap) : (m.writeBlock k vs).below cap := by
  intro c hc
  rcases List.mem_append.1 hc with hc | hc
  · rcases List.mem_append.1 hc with hc | hc
    · exact h c (List.mem_filter.1 hc).1
    · have := (mem_cellsFrom hc).2.1
      omega
  · exact h c (List.mem_filter.1 hc).1

/-- A listed cell of a written array is one of the new values or was listed before. -/
theorem Memory.mem_writeBlock {α : Type} {m : Memory α} {k : Nat} {vs : List α} {c : Nat × α}
    (h : c ∈ m.writeBlock k vs) : c ∈ m ∨ c.2 ∈ vs := by
  rcases List.mem_append.1 h with h | h
  · rcases List.mem_append.1 h with h | h
    · exact .inl (List.mem_filter.1 h).1
    · exact .inr (mem_cellsFrom h).2.2
  · exact .inl (List.mem_filter.1 h).1

theorem Memory.read_mem {α : Type} {m : Memory α} {k : Nat} {v : α} (h : m.read k = some v) : (k, v) ∈ m := by
  induction m with
  | nil => simp [Memory.read] at h
  | cons c m ih =>
    obtain ⟨j, w⟩ := c
    by_cases hj : j = k
    · subst hj
      simp only [Memory.read, if_true, Option.some.injEq] at h
      simp [h]
    · simp only [Memory.read, if_neg hj] at h
      exact List.mem_cons_of_mem _ (ih h)

theorem Memory.read_eq_some_of_mem {α : Type} {m : Memory α} (hw : m.wf) {c : Nat × α} (h : c ∈ m) :
    m.read c.1 = some c.2 := by
  induction m with
  | nil => simp at h
  | cons d m ih =>
    obtain ⟨j, w⟩ := d
    obtain ⟨hd, hm⟩ := List.pairwise_cons.1 hw
    rcases List.mem_cons.1 h with rfl | h
    · simp [Memory.read]
    · have : j < c.1 := hd c h
      rw [Memory.read, if_neg (by omega), ih hm h]

/-- Arrays in canonical form that read alike are equal. -/
theorem Memory.ext_of_wf {α : Type} {m m' : Memory α} (h : m.wf) (h' : m'.wf)
    (hr : ∀ a, m.read a = m'.read a) : m = m' := by
  induction m generalizing m' with
  | nil =>
    cases m' with
    | nil => rfl
    | cons d m' => have := hr d.1; simp [Memory.read] at this
  | cons c m ih =>
    cases m' with
    | nil => have := hr c.1; simp [Memory.read] at this
    | cons d m' =>
      obtain ⟨hc, hm⟩ := List.pairwise_cons.1 h
      obtain ⟨hd, hm'⟩ := List.pairwise_cons.1 h'
      have hc1 := Memory.read_eq_some_of_mem h (List.mem_cons_self (a := c) (l := m))
      have hd1 := Memory.read_eq_some_of_mem h' (List.mem_cons_self (a := d) (l := m'))
      have hcd : c.1 = d.1 := by
        rcases Nat.lt_trichotomy c.1 d.1 with hlt | he | hlt
        · rw [hr] at hc1
          rcases List.mem_cons.1 (Memory.read_mem hc1) with he | hmem
          · rw [← he]
          · have := hd _ hmem; simp only at this; omega
        · exact he
        · rw [← hr] at hd1
          rcases List.mem_cons.1 (Memory.read_mem hd1) with he | hmem
          · rw [← he]
          · have := hc _ hmem; simp only at this; omega
      have hv : c = d := by
        rw [hr, hcd, hd1] at hc1
        exact Prod.ext hcd (Option.some.inj hc1).symm
      subst hv
      congr 1
      refine ih hm hm' fun a => ?_
      by_cases ha : c.1 = a
      · subst ha
        have n1 : Memory.read m c.1 = none := by
          cases hx : Memory.read m c.1 with
          | none => rfl
          | some v => have := hc _ (Memory.read_mem hx); simp only at this; omega
        have n2 : Memory.read m' c.1 = none := by
          cases hx : Memory.read m' c.1 with
          | none => rfl
          | some v => have := hd _ (Memory.read_mem hx); simp only at this; omega
        rw [n1, n2]
      · have := hr a
        simpa [Memory.read, ha] using this

end Sys2Proof.Machine
end

