-- ==== Sys2Proof/Laws/Ops.lean ====
section
/-! SUPPORT. What the shared operations can do, one lemma each: finishing a command, reading cells in a row,
bit strings, and the lengths of lists. -/

namespace Sys2Proof.Machine

/-! ## Outcomes -/

theorem finish_eq_next {r : Except Fault State} {t : State} :
    finish r = .next t ↔ ∃ s, r = .ok s ∧ t = s.complete := by
  cases r with
  | error f => simp [finish]
  | ok s => simp [finish, eq_comm]

theorem finish_eq_fault {r : Except Fault State} {f : Fault} : finish r = .fault f ↔ r = .error f := by
  cases r <;> simp [finish]

theorem finish_ne_refused {r : Except Fault State} {e : Refusal} : finish r ≠ .refused e := by
  cases r <;> simp [finish]

theorem map_eq_ok {α β : Type} {r : Except Fault α} {f : α → β} {b : β} :
    r.map f = .ok b ↔ ∃ a, r = .ok a ∧ f a = b := by
  cases r <;> simp [Except.map]

theorem map_eq_error {α β : Type} {r : Except Fault α} {f : α → β} {e : Fault} :
    r.map f = .error e ↔ r = .error e := by
  cases r <;> simp [Except.map]

theorem bind_eq_ok {α β : Type} {r : Except Fault α} {f : α → Except Fault β} {b : β} :
    r.bind f = .ok b ↔ ∃ a, r = .ok a ∧ f a = .ok b := by
  cases r <;> simp [Except.bind]

theorem bind_eq_error {α β : Type} {r : Except Fault α} {f : α → Except Fault β} {e : Fault} :
    r.bind f = .error e ↔ r = .error e ∨ ∃ a, r = .ok a ∧ f a = .error e := by
  cases r <;> simp [Except.bind]

/-! ## Reading cells -/

theorem readCell_eq_ok {α : Type} {a : ArrayName} {m : Memory α} {k : Nat} {v : α} :
    readCell a m k = .ok v ↔ m.read k = some v := by
  unfold readCell
  cases m.read k <;> simp

theorem readCell_eq_error {α : Type} {a : ArrayName} {m : Memory α} {k : Nat} {f : Fault} :
    readCell a m k = .error f ↔ m.read k = none ∧ f = .unwrittenRead a k := by
  unfold readCell
  cases m.read k <;> simp [eq_comm]

/-- Reads in a row answer when every one of them does. -/
theorem readMany_eq_ok {α : Type} {read : Nat → Except Fault α} {k n : Nat} {vs : List α} :
    readMany read k n = .ok vs ↔ vs.length = n ∧ ∀ j v, vs[j]? = some v → read (k + j) = .ok v := by
  induction n generalizing k vs with
  | zero =>
    simp only [readMany, Except.ok.injEq, List.length_eq_zero_iff]
    constructor
    · rintro rfl; simp
    · rintro ⟨rfl, -⟩; rfl
  | succ n ih =>
    simp only [readMany, bind_eq_ok, map_eq_ok]
    constructor
    · rintro ⟨v, hv, ws, hws, rfl⟩
      obtain ⟨hl, hr⟩ := ih.1 hws
      refine ⟨by simp [hl], fun j w hj => ?_⟩
      cases j with
      | zero => simp at hj; subst hj; simpa using hv
      | succ j =>
        have := hr j w (by simpa using hj)
        rwa [Nat.add_assoc, Nat.add_comm 1 j] at this
    · rintro ⟨hl, hr⟩
      cases vs with
      | nil => simp at hl
      | cons v ws =>
        refine ⟨v, by simpa using hr 0 v (by simp), ws, ih.2 ⟨by simpa using hl, fun j w hj => ?_⟩, rfl⟩
        have := hr (j + 1) w (by simpa using hj)
        rwa [Nat.add_comm j 1, ← Nat.add_assoc] at this

/-- Reads in a row fail at the first that fails. -/
theorem readMany_eq_error {α : Type} {read : Nat → Except Fault α} {k n : Nat} {f : Fault} :
    readMany read k n = .error f ↔
      ∃ j, j < n ∧ read (k + j) = .error f ∧ ∀ i, i < j → ∃ v, read (k + i) = .ok v := by
  induction n generalizing k with
  | zero => simp [readMany]
  | succ n ih =>
    simp only [readMany, bind_eq_error, map_eq_error, ih]
    constructor
    · rintro (h | ⟨v, hv, j, hj, he, hi⟩)
      · exact ⟨0, by omega, by simpa using h, by omega⟩
      · refine ⟨j + 1, by omega, by rwa [Nat.add_assoc, Nat.add_comm 1 j] at he, fun i hij => ?_⟩
        cases i with
        | zero => exact ⟨v, by simpa using hv⟩
        | succ i =>
          obtain ⟨w, hw⟩ := hi i (by omega)
          exact ⟨w, by rwa [Nat.add_assoc, Nat.add_comm 1 i] at hw⟩
    · rintro ⟨j, hj, he, hi⟩
      cases j with
      | zero => exact .inl (by simpa using he)
      | succ j =>
        obtain ⟨v, hv⟩ := hi 0 (by omega)
        refine .inr ⟨v, by simpa using hv, j, by omega, ?_, fun i hij => ?_⟩
        · rwa [Nat.add_assoc, Nat.add_comm 1 j]
        · obtain ⟨w, hw⟩ := hi (i + 1) (by omega)
          exact ⟨w, by rwa [Nat.add_assoc, Nat.add_comm 1 i]⟩

theorem readBlock_eq_ok {α : Type} {a : ArrayName} {m : Memory α} {k n : Nat} {vs : List α} :
    readBlock a m k n = .ok vs ↔ vs.length = n ∧ m.holds k vs := by
  unfold readBlock
  rw [readMany_eq_ok]
  refine and_congr_right fun _ => ⟨fun h j hj => ?_, fun h j v hj => ?_⟩
  · rw [List.getElem?_eq_getElem hj]
    exact readCell_eq_ok.1 (h j _ (List.getElem?_eq_getElem hj))
  · obtain ⟨hl, rfl⟩ := List.getElem?_eq_some_iff.1 hj
    exact readCell_eq_ok.2 (by rw [h j hl, List.getElem?_eq_getElem hl])

theorem readBlock_eq_error {α : Type} {a : ArrayName} {m : Memory α} {k n : Nat} {f : Fault} :
    readBlock a m k n = .error f ↔ ∃ j, j < n ∧ m.read (k + j) = none ∧ f = .unwrittenRead a (k + j)
      ∧ ∀ i, i < j → ∃ v, m.read (k + i) = some v := by
  unfold readBlock
  simp only [readMany_eq_error, readCell_eq_error, readCell_eq_ok, and_assoc]

/-- A buffer's content is read when every byte of it is written. -/
theorem content_eq_ok {s : State} {b : BReg} {d : List Byte} : s.content b = .ok d ↔ s.Holds b d := by
  unfold State.content State.Holds
  rw [readBlock_eq_ok]

theorem contents_eq_ok {s : State} {ba bb : BReg} {p : List Byte × List Byte} :
    s.contents ba bb = .ok p ↔ s.Holds ba p.1 ∧ s.Holds bb p.2 := by
  unfold State.contents
  simp only [bind_eq_ok, map_eq_ok, content_eq_ok]
  constructor
  · rintro ⟨a, ha, b, hb, rfl⟩; exact ⟨ha, hb⟩
  · rintro ⟨ha, hb⟩; exact ⟨p.1, ha, p.2, hb, rfl⟩

/-! ## Bit strings -/

theorem length_bitsOf (v n : Nat) : (bitsOf v n).length = n := by simp [bitsOf]

theorem bitsOf_eq_fieldBits (v n : Nat) : bitsOf v n = fieldBits v n := rfl

theorem foldl_bits (bs : List Bool) (v : Nat) :
    bs.foldl (fun v b => 2 * v + b.toNat) v = v * 2 ^ bs.length + natOfBits bs := by
  unfold natOfBits
  induction bs generalizing v with
  | nil => simp
  | cons b bs ih =>
    simp only [List.foldl_cons, List.length_cons]
    rw [ih, ih (2 * 0 + b.toNat)]
    ring

theorem natOfBits_cons (b : Bool) (bs : List Bool) :
    natOfBits (b :: bs) = b.toNat * 2 ^ bs.length + natOfBits bs := by
  have := foldl_bits bs (2 * 0 + b.toNat)
  simpa [natOfBits] using this

theorem natOfBits_lt (bs : List Bool) : natOfBits bs < 2 ^ bs.length := by
  induction bs with
  | nil => simp [natOfBits]
  | cons b bs ih =>
    rw [natOfBits_cons, List.length_cons, pow_succ]
    cases b <;> simp <;> omega

/-- The bits of the number a bit string writes are the string. -/
theorem testBit_natOfBits (bs : List Bool) (j : Nat) (h : j < bs.length) :
    (natOfBits bs).testBit (bs.length - 1 - j) = bs[j] := by
  induction bs generalizing j with
  | nil => simp at h
  | cons b bs ih =>
    have hlt := natOfBits_lt bs
    rw [natOfBits_cons]
    cases j with
    | zero =>
      have he : bs.length + 1 - 1 - 0 = bs.length := by omega
      simp only [List.length_cons, he, List.getElem_cons_zero, Nat.mul_comm b.toNat]
      rw [Nat.testBit_two_pow_mul_add _ hlt, if_neg (by omega), Nat.sub_self]
      cases b <;> decide
    | succ j =>
      have hj : j < bs.length := by simpa using h
      have he : (b :: bs).length - 1 - (j + 1) = bs.length - 1 - j := by
        simp only [List.length_cons]; omega
      rw [he, List.getElem_cons_succ, Nat.mul_comm b.toNat,
        Nat.testBit_two_pow_mul_add _ hlt, if_pos (by omega), ih j hj]

theorem bitsOf_natOfBits (bs : List Bool) : bitsOf (natOfBits bs) bs.length = bs := by
  apply List.ext_getElem
  · simp [bitsOf]
  · intro j h1 h2
    simp only [bitsOf, List.getElem_map, List.getElem_range]
    exact testBit_natOfBits bs j h2

/-- A field reads back as the number written. -/
theorem natOfBits_bitsOf {v n : Nat} (h : v < 2 ^ n) : natOfBits (bitsOf v n) = v := by
  apply Nat.eq_of_testBit_eq
  intro i
  by_cases hi : i < n
  · have hj : n - 1 - i < (bitsOf v n).length := by rw [length_bitsOf]; omega
    have := testBit_natOfBits (bitsOf v n) (n - 1 - i) hj
    rw [length_bitsOf] at this
    have e : n - 1 - (n - 1 - i) = i := by omega
    rw [e] at this
    rw [this]
    simp only [bitsOf, List.getElem_map, List.getElem_range, e]
  · have h1 : natOfBits (bitsOf v n) < 2 ^ i := by
      have := natOfBits_lt (bitsOf v n)
      rw [length_bitsOf] at this
      exact lt_of_lt_of_le this (Nat.pow_le_pow_right (by omega) (by omega))
    rw [Nat.testBit_lt_two_pow h1, Nat.testBit_lt_two_pow
      (lt_of_lt_of_le h (Nat.pow_le_pow_right (by omega) (by omega)))]

theorem byteBits_eq_bitsOf (b : Byte) : byteBits b = bitsOf b.toNat 8 := by
  simp [byteBits, bitsOf, BitVec.getLsbD]

theorem bitsOfBytes_eq (d : List Byte) : bitsOfBytes d = d.flatMap byteBits := by
  have : byteBits = fun b : Byte => bitsOf b.toNat 8 := funext byteBits_eq_bitsOf
  rw [this]
  rfl

theorem length_bitsOfBytes (d : List Byte) : (bitsOfBytes d).length = 8 * d.length := by
  induction d with
  | nil => rfl
  | cons b d ih =>
    simp only [bitsOfBytes, List.flatMap_cons, List.length_append, length_bitsOf] at ih ⊢
    rw [ih, List.length_cons]
    ring

/-- A field of the stream is read when the stream holds its bits. -/
theorem peek_eq_ok {s : State} {p n v : Nat} :
    s.peek p n = .ok v ↔ v < 2 ^ n ∧ s.bs.bits.holds p (fieldBits v n) := by
  unfold State.peek
  simp only [map_eq_ok, readBlock_eq_ok]
  constructor
  · rintro ⟨bs, ⟨rfl, hb⟩, rfl⟩
    refine ⟨natOfBits_lt bs, ?_⟩
    rw [← bitsOf_eq_fieldBits, bitsOf_natOfBits]
    exact hb
  · rintro ⟨hv, hb⟩
    exact ⟨fieldBits v n, ⟨length_bitsOf v n, hb⟩, natOfBits_bitsOf hv⟩

/-! ## Lengths -/

theorem length_polyScale (c : Byte) (p : List Byte) : (polyScale c p).length = p.length := by
  simp [polyScale]

theorem length_polyAdd (p q : List Byte) : (polyAdd p q).length = max p.length q.length := by
  induction p generalizing q with
  | nil => simp [polyAdd]
  | cons a p ih =>
    cases q with
    | nil => simp [polyAdd]
    | cons b q => simp [polyAdd, ih]

theorem length_produce (s : State) (b : BReg) (d : List Byte) : (s.produce b d).lenB b = d.length := by
  simp [State.produce, State.setLen, State.lenB]

end Sys2Proof.Machine
end

