-- ==== Sys2Proof/Laws/PerInstr.lean ====
section
/-! SUPPORT. Statements about every command as syntax, one lemma a constructor (LAWS.json). -/

/-- The opcode map reads a command's own fields back as the command. -/
def Sys2Proof.Laws.AssembleFields.Statement (i : Sys2Proof.Instr) : Prop :=
  i.wellFormed = true → Sys2Proof.assemble i.fields = some i

namespace Sys2Proof.Laws.AssembleFields

theorem nop : Statement .nop := fun _ => rfl

theorem ldi (rd : XReg) (imm : Nat) : Statement (.ldi rd imm) := by
  intro h
  have : imm < 512 := by simpa [Instr.wellFormed, Instr.imm?] using h
  simp [assemble, Instr.fields, Nat.mod_eq_of_lt this]

theorem mov (rd : XReg) (rs1 : XReg) : Statement (.mov rd rs1) := fun _ => rfl

theorem xor (rd : XReg) (rs1 : XReg) (rs2 : XReg) : Statement (.xor rd rs1 rs2) := fun _ => rfl

theorem setlen (bd : BReg) (imm : Nat) : Statement (.setlen bd imm) := by
  intro h
  have : imm < 512 := by simpa [Instr.wellFormed, Instr.imm?] using h
  simp [assemble, Instr.fields, Nat.mod_eq_of_lt this]

theorem bget (rd : XReg) (ba : BReg) (rs1 : XReg) : Statement (.bget rd ba rs1) := fun _ => rfl

theorem bput (bd : BReg) (rs1 : XReg) (rs2 : XReg) : Statement (.bput bd rs1 rs2) := fun _ => rfl

theorem bcopy (bd : BReg) (ba : BReg) : Statement (.bcopy bd ba) := fun _ => rfl

theorem bcat (bd : BReg) (ba : BReg) (bb : BReg) : Statement (.bcat bd ba bb) := fun _ => rfl

theorem aggclr : Statement .aggclr := fun _ => rfl

theorem gadd (rd : XReg) (rs1 : XReg) (rs2 : XReg) : Statement (.gadd rd rs1 rs2) := fun _ => rfl

theorem gmul (rd : XReg) (rs1 : XReg) (rs2 : XReg) : Statement (.gmul rd rs1 rs2) := fun _ => rfl

theorem gdiv (rd : XReg) (rs1 : XReg) (rs2 : XReg) : Statement (.gdiv rd rs1 rs2) := fun _ => rfl

theorem ginv (rd : XReg) (rs1 : XReg) : Statement (.ginv rd rs1) := fun _ => rfl

theorem gexp (rd : XReg) (rs1 : XReg) : Statement (.gexp rd rs1) := fun _ => rfl

theorem glog (rd : XReg) (rs1 : XReg) : Statement (.glog rd rs1) := fun _ => rfl

theorem peval (rd : XReg) (ba : BReg) (rs1 : XReg) : Statement (.peval rd ba rs1) := fun _ => rfl

theorem pmul (bd : BReg) (ba : BReg) (bb : BReg) : Statement (.pmul bd ba bb) := fun _ => rfl

theorem rsgen (bd : BReg) (imm : Nat) : Statement (.rsgen bd imm) := by
  intro h
  have : imm < 512 := by simpa [Instr.wellFormed, Instr.imm?] using h
  simp [assemble, Instr.fields, Nat.mod_eq_of_lt this]

theorem rsenc (bd : BReg) (ba : BReg) (imm : Nat) : Statement (.rsenc bd ba imm) := by
  intro h
  have : imm < 512 := by simpa [Instr.wellFormed, Instr.imm?] using h
  simp [assemble, Instr.fields, Nat.mod_eq_of_lt this]

theorem rssyn (ba : BReg) (imm : Nat) : Statement (.rssyn ba imm) := by
  intro h
  have : imm < 512 := by simpa [Instr.wellFormed, Instr.imm?] using h
  simp [assemble, Instr.fields, Nat.mod_eq_of_lt this]

theorem rsbm : Statement .rsbm := fun _ => rfl

theorem rschien : Statement .rschien := fun _ => rfl

theorem rsforney : Statement .rsforney := fun _ => rfl

theorem rsapply (ba : BReg) : Statement (.rsapply ba) := fun _ => rfl

theorem rsdec (ba : BReg) (imm : Nat) : Statement (.rsdec ba imm) := by
  intro h
  have : imm < 512 := by simpa [Instr.wellFormed, Instr.imm?] using h
  simp [assemble, Instr.fields, Nat.mod_eq_of_lt this]

theorem bchfe (rd : XReg) (rs1 : XReg) : Statement (.bchfe rd rs1) := fun _ => rfl

theorem bchfd (rd : XReg) (rs1 : XReg) : Statement (.bchfd rd rs1) := fun _ => rfl

theorem bchve (rd : XReg) (rs1 : XReg) : Statement (.bchve rd rs1) := fun _ => rfl

theorem bchvd (rd : XReg) (rs1 : XReg) : Statement (.bchvd rd rs1) := fun _ => rfl

theorem fmtsel (rd : XReg) (rs1 : XReg) (rs2 : XReg) : Statement (.fmtsel rd rs1 rs2) := fun _ => rfl

theorem versel (rd : XReg) (rs1 : XReg) (rs2 : XReg) : Statement (.versel rd rs1 rs2) := fun _ => rfl

theorem bsclr : Statement .bsclr := fun _ => rfl

theorem bsput (rs1 : XReg) (imm : Nat) : Statement (.bsput rs1 imm) := by
  intro h
  have : imm < 512 := by simpa [Instr.wellFormed, Instr.imm?] using h
  simp [assemble, Instr.fields, Nat.mod_eq_of_lt this]

theorem bsget (rd : XReg) (imm : Nat) : Statement (.bsget rd imm) := by
  intro h
  have : imm < 512 := by simpa [Instr.wellFormed, Instr.imm?] using h
  simp [assemble, Instr.fields, Nat.mod_eq_of_lt this]

theorem bsload (ba : BReg) : Statement (.bsload ba) := fun _ => rfl

theorem bsstore (bd : BReg) (rs1 : XReg) (imm : Nat) : Statement (.bsstore bd rs1 imm) := by
  intro h
  have : imm < 512 := by simpa [Instr.wellFormed, Instr.imm?] using h
  simp [assemble, Instr.fields, Nat.mod_eq_of_lt this]

theorem segenc (ba : BReg) (imm : Nat) : Statement (.segenc ba imm) := by
  intro h
  have : imm < 512 := by simpa [Instr.wellFormed, Instr.imm?] using h
  simp [assemble, Instr.fields, Nat.mod_eq_of_lt this]

theorem bsterm : Statement .bsterm := fun _ => rfl

theorem bspad : Statement .bspad := fun _ => rfl

theorem segdec (rd : XReg) (bd : BReg) : Statement (.segdec rd bd) := fun _ => rfl

theorem bspadchk (rd : XReg) : Statement (.bspadchk rd) := fun _ => rfl

theorem zzgen : Statement .zzgen := fun _ => rfl

theorem zzplace : Statement .zzplace := fun _ => rfl

theorem zzread : Statement .zzread := fun _ => rfl

end Sys2Proof.Laws.AssembleFields
end

