-- ==== Sys2Proof/Laws/State.lean ====
section
/-! SUPPORT. One lemma for each field of the state after each operation that writes the state, and what the
register and buffer accessors answer after a write. -/

namespace Sys2Proof.Machine

/-! ## setX -/

@[simp] theorem State.setX_host (s : State) (r : XReg) (v : Word) : (s.setX r v).host = s.host := rfl
@[simp] theorem State.setX_ctl (s : State) (r : XReg) (v : Word) : (s.setX r v).ctl = s.ctl := rfl
@[simp] theorem State.setX_x (s : State) (r : XReg) (v : Word) : (s.setX r v).x = s.x.set r v := rfl
@[simp] theorem State.setX_len (s : State) (r : XReg) (v : Word) : (s.setX r v).len = s.len := rfl
@[simp] theorem State.setX_buf (s : State) (r : XReg) (v : Word) : (s.setX r v).buf = s.buf := rfl
@[simp] theorem State.setX_ver (s : State) (r : XReg) (v : Word) : (s.setX r v).ver = s.ver := rfl
@[simp] theorem State.setX_capb (s : State) (r : XReg) (v : Word) : (s.setX r v).capb = s.capb := rfl
@[simp] theorem State.setX_bs (s : State) (r : XReg) (v : Word) : (s.setX r v).bs = s.bs := rfl
@[simp] theorem State.setX_rs (s : State) (r : XReg) (v : Word) : (s.setX r v).rs = s.rs := rfl
@[simp] theorem State.setX_zig (s : State) (r : XReg) (v : Word) : (s.setX r v).zig = s.zig := rfl

/-! ## setXNat -/

@[simp] theorem State.setXNat_host (s : State) (r : XReg) (v : Nat) : (s.setXNat r v).host = s.host := rfl
@[simp] theorem State.setXNat_ctl (s : State) (r : XReg) (v : Nat) : (s.setXNat r v).ctl = s.ctl := rfl
@[simp] theorem State.setXNat_x (s : State) (r : XReg) (v : Nat) :
    (s.setXNat r v).x = s.x.set r (BitVec.ofNat 32 v) := rfl
@[simp] theorem State.setXNat_len (s : State) (r : XReg) (v : Nat) : (s.setXNat r v).len = s.len := rfl
@[simp] theorem State.setXNat_buf (s : State) (r : XReg) (v : Nat) : (s.setXNat r v).buf = s.buf := rfl
@[simp] theorem State.setXNat_ver (s : State) (r : XReg) (v : Nat) : (s.setXNat r v).ver = s.ver := rfl
@[simp] theorem State.setXNat_capb (s : State) (r : XReg) (v : Nat) : (s.setXNat r v).capb = s.capb := rfl
@[simp] theorem State.setXNat_bs (s : State) (r : XReg) (v : Nat) : (s.setXNat r v).bs = s.bs := rfl
@[simp] theorem State.setXNat_rs (s : State) (r : XReg) (v : Nat) : (s.setXNat r v).rs = s.rs := rfl
@[simp] theorem State.setXNat_zig (s : State) (r : XReg) (v : Nat) : (s.setXNat r v).zig = s.zig := rfl

/-! ## setXByte -/

@[simp] theorem State.setXByte_host (s : State) (r : XReg) (b : Byte) : (s.setXByte r b).host = s.host := rfl
@[simp] theorem State.setXByte_ctl (s : State) (r : XReg) (b : Byte) : (s.setXByte r b).ctl = s.ctl := rfl
@[simp] theorem State.setXByte_x (s : State) (r : XReg) (b : Byte) :
    (s.setXByte r b).x = s.x.set r b.toWord := rfl
@[simp] theorem State.setXByte_len (s : State) (r : XReg) (b : Byte) : (s.setXByte r b).len = s.len := rfl
@[simp] theorem State.setXByte_buf (s : State) (r : XReg) (b : Byte) : (s.setXByte r b).buf = s.buf := rfl
@[simp] theorem State.setXByte_ver (s : State) (r : XReg) (b : Byte) : (s.setXByte r b).ver = s.ver := rfl
@[simp] theorem State.setXByte_capb (s : State) (r : XReg) (b : Byte) : (s.setXByte r b).capb = s.capb := rfl
@[simp] theorem State.setXByte_bs (s : State) (r : XReg) (b : Byte) : (s.setXByte r b).bs = s.bs := rfl
@[simp] theorem State.setXByte_rs (s : State) (r : XReg) (b : Byte) : (s.setXByte r b).rs = s.rs := rfl
@[simp] theorem State.setXByte_zig (s : State) (r : XReg) (b : Byte) : (s.setXByte r b).zig = s.zig := rfl

/-! ## setLen -/

@[simp] theorem State.setLen_host (s : State) (b : BReg) (n : Nat) : (s.setLen b n).host = s.host := rfl
@[simp] theorem State.setLen_ctl (s : State) (b : BReg) (n : Nat) : (s.setLen b n).ctl = s.ctl := rfl
@[simp] theorem State.setLen_x (s : State) (b : BReg) (n : Nat) : (s.setLen b n).x = s.x := rfl
@[simp] theorem State.setLen_len (s : State) (b : BReg) (n : Nat) : (s.setLen b n).len = s.len.set b n := rfl
@[simp] theorem State.setLen_buf (s : State) (b : BReg) (n : Nat) : (s.setLen b n).buf = s.buf := rfl
@[simp] theorem State.setLen_ver (s : State) (b : BReg) (n : Nat) : (s.setLen b n).ver = s.ver := rfl
@[simp] theorem State.setLen_capb (s : State) (b : BReg) (n : Nat) : (s.setLen b n).capb = s.capb := rfl
@[simp] theorem State.setLen_bs (s : State) (b : BReg) (n : Nat) : (s.setLen b n).bs = s.bs := rfl
@[simp] theorem State.setLen_rs (s : State) (b : BReg) (n : Nat) : (s.setLen b n).rs = s.rs := rfl
@[simp] theorem State.setLen_zig (s : State) (b : BReg) (n : Nat) : (s.setLen b n).zig = s.zig := rfl

/-! ## writeB -/

@[simp] theorem State.writeB_host (s : State) (b : BReg) (k : Nat) (vs : List Byte) :
    (s.writeB b k vs).host = s.host := rfl
@[simp] theorem State.writeB_ctl (s : State) (b : BReg) (k : Nat) (vs : List Byte) :
    (s.writeB b k vs).ctl = s.ctl := rfl
@[simp] theorem State.writeB_x (s : State) (b : BReg) (k : Nat) (vs : List Byte) :
    (s.writeB b k vs).x = s.x := rfl
@[simp] theorem State.writeB_len (s : State) (b : BReg) (k : Nat) (vs : List Byte) :
    (s.writeB b k vs).len = s.len := rfl
@[simp] theorem State.writeB_buf (s : State) (b : BReg) (k : Nat) (vs : List Byte) :
    (s.writeB b k vs).buf = s.buf.set b ((s.memB b).writeBlock k vs) := rfl
@[simp] theorem State.writeB_ver (s : State) (b : BReg) (k : Nat) (vs : List Byte) :
    (s.writeB b k vs).ver = s.ver := rfl
@[simp] theorem State.writeB_capb (s : State) (b : BReg) (k : Nat) (vs : List Byte) :
    (s.writeB b k vs).capb = s.capb := rfl
@[simp] theorem State.writeB_bs (s : State) (b : BReg) (k : Nat) (vs : List Byte) :
    (s.writeB b k vs).bs = s.bs := rfl
@[simp] theorem State.writeB_rs (s : State) (b : BReg) (k : Nat) (vs : List Byte) :
    (s.writeB b k vs).rs = s.rs := rfl
@[simp] theorem State.writeB_zig (s : State) (b : BReg) (k : Nat) (vs : List Byte) :
    (s.writeB b k vs).zig = s.zig := rfl

/-! ## produce -/

@[simp] theorem State.produce_host (s : State) (b : BReg) (vs : List Byte) :
    (s.produce b vs).host = s.host := rfl
@[simp] theorem State.produce_ctl (s : State) (b : BReg) (vs : List Byte) : (s.produce b vs).ctl = s.ctl := rfl
@[simp] theorem State.produce_x (s : State) (b : BReg) (vs : List Byte) : (s.produce b vs).x = s.x := rfl
@[simp] theorem State.produce_len (s : State) (b : BReg) (vs : List Byte) :
    (s.produce b vs).len = s.len.set b vs.length := rfl
@[simp] theorem State.produce_buf (s : State) (b : BReg) (vs : List Byte) :
    (s.produce b vs).buf = s.buf.set b ((s.memB b).writeBlock 0 vs) := rfl
@[simp] theorem State.produce_ver (s : State) (b : BReg) (vs : List Byte) : (s.produce b vs).ver = s.ver := rfl
@[simp] theorem State.produce_capb (s : State) (b : BReg) (vs : List Byte) :
    (s.produce b vs).capb = s.capb := rfl
@[simp] theorem State.produce_bs (s : State) (b : BReg) (vs : List Byte) : (s.produce b vs).bs = s.bs := rfl
@[simp] theorem State.produce_rs (s : State) (b : BReg) (vs : List Byte) : (s.produce b vs).rs = s.rs := rfl
@[simp] theorem State.produce_zig (s : State) (b : BReg) (vs : List Byte) : (s.produce b vs).zig = s.zig := rfl

/-! ## report -/

@[simp] theorem State.report_host (s : State) (c : ErrCode) (w d : Word) :
    (s.report c w d).host = s.host := rfl
@[simp] theorem State.report_ctl (s : State) (c : ErrCode) (w d : Word) :
    (s.report c w d).ctl = { s.ctl with
        eovf := s.ctl.eovf || s.ctl.err, err := true, errcode := c, errcmd := w, errdata := d } := rfl
@[simp] theorem State.report_x (s : State) (c : ErrCode) (w d : Word) : (s.report c w d).x = s.x := rfl
@[simp] theorem State.report_len (s : State) (c : ErrCode) (w d : Word) : (s.report c w d).len = s.len := rfl
@[simp] theorem State.report_buf (s : State) (c : ErrCode) (w d : Word) : (s.report c w d).buf = s.buf := rfl
@[simp] theorem State.report_ver (s : State) (c : ErrCode) (w d : Word) : (s.report c w d).ver = s.ver := rfl
@[simp] theorem State.report_capb (s : State) (c : ErrCode) (w d : Word) :
    (s.report c w d).capb = s.capb := rfl
@[simp] theorem State.report_bs (s : State) (c : ErrCode) (w d : Word) : (s.report c w d).bs = s.bs := rfl
@[simp] theorem State.report_rs (s : State) (c : ErrCode) (w d : Word) : (s.report c w d).rs = s.rs := rfl
@[simp] theorem State.report_zig (s : State) (c : ErrCode) (w d : Word) : (s.report c w d).zig = s.zig := rfl

/-! ## raise -/

@[simp] theorem State.raise_host (s : State) (i : Instr) (c : ErrCode) (d : Nat) :
    (s.raise i c d).host = s.host := rfl
@[simp] theorem State.raise_ctl (s : State) (i : Instr) (c : ErrCode) (d : Nat) :
    (s.raise i c d).ctl = (s.report c (encode i) (BitVec.ofNat 32 d)).ctl := rfl
@[simp] theorem State.raise_x (s : State) (i : Instr) (c : ErrCode) (d : Nat) : (s.raise i c d).x = s.x := rfl
@[simp] theorem State.raise_len (s : State) (i : Instr) (c : ErrCode) (d : Nat) :
    (s.raise i c d).len = s.len := rfl
@[simp] theorem State.raise_buf (s : State) (i : Instr) (c : ErrCode) (d : Nat) :
    (s.raise i c d).buf = s.buf := rfl
@[simp] theorem State.raise_ver (s : State) (i : Instr) (c : ErrCode) (d : Nat) :
    (s.raise i c d).ver = s.ver := rfl
@[simp] theorem State.raise_capb (s : State) (i : Instr) (c : ErrCode) (d : Nat) :
    (s.raise i c d).capb = s.capb := rfl
@[simp] theorem State.raise_bs (s : State) (i : Instr) (c : ErrCode) (d : Nat) :
    (s.raise i c d).bs = s.bs := rfl
@[simp] theorem State.raise_rs (s : State) (i : Instr) (c : ErrCode) (d : Nat) :
    (s.raise i c d).rs = s.rs := rfl
@[simp] theorem State.raise_zig (s : State) (i : Instr) (c : ErrCode) (d : Nat) :
    (s.raise i c d).zig = s.zig := rfl

/-! ## clearStatus -/

@[simp] theorem State.clearStatus_host (s : State) (w : Word) : (s.clearStatus w).host = s.host := rfl
@[simp] theorem State.clearStatus_ctl (s : State) (w : Word) :
    (s.clearStatus w).ctl = { s.ctl with
        done := s.ctl.done && !w.getLsbD 1
        err := s.ctl.err && !w.getLsbD 2
        eovf := s.ctl.eovf && !w.getLsbD 3 } := rfl
@[simp] theorem State.clearStatus_x (s : State) (w : Word) : (s.clearStatus w).x = s.x := rfl
@[simp] theorem State.clearStatus_len (s : State) (w : Word) : (s.clearStatus w).len = s.len := rfl
@[simp] theorem State.clearStatus_buf (s : State) (w : Word) : (s.clearStatus w).buf = s.buf := rfl
@[simp] theorem State.clearStatus_ver (s : State) (w : Word) : (s.clearStatus w).ver = s.ver := rfl
@[simp] theorem State.clearStatus_capb (s : State) (w : Word) : (s.clearStatus w).capb = s.capb := rfl
@[simp] theorem State.clearStatus_bs (s : State) (w : Word) : (s.clearStatus w).bs = s.bs := rfl
@[simp] theorem State.clearStatus_rs (s : State) (w : Word) : (s.clearStatus w).rs = s.rs := rfl
@[simp] theorem State.clearStatus_zig (s : State) (w : Word) : (s.clearStatus w).zig = s.zig := rfl

/-! ## writeIrqen -/

@[simp] theorem State.writeIrqen_host (s : State) (w : Word) : (s.writeIrqen w).host = s.host := rfl
@[simp] theorem State.writeIrqen_ctl (s : State) (w : Word) :
    (s.writeIrqen w).ctl = { s.ctl with doneie := w.getLsbD 0, errie := w.getLsbD 1 } := rfl
@[simp] theorem State.writeIrqen_x (s : State) (w : Word) : (s.writeIrqen w).x = s.x := rfl
@[simp] theorem State.writeIrqen_len (s : State) (w : Word) : (s.writeIrqen w).len = s.len := rfl
@[simp] theorem State.writeIrqen_buf (s : State) (w : Word) : (s.writeIrqen w).buf = s.buf := rfl
@[simp] theorem State.writeIrqen_ver (s : State) (w : Word) : (s.writeIrqen w).ver = s.ver := rfl
@[simp] theorem State.writeIrqen_capb (s : State) (w : Word) : (s.writeIrqen w).capb = s.capb := rfl
@[simp] theorem State.writeIrqen_bs (s : State) (w : Word) : (s.writeIrqen w).bs = s.bs := rfl
@[simp] theorem State.writeIrqen_rs (s : State) (w : Word) : (s.writeIrqen w).rs = s.rs := rfl
@[simp] theorem State.writeIrqen_zig (s : State) (w : Word) : (s.writeIrqen w).zig = s.zig := rfl

/-! ## accept -/

@[simp] theorem State.accept_host (s : State) (w : Word) (n : Nat) : (s.accept w n).host = s.host := rfl
@[simp] theorem State.accept_ctl (s : State) (w : Word) (n : Nat) :
    (s.accept w n).ctl = { s.ctl with running := some ⟨w, n⟩, done := false } := rfl
@[simp] theorem State.accept_x (s : State) (w : Word) (n : Nat) : (s.accept w n).x = s.x := rfl
@[simp] theorem State.accept_len (s : State) (w : Word) (n : Nat) : (s.accept w n).len = s.len := rfl
@[simp] theorem State.accept_buf (s : State) (w : Word) (n : Nat) : (s.accept w n).buf = s.buf := rfl
@[simp] theorem State.accept_ver (s : State) (w : Word) (n : Nat) : (s.accept w n).ver = s.ver := rfl
@[simp] theorem State.accept_capb (s : State) (w : Word) (n : Nat) : (s.accept w n).capb = s.capb := rfl
@[simp] theorem State.accept_bs (s : State) (w : Word) (n : Nat) : (s.accept w n).bs = s.bs := rfl
@[simp] theorem State.accept_rs (s : State) (w : Word) (n : Nat) : (s.accept w n).rs = s.rs := rfl
@[simp] theorem State.accept_zig (s : State) (w : Word) (n : Nat) : (s.accept w n).zig = s.zig := rfl

/-! ## complete -/

@[simp] theorem State.complete_host (s : State) : (s.complete).host = s.host := rfl
@[simp] theorem State.complete_ctl (s : State) :
    (s.complete).ctl = { s.ctl with running := none, done := true, cmdcnt := s.ctl.cmdcnt + 1 } := rfl
@[simp] theorem State.complete_x (s : State) : (s.complete).x = s.x := rfl
@[simp] theorem State.complete_len (s : State) : (s.complete).len = s.len := rfl
@[simp] theorem State.complete_buf (s : State) : (s.complete).buf = s.buf := rfl
@[simp] theorem State.complete_ver (s : State) : (s.complete).ver = s.ver := rfl
@[simp] theorem State.complete_capb (s : State) : (s.complete).capb = s.capb := rfl
@[simp] theorem State.complete_bs (s : State) : (s.complete).bs = s.bs := rfl
@[simp] theorem State.complete_rs (s : State) : (s.complete).rs = s.rs := rfl
@[simp] theorem State.complete_zig (s : State) : (s.complete).zig = s.zig := rfl

/-! ## appendBits -/

@[simp] theorem State.appendBits_host (s : State) (l : List Bool) : (s.appendBits l).host = s.host := rfl
@[simp] theorem State.appendBits_ctl (s : State) (l : List Bool) : (s.appendBits l).ctl = s.ctl := rfl
@[simp] theorem State.appendBits_x (s : State) (l : List Bool) : (s.appendBits l).x = s.x := rfl
@[simp] theorem State.appendBits_len (s : State) (l : List Bool) : (s.appendBits l).len = s.len := rfl
@[simp] theorem State.appendBits_buf (s : State) (l : List Bool) : (s.appendBits l).buf = s.buf := rfl
@[simp] theorem State.appendBits_ver (s : State) (l : List Bool) : (s.appendBits l).ver = s.ver := rfl
@[simp] theorem State.appendBits_capb (s : State) (l : List Bool) : (s.appendBits l).capb = s.capb := rfl
@[simp] theorem State.appendBits_bs (s : State) (l : List Bool) :
    (s.appendBits l).bs = { s.bs with
        bits := s.bs.bits.writeBlock s.bs.blen l, blen := s.bs.blen + l.length } := rfl
@[simp] theorem State.appendBits_rs (s : State) (l : List Bool) : (s.appendBits l).rs = s.rs := rfl
@[simp] theorem State.appendBits_zig (s : State) (l : List Bool) : (s.appendBits l).zig = s.zig := rfl

/-! ## advance -/

@[simp] theorem State.advance_host (s : State) : (s.advance).host = { s.host with pc := s.host.pc + 1 } := rfl
@[simp] theorem State.advance_ctl (s : State) : (s.advance).ctl = s.ctl := rfl
@[simp] theorem State.advance_x (s : State) : (s.advance).x = s.x := rfl
@[simp] theorem State.advance_len (s : State) : (s.advance).len = s.len := rfl
@[simp] theorem State.advance_buf (s : State) : (s.advance).buf = s.buf := rfl
@[simp] theorem State.advance_ver (s : State) : (s.advance).ver = s.ver := rfl
@[simp] theorem State.advance_capb (s : State) : (s.advance).capb = s.capb := rfl
@[simp] theorem State.advance_bs (s : State) : (s.advance).bs = s.bs := rfl
@[simp] theorem State.advance_rs (s : State) : (s.advance).rs = s.rs := rfl
@[simp] theorem State.advance_zig (s : State) : (s.advance).zig = s.zig := rfl

/-! ## setRdata -/

@[simp] theorem State.setRdata_host (s : State) (v : Word) :
    (s.setRdata v).host = { s.host with rdata := v } := rfl
@[simp] theorem State.setRdata_ctl (s : State) (v : Word) : (s.setRdata v).ctl = s.ctl := rfl
@[simp] theorem State.setRdata_x (s : State) (v : Word) : (s.setRdata v).x = s.x := rfl
@[simp] theorem State.setRdata_len (s : State) (v : Word) : (s.setRdata v).len = s.len := rfl
@[simp] theorem State.setRdata_buf (s : State) (v : Word) : (s.setRdata v).buf = s.buf := rfl
@[simp] theorem State.setRdata_ver (s : State) (v : Word) : (s.setRdata v).ver = s.ver := rfl
@[simp] theorem State.setRdata_capb (s : State) (v : Word) : (s.setRdata v).capb = s.capb := rfl
@[simp] theorem State.setRdata_bs (s : State) (v : Word) : (s.setRdata v).bs = s.bs := rfl
@[simp] theorem State.setRdata_rs (s : State) (v : Word) : (s.setRdata v).rs = s.rs := rfl
@[simp] theorem State.setRdata_zig (s : State) (v : Word) : (s.setRdata v).zig = s.zig := rfl

/-! ## takeLatency -/

@[simp] theorem State.takeLatency_host (s : State) :
    (s.takeLatency).host = { s.host with latencies := s.host.latencies.tail } := rfl
@[simp] theorem State.takeLatency_ctl (s : State) : (s.takeLatency).ctl = s.ctl := rfl
@[simp] theorem State.takeLatency_x (s : State) : (s.takeLatency).x = s.x := rfl
@[simp] theorem State.takeLatency_len (s : State) : (s.takeLatency).len = s.len := rfl
@[simp] theorem State.takeLatency_buf (s : State) : (s.takeLatency).buf = s.buf := rfl
@[simp] theorem State.takeLatency_ver (s : State) : (s.takeLatency).ver = s.ver := rfl
@[simp] theorem State.takeLatency_capb (s : State) : (s.takeLatency).capb = s.capb := rfl
@[simp] theorem State.takeLatency_bs (s : State) : (s.takeLatency).bs = s.bs := rfl
@[simp] theorem State.takeLatency_rs (s : State) : (s.takeLatency).rs = s.rs := rfl
@[simp] theorem State.takeLatency_zig (s : State) : (s.takeLatency).zig = s.zig := rfl

/-! ## takeChoice -/

@[simp] theorem State.takeChoice_host (s : State) :
    (s.takeChoice).host = { s.host with freeCtr := s.host.freeCtr + 1 } := rfl
@[simp] theorem State.takeChoice_ctl (s : State) : (s.takeChoice).ctl = s.ctl := rfl
@[simp] theorem State.takeChoice_x (s : State) : (s.takeChoice).x = s.x := rfl
@[simp] theorem State.takeChoice_len (s : State) : (s.takeChoice).len = s.len := rfl
@[simp] theorem State.takeChoice_buf (s : State) : (s.takeChoice).buf = s.buf := rfl
@[simp] theorem State.takeChoice_ver (s : State) : (s.takeChoice).ver = s.ver := rfl
@[simp] theorem State.takeChoice_capb (s : State) : (s.takeChoice).capb = s.capb := rfl
@[simp] theorem State.takeChoice_bs (s : State) : (s.takeChoice).bs = s.bs := rfl
@[simp] theorem State.takeChoice_rs (s : State) : (s.takeChoice).rs = s.rs := rfl
@[simp] theorem State.takeChoice_zig (s : State) : (s.takeChoice).zig = s.zig := rfl

/-! ## Accessors -/

theorem getElem_set_of_ne {α : Type} {n : Nat} (v : Vector α n) (i j : Fin n) (a : α) (h : j ≠ i) :
    (v.set i a)[j] = v[j] := by
  simp only [Fin.getElem_fin, Vector.getElem_set]
  rw [if_neg fun e => h (Fin.ext e.symm)]

theorem getElem_set_self {α : Type} {n : Nat} (v : Vector α n) (i : Fin n) (a : α) : (v.set i a)[i] = a := by
  simp

@[simp] theorem State.getX_setX (s : State) (r : XReg) (v : Word) : (s.setX r v).getX r = v :=
  getElem_set_self s.x r v

theorem State.getX_setX_of_ne (s : State) {r r' : XReg} (v : Word) (h : r' ≠ r) :
    (s.setX r v).getX r' = s.getX r' :=
  getElem_set_of_ne s.x r r' v h

@[simp] theorem State.lenB_setLen (s : State) (b : BReg) (n : Nat) : (s.setLen b n).lenB b = n :=
  getElem_set_self s.len b n

theorem State.lenB_setLen_of_ne (s : State) {b b' : BReg} (n : Nat) (h : b' ≠ b) :
    (s.setLen b n).lenB b' = s.lenB b' :=
  getElem_set_of_ne s.len b b' n h

@[simp] theorem State.memB_writeB (s : State) (b : BReg) (k : Nat) (vs : List Byte) :
    (s.writeB b k vs).memB b = (s.memB b).writeBlock k vs :=
  getElem_set_self s.buf b _

theorem State.memB_writeB_of_ne (s : State) {b b' : BReg} (k : Nat) (vs : List Byte) (h : b' ≠ b) :
    (s.writeB b k vs).memB b' = s.memB b' :=
  getElem_set_of_ne s.buf b b' _ h

@[simp] theorem State.memB_produce (s : State) (b : BReg) (vs : List Byte) :
    (s.produce b vs).memB b = (s.memB b).writeBlock 0 vs :=
  s.memB_writeB b 0 vs

theorem State.memB_produce_of_ne (s : State) {b b' : BReg} (vs : List Byte) (h : b' ≠ b) :
    (s.produce b vs).memB b' = s.memB b' :=
  s.memB_writeB_of_ne 0 vs h

theorem State.lenB_produce_of_ne (s : State) {b b' : BReg} (vs : List Byte) (h : b' ≠ b) :
    (s.produce b vs).lenB b' = s.lenB b' :=
  (s.writeB b 0 vs).lenB_setLen_of_ne vs.length h

/-! ## Shapes -/

/-- A command that ends by setting one register writes that register and nothing else. -/
theorem writesX_setX (s : State) (r : XReg) (v : Word) : WritesX s (s.setX r v).complete r v where
  completed := rfl
  result := s.getX_setX r v
  others _ h := s.getX_setX_of_ne v h
  host := rfl
  len := rfl
  buf := rfl
  ver := rfl
  capb := rfl
  bs := rfl
  rs := rfl
  zig := rfl

/-- A command that ends by producing a buffer writes its bytes, its length and nothing else. -/
theorem writesB_produce (s : State) (b : BReg) (vs : List Byte) :
    WritesB s (s.produce b vs).complete b 0 vs vs.length where
  completed := rfl
  length := length_produce s b vs
  bytes := by
    show (s.produce b vs).memB b |>.holds 0 vs
    rw [s.memB_produce b vs]
    exact Memory.holds_writeBlock _ _ _
  frame := by
    show (s.memB b).sameOutside ((s.produce b vs).memB b) 0 vs.length
    rw [s.memB_produce b vs]
    exact Memory.sameOutside_writeBlock _ _ _
  others _ h := ⟨s.lenB_produce_of_ne vs h, s.memB_produce_of_ne vs h⟩
  host := rfl
  x := rfl
  ver := rfl
  capb := rfl
  bs := rfl
  rs := rfl
  zig := rfl

/-- A command that ends by appending bits writes them, BLEN and nothing else. -/
theorem appendsBits_appendBits (s : State) (l : List Bool) : AppendsBits s (s.appendBits l).complete l where
  completed := rfl
  blen := rfl
  bits := Memory.holds_writeBlock _ _ _
  frame := Memory.sameOutside_writeBlock _ _ _
  stream := rfl
  host := rfl
  x := rfl
  len := rfl
  buf := rfl
  ver := rfl
  capb := rfl
  rs := rfl
  zig := rfl

/-- A command that ends by raising only reports. -/
theorem raises_raise (s : State) (i : Instr) (c : ErrCode) (d : Nat) :
    Raises s (s.raise i c d).complete c (encode i) (BitVec.ofNat 32 d) := rfl

end Sys2Proof.Machine
end

