-- ==== Sys2Proof/Laws/Step.lean ====
section
/-! SUPPORT. What the engine, a host action and a step can do, one inversion lemma each, and that the memory
operations of the bus and of the zigzag unit keep the canonical form. -/

namespace Sys2Proof.Machine

/-- The engine beside the host: nothing runs, the command completes, or it counts down. -/
theorem tick_eq_next {s t : State} : tick s = .next t ↔
    (s.ctl.running = none ∧ t = s)
    ∨ ∃ r, s.ctl.running = some r ∧ ((r.left ≤ 1 ∧ runWord r.word s = .next t)
        ∨ (1 < r.left ∧ t = { s with ctl := { s.ctl with running := some { r with left := r.left - 1 } } })) := by
  unfold tick
  cases h : s.ctl.running with
  | none => simp [eq_comm]
  | some r =>
    by_cases hl : r.left ≤ 1
    · have : ¬ 1 < r.left := by omega
      simp [hl, this]
    · have : 1 < r.left := by omega
      simp [hl, this, eq_comm]

/-- A step is the next host action, the position moved on, or the engine alone. -/
theorem step_eq (s : State) : (∃ a, s.atAction a ∧ step s = s.advance.perform a)
    ∨ (s.host.prog.length ≤ s.host.pc ∧ step s = tick s) := by
  unfold step State.atAction
  cases h : s.host.prog[s.host.pc]? with
  | none => exact .inr ⟨by simpa using h, rfl⟩
  | some a => exact .inl ⟨a, rfl, rfl⟩

theorem step_of_atAction {s : State} {a : HostAction} (h : s.atAction a) : step s = s.advance.perform a := by
  unfold step
  rw [h]

/-- A word that runs is a command's meaning, or the report of what decoding found. -/
theorem runWord_eq (w : Word) (s : State) : (∃ i, decode w = .ok i ∧ runWord w s = exec i s)
    ∨ ∃ e, decode w = .error e ∧ runWord w s = .next (s.raiseDecode w e).complete := by
  unfold runWord
  cases h : decode w with
  | ok i => exact .inl ⟨i, rfl, rfl⟩
  | error e => exact .inr ⟨e, rfl, rfl⟩

/-- Two runs of cells meet when some cell is in both. -/
theorem runsMeet_iff {lo n lo' n' : Nat} : runsMeet lo n lo' n' = true ↔
    ∃ k, (lo ≤ k ∧ k < lo + n) ∧ lo' ≤ k ∧ k < lo' + n' := by
  simp only [runsMeet, decide_eq_true_eq]
  exact ⟨fun h => ⟨max lo lo', by omega, by omega⟩, fun ⟨k, h, h'⟩ => by omega⟩

/-- Whether a target is in use depends on the core's state alone. -/
@[simp] theorem inUse_advance (s : State) (w : Word) (t : Target) : s.advance.inUse w t = s.inUse w t := rfl

/-- A bus write that answers: a CMD write, or a write to another target with nothing running, or one to
state the running command does not use. -/
theorem hostWrite_eq_next {s t : State} {addr : BitVec 17} {bytes : Nat} {v : Word}
    (h : s.hostWrite addr bytes v = .next t) : ∃ tgt, busTarget addr bytes = .ok tgt ∧
      ((tgt = .cmd ∧ s.writeCmd v = .next t)
      ∨ (tgt ≠ .cmd ∧ s.ctl.running = none ∧ t = s.writeTarget tgt v)
      ∨ ∃ r, tgt ≠ .cmd ∧ s.ctl.running = some r ∧ s.inUse r.word tgt = false
          ∧ tick (s.writeTarget tgt v) = .next t) := by
  unfold State.hostWrite at h
  split at h
  · cases h
  · exact ⟨_, ‹_›, .inl ⟨rfl, h⟩⟩
  · rename_i tgt hne hb
    refine ⟨tgt, hb, .inr ?_⟩
    split at h
    · rename_i hr
      exact .inl ⟨hne, hr, by cases h; rfl⟩
    · rename_i r hr
      split at h
      · cases h
      · rename_i hu
        exact .inr ⟨r, hne, hr, by simpa using hu, h⟩

/-! ## The canonical form -/

theorem wf_writeCells {m : Memory Bool} (kvs : List (Nat × Bool)) (h : m.wf) : (writeCells m kvs).wf := by
  induction kvs generalizing m with
  | nil => exact h
  | cons kv kvs ih => exact ih (Memory.wf_write _ _ h)

theorem wf_writeBitWord {m : Memory Bool} (row j : Nat) (w : Word) (h : m.wf) :
    (writeBitWord m row j w).wf :=
  Memory.wf_writeBlock _ _ h

theorem wf_writeStreamWord {m : Memory Bool} (q : Nat) (w : Word) (h : m.wf) :
    (writeStreamWord m q w).wf :=
  Memory.wf_writeBlock _ _ h

theorem wf_writeB {s : State} (b b' : BReg) (k : Nat) (vs : List Byte) (h : (s.memB b').wf) :
    ((s.writeB b k vs).memB b').wf := by
  by_cases hb : b' = b
  · subst hb
    rw [s.memB_writeB b' k vs]
    exact Memory.wf_writeBlock k vs h
  · rwa [s.memB_writeB_of_ne k vs hb]

/-- After reset no array lists a cell, so every one has the canonical form. -/
theorem reset_wf : (∀ b, (State.reset.memB b).wf) ∧ State.reset.bs.bits.wf ∧ State.reset.rs.syn.wf
    ∧ State.reset.rs.lambda.wf ∧ State.reset.rs.pos.wf ∧ State.reset.rs.mag.wf
    ∧ State.reset.zig.role.wf ∧ State.reset.zig.mod.wf ∧ State.reset.zig.zz.wf := by
  decide

end Sys2Proof.Machine
end

