-- ==== Sys2Proof/Laws/Zigzag.lean ====
section
/-! SUPPORT. The cells the traversal visits lie in the matrix, and what the role filter answers. -/

namespace Sys2Proof.Machine

theorem mem_pairCells {size col : Nat} {up : Bool} {rc : Nat × Nat} (h : rc ∈ pairCells size col up) :
    rc.1 < size ∧ (rc.2 = col ∨ rc.2 = col - 1) := by
  unfold pairCells at h
  obtain ⟨r, hr, hrc⟩ := List.mem_flatMap.1 h
  have hr' : r < size := by
    cases up <;> simpa using hr
  rcases List.mem_cons.1 hrc with rfl | hrc
  · exact ⟨hr', .inl rfl⟩
  · rw [List.mem_singleton.1 hrc]
    exact ⟨hr', .inr rfl⟩

theorem mem_visitFrom {size turns col : Nat} {up : Bool} {rc : Nat × Nat}
    (h : rc ∈ visitFrom size turns col up) : rc.1 < size ∧ rc.2 ≤ col := by
  induction turns generalizing col up with
  | zero => simp [visitFrom] at h
  | succ turns ih =>
    unfold visitFrom at h
    split at h
    · simp at h
    · rcases List.mem_append.1 h with h | h
      · have := mem_pairCells h
        refine ⟨this.1, ?_⟩
        split at this <;> omega
      · have := ih h
        refine ⟨this.1, ?_⟩
        split at this <;> omega

/-- A visited cell lies in the matrix. -/
theorem mem_visited {size : Nat} {rc : Nat × Nat} (h : rc ∈ visited size) : rc.1 < size ∧ rc.2 < size := by
  have := mem_visitFrom h
  omega

/-- The filter answers when every role it reads is written, and keeps the data cells in order. -/
theorem keepData_eq_ok {role : Memory Bool} {cells l : List (Nat × Nat)} :
    keepData role cells = .ok l ↔ (∀ rc ∈ cells, (role.read (cellIndex rc.1 rc.2)).isSome = true)
      ∧ l = cells.filter (fun rc => role.read (cellIndex rc.1 rc.2) = some true) := by
  induction cells generalizing l with
  | nil =>
    simp only [keepData, Except.ok.injEq, List.not_mem_nil, false_implies, implies_true, true_and,
      List.filter_nil]
    exact eq_comm
  | cons rc cells ih =>
    simp only [keepData, bind_eq_ok, map_eq_ok, readCell_eq_ok, List.forall_mem_cons]
    constructor
    · rintro ⟨v, hv, l', hl', rfl⟩
      obtain ⟨hr, rfl⟩ := ih.1 hl'
      refine ⟨⟨by simp [hv], hr⟩, ?_⟩
      cases v <;> simp [hv]
    · rintro ⟨⟨hv, hr⟩, rfl⟩
      obtain ⟨v, hv⟩ := Option.isSome_iff_exists.1 hv
      refine ⟨v, hv, _, ih.2 ⟨hr, rfl⟩, ?_⟩
      cases v <;> simp [hv]

end Sys2Proof.Machine
end

