-- ==== Sys2Proof/Tests/Slice0.lean ====
section
/-! SUPPORT. Small tests, each of one word, one check or one command, with the results the spec's examples and
rules give; and a witness for every statement with hypotheses: a concrete state and operands that meet
them. -/

namespace Sys2Proof.Tests

open Sys2Proof Sys2Proof.Machine

/-! ## Decoding: words written out from the encodings (the *Encoding* and *Example* lines of the rules) -/

theorem test_decode_control : decode 0x00000000 = .ok .nop ∧ decode 0x01200053 = .ok (.ldi 1 0x53)
    ∧ decode 0x02A80000 = .ok (.mov 5 2) ∧ decode 0x03CA8000 = .ok (.xor 6 2 5)
    ∧ decode 0x0400401A = .ok (.setlen 2 26) ∧ decode 0x05640000 = .ok (.bget 3 0 1)
    ∧ decode 0x0605C000 = .ok (.bput 2 1 3) ∧ decode 0x07004000 = .ok (.bcopy 2 0)
    ∧ decode 0x08004200 = .ok (.bcat 2 0 1) ∧ decode 0x09000000 = .ok .aggclr := by decide

theorem test_decode_gf : decode 0x10650000 = .ok (.gadd 3 1 2) ∧ decode 0x11650000 = .ok (.gmul 3 1 2)
    ∧ decode 0x12CD0000 = .ok (.gdiv 6 3 2) ∧ decode 0x13840000 = .ok (.ginv 4 1)
    ∧ decode 0x14440000 = .ok (.gexp 2 1) ∧ decode 0x15440000 = .ok (.glog 2 1) := by decide

theorem test_decode_poly_rs : decode 0x20440000 = .ok (.peval 2 0 1) ∧ decode 0x21004200 = .ok (.pmul 2 0 1)
    ∧ decode 0x30002007 = .ok (.rsgen 1 7) ∧ decode 0x3100200A = .ok (.rsenc 1 0 10)
    ∧ decode 0x4000100A = .ok (.rssyn 2 10) ∧ decode 0x41000000 = .ok .rsbm
    ∧ decode 0x42000000 = .ok .rschien ∧ decode 0x43000000 = .ok .rsforney
    ∧ decode 0x44001000 = .ok (.rsapply 2) ∧ decode 0x4500100A = .ok (.rsdec 2 10) := by decide

theorem test_decode_bch : decode 0x50440000 = .ok (.bchfe 2 1) ∧ decode 0x51680000 = .ok (.bchfd 3 2)
    ∧ decode 0x52440000 = .ok (.bchve 2 1) ∧ decode 0x53680000 = .ok (.bchvd 3 2)
    ∧ decode 0x54850000 = .ok (.fmtsel 4 1 2) ∧ decode 0x55850000 = .ok (.versel 4 1 2) := by decide

theorem test_decode_stream : decode 0x60000000 = .ok .bsclr ∧ decode 0x61040008 = .ok (.bsput 1 8)
    ∧ decode 0x62400004 = .ok (.bsget 2 4) ∧ decode 0x63000000 = .ok (.bsload 0)
    ∧ decode 0x64000010 = .ok (.bsstore 0 0 16) ∧ decode 0x65000001 = .ok (.segenc 0 1)
    ∧ decode 0x66000000 = .ok .bsterm ∧ decode 0x67000000 = .ok .bspad
    ∧ decode 0x68204000 = .ok (.segdec 1 2) ∧ decode 0x69400000 = .ok (.bspadchk 2) := by decide

theorem test_decode_zigzag : decode 0x70000000 = .ok .zzgen ∧ decode 0x71000000 = .ok .zzplace
    ∧ decode 0x72000000 = .ok .zzread := by decide

/-- Every field at its highest value: a dropped bit would show. -/
theorem test_decode_full_fields : decode 0x01E001FF = .ok (.ldi 7 511)
    ∧ decode 0x03FF8000 = .ok (.xor 7 7 7) ∧ decode 0x08007E00 = .ok (.bcat 3 3 3) := by decide

theorem test_decode_rejects : decode 0x0A000000 = .error (.illegalOpcode 0x0A)
    ∧ decode 0xFFFFFFFF = .error (.illegalOpcode 0xFF) ∧ decode 0x00000001 = .error (.reservedField 1)
    ∧ decode 0x11650200 = .error (.reservedField 0x200) := by decide

theorem test_decodeTableWord : decodeTableWord 32 0x11650000 = some (.gmul 3 1 2)
    ∧ decodeTableWord 32 0x0F000000 = none := by decide

/-! ## WellFormed: an ill-formed term for the one check, at every command with an immediate -/

theorem test_wellFormed_refuses_wide_immediates :
    (Instr.ldi 0 512).wellFormed = false ∧ (Instr.setlen 0 512).wellFormed = false
    ∧ (Instr.rsgen 0 512).wellFormed = false ∧ (Instr.rsenc 0 0 512).wellFormed = false
    ∧ (Instr.rssyn 0 512).wellFormed = false ∧ (Instr.rsdec 0 512).wellFormed = false
    ∧ (Instr.bsput 0 512).wellFormed = false ∧ (Instr.bsget 0 512).wellFormed = false
    ∧ (Instr.bsstore 0 0 512).wellFormed = false ∧ (Instr.segenc 0 512).wellFormed = false := by decide

theorem test_wellFormed_accepts : (Instr.ldi 7 511).wellFormed = true ∧ Instr.zzread.wellFormed = true := by
  decide

/-! ## States and what a command did -/

/-- A field of the state a command leaves, if it leaves one. -/
def after {α : Type} (r : Res) (f : State → α) : Option α :=
  match r with
  | .next t => some (f t)
  | .fault _ => none
  | .refused _ => none

def faultOf (r : Res) : Option Fault :=
  match r with
  | .next _ => none
  | .fault f => some f
  | .refused _ => none

def refusalOf (r : Res) : Option Refusal :=
  match r with
  | .next _ => none
  | .fault _ => none
  | .refused e => some e

/-- The report a command leaves. -/
def report (t : State) : Bool × ErrCode × Word := (t.ctl.err, t.ctl.errcode, t.ctl.errdata)

/-- Registers X0..X7. -/
def withX (x : Vector Word 8) : State := { State.reset with x := x }

/-- Buffer b holds `d`. -/
def withB (s : State) (b : BReg) (d : List Byte) : State := s.produce b d

/-- The stream holds `bits`, the cursor is at `p`. -/
def withStream (s : State) (bits : List Bool) (p : Nat) : State :=
  { s with bs := { s.bs with bits := cellsFrom 0 bits, blen := bits.length, rpos := p } }

theorem withB_holds (s : State) (b : BReg) (d : List Byte) : (withB s b d).Holds b d :=
  ⟨(length_produce s b d).symm, by
    show ((s.produce b d).memB b).holds 0 d
    rw [s.memB_produce b d]
    exact Memory.holds_writeBlock _ _ _⟩

theorem withB_holds_of_ne {s : State} {b b' : BReg} {d d' : List Byte} (h : s.Holds b' d') (hb : b' ≠ b) :
    (withB s b d).Holds b' d' := by
  unfold withB State.Holds
  rw [s.memB_produce_of_ne d hb, s.lenB_produce_of_ne d hb]
  exact h

/-- The host's next action. -/
def acting (s : State) (a : HostAction) : State := { s with host := { s.host with prog := [a], pc := 0 } }

def running (s : State) (w : Word) (n : Nat) : State :=
  { s with ctl := { s.ctl with running := some ⟨w, n⟩ } }

/-! ## Control -/

theorem test_nop : after (exec .nop State.reset) (fun t => (t.ctl.cmdcnt, t.ctl.done, t.x))
    = some (1, true, State.reset.x) := by decide

theorem test_ldi : after (exec (.ldi 1 0x53) State.reset) (fun t => (t.getX 1, t.getX 2)) = some (0x53, 0) := by
  decide

theorem test_mov : after (exec (.mov 5 2) (withX #v[0, 0, 0x1234, 0, 0, 0, 0, 0])) (·.getX 5)
    = some 0x1234 := by decide

theorem test_xor : after (exec (.xor 6 2 5) (withX #v[0, 0, 0x40CE, 0, 0, 0x0007, 0, 0])) (·.getX 6)
    = some 0x40C9 := by decide

/-- R154 at the boundary: 256 is a length, 257 is not. -/
theorem test_setlen_boundary : after (exec (.setlen 2 256) State.reset) (fun t => (t.lenB 2, t.ctl.err))
      = some (256, false)
    ∧ after (exec (.setlen 2 257) State.reset) (fun t => (t.lenB 2, report t))
      = some (0, true, .length, 257) := by decide

theorem test_bget : after (exec (.bget 3 0 1) (withB (withX #v[0, 2, 0, 0, 0, 0, 0, 0]) 0 [0x10, 0x20, 0x0C]))
    (·.getX 3) = some 0x0C := by decide

theorem test_bget_index : after (exec (.bget 3 0 1)
      (withB (withX #v[0, 3, 0, 9, 0, 0, 0, 0]) 0 [0x10, 0x20, 0x0C])) (fun t => (t.getX 3, report t))
    = some (9, true, .index, 3) := by decide

/-- R156: byte 255 is the last; the length grows to hold it, and nothing else is written. -/
theorem test_bput_last : after (exec (.bput 2 1 3) (withX #v[0, 255, 0, 0x1A9, 0, 0, 0, 0]))
    (fun t => (t.memB 2, t.lenB 2)) = some ([(255, 0xA9)], 256) := by decide

theorem test_bput_index : after (exec (.bput 2 1 3) (withX #v[0, 256, 0, 0, 0, 0, 0, 0]))
    (fun t => (t.memB 2, report t)) = some ([], true, .index, 256) := by decide

theorem test_bcopy : after (exec (.bcopy 2 0) (withB (withB State.reset 2 [7, 7, 7]) 0 [1, 2]))
    (fun t => (t.memB 2, t.lenB 2)) = some ([(0, 1), (1, 2), (2, 7)], 2) := by decide

/-- R158: `BCAT b0, b0, b0` doubles B0. -/
theorem test_bcat_alias : after (exec (.bcat 0 0 0) (withB State.reset 0 [1, 2]))
    (fun t => (t.memB 0, t.lenB 0)) = some ([(0, 1), (1, 2), (2, 1), (3, 2)], 4) := by decide

theorem test_aggclr : after (exec .aggclr { State.reset with rs := { State.reset.rs with
      aggn := 3, aggv := 2, allok := false } }) (fun t => (t.rs.aggn, t.rs.aggv, t.rs.allok))
    = some (0, 0, true) := by decide

/-! ## GF(256) -/

theorem test_gadd : after (exec (.gadd 3 1 2) (withX #v[0, 0x1FF, 0x001, 0, 0, 0, 0, 0])) (·.getX 3)
    = some 0xFE := by decide

theorem test_gmul : after (exec (.gmul 3 1 2) (withX #v[0, 0x53, 0xCA, 0, 0, 0, 0, 0])) (·.getX 3) = some 0x8F
    ∧ gfMul 0xFF 0xFF = 0xE2 ∧ gfMul 0x02 0x80 = 0x1D := by decide

theorem test_gdiv : after (exec (.gdiv 6 3 2) (withX #v[0, 0, 0xCA, 0x8F, 0, 0, 0, 0])) (·.getX 6)
    = some 0x53 := by decide

/-- R192: a divisor of 0x100 has byte 0; the dividend byte is reported. -/
theorem test_gdiv_by_zero : after (exec (.gdiv 6 3 2) (withX #v[0, 0, 0x100, 0x18F, 0, 0, 4, 0]))
    (fun t => (t.getX 6, report t)) = some (4, true, .divByZero, 0x8F) := by decide

theorem test_ginv : after (exec (.ginv 4 1) (withX #v[0, 0x53, 0, 0, 0, 0, 0, 0])) (·.getX 4) = some 0x8C
    ∧ after (exec (.ginv 4 1) State.reset) report = some (true, .divByZero, 0) := by decide

/-- R194: the whole register is signed. -/
theorem test_gexp : after (exec (.gexp 2 1) (withX #v[0, 8, 0, 0, 0, 0, 0, 0])) (·.getX 2) = some 0x1D
    ∧ after (exec (.gexp 2 1) (withX #v[0, 0x80000000, 0, 0, 0, 0, 0, 0])) (·.getX 2) = some 0xCC := by decide

theorem test_glog : after (exec (.glog 2 1) (withX #v[0, 0x1D, 0, 0, 0, 0, 0, 0])) (·.getX 2) = some 8
    ∧ after (exec (.glog 2 1) (withX #v[0, 0x100, 0, 0, 0, 0, 0, 0])) report
      = some (true, .logOfZero, 0) := by decide

/-! ## Polynomials and Reed-Solomon -/

theorem test_peval : after (exec (.peval 2 0 1) (withB (withX #v[0, 2, 0, 0, 0, 0, 0, 0]) 0 [1, 2, 3]))
    (·.getX 2) = some 3 := by decide

theorem test_pmul : after (exec (.pmul 2 0 1) (withB (withB State.reset 0 [1, 2]) 1 [1, 3]))
    (fun t => (t.memB 2, t.lenB 2)) = some ([(0, 1), (1, 1), (2, 6)], 3) := by decide

theorem test_pmul_empty : after (exec (.pmul 2 0 1) State.reset) report = some (true, .length, 0) := by decide

theorem test_rsgen : after (exec (.rsgen 1 7) State.reset) (·.content 1)
    = some (.ok [0x01, 0x7F, 0x7A, 0x9A, 0xA4, 0x0B, 0x44, 0x75]) := by decide

theorem test_rsenc : after (exec (.rsenc 1 0 10) (withB State.reset 0 [0x10, 0x20, 0x0C, 0x56, 0x61, 0x80,
      0xEC, 0x11, 0xEC, 0x11, 0xEC, 0x11, 0xEC, 0x11, 0xEC, 0x11])) (·.content 1)
    = some (.ok [0xA5, 0x24, 0xD4, 0xC1, 0xED, 0x36, 0xC7, 0x87, 0x2C, 0x55]) := by decide

/-- A codeword of ec = 2 (R267). -/
def code : List Byte := [0x12, 0x34, 0x22, 0x04]

/-- The unit after RSSYN of a block, and so on step by step. -/
def syned (d : List Byte) : State :=
  match (withB State.reset 2 d).rsSyn 2 2 with
  | .ok s => s
  | .error _ => State.reset

theorem test_rssyn : after (exec (.rssyn 2 2) (withB State.reset 2 code)) (fun t => (t.rs.rsst, t.rs.aggv))
      = some (.noError, 1)
    ∧ after (exec (.rssyn 2 2) (withB State.reset 2 [0x13, 0x34, 0x22, 0x04]))
      (fun t => (t.rs.rsst, t.rs.syn, t.rs.maxcorr, t.rs.aggn)) = some (.syndromeReady, [(0, 1), (1, 8)], 1, 0) := by
  decide

theorem test_rssyn_length : after (exec (.rssyn 2 5) (withB State.reset 2 code)) report
    = some (true, .length, 5) := by decide

theorem test_rsbm : after (exec .rsbm (syned [0x13, 0x34, 0x22, 0x04]))
    (fun t => (t.rs.lambda, t.rs.ldeg, t.rs.rsst)) = some ([(0, 1), (1, 8)], 1, .locatorReady) := by decide

theorem test_rsbm_sequence : after (exec .rsbm State.reset) report = some (true, .sequence, 0) := by decide

/-- The unit in state 2 with Λ = 1 + α^3·x, of a block of four codewords. -/
def located : State := { syned [0x13, 0x34, 0x22, 0x04] with rs :=
  { (syned [0x13, 0x34, 0x22, 0x04]).rs with lambda := [(0, 1), (1, 8)], ldeg := 1, rsst := .locatorReady } }

theorem test_rschien : after (exec .rschien located) (fun t => (t.rs.pos, t.rs.npos, t.rs.rsst))
    = some ([(0, 0)], 1, .positionsReady) := by decide

def positioned : State := { located with rs :=
  { located.rs with pos := [(0, 0)], npos := 1, detected := 1, rsst := .positionsReady } }

theorem test_rsforney : after (exec .rsforney positioned) (fun t => (t.rs.mag, t.rs.rsst))
    = some ([(0, 1)], .magnitudesReady) := by decide

def measured : State := { positioned with rs :=
  { positioned.rs with mag := [(0, 1)], rsst := .magnitudesReady } }

theorem test_rsapply : after (exec (.rsapply 2) measured)
    (fun t => (t.content 2, t.rs.rsst, t.rs.corrected, t.rs.aggn, t.rs.aggv))
    = some (.ok code, .corrected, 1, 1, 1) := by decide

theorem test_rsapply_length : after (exec (.rsapply 1) measured) report = some (true, .length, 0) := by decide

theorem test_rsdec : after (exec (.rsdec 2 2) (withB State.reset 2 [0x12, 0x34, 0x22, 0x84]))
    (fun t => (t.content 2, t.rs.rsst, t.ctl.cmdcnt)) = some (.ok code, .corrected, 1) := by decide

/-- R267: two errors beyond capacity, corrected to another codeword. -/
theorem test_rsdec_beyond_capacity : after (exec (.rsdec 2 2) (withB State.reset 2 [0x13, 0x37, 0x22, 0x04]))
    (fun t => (t.content 2, t.rs.rsst)) = some (.ok [0x13, 0x37, 0x20, 0x04], .corrected) := by decide

/-! ## BCH -/

theorem test_bchfe : after (exec (.bchfe 2 1) (withX #v[0, 5, 0, 0, 0, 0, 0, 0])) (·.getX 2)
    = some 0x40CE := by decide

theorem test_bchfd : after (exec (.bchfd 3 2) (withX #v[0, 0, 0x40CF, 0, 0, 0, 0, 0])) (·.getX 3)
    = some 0x745 := by decide

theorem test_bchve : after (exec (.bchve 2 1) (withX #v[0, 7, 0, 0, 0, 0, 0, 0])) (·.getX 2)
    = some 0x07C94 := by decide

theorem test_bchvd : after (exec (.bchvd 3 2) (withX #v[0, 0, 0x07E9C, 0, 0, 0, 0, 0])) (·.getX 3)
    = some 0x587 := by decide

theorem test_fmtsel : after (exec (.fmtsel 4 1 2) (withX #v[0, 0x40CD, 0x40CF, 0, 0, 0, 0, 0])) (·.getX 4)
    = some 0x7745 := by decide

theorem test_versel : after (exec (.versel 4 1 2) (withX #v[0, 0x07C93, 0x27C94, 0, 0, 0, 0, 0])) (·.getX 4)
    = some 0x5747 := by decide

/-! ## Bitstream -/

/-- The 41 bits of "01234567" (R352). -/
def numericBits : List Bool := bitsOf 1 4 ++ bitsOf 8 10 ++ bitsOf 12 10 ++ bitsOf 345 10 ++ bitsOf 67 7

theorem test_bsclr : after (exec .bsclr (withStream State.reset numericBits 3))
    (fun t => (t.bs.blen, t.bs.rpos, t.bs.bits.length)) = some (0, 0, 41) := by decide

theorem test_bsput : after (exec (.bsput 1 8) (withX #v[0, 0x1F5, 0, 0, 0, 0, 0, 0]))
    (fun t => (t.bs.bits.map (·.2), t.bs.blen))
    = some ([true, true, true, true, false, true, false, true], 8) := by decide

theorem test_bsget : after (exec (.bsget 2 4) (withStream State.reset numericBits 0))
    (fun t => (t.getX 2, t.bs.rpos)) = some (1, 4) := by decide

theorem test_bsget_underflow : after (exec (.bsget 2 5) (withStream State.reset numericBits 37))
    (fun t => (t.bs.rpos, report t)) = some (37, true, .bitUnderflow, 4) := by decide

theorem test_bsload : after (exec (.bsload 0) (withB State.reset 0 [0x10]))
    (fun t => (t.bs.bits.map (·.2), t.bs.blen))
    = some ([false, false, false, true, false, false, false, false], 8) := by decide

theorem test_bsstore : after (exec (.bsstore 0 0 2) (withStream State.reset numericBits 0)) (·.content 0)
    = some (.ok [0x10, 0x20]) := by decide

theorem test_segenc : after (exec (.segenc 0 1)
      (withB State.reset 0 [0x30, 0x31, 0x32, 0x33, 0x34, 0x35, 0x36, 0x37]))
    (fun t => (t.bs.bits.map (·.2), t.bs.blen)) = some (numericBits, 41) := by decide

/-- R352: the first bad character is reported with its index. -/
theorem test_segenc_invalidChar : after (exec (.segenc 0 1) (withB State.reset 0 [0x30, 0x41, 0x42]))
    (fun t => (t.bs.blen, report t)) = some (0, true, .invalidChar, 0x141) := by decide

theorem test_bsterm : after (exec .bsterm { withStream State.reset numericBits 0 with capb := 16 })
      (·.bs.blen) = some 45
    ∧ after (exec .bsterm { withStream State.reset numericBits 0 with capb := 5 }) report
      = some (true, .capacity, 41) := by decide

theorem test_bspad : after (exec .bspad { withStream State.reset (numericBits ++ bitsOf 0 4) 0 with capb := 8 })
    (fun t => (t.bs.blen, t.peek 48 16)) = some (64, .ok 0xEC11) := by decide

theorem test_segdec : after (exec (.segdec 1 2) (withStream State.reset numericBits 0))
    (fun t => (t.getX 1, t.content 2, t.bs.rpos, t.segresWord))
    = some (0, .ok [0x30, 0x31, 0x32, 0x33, 0x34, 0x35, 0x36, 0x37], 41, 0x00080010) := by decide

/-- R359: too few payload bits; the cursor stays. -/
theorem test_segdec_insufficient : after (exec (.segdec 1 2) (withStream State.reset (numericBits.take 40) 0))
    (fun t => (t.getX 1, t.bs.rpos, t.segresWord, t.bs.segexp, t.bs.segavl))
    = some (4, 0, 0x00080214, 27, 26) := by decide

theorem test_bspadchk : after (exec (.bspadchk 2)
      { withStream State.reset (bitsOf 0 8 ++ bitsOf 0xEC 8 ++ bitsOf 0xEC 8) 5 with capb := 3 }) (·.getX 2)
    = some 0x00010002 := by decide

/-! ## Zigzag -/

/-- The traversal of version 1 starts at the bottom right and skips column 6 (R402). -/
theorem test_traversal : (visited 21).take 3 = [(20, 20), (20, 19), (19, 20)]
    ∧ pairCells 3 2 false = [(0, 2), (0, 1), (1, 2), (1, 1), (2, 2), (2, 1)]
    ∧ (visitFrom 2 3 6 true).map (·.2) = [5, 4, 5, 4, 3, 2, 3, 2, 1, 0, 1, 0] := by decide

/-- Two coordinates listed, one stream bit. -/
def placed : State := { withStream State.reset [true] 0 with zig :=
  { State.reset.zig with zz := [(0, (20, 20)), (1, (20, 19))], zzcnt := 2 } }

/-- The role filter keeps data cells in order; ZZGEN reads the bottom right cell first, and from reset,
where no role is written, it stops there (R472). -/
theorem test_zzgen : keepData [(3559, true), (3560, false)] [(20, 20), (20, 19)] = .ok [(20, 19)]
    ∧ faultOf (exec .zzgen State.reset) = some (.unwrittenRead .role 3560) := by decide

theorem test_zzplace : after (exec .zzplace placed) (fun t => t.zig.mod)
    = some [(3559, false), (3560, true)] := by decide

theorem test_zzread : after (exec .zzread { placed with zig := { placed.zig with
      mod := [(3559, true), (3560, false)] } }) (fun t => (t.bs.bits, t.bs.blen))
    = some ([(0, false), (1, true)], 2) := by decide

/-! ## The bus and the engine -/

theorem test_step_runs_placed_word : after (step (State.reset.withFetchWord 32 0x01200053))
    (fun t => (t.getX 1, t.host.pc, t.ctl.running)) = some (0x53, 1, none) := by decide

theorem test_bus_errors : faultOf (step (acting State.reset (.busRead 0x00002 4)))
      = some (.misalignedAccess 0x00002 4)
    ∧ faultOf (step (acting State.reset (.busRead 0x00008 2))) = some (.misalignedAccess 0x00008 2)
    ∧ faultOf (step (acting State.reset (.busRead 0x00084 4))) = some (.unmappedAccess 0x00084)
    ∧ faultOf (step (acting State.reset (.busRead 0x03098 4))) = some (.unmappedAccess 0x03098) := by decide

/-- The last mapped words before the holes, and the first and last of the ZZ window. -/
theorem test_map_edges : targetAt 0x00080 = some .aggflag ∧ targetAt 0x000FC = none
    ∧ targetAt 0x004FC = some (.bufWord 3 63) ∧ targetAt 0x008FC = some (.magWord 63)
    ∧ targetAt 0x00900 = none ∧ targetAt 0x01FFC = some (.bitsWord 1023)
    ∧ targetAt 0x03094 = some (.roleWord 176 5) ∧ targetAt 0x05094 = some (.modWord 176 5)
    ∧ targetAt 0x05098 = none ∧ targetAt 0x10000 = some (.zzWord 0)
    ∧ targetAt 0x1FFFC = some (.zzWord 16383) := by decide

theorem test_overrun : after (step (acting (running State.reset 0x01200053 3) (issue 0x00000000)))
    (fun t => (report t, t.ctl.errcmd, t.ctl.cmdcnt, t.ctl.running))
    = some ((true, .busyOverrun, 0), 0, 0, some ⟨0x01200053, 2⟩) := by decide

theorem test_write_in_use_refused :
    refusalOf (step (acting (running State.reset 0x01200053 3) (.busWrite 0x00044 4 7)))
      = some (.writeToStateInUse 0x00044)
    ∧ after (step (acting (running State.reset 0x01200053 3) (.busWrite 0x00048 4 7))) (·.getX 2)
      = some 7 := by decide

/-- R475 and U2 go by the word: BSPUT at BLEN = 40 uses stream word 1 and not word 0; ZZGEN at version 1 uses
ROLE row 20 and not row 21; ZZPLACE uses the MOD word of a listed cell and not the next row's. -/
theorem test_unused_words_are_free :
    let s : State := { placed with bs := { placed.bs with blen := 40 } }
    s.inUse 0x61040008 (.bitsWord 1) = true ∧ s.inUse 0x61040008 (.bitsWord 0) = false
    ∧ s.inUse 0x70000000 (.roleWord 20 0) = true ∧ s.inUse 0x70000000 (.roleWord 21 0) = false
    ∧ s.inUse 0x71000000 (.modWord 20 0) = true ∧ s.inUse 0x71000000 (.modWord 21 0) = false := by decide

/-- A command whose check fails reads no stream bit (R340, R430), and SEGDEC on fewer than 4 bits no VER: with
one bit left BSGET #4 and BSSTORE #16 raise, with 128 they read word 0. BSGET #0 raises before it reads BLEN. -/
theorem test_failing_checks_read_nothing :
    let s : State := { placed with bs := { placed.bs with blen := 128 } }
    placed.inUse 0x62400004 (.bitsWord 0) = false ∧ s.inUse 0x62400004 (.bitsWord 0) = true
    ∧ placed.inUse 0x64000010 (.bitsWord 0) = false ∧ s.inUse 0x64000010 (.bitsWord 0) = true
    ∧ placed.inUse 0x62400000 .blen = false ∧ placed.inUse 0x62400004 .blen = true
    ∧ placed.inUse 0x68204000 .ver = false := by decide

theorem test_warl : after (step (acting State.reset (.busWrite 0x0001C 4 40))) (·.ver) = some 40
    ∧ after (step (acting State.reset (.busWrite 0x0001C 4 41))) (·.ver) = some 1
    ∧ after (step (acting State.reset (.busWrite 0x00020 4 4096))) (·.capb) = some 4096
    ∧ after (step (acting State.reset (.busWrite 0x00024 4 32769))) (·.bs.blen) = some 0 := by decide

theorem test_byte_window : after (step (acting State.reset (.busWrite 0x00104 4 0x44332211))) (fun t => t.memB 0)
    = some [(4, 0x11), (5, 0x22), (6, 0x33), (7, 0x44)] := by decide

theorem test_bit_window : after (step (acting State.reset (.busWrite 0x02014 4 0xFFFFFFFF)))
    (fun t => (t.zig.role.length, t.zig.role.head?)) = some (17, some (160, true)) := by decide

/-! ## Witnesses: the hypotheses of each statement are met, at the boundary of each clause's range -/

theorem witness_DecodeAndEncodeAgree : (Instr.ldi 7 511).wellFormed = true
    ∧ decode 0x01E001FF = .ok (.ldi 7 511) := by decide

theorem witness_DecodeRejectsByName : usedMask.lookup ((0x0A000000 : Word).toNat / 2 ^ 24) = none
    ∧ usedMask.lookup ((0x72000001 : Word).toNat / 2 ^ 24) = some 0
    ∧ (0x72000001 : Word) &&& ~~~(0xFF000000 ||| BitVec.ofNat 32 0) ≠ 0
    ∧ (0x72000000 : Word) &&& ~~~(0xFF000000 ||| BitVec.ofNat 32 0) = 0 := by decide

/-- The host is about to issue `w`, the engine idle, the latency 0. -/
theorem witness_StepRunsDecodedCommand : (acting State.reset (issue 0x01200053)).atAction (issue 0x01200053)
    ∧ (acting State.reset (issue 0x01200053)).ctl.running = none
    ∧ (acting State.reset (issue 0x01200053)).host.latencies.headD 0 = 0
    ∧ decode 0x01200053 = .ok (.ldi 1 0x53) := ⟨rfl, rfl, rfl, by decide⟩

theorem witness_UndecodableWordRaises : (acting State.reset (issue 0x0A000000)).atAction (issue 0x0A000000)
    ∧ (acting State.reset (issue 0x0A000000)).ctl.running = none
    ∧ decode 0x0A000000 = .error (.illegalOpcode 0x0A)
    ∧ (acting State.reset (issue 0x00000001)).atAction (issue 0x00000001)
    ∧ decode 0x00000001 = .error (.reservedField 1) := ⟨rfl, rfl, by decide, rfl, by decide⟩

/-- A step inside the action list and one at its end. -/
theorem witness_EveryActionAdvancesPc : (∃ t, step (acting State.reset (issue 0)) = .next t)
    ∧ (acting State.reset (issue 0)).host.pc < (acting State.reset (issue 0)).host.prog.length
    ∧ (∃ t, step State.reset = .next t) ∧ ¬ State.reset.host.pc < State.reset.host.prog.length :=
  ⟨⟨_, rfl⟩, by decide, ⟨_, rfl⟩, by decide⟩

/-- The host is about to issue NOP with a latency of 1. -/
def delayed : State := { State.reset with host := ⟨[issue 0], 0, 0, [1], 0⟩ }

/-- A latency of 1; two actions and one action left; a read of a register; a write to one NOP does not use. -/
theorem witness_RunningCommandCompletesAtOnce :
    let s (n : Nat) (a : HostAction) := acting (running State.reset 0 n) a
    (delayed.atAction (issue 0) ∧ delayed.ctl.running = none ∧ delayed.host.latencies = (0 + 1) :: [])
    ∧ (running State.reset 0 2).ctl.running = some ⟨0, 2⟩
    ∧ (running State.reset 0 2).host.prog.length ≤ (running State.reset 0 2).host.pc
    ∧ (running State.reset 0 1).ctl.running = some ⟨0, 1⟩
    ∧ (s 1 .wait).atAction .wait
    ∧ ((s 2 (.busRead 0x00018 4)).atAction (.busRead 0x00018 4) ∧ busTarget 0x00018 4 = .ok .cmdcnt
      ∧ (∃ x, (s 2 (.busRead 0x00018 4)).readTarget .cmdcnt = .ok x)
      ∧ ∀ u, runWord 0 (s 2 (.busRead 0x00018 4)).advance = .next u → ∃ x, u.readTarget .cmdcnt = .ok x)
    ∧ ((s 1 (.busWrite 0x00048 4 7)).atAction (.busWrite 0x00048 4 7) ∧ busTarget 0x00048 4 = .ok (.x 2)
      ∧ (s 1 (.busWrite 0x00048 4 7)).inUse 0 (.x 2) = false) :=
  ⟨⟨rfl, rfl, rfl⟩, rfl, by decide, rfl, rfl, ⟨rfl, by decide, ⟨_, rfl⟩, fun _ _ => ⟨_, rfl⟩⟩,
    rfl, by decide, by decide⟩

theorem witness_LatencyChangesNothing :
    let s : State := { State.reset with host := ⟨[issue 0, .wait], 0, 0, [], 0⟩ }
    s.atAction (issue 0) ∧ s.host.prog[s.host.pc + 1]? = some .wait ∧ s.ctl.running = none :=
  ⟨rfl, rfl, rfl⟩

theorem witness_OverrunOnlyReports : (acting (running State.reset 0 2) (issue 5)).atAction (issue 5)
    ∧ (acting (running State.reset 0 2) (issue 5)).ctl.running = some ⟨0, 2⟩
    ∧ (acting (running State.reset 0 1) (issue 5)).atAction (issue 5)
    ∧ (acting (running State.reset 0 1) (issue 5)).ctl.running = some ⟨0, 1⟩ := ⟨rfl, rfl, rfl, rfl⟩

/-- A command that completes, and one that raises. -/
theorem witness_commands_end : (∃ t, exec .nop State.reset = .next t)
    ∧ ∃ t, exec (.setlen 2 257) State.reset = .next t
      ∧ Raises State.reset t .length (encode (.setlen 2 257)) 257 := ⟨⟨_, rfl⟩, _, rfl, rfl⟩

theorem witness_EveryCommandCompletesOrRaisesPrecisely : ∃ t, exec .nop State.reset = .next t := ⟨_, rfl⟩

theorem witness_CommandsWriteOnlyTheirDestinations : ∃ t, exec (.ldi 1 5) State.reset = .next t
    ∧ destX (.ldi 1 5) ≠ some 2 ∧ destB (.ldi 1 5) ≠ some 0 ∧ .decoder ∉ destUnits (.ldi 1 5)
    ∧ .stream ∉ destUnits (.ldi 1 5) ∧ .zigzag ∉ destUnits (.ldi 1 5) :=
  ⟨_, rfl, by decide, by decide, by decide, by decide, by decide⟩

/-- Two bytes, the second not written, in a buffer of length 2; lengths at the boundary of each check. -/
theorem witness_OnlyUnwrittenCellsStopACommand :
    let s := ((State.reset.writeB 0 0 [0x30]).setLen 0 2).setLen 1 254
    1 < s.lenB 0 ∧ (∀ j : Nat, j < 1 → ¬ s.unwritten (.buf 0) (0 + j)) ∧ s.unwritten (.buf 0) (0 + 1)
    ∧ s.lenB 0 + s.lenB 1 ≤ 256 ∧ s.lenB 1 ≠ 0 ∧ s.lenB 0 + s.lenB 1 - 1 ≤ 256
    ∧ s.lenB 0 + 253 ≤ 255 ∧ 2 ≤ s.lenB 0 ∧ s.bs.blen + 8 * s.lenB 0 ≤ 32768
    ∧ s.lenB 0 < 2 ^ cci .numeric s.ver ∧ (s.memB 0).read 0 = some 0x30 ∧ (0x30 ≤ (0x30 : Byte).toNat)
    ∧ s.bs.blen + (4 + cci .byte s.ver + 8 * s.lenB 0) ≤ 32768
    ∧ visited (21 + 4 * (s.ver - 1)) ≠ [] ∧ s.unwritten .role (177 * 20 + 20)
    ∧ (s.getX 0).toNat < s.lenB 1 ∧ s.unwritten (.buf 1) (s.getX 0).toNat := by
  simp only [State.unwritten]; decide

/-- RSAPPLY's checks pass and its block is not written; the second operand's first byte is not. -/
theorem witness_OnlyUnwrittenCellsStopACommand_block :
    let s := (({ State.reset with rs := { State.reset.rs with rsst := .magnitudesReady, nmsg := 1 } } : State).setLen 0
      1)
    s.rs.rsst = .magnitudesReady ∧ s.lenB 0 = s.rs.nmsg ∧ s.unwritten (.buf 0) (0 + 0)
    ∧ let u := (withB State.reset 0 [1]).setLen 1 1
      (∀ j : Nat, j < u.lenB 0 → ¬ u.unwritten (.buf 0) j) ∧ 0 < u.lenB 1 ∧ u.unwritten (.buf 1) (0 + 0) := by
  simp only [State.unwritten]; decide

/-- The last bit of a field of 4 is not written; the bytes and pad bytes that start there. -/
theorem witness_OnlyUnwrittenCellsStopACommand_stream :
    let s : State := { withStream State.reset (bitsOf 0 3) 0 with capb := 1 }
    let s : State := { s with bs := { s.bs with blen := 8 } }
    4 ≤ 32 ∧ s.bs.rpos + 4 ≤ s.bs.blen ∧ 3 < 4
    ∧ (∀ j : Nat, j < 3 → ¬ s.unwritten .bits (s.bs.rpos + j)) ∧ s.unwritten .bits (s.bs.rpos + 3)
    ∧ 8 * ((s.getX 0).toNat + 1) ≤ s.bs.blen ∧ 3 < 8 * 1
    ∧ 3 < 8 * ((min s.bs.blen (8 * s.capb) - 8 * ((s.bs.rpos + 7) / 8)) / 8) := by
  simp only [State.unwritten]; decide

/-- A numeric segment of 4 digits at version 1: the last count bit is not written; the first payload bit; the
last bit of the last group. -/
theorem witness_OnlyUnwrittenCellsStopACommand_segment :
    let at_ (bits : List Bool) : State := { withStream State.reset bits 0 with
      bs := { (withStream State.reset bits 0).bs with blen := 28 } }
    let head := fieldBits 1 4 ++ fieldBits 4 10
    let digits : List Byte := [0x31, 0x32, 0x33]
    ((at_ (head.take 13)).StreamHolds 0 (fieldBits (modeIndicator .numeric) 4) ∧ 4 + 10 ≤ 28 ∧ 9 < 10
      ∧ (∀ j : Nat, j < 9 → ¬ (at_ (head.take 13)).unwritten .bits (4 + j))
      ∧ (at_ (head.take 13)).unwritten .bits (4 + 9))
    ∧ (at_ head).StreamHolds 0 (fieldBits (modeIndicator .numeric) 4 ++ fieldBits 4 10)
    ∧ pbits .numeric 4 ≤ 28 - 14 ∧ 0 % 3 = 0 ∧ 0 < 4 ∧ (at_ head).unwritten .bits (14 + 0)
    ∧ digits.length % 3 = 0 ∧ digits.length < 4
    ∧ (let s := at_ (head ++ encodePayload .numeric digits ++ [false, false, false])
      s.StreamHolds 14 (encodePayload .numeric digits) ∧ 3 < 4
      ∧ (∀ j : Nat, j < 3 → ¬ s.unwritten .bits (24 + j)) ∧ s.unwritten .bits (24 + 3)) := by
  simp only [State.StreamHolds, Memory.holds, State.unwritten]; decide

/-- Coordinates listed: the second is not written; all are, and the stream, or the module of one, is not. -/
theorem witness_OnlyUnwrittenCellsStopACommand_zigzag :
    let s : State := { placed with zig := { placed.zig with zzcnt := 3 } }
    let u : State := { placed with bs := { placed.bs with blen := 2 } }
    (2 < s.zig.zzcnt ∧ (∀ j : Nat, j < 2 → ¬ s.unwritten .zz (0 + j)) ∧ s.unwritten .zz (0 + 2))
    ∧ (∀ k : Nat, k < u.zig.zzcnt → (u.zig.zz.read k).isSome = true)
    ∧ (1 < min u.bs.blen u.zig.zzcnt ∧ ¬ u.unwritten .bits (0 + 0) ∧ u.unwritten .bits (0 + 1))
    ∧ (0 < u.zig.zzcnt ∧ u.zig.zz.read 0 = some (20, 20) ∧ u.unwritten .mod (177 * 20 + 20)) := by
  simp only [State.unwritten]; decide

theorem witness_InterruptAndStatusWrite :
    let s : State := { State.reset with ctl := { State.reset.ctl with doneie := true, errie := true } }
    (∃ t, exec (.setlen 2 257) s = .next t ∧ Raises s t .length (encode (.setlen 2 257)) 257)
    ∧ s.ctl.doneie = true ∧ s.ctl.errie = true ∧ s.ctl.err = false
    ∧ (acting s (.busWrite 0x00008 4 6)).atAction (.busWrite 0x00008 4 6) ∧ s.ctl.running = none
    ∧ (6 : Word).getLsbD 1 = true ∧ (6 : Word).getLsbD 2 = true
    ∧ ∃ t, step (acting s (.busWrite 0x00008 4 6)) = .next t :=
  ⟨⟨_, rfl, rfl⟩, rfl, rfl, rfl, rfl, rfl, by decide, by decide, ⟨_, rfl⟩⟩

/-- 256 is the last length SETLEN takes, 257 the first it does not. -/
theorem witness_ControlCommands : (511 < 512 ∧ 256 < 511) ∧ (256 < 512 ∧ 256 ≤ 256) ∧ (257 < 512 ∧ 256 < 257) := by
  decide

/-- Index 2 of three bytes, index 3; byte 255 and 256 for BPUT; an unwritten byte. -/
theorem witness_ByteCommands :
    let s := withB (withX #v[2, 3, 255, 256, 0, 0, 0, 0]) 0 [0x10, 0x20, 0x0C]
    ((s.getX 0).toNat < s.lenB 0 ∧ (s.memB 0).read (s.getX 0).toNat = some 0x0C)
    ∧ s.lenB 0 ≤ (s.getX 1).toNat ∧ (s.getX 2).toNat < 256 ∧ 256 ≤ (s.getX 3).toNat := by
  decide

/-- Two buffers of 128 bytes together fill a buffer; 128 and 129 do not fit. -/
theorem witness_CopiesProduceOldContents :
    let s := withB (withB State.reset 0 (List.replicate 128 1)) 1 (List.replicate 128 2)
    s.Holds 0 (List.replicate 128 1) ∧ s.Holds 1 (List.replicate 128 2)
    ∧ (List.replicate 128 (1 : Byte)).length + (List.replicate 128 (2 : Byte)).length ≤ 256
    ∧ 256 < ((State.reset.setLen 0 128).setLen 1 129).lenB 0 + ((State.reset.setLen 0 128).setLen 1 129).lenB 1 :=
  ⟨withB_holds_of_ne (withB_holds _ _ _) (by decide), withB_holds _ _ _, by simp, by decide⟩

theorem witness_TablesAndFieldLaws : (253 < 254 ∧ 254 < 255) ∧ (1 : Byte) ≠ 0 := by decide

/-- Bytes 0 and not 0, under bits 31:8 that are not 0. -/
theorem witness_FieldCommands :
    let s := withX #v[0, 0x100, 0x101, 0, 0, 0, 0, 0]
    ((s.getX 1).setWidth 8 : Byte) = 0 ∧ ((s.getX 2).setWidth 8 : Byte) ≠ 0 := by decide

/-- Operands of 128 and 129 coefficients have a product of 256; 129 and 129 one of 257; an empty one. -/
theorem witness_PolynomialCommands :
    let s := withB (withB State.reset 0 (List.replicate 128 1)) 1 (List.replicate 129 2)
    s.Holds 0 (List.replicate 128 1) ∧ s.Holds 1 (List.replicate 129 2)
    ∧ List.replicate 128 (1 : Byte) ≠ [] ∧ List.replicate 129 (2 : Byte) ≠ [] ∧ 128 + 129 - 1 ≤ 256
    ∧ State.reset.lenB 2 = 0
    ∧ 256 < ((State.reset.setLen 0 129).setLen 1 129).lenB 0 + ((State.reset.setLen 0 129).setLen 1 129).lenB 1 - 1 :=
  ⟨withB_holds_of_ne (withB_holds _ _ _) (by decide), withB_holds _ _ _, by simp, by simp, by decide,
    by decide, by decide⟩

theorem witness_HornerAndConvolution : ([1] : List Byte) ≠ [] ∧ ([1, 2] : List Byte) ≠ []
    ∧ 1 < [(1 : Byte)].length + [(1 : Byte), 2].length - 1 := by decide

theorem witness_ProductLaws : ([1] : List Byte) ≠ [] ∧ ([2] : List Byte) ≠ [] ∧ ([3, 4] : List Byte) ≠ [] := by
  decide

/-- A count of 255 and one of 256; a block of 255 codewords and one of 256. -/
theorem witness_EncoderCommands :
    let s := withB State.reset 0 [1, 2, 3]
    s.Holds 0 [1, 2, 3] ∧ 252 < 512 ∧ [1, 2, (3 : Byte)].length + 252 ≤ 255
    ∧ (255 < 512 ∧ 255 ≤ 255) ∧ (256 < 512 ∧ 255 < 256) ∧ 255 < s.lenB 0 + 253 := by
  refine ⟨⟨rfl, Memory.holds_writeBlock _ _ _⟩, ?_⟩
  decide

theorem witness_EncodedBlockIsACodeword : 1 < 2 ∧ ([0x12, 0x34] : List Byte) ≠ [] := by decide

/-- A block of four with ec = 1 and ec = 4, the checks one beyond, an empty block, one of 256. -/
theorem witness_SyndromeStep :
    let s := (withB State.reset 2 code).setLen 1 256
    s.Holds 2 code ∧ 1 ≤ code.length ∧ code.length ≤ 255 ∧ (1 ≤ 4 ∧ 4 ≤ code.length)
    ∧ s.lenB 0 = 0 ∧ 255 < s.lenB 1 ∧ (1 ≤ s.lenB 2 ∧ s.lenB 2 ≤ 255 ∧ s.lenB 2 < 5)
    ∧ (∀ x ∈ (List.range 2).map (fun i => pevalHf code (gfExp i)), x = 0)
    ∧ ∃ x ∈ (List.range 4).map (fun i => pevalHf code (gfExp i)), x ≠ 0 := by
  refine ⟨⟨rfl, Memory.holds_writeBlock _ _ _⟩, ?_⟩
  decide

/-- Each step's state, with what its memories hold, and a state it does not run in. -/
theorem witness_LocatorAndPositionSteps :
    ((syned [0x13, 0x34, 0x22, 0x04]).rs.rsst = .syndromeReady
      ∧ [(1 : Byte), 8].length = (syned [0x13, 0x34, 0x22, 0x04]).rs.nsyn
      ∧ (syned [0x13, 0x34, 0x22, 0x04]).rs.syn.holds 0 [1, 8])
    ∧ (located.rs.rsst = .locatorReady ∧ [(1 : Byte), 8].length = located.rs.ldeg + 1
      ∧ located.rs.lambda.holds 0 [1, 8])
    ∧ State.reset.rs.rsst ≠ .syndromeReady ∧ State.reset.rs.rsst ≠ .locatorReady := by
  simp only [Memory.holds]; decide

theorem witness_LocatorGeneratesSyndromes : (bm [1, 8]).2 ≤ 1 ∧ 1 < [(1 : Byte), 8].length := by decide

/-- No zero denominator (n = NPOS = 1); and one at the first position, for a Λ whose derivative is 0. -/
theorem witness_MagnitudeStep :
    (positioned.rs.rsst = .positionsReady ∧ [(1 : Byte), 8].length = positioned.rs.nsyn
      ∧ positioned.rs.syn.holds 0 [1, 8] ∧ [(1 : Byte), 8].length = positioned.rs.ldeg + 1
      ∧ positioned.rs.lambda.holds 0 [1, 8] ∧ [(0 : Byte)].length = positioned.rs.npos
      ∧ positioned.rs.pos.holds 0 [0] ∧ 1 ≤ positioned.rs.npos
      ∧ pevalHf ([8] : List Byte).reverse (gfExp (-(4 - 1 - 0))) ≠ 0)
    ∧ pevalHf ([0] : List Byte).reverse (gfExp (-(4 - 1 - 0))) = 0
    ∧ State.reset.rs.rsst ≠ .positionsReady := by
  simp only [Memory.holds]; decide

/-- The block corrected by XORing 1 at index 0, which is a codeword; by XORing 2, which is none. -/
theorem witness_ApplyStep :
    measured.rs.rsst = .magnitudesReady ∧ measured.lenB 2 = measured.rs.nmsg
    ∧ measured.Holds 2 [0x13, 0x34, 0x22, 0x04] ∧ [(0 : Byte)].length = measured.rs.npos
    ∧ measured.rs.pos.holds 0 [0] ∧ measured.rs.mag.holds 0 [1]
    ∧ (∀ i : Nat, i < measured.rs.nsyn → pevalHf code (gfExp i) = 0)
    ∧ (∃ i : Nat, i < 2 ∧ pevalHf ([0x11, 0x34, 0x22, 0x04] : List Byte) (gfExp i) ≠ 0)
    ∧ measured.lenB 1 ≠ measured.rs.nmsg ∧ State.reset.rs.rsst ≠ .magnitudesReady := by
  simp only [Memory.holds, State.Holds]
  refine ⟨by decide, by decide, by decide, by decide, by decide, by decide, by decide, ⟨0, ?_⟩, by decide, by decide⟩
  decide

theorem witness_WholeBlockIsTheFiveSteps :
    let s := withB State.reset 2 code
    (1 ≤ s.lenB 2 ∧ s.lenB 2 ≤ 255 ∧ 1 ≤ 4 ∧ 4 ≤ s.lenB 2) ∧ s.lenB 0 = 0 ∧ s.lenB 2 < 5
    ∧ 255 < (s.setLen 1 256).lenB 1 := by decide

theorem witness_fiveSteps : (after (fiveSteps 2 2 (withB State.reset 2 [0x13, 0x34, 0x22, 0x04])) (·.rs.rsst)
      = some .corrected)
    ∧ faultOf (fiveSteps 2 2 ((State.reset.writeB 2 0 [7]).setLen 2 2)) = some (.unwrittenRead (.buf 2) 1) := by
  decide

theorem witness_DecodedBlockIsVerified :
    (withB State.reset 2 code).Holds 2 code ∧ 1 ≤ code.length ∧ code.length ≤ 255 ∧ 1 ≤ 2 ∧ 2 ≤ code.length :=
  ⟨⟨rfl, Memory.holds_writeBlock _ _ _⟩, by decide, by decide, by decide, by decide⟩

theorem witness_DecoderStateMachine : (∃ t, exec .rsbm State.reset = .next t) ∧ rsMoves .rsbm .idle = []
    ∧ ∃ t, exec .rsbm (syned [0x13, 0x34, 0x22, 0x04]) = .next t := ⟨⟨_, rfl⟩, rfl, _, rfl⟩

/-- A decoder step that ends a block without raising, and a command that does not. -/
theorem witness_AggregateCountsTerminalBlocks :
    (∃ t, exec (.rssyn 2 2) (withB State.reset 2 code) = .next t ∧ t.rs.rsst.terminal = true ∧ t.ctl.err = false)
    ∧ ∃ t, exec .nop State.reset = .next t := ⟨⟨_, rfl, by decide, by decide⟩, _, rfl⟩

theorem witness_OneErrorIsCorrected : code.length ≤ 255 ∧ 2 ≤ 2 ∧ 2 ≤ code.length
    ∧ (∀ i : Nat, i < 2 → pevalHf code (gfExp i) = 0) ∧ 3 < code.length ∧ (0x80 : Byte) ≠ 0
    ∧ (withB State.reset 2 (code.modify 3 (fun x => x ^^^ 0x80))).Holds 2
        (code.modify 3 (fun x => x ^^^ 0x80)) :=
  ⟨by decide, by decide, by decide, by decide, by decide, by decide, rfl, Memory.holds_writeBlock _ _ _⟩

/-- One codeword changed, and none. -/
theorem witness_ErrorsWithinCapacityAreCorrected :
    let changed (r : List Byte) := ((List.range code.length).filter (fun k => code.getD k 0 ≠ r.getD k 0)).length
    1 ≤ 2 ∧ 2 ≤ code.length ∧ code.length ≤ 255 ∧ (∀ i : Nat, i < 2 → pevalHf code (gfExp i) = 0)
    ∧ changed [0x13, 0x34, 0x22, 0x04] = 2 / 2 ∧ changed code = 0
    ∧ (withB State.reset 2 [0x13, 0x34, 0x22, 0x04]).Holds 2 [0x13, 0x34, 0x22, 0x04] :=
  ⟨by decide, by decide, by decide, by decide, by decide, by decide, rfl, Memory.holds_writeBlock _ _ _⟩

theorem witness_BchWordsAreDivisible : 0 < 0x537 ∧ 31 < 2 ^ 5 ∧ 63 < 2 ^ 6 := by decide

/-- Three flips of a format word, two of a version word, at both ends of the word. -/
theorem witness_BchCorrectionLaws : 31 < 2 ^ 5 ∧ 0x4003 < 2 ^ 15 ∧ ones 15 0x4003 ≤ 3 ∧ 63 < 2 ^ 6
    ∧ 0x20001 < 2 ^ 18 ∧ ones 18 0x20001 ≤ 2 := by decide

/-- R316's example: four flips of the word of data 5 that decode, to data 4. -/
theorem witness_BchCorrectionLaws_four : 5 < 2 ^ 5 ∧ 0x17 < 2 ^ 15 ∧ ones 15 0x17 = 4
    ∧ fmtDec (fmtEnc 5 ^^^ 0x17) = ⟨true, 4, 3⟩ := by decide

/-- A word that decodes and one that does not, of each code. -/
theorem witness_BchDecodersAnswerTheNearest : (0x40CE < 2 ^ 15 ∧ (fmtDec 0x40CE).ok = true)
    ∧ (0x07C94 < 2 ^ 18 ∧ (verDec 0x07C94).ok = true)
    ∧ (0x07C93 < 2 ^ 18 ∧ (verDec 0x07C93).ok = false) := by decide

/-- Widths 32 and 33, a stream with room for 32 bits and 8 bits to the last place. -/
theorem witness_ClearingAndAppendingCommands :
    let s := withB { State.reset with bs := { State.reset.bs with blen := 32736 } } 0 [1, 2, 3, 4]
    (32 < 512 ∧ 1 ≤ 32 ∧ 32 ≤ 32 ∧ s.bs.blen + 32 ≤ 32768) ∧ 32 < 33
    ∧ (s.Holds 0 [1, 2, 3, 4] ∧ s.bs.blen + 8 * [1, 2, 3, (4 : Byte)].length ≤ 32768)
    ∧ 32768 < (s.setLen 0 5).bs.blen + 8 * (s.setLen 0 5).lenB 0 := by
  refine ⟨by decide, by decide, ⟨⟨rfl, Memory.holds_writeBlock _ _ _⟩, by decide⟩, by decide⟩

/-- The last 5 bits of 41, one more than are left; the last whole byte, the partial one after it. -/
theorem witness_StreamReads :
    let s := withStream (withX #v[4, 5, 0, 0, 0, 0, 0, 0]) numericBits 36
    (1 ≤ 5 ∧ 5 ≤ 32 ∧ 3 < 2 ^ 5 ∧ s.StreamHolds s.bs.rpos (fieldBits 3 5)) ∧ s.bs.blen - s.bs.rpos < 6
    ∧ (1 ≤ 256 ∧ [(0x61 : Byte)].length = 1 ∧ s.StreamHolds (8 * (s.getX 0).toNat) ([0x61].flatMap byteBits))
    ∧ s.bs.blen < 8 * ((s.getX 1).toNat + 1) := by
  simp only [State.StreamHolds, Memory.holds]; decide

theorem witness_PayloadEncoding : (∀ x ∈ ([0x30, 0x35, 0x39] : List Byte), validChar .numeric x)
    ∧ ∀ x ∈ ([0x41, 0x3A] : List Byte), validChar .alnum x := by
  simp only [validChar]; decide

/-- Segments that can be appended, at the last bit; a count too large for byte mode of version 9; a bad second
character; a mode that is none. -/
theorem witness_SegencAppendsOneSegment :
    let s := withB { State.reset with ver := 9, bs := { State.reset.bs with blen := 32768 - 27 } } 0 [0x30, 0x39, 0x41]
    (s.lenB 0 < 2 ^ 9 ∧ s.Holds 0 [0x30, 0x39, 0x41] ∧ (∀ c ∈ ([0x30, 0x39, 0x41] : List Byte), validChar .alnum c))
    ∧ (s.memB 0).read 2 = some 0x41 ∧ ¬ validChar .numeric 0x41
    ∧ (∀ j : Nat, j < 2 → ∃ a, (s.memB 0).read j = some a ∧ validChar .numeric a)
    ∧ 2 ^ 8 ≤ (s.setLen 0 256).lenB 0 ∧ 3 ∉ [1, 2, 4] ∧ 3 < 512 := by
  refine ⟨⟨by decide, ⟨rfl, Memory.holds_writeBlock _ _ _⟩, ?_⟩, by decide, ?_, ?_, by decide, by decide, by decide⟩
  · simp only [validChar]; decide
  · simp only [validChar]; decide
  · intro j hj
    have : j = 0 ∨ j = 1 := by omega
    rcases this with rfl | rfl
    · exact ⟨0x30, by decide, by simp only [validChar]; decide⟩
    · exact ⟨0x39, by decide, by simp only [validChar]; decide⟩

/-- A stream exactly at the capacity, and one bit past it. -/
theorem witness_TerminatorAndPadding :
    let s : State := { withStream State.reset (bitsOf 0 16) 0 with capb := 2 }
    s.bs.blen ≤ 8 * s.capb ∧ 8 * s.capb < { s with bs := { s.bs with blen := 17 } }.bs.blen := by decide

/-- Three bits left; a zero indicator; mode 15; a whole indicator with one count bit too few; a count with one
payload bit too few; a count of 257 in byte mode of version 10. -/
theorem witness_SegdecReportsOutcomes :
    let at_ (bits : List Bool) : State := withStream State.reset bits 0
    (at_ (bitsOf 0 3)).bs.blen - (at_ (bitsOf 0 3)).bs.rpos < 4
    ∧ (at_ (bitsOf 0 4)).StreamHolds 0 (fieldBits 0 4)
    ∧ (15 < 16 ∧ 15 ∉ [0, 1, 2, 4] ∧ (at_ (bitsOf 15 4)).StreamHolds 0 (fieldBits 15 4))
    ∧ ((at_ (bitsOf 1 4 ++ bitsOf 0 9)).StreamHolds 0 (fieldBits 1 4) ∧ 13 - 4 < cci .numeric 1)
    ∧ ((at_ (bitsOf 1 4 ++ bitsOf 1 10 ++ bitsOf 0 3)).StreamHolds 4 (fieldBits 1 10) ∧ 17 - 14 < pbits .numeric 1)
    ∧ (pbits .byte 257 ≤ 8 * 257 ∧ 256 < 257 ∧ 257 < 2 ^ cci .byte 10) := by
  simp only [State.StreamHolds, Memory.holds]; decide

/-- A three-digit group of value 1000. -/
theorem witness_SegdecRejectsInvalidGroups :
    let s := withStream State.reset (fieldBits 1 4 ++ fieldBits 3 10 ++ fieldBits 1000 10) 0
    Mode.numeric ≠ .byte ∧ 3 ≤ 256 ∧ s.StreamHolds s.bs.rpos (fieldBits 1 4 ++ fieldBits 3 (cci .numeric s.ver))
    ∧ pbits .numeric 3 ≤ s.bs.blen - (s.bs.rpos + 4 + 10) ∧ ([] : List Byte).length % 3 = 0
    ∧ ([] : List Byte).length < 3 ∧ 10 ^ min 3 (3 - 0) ≤ 1000 ∧ 1000 < 2 ^ 10
    ∧ s.StreamHolds 14 (encodePayload .numeric [] ++ fieldBits 1000 10) := by
  simp only [State.StreamHolds, Memory.holds]; decide

theorem witness_SegdecReturnsTheSegment :
    let s := withStream State.reset (fieldBits 4 4 ++ fieldBits 1 8 ++ encodePayload .byte [0xFF]) 0
    [(0xFF : Byte)].length ≤ 256 ∧ [(0xFF : Byte)].length < 2 ^ cci .byte s.ver
    ∧ (∀ c ∈ [(0xFF : Byte)], validChar .byte c)
    ∧ s.StreamHolds s.bs.rpos (fieldBits (modeIndicator .byte) 4 ++ fieldBits 1 (cci .byte s.ver)
        ++ encodePayload .byte [0xFF]) := by
  refine ⟨by decide, by decide, fun _ _ => trivial, ?_⟩
  simp only [State.StreamHolds, Memory.holds]; decide

/-- A state that is not the reset state and meets the invariants: two coordinates, two stream bits, a block
found free of errors. -/
def good : State := { State.reset with
  ver := 2
  capb := 4096
  bs := { State.reset.bs with bits := [(0, true), (1, false)], blen := 2 }
  rs := { State.reset.rs with rsst := .noError, nmsg := 4, nsyn := 2, maxcorr := 1
                              syn := [(0, 0), (1, 0)], aggn := 1, aggv := 1 }
  zig := { State.reset.zig with role := [(0, true)], mod := [(3559, true), (3560, false)]
                                zz := [(0, (20, 20)), (1, (20, 19))], zzcnt := 2 } }

theorem good_arrays : good.ArraysOk where
  buf := by decide
  bits := by decide
  syn := by decide
  lambda := by decide
  pos := by decide
  mag := by decide
  role := by decide
  mod := by decide
  zz := by decide

theorem good_Inv : good.Inv where
  arrays := good_arrays
  ranges :=
    { len := by decide, ver := by decide, capb := by decide, blen := by decide, rpos := by decide
      segmode := by decide, segcnt := by decide, segexp := by decide, segavl := by decide
      databits := by decide, detected := by decide, maxcorr := by decide, corrected := by decide
      nmsg := by decide, nsyn := by decide, ldeg := by decide, npos := by decide, aggn := by decide
      aggv := by decide, zzcnt := by decide, entries := by decide
      left := fun r h => by cases h }

theorem good_zigzag : good.zig.Consistent where
  written := by simp only [Memory.written]; decide
  distinct i j e hi hj h1 h2 := by
    have hi : i = 0 ∨ i = 1 := by have : i < 2 := hi; omega
    have hj : j = 0 ∨ j = 1 := by have : j < 2 := hj; omega
    rcases hi with rfl | rfl <;> rcases hj with rfl | rfl
    · rfl
    · cases h1; exact absurd h2 (by decide)
    · cases h1; exact absurd h2 (by decide)
    · rfl
  noTiming k e hk h := by
    have hk : k = 0 ∨ k = 1 := by have : k < 2 := hk; omega
    rcases hk with rfl | rfl <;> (cases h; decide)

theorem good_decoder : good.rs.Consistent where
  sizes := by decide
  syn := by simp only [Memory.written]; decide
  lambda h := absurd h (by decide)
  pos h := absurd h (by decide)
  mag h := absurd h (by decide)
  reason := by decide
  corrected := by decide
  detected := by decide
  maxcorr := by decide
  aggregate := by decide

/-- Fewer bits than a byte after the cursor: nothing is counted. -/
theorem witness_BspadchkCountsPadBytes : good.Inv
    ∧ ([] : List Byte).length = (min good.bs.blen (8 * good.capb) - 8 * ((good.bs.rpos + 7) / 8)) / 8
    ∧ good.bs.bits.holds (8 * ((good.bs.rpos + 7) / 8)) (([] : List Byte).flatMap byteBits) :=
  ⟨good_Inv, by decide, fun j hj => absurd hj (by simp)⟩

/-- All roles written. -/
def allRoles : State := { good with zig := { good.zig with role := cellsFrom 0 (List.replicate 31329 true) } }

theorem allRoles_read {a : Nat} (h : a < 31329) : allRoles.zig.role.read a = some true := by
  show Memory.read (cellsFrom 0 (List.replicate 31329 true)) a = some true
  rw [Memory.read_cellsFrom, if_pos (Nat.zero_le a), List.getElem?_replicate, Nat.sub_zero, if_pos h]

theorem witness_ZzgenListsTheTraversal : (1 ≤ 40 ∧ 40 ≤ 40) ∧ (77 < (177 - 1) / 2 ∧ 176 < 177 ∧ 1 < 2)
    ∧ ∀ r c : Nat, r < 21 + 4 * (allRoles.ver - 1) → c < 21 + 4 * (allRoles.ver - 1) → c ≠ 6 →
        (allRoles.zig.role.read (177 * r + c)).isSome = true := by
  refine ⟨by decide, by decide, fun r c hr hc _ => ?_⟩
  have hv : 21 + 4 * (allRoles.ver - 1) = 25 := rfl
  rw [allRoles_read (by omega)]
  rfl

theorem allRoles_Inv : allRoles.Inv where
  arrays := { good_arrays with role := ⟨cellsFrom_wf _ _, fun c hc => by
    have := (mem_cellsFrom hc).2.1
    rwa [List.length_replicate, Nat.zero_add] at this⟩ }
  ranges := { good_Inv.ranges with }

/-- A cell of the matrix of `allRoles` has a written role. -/
theorem allRoles_visited {rc : Nat × Nat} (h : rc ∈ visited 25) :
    (allRoles.zig.role.read (cellIndex rc.1 rc.2)).isSome = true := by
  have := mem_visited h
  have hi : cellIndex rc.1 rc.2 = 177 * rc.1 + rc.2 := by unfold cellIndex Config.maxSize; omega
  rw [hi, allRoles_read (by omega), Option.isSome_some]

/-- ZZGEN completes when the traversal reads written roles. -/
theorem zzgen_completes {s : State} {l : List (Nat × Nat)} (h : zigzag (Config.size s.ver) s.zig.role = .ok l) :
    ∃ t, exec .zzgen s = .next t := by
  simp [exec, execZzgen, h, Except.map, finish]

theorem witness_TraversalLaws : allRoles.Inv ∧ ∃ t, exec .zzgen allRoles = .next t := by
  refine ⟨allRoles_Inv, ?_⟩
  obtain ⟨l, hl⟩ : ∃ l, keepData allRoles.zig.role (visited 25) = .ok l :=
    ⟨_, keepData_eq_ok.2 ⟨fun _ h => allRoles_visited h, Eq.refl _⟩⟩
  have hv : Config.size allRoles.ver = 25 := by decide
  have hz : zigzag (Config.size allRoles.ver) allRoles.zig.role = .ok l := by
    rw [hv]; unfold zigzag; exact hl
  exact zzgen_completes hz

theorem witness_PlaceAndReadModules : good.Inv ∧ good.zig.Consistent
    ∧ (∀ k : Nat, k < min good.bs.blen good.zig.zzcnt → (good.bs.bits.read k).isSome = true)
    ∧ good.zig.zz.written good.zig.zzcnt
    ∧ ∀ (k : Nat) (e : Byte × Byte), k < good.zig.zzcnt → good.zig.zz.read k = some e →
        (good.zig.mod.read (177 * e.1.toNat + e.2.toNat)).isSome = true := by
  refine ⟨good_Inv, good_zigzag, by decide, good_zigzag.written, fun k e hk h => ?_⟩
  have hk : k = 0 ∨ k = 1 := by have : k < 2 := hk; omega
  rcases hk with rfl | rfl <;> (cases h; decide)

theorem witness_PlacedBitsReadBack : good.Inv ∧ good.zig.Consistent ∧ ∃ t, exec .zzplace good = .next t :=
  ⟨good_Inv, good_zigzag, _, rfl⟩

theorem witness_RegisterReadsReturnTheirFields :
    let s := acting good (.busRead (BitVec.ofNat 17 0x0001C) 4)
    s.ctl.running = none ∧ (0x0001C, 2) ∈ s.registerValues
    ∧ s.atAction (.busRead (BitVec.ofNat 17 0x0001C) 4) := ⟨rfl, by decide, rfl⟩

theorem witness_RegisterReadsReturnTheirFields_Inv :
    (acting good (.busRead (BitVec.ofNat 17 0x0001C) 4)).Inv :=
  { arrays := { good_arrays with }, ranges := { good_Inv.ranges with } }

/-- The first and last addresses of each clause. -/
theorem witness_RegisterWritesAreLegalized :
    let s (a : Nat) := acting State.reset (.busWrite (BitVec.ofNat 17 a) 4 40)
    ((s 0x0001C).ctl.running = none ∧ (s 0x0001C).atAction (.busWrite (BitVec.ofNat 17 0x0001C) 4 40))
    ∧ (s 0x0005C).atAction (.busWrite (BitVec.ofNat 17 (0x00040 + 4 * (7 : XReg).val)) 4 40)
    ∧ (s 0x0006C).atAction (.busWrite (BitVec.ofNat 17 (0x00060 + 4 * (3 : BReg).val)) 4 40)
    ∧ (s 0x1FFFC).atAction (.busWrite (BitVec.ofNat 17 0x1FFFC) 4 40) := ⟨⟨rfl, rfl⟩, rfl, rfl, rfl⟩

/-- The last word of a buffer, of the stream and of a role row. -/
theorem witness_WindowsKeepTheirOrder :
    let s (a : Nat) := acting (State.reset.writeB 3 252 [1, 2, 3, 4]) (.busWrite (BitVec.ofNat 17 a) 4 7)
    (63 < 64 ∧ (s 0x004FC).atAction (.busWrite (BitVec.ofNat 17 (0x00100 + 0x100 * (3 : BReg).val + 4 * 63)) 4 7))
    ∧ ((State.reset.writeB 3 252 [1, 2, 3, 4]).memB 3).holds (4 * 63) [1, 2, 3, 4]
    ∧ (1023 < 1024 ∧ (s 0x01FFC).atAction (.busWrite (BitVec.ofNat 17 (0x01000 + 4 * 1023)) 4 7))
    ∧ (176 < 177 ∧ 5 < 6 ∧ (s 0x03094).atAction (.busWrite (BitVec.ofNat 17 (0x02000 + 24 * 176 + 4 * 5)) 4 7))
    ∧ (s 0x05094).atAction (.busWrite (BitVec.ofNat 17 (0x04000 + 24 * 176 + 4 * 5)) 4 7)
    ∧ (32 * 5 ≤ 176 ∧ 176 < 32 * 5 + 32) :=
  ⟨⟨by decide, rfl⟩, Memory.holds_writeBlock _ _ _, ⟨by decide, rfl⟩, ⟨by decide, by decide, rfl⟩, rfl, by decide⟩

/-- The last word of each window: byte 255 of SYN and cells past column 176 read 0; entry 31328 of ZZ. -/
theorem witness_WindowsKeepTheirOrder_reads :
    let s (a : Nat) := acting State.reset (.busRead (BitVec.ofNat 17 a) 4)
    ((s (0x00500 + 4 * 63)).atAction (.busRead (BitVec.ofNat 17 (0x00500 + 4 * 63)) 4)
      ∧ ∀ k : Nat, k < 4 → if 4 * 63 + k < 255 then
          Memory.read [(252, 1), (253, 2), (254, 3)] (4 * 63 + k) = some ([1, 2, 3].getD k 0 : Byte)
        else ([1, 2, 3].getD k 0 : Byte) = 0)
    ∧ (1023 < 1024 ∧ (s 0x01FFC).atAction (.busRead (BitVec.ofNat 17 (0x01000 + 4 * 1023)) 4)
      ∧ ∀ k : Nat, k < 32 → ((cellsFrom 32736 (bitsOf 5 32)).read (32 * 1023 + k)).isSome = true)
    ∧ (176 < 177 ∧ 5 < 6 ∧ (s 0x03094).atAction (.busRead (BitVec.ofNat 17 (0x02000 + 24 * 176 + 4 * 5)) 4)
      ∧ ∀ d : Nat, d < 17 → ((cellsFrom 31312 (bitsOf 5 17)).read (177 * 176 + (32 * 5 + d))).isSome = true)
    ∧ (15664 < 16384 ∧ (s 0x1F4C0).atAction (.busRead (BitVec.ofNat 17 (0x10000 + 4 * 15664)) 4)
      ∧ 2 * 15664 < 31329 ∧ ¬ 2 * 15664 + 1 < 31329) :=
  ⟨⟨rfl, by decide⟩, ⟨by decide, rfl, by decide⟩, ⟨by decide, by decide, rfl, by decide⟩, by decide, rfl, by decide,
    by decide⟩

/-- A misaligned address, a narrow access, the edges of the first hole, the last register. -/
theorem witness_BusErrorsStopTheRun : (0x00002 : BitVec 17).toNat % 4 ≠ 0 ∧ 2 ≠ 4
    ∧ (0x00084 ≤ (0x000FC : BitVec 17).toNat ∧ (0x000FC : BitVec 17).toNat < 0x00100)
    ∧ (0x00080 : BitVec 17).toNat < 0x00084
    ∧ (acting State.reset (.busRead 0x00080 4)).atAction (.busRead 0x00080 4) :=
  ⟨by decide, by decide, by decide, by decide, rfl⟩

/-- BPUT runs: its index register, its length and the last word of its buffer are used, the word before it is
not; a MOD word of a listed cell is used by ZZPLACE. -/
theorem witness_BusyAccessesRespectTheHazard :
    let i : Instr := .bput 2 1 3
    let s (a : HostAction) := acting (running (withX #v[0, 255, 0, 0, 0, 0, 0, 0]) (encode i) 2) a
    (∀ a, (s a).ctl.running = some ⟨encode i, 2⟩) ∧ i.wellFormed = true
    ∧ (busTarget 0x00044 4 = .ok (.x 1) ∧ usesWord i (s .wait) (.x 1))
    ∧ (busTarget 0x00068 4 = .ok (.len 2) ∧ usesWord i (s .wait) (.len 2))
    ∧ (busTarget 0x003FC 4 = .ok (.bufWord 2 63) ∧ usesWord i (s .wait) (.bufWord 2 63))
    ∧ (busTarget 0x003F8 4 = .ok (.bufWord 2 62) ∧ ¬ usesWord i (s .wait) (.bufWord 2 62))
    ∧ busTarget 0x0000C 4 = .ok .irqen
    ∧ (usesWord .zzplace placed (.modWord 20 0) ∧ placed.zig.zz.wf)
    ∧ ∃ t, step (s (.busRead 0x00008 4)) = .next t := by
  refine ⟨fun _ => rfl, by decide, ⟨by decide, by simp [usesWord, operandX]⟩, ⟨by decide, by simp [usesWord, operandB]⟩,
    ⟨by decide, 255, by decide, by decide, rfl, rfl⟩, ⟨by decide, ?_⟩, by decide,
    ⟨⟨.inl rfl, 0, (20, 20), by decide, rfl, rfl, by decide⟩, by decide⟩, _, rfl⟩
  rintro ⟨k, h1, h2, -, hk⟩
  have : k = 255 := hk
  omega

/-- No sequence of SEGENC commands appends 1 to 11 bits; one empty byte segment at version 1 appends 12. -/
theorem test_SegmentTotal : (∀ v d, SegmentTotal v d → 12 ≤ d) ∧ SegmentTotal 1 12 := by
  constructor
  · rintro v d ⟨segs, hne, -, rfl⟩
    obtain ⟨mc, rest, rfl⟩ := List.exists_cons_of_ne_nil hne
    have : 8 ≤ cci mc.1 v := by unfold cci; split <;> split <;> (try split) <;> omega
    simp only [List.map_cons, List.sum_cons, segmentBits]
    omega
  · exact ⟨[(.byte, 0)], by simp, by decide, by decide⟩

theorem witness_ResetValues : (0x0001C, 1) ∈ State.reset.registerValues
    ∧ (acting good .platformReset).atAction .platformReset := ⟨by decide, rfl⟩

theorem witness_StepKeepsInvariant : good.Inv ∧ ∃ t, step good = .next t := ⟨good_Inv, _, rfl⟩

theorem witness_StepKeepsUnitsConsistent : good.Inv ∧ good.rs.Consistent ∧ good.zig.Consistent
    ∧ ∃ t, step good = .next t := ⟨good_Inv, good_decoder, good_zigzag, _, rfl⟩

end Sys2Proof.Tests
end

section
/-! PROOFS. How long the lists are that the commands write: products, generators and remainders, locators,
positions and magnitudes, encoded and decoded payloads, padding. -/

namespace Sys2Proof.Machine

/-! ## Polynomials and the encoder -/

theorem length_pmul_cons (a : Byte) (p q : List Byte) (hq : q ≠ []) :
    (pmul (a :: p) q).length = p.length + q.length := by
  have hq := List.length_pos_iff.2 hq
  induction p generalizing a with
  | nil => simp [pmul, length_polyScale]
  | cons b p ih =>
    simp only [pmul, length_polyAdd, length_polyScale, List.length_cons, ih b]
    omega

/-- The product of two non-empty operands has |a| + |b| − 1 coefficients (R211). -/
theorem length_pmul {p q : List Byte} (hp : p ≠ []) (hq : q ≠ []) :
    (pmul p q).length = p.length + q.length - 1 := by
  obtain ⟨a, p, rfl⟩ := List.exists_cons_of_ne_nil hp
  rw [length_pmul_cons a p q hq, List.length_cons]
  omega

theorem length_foldl_pmul_pair {ι : Type} (f : ι → Byte) (is : List ι) {g : List Byte} (hg : g ≠ []) :
    (is.foldl (fun g i => pmul g [1, f i]) g).length = g.length + is.length := by
  have hg := List.length_pos_iff.2 hg
  induction is generalizing g with
  | nil => rfl
  | cons i is ih =>
    have h : (pmul g [1, f i]).length = g.length + 1 := by
      rw [length_pmul (List.length_pos_iff.1 hg) (by simp)]; rfl
    rw [List.foldl_cons, ih (List.length_pos_iff.1 (by omega)) (by omega), h, List.length_cons]
    omega

/-- The generator has degree n (R230). -/
theorem length_rsGen (n : Nat) : (rsGen n).length = n + 1 := by
  unfold rsGen
  rw [length_foldl_pmul_pair gfExp _ (by simp)]
  simp [Nat.add_comm]

/-- Each division step drops one coefficient. -/
theorem length_rsDivide (g : List Byte) (k n : Nat) (m : List Byte) (hg : g.length = n + 1)
    (hm : m.length = k + n) : (rsDivide g k m).length = n := by
  induction k generalizing m with
  | zero => simpa [rsDivide] using hm
  | succ k ih =>
    obtain ⟨c, m, rfl⟩ : ∃ c m', m = c :: m' := List.exists_cons_of_length_pos (by omega)
    have hm : m.length = k + n := by simp only [List.length_cons] at hm; omega
    rw [rsDivide]
    split
    · exact ih m hm
    · refine ih _ ?_
      rw [length_polyAdd, length_polyScale, List.length_tail]
      omega

/-- The remainder has n codewords (R231). -/
theorem length_rsRem (d : List Byte) (n : Nat) : (rsRem d n).length = n :=
  length_rsDivide (rsGen n) d.length n _ (length_rsGen n) (by simp)

/-! ## The decoder -/

theorem length_syndromes (r : List Byte) (ec : Nat) : (syndromes r ec).length = ec := by simp [syndromes]

theorem bmIterate_degree_le {syn : List Byte} {v : BmVars} {n : Nat} (h : v.l ≤ n) :
    (bmIterate syn v n).l ≤ n + 1 := by
  unfold bmIterate
  dsimp only
  split
  · exact Nat.le_succ_of_le h
  · split
    · exact Nat.sub_le _ _
    · exact Nat.le_succ_of_le h

/-- After n iterations of R253 the register length is at most n. -/
theorem foldl_bmIterate_degree_le (syn : List Byte) (v : BmVars) (hv : v.l = 0) (n : Nat) :
    ((List.range n).foldl (bmIterate syn) v).l ≤ n := by
  induction n with
  | zero => simp [hv]
  | succ n ih =>
    rw [List.range_succ, List.foldl_append]
    exact bmIterate_degree_le ih

/-- L is at most the number of syndromes (R253). -/
theorem bm_degree_le (syn : List Byte) : (bm syn).2 ≤ syn.length :=
  foldl_bmIterate_degree_le syn _ rfl _

theorem length_bm (syn : List Byte) : (bm syn).1.length = (bm syn).2 + 1 := by simp [bm]

/-- There are at most N positions, each below N (R254). -/
theorem length_chien_le (lam : List Byte) (n : Nat) : (chien lam n).length ≤ n := by
  have := List.length_filter_le (fun i : Nat => pevalLf lam (gfExp (-(i : Int))) == 0) (List.range n)
  simpa [chien] using this

theorem lt_of_mem_chien {lam : List Byte} {n p : Nat} (h : p ∈ chien lam n) : p < n := by
  obtain ⟨i, hi, rfl⟩ := List.mem_map.1 h
  have := List.mem_range.1 (List.mem_filter.1 hi).1
  omega

/-- One magnitude a position, unless a zero denominator ends the list (R256). -/
theorem length_magnitudes (omega lam' : List Byte) (n : Nat) (ps : List Nat) :
    (magnitudes omega lam' n ps).1.length ≤ ps.length
      ∧ ((magnitudes omega lam' n ps).2 = false → (magnitudes omega lam' n ps).1.length = ps.length) := by
  induction ps with
  | nil => simp [magnitudes]
  | cons p ps ih =>
    rw [magnitudes]
    split
    · simp
    · simpa using ih

theorem length_correct (r : List Byte) (pms : List (Nat × Byte)) : (correct r pms).length = r.length := by
  induction pms generalizing r with
  | nil => rfl
  | cons pm pms ih => rw [correct, ih, List.length_modify]

/-! ## The bitstream -/

theorem sum_groups (m : Mode) (c : Nat) : (groups m c).sum = c := by
  have hc := Nat.div_add_mod' c (groupSize m)
  rw [groups, List.sum_append, List.sum_replicate, smul_eq_mul]
  split
  · simpa [*] using hc
  · simpa using hc

/-- The groups of a payload take the bits R349 says. -/
theorem sum_groupBits_groups (m : Mode) (c : Nat) : ((groups m c).map (groupBits m)).sum = pbits m c := by
  cases m <;> simp only [groups, groupSize, pbits, List.map_append, List.map_replicate,
    List.sum_append, List.sum_replicate, smul_eq_mul]
  case numeric =>
    have : c % 3 = 0 ∨ c % 3 = 1 ∨ c % 3 = 2 := by omega
    rcases this with h | h | h <;> simp [h, groupBits, Nat.mul_comm]
  case alnum =>
    rcases Nat.mod_two_eq_zero_or_one c with h | h <;> simp [h, groupBits, Nat.mul_comm]
  case byte => simp [Nat.mod_one, groupBits, Nat.mul_comm]

theorem length_encodeGroups (m : Mode) (gs vs : List Nat) :
    (encodeGroups m gs vs).length = (gs.map (groupBits m)).sum := by
  induction gs generalizing vs with
  | nil => rfl
  | cons g gs ih => simp [encodeGroups, length_bitsOf, ih]

theorem length_encodePayload (m : Mode) (d : List Byte) : (encodePayload m d).length = pbits m d.length := by
  rw [encodePayload, length_encodeGroups, sum_groupBits_groups]

theorem length_decodeGroups {s : State} {m : Mode} {gs : List Nat} {q : Nat} {d : List Byte}
    (h : s.decodeGroups m gs q = .ok (some d)) : d.length = gs.sum := by
  induction gs generalizing q d with
  | nil =>
    simp only [State.decodeGroups, Except.ok.injEq, Option.some.injEq] at h
    simp [← h]
  | cons g gs ih =>
    obtain ⟨v, -, h⟩ := bind_eq_ok.1 h
    split at h
    · cases h
    · obtain ⟨rest, hrest, h⟩ := map_eq_ok.1 h
      obtain ⟨cs, rfl, rfl⟩ := Option.map_eq_some_iff.1 h
      simp [groupChars, ih hrest]

theorem cci_le_sixteen (m : Mode) (v : Nat) : cci m v ≤ 16 := by
  cases m <;> simp only [cci] <;> split <;> (try split) <;> omega

/-- A payload takes at most ten bits a character. -/
theorem pbits_le (m : Mode) (c : Nat) : pbits m c ≤ 10 * c := by
  cases m <;> simp only [pbits]
  · split <;> (try split) <;> omega
  · omega
  · omega

/-- The padding ends within a capacity of whole bytes (R354). -/
theorem add_length_padding_le {blen capb : Nat} (h : blen ≤ 8 * capb) :
    blen + (padding blen (8 * capb)).length ≤ 8 * capb := by
  simp only [padding, List.length_append, List.length_replicate, length_bitsOfBytes, List.length_map,
    List.length_range]
  omega

/-! ## The traversal -/

theorem length_pairCells (size col : Nat) (up : Bool) : (pairCells size col up).length = 2 * size := by
  cases up <;> simp [pairCells, Nat.mul_comm]

theorem length_visitFrom_le (size turns col : Nat) (up : Bool) :
    (visitFrom size turns col up).length ≤ size * (col + 1) := by
  induction turns generalizing col up with
  | zero => simp [visitFrom]
  | succ turns ih =>
    rw [visitFrom]
    split
    · simp
    · dsimp only
      rw [List.length_append, length_pairCells]
      have h := ih ((if col = 6 then col - 1 else col) - 2) (!up)
      have hc : (if col = 6 then col - 1 else col) - 2 + 1 + 2 ≤ col + 1 ∨ col = 1 := by split <;> omega
      rcases hc with hc | rfl
      · calc _ ≤ 2 * size + size * ((if col = 6 then col - 1 else col) - 2 + 1) := by omega
          _ = size * ((if col = 6 then col - 1 else col) - 2 + 1 + 2) := by ring
          _ ≤ size * (col + 1) := Nat.mul_le_mul_left _ hc
      · cases turns <;> simp [visitFrom] <;> omega

/-- The traversal visits no more cells than the matrix has (R402). -/
theorem length_visited_le (size : Nat) : (visited size).length ≤ size * size := by
  rcases size with - | n
  · simp [visited, visitFrom]
  · exact length_visitFrom_le _ _ _ _

end Sys2Proof.Machine
end

section
/-! PROOFS. The invariants unit by unit: `State.Inv` says one thing of each unit, so that an operation on one
unit has to answer for that unit alone. -/

namespace Sys2Proof.Machine

/-! ## The invariant of each unit -/

/-- What `State.Inv` says of the buffers and their lengths. -/
structure BuffersOk (len : Vector Nat 4) (buf : Vector (Memory Byte) 4) : Prop where
  buf : ∀ b : BReg, buf[b].wf ∧ buf[b].below Config.bufCap
  len : ∀ b : BReg, len[b] ≤ Config.bufCap

/-- What `State.Inv` says of the stream. -/
structure Bitstream.Ok (u : Bitstream) : Prop where
  bits : u.bits.wf ∧ u.bits.below Config.bitCap
  blen : u.blen ≤ Config.bitCap
  rpos : u.rpos ≤ Config.bitCap
  segmode : u.segmode < 2 ^ 4
  segcnt : u.segcnt < 2 ^ 16
  segexp : u.segexp < 2 ^ 32
  segavl : u.segavl < 2 ^ 32
  databits : u.databits < 2 ^ 16

/-- What `State.Inv` says of the decoder. -/
structure RsUnit.Ok (u : RsUnit) : Prop where
  syn : u.syn.wf ∧ u.syn.below 255
  lambda : u.lambda.wf ∧ u.lambda.below 256
  pos : u.pos.wf ∧ u.pos.below 255
  mag : u.mag.wf ∧ u.mag.below 255
  detected : u.detected ≤ 255
  maxcorr : u.maxcorr ≤ 255
  corrected : u.corrected ≤ 255
  nmsg : u.nmsg ≤ 255
  nsyn : u.nsyn ≤ 255
  ldeg : u.ldeg ≤ 255
  npos : u.npos ≤ 255
  aggn : u.aggn ≤ 0xFFFF
  aggv : u.aggv ≤ 0xFFFF

/-- What `State.Inv` says of the zigzag unit. -/
structure Zigzag.Ok (z : Zigzag) : Prop where
  role : z.role.wf ∧ z.role.below Config.zzCap
  mod : z.mod.wf ∧ z.mod.below Config.zzCap
  zz : z.zz.wf ∧ z.zz.below Config.zzCap
  zzcnt : z.zzcnt ≤ Config.zzCap
  entries : ∀ e ∈ z.zz, e.2.1.toNat < Config.maxSize ∧ e.2.2.toNat < Config.maxSize

/-- What `State.Inv` says of everything but the count of a running command. No word of it is about the host's
side, the control registers or X, so it is kept by definition where only those change. -/
structure State.DataOk (s : State) : Prop where
  buffers : BuffersOk s.len s.buf
  ver : Config.verMin ≤ s.ver ∧ s.ver ≤ Config.verMax
  capb : s.capb ≤ Config.capbMax
  bs : s.bs.Ok
  rs : s.rs.Ok
  zig : s.zig.Ok

/-- A running command has actions left (log entry 2). -/
def State.LeftOk (s : State) : Prop := ∀ r, s.ctl.running = some r → 0 < r.left

theorem inv_iff {s : State} : s.Inv ↔ s.DataOk ∧ s.LeftOk := by
  constructor
  · rintro ⟨a, r⟩
    exact ⟨⟨⟨a.buf, r.len⟩, r.ver, r.capb,
      ⟨a.bits, r.blen, r.rpos, r.segmode, r.segcnt, r.segexp, r.segavl, r.databits⟩,
      ⟨a.syn, a.lambda, a.pos, a.mag, r.detected, r.maxcorr, r.corrected, r.nmsg, r.nsyn, r.ldeg, r.npos, r.aggn,
        r.aggv⟩,
      ⟨a.role, a.mod, a.zz, r.zzcnt, r.entries⟩⟩, r.left⟩
  · rintro ⟨⟨m, hver, hcapb, b, r, z⟩, hleft⟩
    exact ⟨⟨m.buf, b.bits, r.syn, r.lambda, r.pos, r.mag, z.role, z.mod, z.zz⟩,
      ⟨m.len, hver, hcapb, b.blen, b.rpos, b.segmode, b.segcnt, b.segexp, b.segavl, b.databits, r.detected,
        r.maxcorr, r.corrected, r.nmsg, r.nsyn, r.ldeg, r.npos, r.aggn, r.aggv, z.zzcnt, z.entries, hleft⟩⟩

theorem State.Inv.dataOk {s : State} (h : s.Inv) : s.DataOk := (inv_iff.1 h).1

/-! ## Arrays -/

/-- An array in canonical form and within its bound stays so under a write within the bound. -/
theorem Memory.ok_writeBlock {α : Type} {m : Memory α} {cap k : Nat} {vs : List α} (h : m.wf ∧ m.below cap)
    (hk : k + vs.length ≤ cap) : (m.writeBlock k vs).wf ∧ (m.writeBlock k vs).below cap :=
  ⟨Memory.wf_writeBlock k vs h.1, Memory.below_writeBlock h.2 hk⟩

theorem ok_writeCells {m : Memory Bool} {cap : Nat} {kvs : List (Nat × Bool)} (h : m.wf ∧ m.below cap)
    (hk : ∀ kv ∈ kvs, kv.1 < cap) : (writeCells m kvs).wf ∧ (writeCells m kvs).below cap := by
  induction kvs generalizing m with
  | nil => exact h
  | cons kv kvs ih =>
    obtain ⟨hkv, hkvs⟩ := List.forall_mem_cons.1 hk
    exact ih (Memory.ok_writeBlock h hkv) hkvs

/-- A cell in the matrix has an index in the arrays of the matrix (R54, R55). -/
theorem cellIndex_lt {r c : Nat} (hr : r < Config.maxSize) (hc : c < Config.maxSize) :
    cellIndex r c < Config.zzCap := by
  simp only [cellIndex, Config.maxSize, Config.zzCap] at *
  omega

/-- Word j of row r of ROLE or MOD lies in that row (R93). -/
theorem ok_writeBitWord {m : Memory Bool} {row j : Nat} (w : Word) (h : m.wf ∧ m.below Config.zzCap)
    (hr : row < Config.maxSize) (hj : 32 * j < Config.maxSize) :
    (writeBitWord m row j w).wf ∧ (writeBitWord m row j w).below Config.zzCap := by
  refine Memory.ok_writeBlock h ?_
  rw [List.length_take, List.length_reverse, length_bitsOf]
  simp only [Config.maxSize, Config.zzCap] at *
  omega

theorem length_bytesOfWord (w : Word) : (bytesOfWord w).length = 4 := rfl

theorem ok_writeStreamWord {m : Memory Bool} {q : Nat} (w : Word) (h : m.wf ∧ m.below Config.bitCap)
    (hq : q < 1024) : (writeStreamWord m q w).wf ∧ (writeStreamWord m q w).below Config.bitCap := by
  refine Memory.ok_writeBlock h ?_
  rw [show (bytesOfWord w).flatMap (fun b => bitsOf b.toNat 8) = bitsOfBytes (bytesOfWord w) from rfl,
    length_bitsOfBytes, length_bytesOfWord]
  simp only [Config.bitCap]
  omega

/-! ## Buffers -/

theorem BuffersOk.writeB {s : State} (h : BuffersOk s.len s.buf) {b : BReg} {k : Nat} {vs : List Byte}
    (hk : k + vs.length ≤ Config.bufCap) : BuffersOk (s.writeB b k vs).len (s.writeB b k vs).buf where
  buf b' := by
    by_cases hb : b' = b
    · subst hb
      rw [show (s.writeB b' k vs).buf[b'] = _ from s.memB_writeB b' k vs]
      exact Memory.ok_writeBlock (h.buf b') hk
    · rw [show (s.writeB b k vs).buf[b'] = _ from s.memB_writeB_of_ne k vs hb]
      exact h.buf b'
  len := h.len

theorem BuffersOk.setLen {s : State} (h : BuffersOk s.len s.buf) {b : BReg} {n : Nat} (hn : n ≤ Config.bufCap) :
    BuffersOk (s.setLen b n).len (s.setLen b n).buf where
  buf := h.buf
  len b' := by
    by_cases hb : b' = b
    · subst hb
      rwa [show (s.setLen b' n).len[b'] = _ from s.lenB_setLen b' n]
    · rw [show (s.setLen b n).len[b'] = _ from s.lenB_setLen_of_ne n hb]
      exact h.len b'

theorem BuffersOk.produce {s : State} (h : BuffersOk s.len s.buf) {b : BReg} {vs : List Byte}
    (hk : vs.length ≤ Config.bufCap) : BuffersOk (s.produce b vs).len (s.produce b vs).buf :=
  BuffersOk.setLen (s := s.writeB b 0 vs) (h.writeB (by omega)) hk

/-! ## The stream -/

theorem Bitstream.Ok.append {s : State} (h : s.bs.Ok) {l : List Bool}
    (hl : s.bs.blen + l.length ≤ Config.bitCap) : (s.appendBits l).bs.Ok :=
  { h with bits := Memory.ok_writeBlock h.bits hl, blen := hl }

/-- The result fields of SEGDEC, each within its field (R46, R47). -/
theorem Bitstream.Ok.withResult {u : Bitstream} (h : u.Ok) (st : SegStatus) (stage : SegStage)
    {mode cnt exp avl : Nat}
    (hmode : mode < 2 ^ 4) (hcnt : cnt < 2 ^ 16) (hexp : exp < 2 ^ 32) (havl : avl < 2 ^ 32) :
    ({ u with segst := st, segmode := mode, segstage := stage, segcnt := cnt, segexp := exp, segavl := avl } :
      Bitstream).Ok :=
  { h with segmode := hmode, segcnt := hcnt, segexp := hexp, segavl := havl }

/-- The cursor and BSSTAT (R45, R48). -/
theorem Bitstream.Ok.withCursor {u : Bitstream} (h : u.Ok) (seen : Bool) {p d : Nat} (hp : p ≤ Config.bitCap)
    (hd : d < 2 ^ 16) : ({ u with rpos := p, termseen := seen, databits := d } : Bitstream).Ok :=
  { h with rpos := hp, databits := hd }

/-! ## The decoder -/

theorem satInc_le (n : Nat) : satInc n ≤ 0xFFFF := Nat.min_le_right _ _

theorem RsUnit.Ok.aggregate {u : RsUnit} (h : u.Ok) (recovered : Bool) : (u.aggregate recovered).Ok :=
  { h with
    aggn := satInc_le _
    aggv := by
      cases recovered
      · exact h.aggv
      · exact satInc_le _ }

/-- The state of a block and the reason of a failure have every value their fields hold. -/
theorem RsUnit.Ok.withState {u : RsUnit} (h : u.Ok) (st : RsState) (why : RsReason) :
    ({ u with rsst := st, reason := why } : RsUnit).Ok :=
  { h with }

end Sys2Proof.Machine
end

section
/-! PROOFS. The decoder's moves: one for each way a step can change the unit (R259 to R264), what each keeps, and
the chain RSDEC makes of them (R265). -/

namespace Sys2Proof.Machine

/-! ## The moves -/

/-- How a decoder step changes the unit when it does not raise. -/
inductive RsUnit.Move (u : RsUnit) : RsUnit → Prop
  | load (n ec : Nat) (syn : List Byte) (hec : 1 ≤ ec) (hn : ec ≤ n) (hmax : n ≤ 255) (hsyn : syn.length = ec) :
      Move u (u.synStep n ec syn)
  | locate (syn : List Byte) (hst : u.rsst = .syndromeReady) (hsyn : syn.length = u.nsyn) :
      Move u { u with lambda := u.lambda.writeBlock 0 (bm syn).1, ldeg := (bm syn).2, rsst := .locatorReady }
  | search (lam : List Byte) (hst : u.rsst = .locatorReady) : Move u (u.chienStep (chien lam u.nmsg))
  | measure (ms : List Byte × Bool) (hst : u.rsst = .positionsReady) (hms : u.forney = .ok ms) :
      Move u (u.forneyStep ms)
  | repair (hst : u.rsst = .magnitudesReady) :
      Move u { u.aggregate true with corrected := u.npos, rsst := .corrected }
  | reject (hst : u.rsst = .magnitudesReady) :
      Move u { u.aggregate false with reason := .verifyFailed, rsst := .failed }

/-- A move that does not end the block. -/
def RsUnit.Quiet (u v : RsUnit) : Prop := u.Move v ∧ v.rsst.terminal = false

/-- One move, after any number of moves that do not end the block: what a decoder command does. -/
def RsUnit.Reaches (u v : RsUnit) : Prop := ∃ m, Relation.ReflTransGen RsUnit.Quiet u m ∧ m.Move v

theorem RsUnit.Move.reaches {u v : RsUnit} (h : u.Move v) : u.Reaches v := ⟨u, .refl, h⟩

theorem RsUnit.Quiet.reaches {u v w : RsUnit} (h : u.Quiet v) (h' : v.Reaches w) : u.Reaches w := by
  obtain ⟨m, hm, hw⟩ := h'
  exact ⟨m, .head h hm, hw⟩

/-- What every move keeps, every decoder command keeps. -/
theorem RsUnit.Reaches.keeps {P : RsUnit → Prop} (hP : ∀ u v, P u → u.Move v → P v) {u v : RsUnit}
    (h : u.Reaches v) (hu : P u) : P v := by
  obtain ⟨m, hm, hv⟩ := h
  refine hP m v ?_ hv
  clear hv
  induction hm with
  | refl => exact hu
  | tail _ hq ih => exact hP _ _ ih hq.1

/-! ## What the steps leave in the unit -/

theorem RsUnit.synStep_cases (u : RsUnit) (n ec : Nat) (syn : List Byte) :
    let v : RsUnit := { u with
      nmsg := n, nsyn := ec, ldeg := 0, npos := 0, reason := .noReason, detected := 0, maxcorr := ec / 2
      corrected := 0, syn := u.syn.writeBlock 0 syn }
    u.synStep n ec syn = { v.aggregate true with rsst := .noError }
      ∨ u.synStep n ec syn = { v with rsst := .syndromeReady } := by
  unfold RsUnit.synStep
  split
  · exact .inl rfl
  · exact .inr rfl

theorem RsUnit.chienStep_cases (u : RsUnit) (p : List Nat) :
    let v : RsUnit := { u with
      pos := u.pos.writeBlock 0 (p.map (BitVec.ofNat 8)), npos := p.length, detected := p.length }
    (u.chienStep p = { v.aggregate false with reason := .exceedsCapacity, rsst := .failed })
      ∨ (p.length ≤ u.nsyn / 2 ∧ u.chienStep p = { v with rsst := .positionsReady }) := by
  unfold RsUnit.chienStep
  dsimp only
  split
  · exact .inl rfl
  · exact .inr ⟨by omega, rfl⟩

theorem RsUnit.forneyStep_cases (u : RsUnit) (ms : List Byte × Bool) :
    let v : RsUnit := { u with mag := u.mag.writeBlock 0 ms.1 }
    (u.forneyStep ms = { v.aggregate false with reason := .derivativeZero, rsst := .failed })
      ∨ (ms.2 = false ∧ u.forneyStep ms = { v with rsst := .magnitudesReady }) := by
  unfold RsUnit.forneyStep
  split
  · exact .inl rfl
  · rename_i hz
    exact .inr ⟨by simpa using hz, rfl⟩

theorem RsUnit.forney_eq_ok {u : RsUnit} {ms : List Byte × Bool} (h : u.forney = .ok ms) :
    ms.1.length ≤ u.npos ∧ (ms.2 = false → ms.1.length = u.npos) := by
  obtain ⟨syn, -, h⟩ := bind_eq_ok.1 h
  obtain ⟨lam, -, h⟩ := bind_eq_ok.1 h
  obtain ⟨p, hp, rfl⟩ := map_eq_ok.1 h
  rw [← (readBlock_eq_ok.1 hp).1, ← List.length_map (as := p) BitVec.toNat]
  exact length_magnitudes _ _ _ _

/-! ## Bounds -/

theorem RsUnit.Move.ok {u v : RsUnit} (hu : u.Ok) (h : u.Move v) : v.Ok := by
  cases h with
  | load n ec syn hec hn hmax hsyn =>
    have hv : ({ u with
        nmsg := n, nsyn := ec, ldeg := 0, npos := 0, reason := .noReason, detected := 0, maxcorr := ec / 2
        corrected := 0, syn := u.syn.writeBlock 0 syn } : RsUnit).Ok :=
      { hu with
        syn := Memory.ok_writeBlock hu.syn (by omega)
        detected := Nat.zero_le _, corrected := Nat.zero_le _, ldeg := Nat.zero_le _, npos := Nat.zero_le _
        maxcorr := by show ec / 2 ≤ 255; omega
        nmsg := hmax
        nsyn := hn.trans hmax }
    obtain h | h := u.synStep_cases n ec syn <;> rw [h]
    · exact (hv.aggregate true).withState .noError .noReason
    · exact hv.withState .syndromeReady .noReason
  | locate syn hst hsyn =>
    have hl : (bm syn).2 ≤ 255 := by have := bm_degree_le syn; have := hu.nsyn; omega
    exact { hu with
      lambda := Memory.ok_writeBlock hu.lambda (by rw [length_bm]; omega)
      ldeg := hl }
  | search lam hst =>
    have hp : (chien lam u.nmsg).length ≤ 255 := (length_chien_le lam _).trans hu.nmsg
    have hv : ({ u with
        pos := u.pos.writeBlock 0 ((chien lam u.nmsg).map (BitVec.ofNat 8))
        npos := (chien lam u.nmsg).length, detected := (chien lam u.nmsg).length } : RsUnit).Ok :=
      { hu with
        pos := Memory.ok_writeBlock hu.pos (by rw [List.length_map]; omega)
        npos := hp
        detected := hp }
    obtain h | ⟨-, h⟩ := u.chienStep_cases (chien lam u.nmsg) <;> rw [h]
    · exact (hv.aggregate false).withState .failed .exceedsCapacity
    · exact hv.withState .positionsReady u.reason
  | measure ms hst hms =>
    have hv : ({ u with mag := u.mag.writeBlock 0 ms.1 } : RsUnit).Ok :=
      { hu with
        mag := Memory.ok_writeBlock hu.mag (by have := (forney_eq_ok hms).1; have := hu.npos; omega) }
    obtain h | ⟨-, h⟩ := u.forneyStep_cases ms <;> rw [h]
    · exact (hv.aggregate false).withState .failed .derivativeZero
    · exact hv.withState .magnitudesReady u.reason
  | repair hst => exact { hu.aggregate true with corrected := hu.npos }
  | reject hst => exact (hu.aggregate false).withState .failed .verifyFailed

/-! ## The aggregate -/

/-- The aggregate has counted a block that ended in the unit's state (R258). -/
def RsUnit.Counted (u v : RsUnit) : Prop :=
  v.aggn = satInc u.aggn ∧ v.aggv = (if v.rsst = .failed then u.aggv else satInc u.aggv)
    ∧ v.allok = (u.allok && v.rsst != .failed)

/-- The aggregate is as it was. -/
def RsUnit.SameAggregate (u v : RsUnit) : Prop := v.aggn = u.aggn ∧ v.aggv = u.aggv ∧ v.allok = u.allok

/-- A move counts the block when it ends it, and else leaves the aggregate alone (R258). -/
theorem RsUnit.Move.aggregate {u v : RsUnit} (h : u.Move v) :
    (v.rsst.terminal = true ∧ u.Counted v) ∨ (v.rsst.terminal = false ∧ u.SameAggregate v) := by
  have counted (w : RsUnit) (st : RsState) (hst : st.terminal = true) (why : RsReason) (c : Nat)
      (hw : u.SameAggregate w) : let v : RsUnit :=
        { w.aggregate (st != .failed) with rsst := st, reason := why, corrected := c }
      v.rsst.terminal = true ∧ u.Counted v := by
    obtain ⟨hn, hv, ha⟩ := hw
    refine ⟨hst, by simp [RsUnit.aggregate, hn], ?_, by simp [RsUnit.aggregate, ha]⟩
    cases st <;> simp [RsUnit.aggregate, hv]
  cases h with
  | load n ec syn _ _ _ _ =>
    obtain h | h := u.synStep_cases n ec syn <;> rw [h]
    · exact .inl (counted _ .noError rfl .noReason 0 ⟨rfl, rfl, rfl⟩)
    · exact .inr ⟨rfl, rfl, rfl, rfl⟩
  | locate syn _ _ => exact .inr ⟨rfl, rfl, rfl, rfl⟩
  | search lam _ =>
    obtain h | ⟨-, h⟩ := u.chienStep_cases (chien lam u.nmsg) <;> rw [h]
    · exact .inl (counted _ .failed rfl .exceedsCapacity u.corrected ⟨rfl, rfl, rfl⟩)
    · exact .inr ⟨rfl, rfl, rfl, rfl⟩
  | measure ms _ _ =>
    obtain h | ⟨-, h⟩ := u.forneyStep_cases ms <;> rw [h]
    · exact .inl (counted _ .failed rfl .derivativeZero u.corrected ⟨rfl, rfl, rfl⟩)
    · exact .inr ⟨rfl, rfl, rfl, rfl⟩
  | repair _ => exact .inl (counted _ .corrected rfl u.reason u.npos ⟨rfl, rfl, rfl⟩)
  | reject _ => exact .inl (counted _ .failed rfl .verifyFailed u.corrected ⟨rfl, rfl, rfl⟩)

theorem RsUnit.SameAggregate.trans_counted {u v w : RsUnit} (h : u.SameAggregate v) (h' : v.Counted w) :
    u.Counted w := by
  obtain ⟨hn, hv, ha⟩ := h
  simpa only [RsUnit.Counted, hn, hv, ha] using h'

theorem RsUnit.SameAggregate.trans {u v w : RsUnit} (h : u.SameAggregate v) (h' : v.SameAggregate w) :
    u.SameAggregate w := by
  obtain ⟨hn, hv, ha⟩ := h
  simpa only [RsUnit.SameAggregate, hn, hv, ha] using h'

/-- A decoder command counts the block once, when it ends it (R258). -/
theorem RsUnit.Reaches.aggregate {u v : RsUnit} (h : u.Reaches v) :
    (v.rsst.terminal = true ∧ u.Counted v) ∨ (v.rsst.terminal = false ∧ u.SameAggregate v) := by
  obtain ⟨m, hm, hv⟩ := h
  have hum : u.SameAggregate m := by
    clear hv
    induction hm with
    | refl => exact ⟨rfl, rfl, rfl⟩
    | @tail b c _ hq ih =>
      obtain ⟨hmove, hquiet⟩ := hq
      obtain ⟨ht, -⟩ | ⟨-, hs⟩ := hmove.aggregate
      · simp [ht] at hquiet
      · exact ih.trans hs
  exact hv.aggregate.imp (And.imp_right hum.trans_counted) (And.imp_right hum.trans)

/-! ## Consistency -/

theorem Memory.written_writeBlock {α : Type} (m : Memory α) (vs : List α) :
    (m.writeBlock 0 vs).written vs.length := by
  intro k hk
  simp [Memory.read_writeBlock, hk]

/-- A block in progress has its sizes and syndromes, no reason and no correction count yet (R49, R259). -/
theorem RsUnit.Consistent.inProgress {u : RsUnit} (hu : u.Consistent) (hs : u.rsst.started = true)
    (ht : u.rsst.terminal = false) : (1 ≤ u.nsyn ∧ u.nsyn ≤ u.nmsg ∧ u.nmsg ≤ 255) ∧ u.syn.written u.nsyn
      ∧ u.reason = .noReason ∧ u.corrected = 0 := by
  refine ⟨hu.sizes hs, hu.syn hs, hu.reason.2 ?_, ?_⟩
  · rintro h
    simp [h, RsState.terminal] at ht
  · rw [hu.corrected, if_neg]
    rintro h
    simp [h, RsState.terminal] at ht

/-- Counting a block keeps AGGV at most AGGN, and ALLOK true only while they are equal (R53, R258). -/
theorem RsUnit.aggregate_agrees {u : RsUnit} (hn : u.aggn ≤ 0xFFFF)
    (h : u.aggv ≤ u.aggn ∧ (u.allok = true → u.aggv = u.aggn)) (recovered : Bool) :
    let v := u.aggregate recovered
    v.aggv ≤ v.aggn ∧ (v.allok = true → v.aggv = v.aggn) := by
  obtain ⟨hle, heq⟩ := h
  cases recovered
  · exact ⟨by show u.aggv ≤ satInc u.aggn; unfold satInc; omega, by simp [RsUnit.aggregate]⟩
  · refine ⟨by show satInc u.aggv ≤ satInc u.aggn; unfold satInc; omega, fun ha => ?_⟩
    have ha : u.allok = true := by simpa [RsUnit.aggregate] using ha
    show satInc u.aggv = satInc u.aggn
    rw [heq ha]

/-- RSSYN starts a block in either of its states (R259, R260). -/
theorem RsUnit.Consistent.load {u : RsUnit} {n ec : Nat} {syn : List Byte} (ha : u.aggn ≤ 0xFFFF)
    (hu : u.Consistent) (hec : 1 ≤ ec) (hn : ec ≤ n) (hmax : n ≤ 255) (hsyn : syn.length = ec) :
    (u.synStep n ec syn).Consistent := by
  have hw : (u.syn.writeBlock 0 syn).written ec := hsyn ▸ Memory.written_writeBlock u.syn syn
  obtain h | h := u.synStep_cases n ec syn <;> rw [h] <;>
    refine ⟨fun _ => ⟨hec, hn, hmax⟩, fun _ => hw, nofun, nofun, nofun, by simp [RsUnit.aggregate], rfl, rfl, rfl, ?_⟩
  · exact RsUnit.aggregate_agrees ha hu.aggregate true
  · exact hu.aggregate

theorem RsUnit.Consistent.locate {u : RsUnit} (hu : u.Consistent) (syn : List Byte) (hst : u.rsst = .syndromeReady) :
    ({ u with lambda := u.lambda.writeBlock 0 (bm syn).1, ldeg := (bm syn).2, rsst := .locatorReady } :
      RsUnit).Consistent := by
  obtain ⟨hsizes, hsyn, hreason, hcorr⟩ := hu.inProgress (by rw [hst]; rfl) (by rw [hst]; rfl)
  exact ⟨fun _ => hsizes, fun _ => hsyn, fun _ => length_bm syn ▸ Memory.written_writeBlock _ _, nofun, nofun,
    by simp [hreason], by simpa using hcorr, hu.detected, hu.maxcorr, hu.aggregate⟩

/-- A failed block keeps its sizes, syndromes and locator (R259, R264). -/
theorem RsUnit.Consistent.fail {u : RsUnit} (ha : u.aggn ≤ 0xFFFF) (hs : u.rsst.started = true)
    (hl : u.rsst.hasLocator = true) (ht : u.rsst.terminal = false) {why : RsReason} (hwhy : why ≠ .noReason)
    (hu : u.Consistent) {pos mag : Memory Byte} {npos detected : Nat} (hd : detected = npos) :
    ({ ({ u with pos := pos, mag := mag, npos := npos, detected := detected } : RsUnit).aggregate false with
      reason := why, rsst := .failed } : RsUnit).Consistent := by
  obtain ⟨hsizes, hsyn, -, hcorr⟩ := hu.inProgress hs ht
  exact ⟨fun _ => hsizes, fun _ => hsyn, fun _ => hu.lambda hl, nofun, nofun, by simp [hwhy], hcorr, hd,
    hu.maxcorr, RsUnit.aggregate_agrees ha hu.aggregate false⟩

/-- RSCHIEN's positions within capacity (R254, R255, R262). -/
theorem RsUnit.Consistent.search {u : RsUnit} (hu : u.Consistent) (lam : List Byte) (hst : u.rsst = .locatorReady)
    (hcap : (chien lam u.nmsg).length ≤ u.nsyn / 2) : ({ u with
      pos := u.pos.writeBlock 0 ((chien lam u.nmsg).map (BitVec.ofNat 8)), npos := (chien lam u.nmsg).length
      detected := (chien lam u.nmsg).length, rsst := .positionsReady } : RsUnit).Consistent := by
  obtain ⟨hsizes, hsyn, hreason, hcorr⟩ := hu.inProgress (by rw [hst]; rfl) (by rw [hst]; rfl)
  refine ⟨fun _ => hsizes, fun _ => hsyn, fun _ => hu.lambda (by rw [hst]; rfl), fun _ => ⟨hcap, ?_, ?_⟩, nofun,
    by simp [hreason], by simpa using hcorr, rfl, hu.maxcorr, hu.aggregate⟩
  · simpa using Memory.written_writeBlock u.pos ((chien lam u.nmsg).map (BitVec.ofNat 8))
  · intro k p hk hp
    rw [Memory.read_writeBlock, if_pos (by simpa using hk)] at hp
    obtain ⟨q, hq, rfl⟩ := List.mem_map.1 (List.mem_of_getElem? hp)
    have := lt_of_mem_chien hq
    rw [BitVec.toNat_ofNat, Nat.mod_eq_of_lt (by omega)]
    exact this

theorem RsUnit.Consistent.measure {u : RsUnit} (hu : u.Consistent) (hst : u.rsst = .positionsReady) {ms : List Byte}
    (hms : ms.length = u.npos) :
    ({ u with mag := u.mag.writeBlock 0 ms, rsst := .magnitudesReady } : RsUnit).Consistent := by
  obtain ⟨hsizes, hsyn, hreason, hcorr⟩ := hu.inProgress (by rw [hst]; rfl) (by rw [hst]; rfl)
  exact ⟨fun _ => hsizes, fun _ => hsyn, fun _ => hu.lambda (by rw [hst]; rfl), fun _ => hu.pos (by rw [hst]; rfl),
    fun _ => hms ▸ Memory.written_writeBlock u.mag ms, by simp [hreason], by simpa using hcorr, hu.detected,
    hu.maxcorr, hu.aggregate⟩

theorem RsUnit.Consistent.repair {u : RsUnit} (ha : u.aggn ≤ 0xFFFF) (hu : u.Consistent)
    (hst : u.rsst = .magnitudesReady) :
    ({ u.aggregate true with corrected := u.npos, rsst := .corrected } : RsUnit).Consistent := by
  obtain ⟨hsizes, hsyn, hreason, -⟩ := hu.inProgress (by rw [hst]; rfl) (by rw [hst]; rfl)
  exact ⟨fun _ => hsizes, fun _ => hsyn, fun _ => hu.lambda (by rw [hst]; rfl), fun _ => hu.pos (by rw [hst]; rfl),
    fun _ => hu.mag (by rw [hst]; rfl), by simp [RsUnit.aggregate, hreason], rfl, hu.detected, hu.maxcorr,
    RsUnit.aggregate_agrees ha hu.aggregate true⟩

/-- Every move keeps the unit's registers and memories in agreement with its state (R251). -/
theorem RsUnit.Move.consistent {u v : RsUnit} (ha : u.aggn ≤ 0xFFFF) (hu : u.Consistent) (h : u.Move v) :
    v.Consistent := by
  cases h with
  | load n ec syn hec hn hmax hsyn => exact hu.load ha hec hn hmax hsyn
  | locate syn hst _ => exact hu.locate syn hst
  | search lam hst =>
    obtain h | ⟨hcap, h⟩ := u.chienStep_cases (chien lam u.nmsg) <;> rw [h]
    · exact hu.fail ha (by rw [hst]; rfl) (by rw [hst]; rfl) (by rw [hst]; rfl) (by decide) rfl
    · exact hu.search lam hst hcap
  | measure ms hst hms =>
    obtain h | ⟨hz, h⟩ := u.forneyStep_cases ms <;> rw [h]
    · exact hu.fail ha (by rw [hst]; rfl) (by rw [hst]; rfl) (by rw [hst]; rfl) (by decide) hu.detected
    · exact hu.measure hst ((RsUnit.forney_eq_ok hms).2 hz)
  | repair hst => exact hu.repair ha hst
  | reject hst => exact hu.fail ha (by rw [hst]; rfl) (by rw [hst]; rfl) (by rw [hst]; rfl) (by decide) hu.detected

end Sys2Proof.Machine
end

section
/-! PROOFS. The coordinate list ZZGEN writes: its cells are in the matrix, distinct and out of column 6. -/

namespace Sys2Proof.Machine

/-! ## The traversal -/

theorem mem_pairCells_iff {size col r c : Nat} {up : Bool} :
    (r, c) ∈ pairCells size col up ↔ r < size ∧ (c = col ∨ c = col - 1) := by
  have hrows : r ∈ (if up then (List.range size).reverse else List.range size) ↔ r < size := by
    cases up <;> simp
  simp only [pairCells, List.mem_flatMap, List.mem_cons, List.not_mem_nil, or_false, Prod.mk.injEq]
  constructor
  · rintro ⟨r', hr', ⟨rfl, h⟩ | ⟨rfl, h⟩⟩
    · exact ⟨hrows.1 hr', .inl h⟩
    · exact ⟨hrows.1 hr', .inr h⟩
  · rintro ⟨hr, h | h⟩
    · exact ⟨r, hrows.2 hr, .inl ⟨rfl, h⟩⟩
    · exact ⟨r, hrows.2 hr, .inr ⟨rfl, h⟩⟩

theorem nodup_pairCells {size col : Nat} (up : Bool) (hcol : col ≠ 0) : (pairCells size col up).Nodup := by
  have hrows : (if up then (List.range size).reverse else List.range size).Nodup := by
    cases up <;> simp [List.nodup_range]
  refine List.nodup_flatMap.2 ⟨fun r _ => by simp; omega, hrows.imp fun {r r'} hne => ?_⟩
  intro rc hrc hrc'
  simp only [List.mem_cons, List.not_mem_nil, or_false] at hrc hrc'
  rcases hrc with rfl | rfl <;> rcases hrc' with h | h <;> exact hne (congrArg Prod.fst h)

/-- No cell is visited twice (R406). -/
theorem nodup_visitFrom (size turns col : Nat) (up : Bool) : (visitFrom size turns col up).Nodup := by
  induction turns generalizing col up with
  | zero => simp [visitFrom]
  | succ turns ih =>
    rw [visitFrom]
    split
    · simp
    · rename_i hcol
      dsimp only
      generalize hc : (if col = 6 then col - 1 else col) = c
      have hc0 : c ≠ 0 := by split at hc <;> omega
      refine List.nodup_append.2 ⟨nodup_pairCells up hc0, ih _ _, ?_⟩
      rintro ⟨r, k⟩ hk _ hk' rfl
      have h1 := (mem_pairCells_iff.1 hk).2
      have h2 := (mem_visitFrom hk').2
      simp only at h2
      -- a turn at column 1 is the last: the next starts at column 0
      by_cases hlast : c = 1
      · subst hlast
        cases turns <;> simp [visitFrom] at hk'
      · omega

/-- The pairs start in even columns down to 8, then in odd ones from 5: none holds column 6 (R402). -/
theorem visitFrom_skips_timing {size turns col : Nat} {up : Bool} (hcol : col % 2 = 0 ∨ col < 6) {rc : Nat × Nat}
    (h : rc ∈ visitFrom size turns col up) : rc.2 ≠ 6 := by
  induction turns generalizing col up with
  | zero => simp [visitFrom] at h
  | succ turns ih =>
    rw [visitFrom] at h
    split at h
    · simp at h
    · dsimp only at h
      rcases List.mem_append.1 h with h | h
      · have := (mem_pairCells h).2
        split at this <;> omega
      · exact ih (by split <;> omega) h

theorem nodup_visited (size : Nat) : (visited size).Nodup := nodup_visitFrom _ _ _ _

theorem size_le {v : Nat} (h : v ≤ Config.verMax) : Config.size v ≤ Config.maxSize := by
  simp only [Config.verMax, Config.size, Config.maxSize] at *
  omega

theorem visited_skips_timing {v : Nat} {rc : Nat × Nat} (h : rc ∈ visited (Config.size v)) : rc.2 ≠ 6 :=
  visitFrom_skips_timing (by simp only [Config.size]; omega) h

/-! ## The coordinate list -/

/-- The entries of ZZ for a list of cells (R403). -/
def zzEntries (l : List (Nat × Nat)) : List (Byte × Byte) :=
  l.map fun rc => (BitVec.ofNat 8 rc.1, BitVec.ofNat 8 rc.2)

/-- ZZGEN's effect on the unit (R403). -/
def Zigzag.list (z : Zigzag) (l : List (Nat × Nat)) : Zigzag :=
  { z with zz := z.zz.writeBlock 0 (zzEntries l), zzcnt := l.length }

theorem length_zzEntries (l : List (Nat × Nat)) : (zzEntries l).length = l.length := List.length_map _

theorem sublist_of_zigzag {size : Nat} {role : Memory Bool} {l : List (Nat × Nat)}
    (h : zigzag size role = .ok l) : l.Sublist (visited size) := by
  rw [(keepData_eq_ok.1 h).2]
  exact List.filter_sublist

/-- An entry of ZZ holds its cell's row and column (R56). -/
theorem toNat_of_mem_zzEntries {v : Nat} (hv : v ≤ Config.verMax) {l : List (Nat × Nat)}
    (hl : l.Sublist (visited (Config.size v))) {e : Byte × Byte} (he : e ∈ zzEntries l) :
    (e.1.toNat, e.2.toNat) ∈ visited (Config.size v)
      ∧ e.1.toNat < Config.maxSize ∧ e.2.toNat < Config.maxSize := by
  obtain ⟨rc, hrc, rfl⟩ := List.mem_map.1 he
  have hmem := hl.subset hrc
  have hsize := size_le hv
  obtain ⟨hr, hc⟩ := mem_visited hmem
  simp only [Config.maxSize] at hsize ⊢
  simp only [BitVec.toNat_ofNat, Nat.mod_eq_of_lt (show rc.1 < 2 ^ 8 by omega),
    Nat.mod_eq_of_lt (show rc.2 < 2 ^ 8 by omega)]
  exact ⟨hmem, by omega, by omega⟩

theorem Zigzag.Ok.list {z : Zigzag} (hz : z.Ok) {v : Nat} (hv : v ≤ Config.verMax) {l : List (Nat × Nat)}
    (hl : l.Sublist (visited (Config.size v))) : (z.list l).Ok := by
  have hcnt : l.length ≤ Config.zzCap :=
    calc l.length ≤ Config.size v * Config.size v := hl.length_le.trans (length_visited_le _)
      _ ≤ Config.maxSize * Config.maxSize := Nat.mul_le_mul (size_le hv) (size_le hv)
  refine { hz with
    zz := Memory.ok_writeBlock hz.zz (by rw [length_zzEntries]; omega)
    zzcnt := hcnt
    entries := fun e he => ?_ }
  rcases Memory.mem_writeBlock he with he | he
  · exact hz.entries e he
  · exact (toNat_of_mem_zzEntries hv hl he).2

theorem Zigzag.read_list (z : Zigzag) {l : List (Nat × Nat)} {k : Nat} (hk : k < l.length) :
    (z.list l).zz.read k = (zzEntries l)[k]? := by
  show (z.zz.writeBlock 0 (zzEntries l)).read k = _
  rw [Memory.read_writeBlock, if_pos (by rw [length_zzEntries]; omega), Nat.sub_zero]

/-- Distinct cells of a matrix have distinct entries. -/
theorem nodup_zzEntries {v : Nat} (hv : v ≤ Config.verMax) {l : List (Nat × Nat)}
    (hl : l.Sublist (visited (Config.size v))) : (zzEntries l).Nodup := by
  refine List.Nodup.map_on (fun a ha b hb hab => ?_) (hl.nodup (nodup_visited _))
  have hsize := size_le hv
  obtain ⟨ha1, ha2⟩ := mem_visited (hl.subset ha)
  obtain ⟨hb1, hb2⟩ := mem_visited (hl.subset hb)
  obtain ⟨h1, h2⟩ := Prod.mk.inj hab
  have h1 := congrArg BitVec.toNat h1
  have h2 := congrArg BitVec.toNat h2
  simp only [BitVec.toNat_ofNat, Config.maxSize] at h1 h2 hsize
  exact Prod.ext (by omega) (by omega)

/-- The list of ZZGEN is consistent (R402, R406). -/
theorem Zigzag.list_consistent (z : Zigzag) {v : Nat} (hv : v ≤ Config.verMax) {l : List (Nat × Nat)}
    (hl : l.Sublist (visited (Config.size v))) : (z.list l).Consistent where
  written k hk := by
    rw [z.read_list hk, List.getElem?_eq_getElem (by rwa [length_zzEntries])]
    rfl
  distinct i j e hi hj hri hrj := by
    rw [z.read_list hi] at hri
    rw [z.read_list hj] at hrj
    exact (List.getElem?_inj (by rwa [length_zzEntries]) (nodup_zzEntries hv hl)).1 (hri.trans hrj.symm)
  noTiming k e hk hr := by
    rw [z.read_list hk] at hr
    exact visited_skips_timing (toNat_of_mem_zzEntries hv hl (List.mem_of_getElem? hr)).1

end Sys2Proof.Machine
end

section
/-! PROOFS. What a command can do, said once for all 45: the state a command ends in is the state before it with
one of a few effects, and the completion effects. -/

namespace Sys2Proof.Machine

/-! ## The decoder's steps on the state -/

theorem rsSyn_eq_ok {s t : State} {ba : BReg} {ec : Nat} : s.rsSyn ba ec = .ok t ↔
    ∃ r, s.Holds ba r ∧ { s with rs := s.rs.synStep r.length ec (syndromes r ec) } = t := by
  simp only [State.rsSyn, map_eq_ok, content_eq_ok]

theorem rsBm_eq_ok {s t : State} : s.rsBm = .ok t ↔
    ∃ syn, (syn.length = s.rs.nsyn ∧ s.rs.syn.holds 0 syn) ∧ { s with rs := { s.rs with
      lambda := s.rs.lambda.writeBlock 0 (bm syn).1, ldeg := (bm syn).2, rsst := .locatorReady } } = t := by
  simp only [State.rsBm, map_eq_ok, readBlock_eq_ok]

theorem rsChien_eq_ok {s t : State} : s.rsChien = .ok t ↔
    ∃ lam, (lam.length = s.rs.ldeg + 1 ∧ s.rs.lambda.holds 0 lam)
      ∧ { s with rs := s.rs.chienStep (chien lam s.rs.nmsg) } = t := by
  simp only [State.rsChien, map_eq_ok, readBlock_eq_ok]

theorem rsForney_eq_ok {s t : State} : s.rsForney = .ok t ↔
    ∃ ms, s.rs.forney = .ok ms ∧ { s with rs := s.rs.forneyStep ms } = t := by
  simp only [State.rsForney, map_eq_ok]

/-- The checks of RSSYN and RSDEC pass for a block of 1 to 255 codewords and a count from 1 to its length. -/
theorem blockLengthError_eq_none {s : State} {ba : BReg} {ec : Nat} : s.blockLengthError ba ec = none ↔
    1 ≤ ec ∧ ec ≤ s.lenB ba ∧ s.lenB ba ≤ 255 := by
  simp only [State.blockLengthError, Config.rsMax]
  by_cases h : s.lenB ba = 0 ∨ s.lenB ba > 255
  · simp only [h, if_true, reduceCtorEq, false_iff]
    omega
  · by_cases h' : ec = 0 ∨ ec > s.lenB ba
    · simp only [h, h', if_true, if_false, reduceCtorEq, false_iff]
      omega
    · simp only [h, h', if_false, true_iff]
      omega

/-- The corrected block has the length of the block decoded (R257). -/
theorem length_trial {s : State} {ba : BReg} {c : List Byte} (h : s.trial ba = .ok c) : c.length = s.rs.nmsg := by
  obtain ⟨r, hr, h⟩ := bind_eq_ok.1 h
  obtain ⟨p, -, h⟩ := bind_eq_ok.1 h
  obtain ⟨m, -, rfl⟩ := map_eq_ok.1 h
  rw [length_correct, (readBlock_eq_ok.1 hr).1]

/-- RSAPPLY's outcomes: the corrected block is written, or only the unit says that it failed (R264). -/
theorem rsApply_eq_ok {s t : State} {ba : BReg} : s.rsApply ba = .ok t ↔ ∃ c, s.trial ba = .ok c
    ∧ (((syndromes c s.rs.nsyn).all (· == 0) = true ∧ t = { s.writeB ba 0 c with
          rs := { s.rs.aggregate true with corrected := s.rs.npos, rsst := .corrected } })
      ∨ ((syndromes c s.rs.nsyn).all (· == 0) = false ∧ t = { s with
          rs := { s.rs.aggregate false with reason := .verifyFailed, rsst := .failed } })) := by
  simp only [State.rsApply, map_eq_ok]
  refine exists_congr fun c => and_congr_right fun _ => ?_
  cases (syndromes c s.rs.nsyn).all (· == 0) <;> simp [eq_comm]

/-- What a decoder command changes of the state, when it does not raise: its unit, which moved, and for a block
that was corrected the bytes of its buffer. -/
inductive Decodes (ba : BReg) (s : State) : State → Prop
  | unit (u : RsUnit) (h : s.rs.Reaches u) : Decodes ba s { s with rs := u }
  | block (c : List Byte) (u : RsUnit) (h : s.rs.Reaches u) (hc : c.length = u.nmsg) (hst : u.rsst = .corrected) :
      Decodes ba s { s.writeB ba 0 c with rs := u }

theorem Decodes.after_quiet {ba : BReg} {s t : State} {v : RsUnit} (h : s.rs.Quiet v)
    (h' : Decodes ba { s with rs := v } t) : Decodes ba s t := by
  cases h' with
  | unit u hu => exact .unit u (h.reaches hu)
  | block c u hu hc hst => exact .block c u (h.reaches hu) hc hst

theorem decodes_rsApply {s t : State} {ba : BReg} (hst : s.rs.rsst = .magnitudesReady) (h : s.rsApply ba = .ok t) :
    Decodes ba s t ∧ t.rs.rsst.terminal = true := by
  obtain ⟨c, hc, ⟨-, rfl⟩ | ⟨-, rfl⟩⟩ := rsApply_eq_ok.1 h
  · exact ⟨.block c _ (RsUnit.Move.repair hst).reaches (length_trial hc) rfl, rfl⟩
  · exact ⟨.unit _ (RsUnit.Move.reject hst).reaches, rfl⟩

/-- A move ends the block or leads to the one state from which the chain goes on. -/
theorem RsUnit.rsst_synStep (u : RsUnit) (n ec : Nat) (syn : List Byte) :
    (u.synStep n ec syn).rsst = .noError ∨ (u.synStep n ec syn).rsst = .syndromeReady := by
  obtain h | h := u.synStep_cases n ec syn <;> simp [h]

theorem RsUnit.rsst_chienStep (u : RsUnit) (p : List Nat) :
    (u.chienStep p).rsst = .failed ∨ (u.chienStep p).rsst = .positionsReady := by
  obtain h | ⟨-, h⟩ := u.chienStep_cases p <;> simp [h]

theorem RsUnit.rsst_forneyStep (u : RsUnit) (ms : List Byte × Bool) :
    (u.forneyStep ms).rsst = .failed ∨ (u.forneyStep ms).rsst = .magnitudesReady := by
  obtain h | ⟨-, h⟩ := u.forneyStep_cases ms <;> simp [h]

theorem move_rsSyn {s : State} {ba : BReg} {ec : Nat} {r : List Byte} (hchk : s.blockLengthError ba ec = none)
    (hr : s.Holds ba r) : s.rs.Move (s.rs.synStep r.length ec (syndromes r ec)) := by
  obtain ⟨h1, h2, h3⟩ := blockLengthError_eq_none.1 hchk
  rw [← hr.1] at h2 h3
  exact .load _ _ _ h1 h2 h3 (length_syndromes r ec)

theorem quiet_of_rsst {u v : RsUnit} (h : u.Move v) {st : RsState} (hv : v.rsst = st) (ht : st.terminal = false) :
    u.Quiet v :=
  ⟨h, hv ▸ ht⟩

theorem unlessIn_eq_ok {stop : RsState} {next : State → Except Fault State} {s t : State} :
    unlessIn stop next s = .ok t ↔ (s.rs.rsst = stop ∧ t = s) ∨ (s.rs.rsst ≠ stop ∧ next s = .ok t) := by
  unfold unlessIn
  split
  · simp [*, eq_comm]
  · simp [*]

/-- The chain of R265 from RSFORNEY on. -/
theorem decodes_forney_apply {s t : State} {ba : BReg} (hst : s.rs.rsst = .positionsReady)
    (h : (s.rsForney.bind <| unlessIn .failed fun s => s.rsApply ba) = .ok t) :
    Decodes ba s t ∧ t.rs.rsst.terminal = true := by
  obtain ⟨s', hs', h⟩ := bind_eq_ok.1 h
  obtain ⟨ms, hms, rfl⟩ := rsForney_eq_ok.1 hs'
  have hm := RsUnit.Move.measure ms hst hms
  obtain ⟨hf, rfl⟩ | ⟨hne, h⟩ := unlessIn_eq_ok.1 h
  · exact ⟨.unit _ hm.reaches, hf ▸ rfl⟩
  · have hst' := (s.rs.rsst_forneyStep ms).resolve_left hne
    obtain ⟨hd, ht⟩ := decodes_rsApply hst' h
    exact ⟨hd.after_quiet (quiet_of_rsst hm hst' rfl), ht⟩

/-- The chain of R265 from RSCHIEN on. -/
theorem decodes_chien_forney_apply {s t : State} {ba : BReg} (hst : s.rs.rsst = .locatorReady)
    (h : (s.rsChien.bind <| unlessIn .failed fun s =>
      s.rsForney.bind <| unlessIn .failed fun s => s.rsApply ba) = .ok t) :
    Decodes ba s t ∧ t.rs.rsst.terminal = true := by
  obtain ⟨s', hs', h⟩ := bind_eq_ok.1 h
  obtain ⟨lam, -, rfl⟩ := rsChien_eq_ok.1 hs'
  have hm := RsUnit.Move.search lam hst
  obtain ⟨hf, rfl⟩ | ⟨hne, h⟩ := unlessIn_eq_ok.1 h
  · exact ⟨.unit _ hm.reaches, hf ▸ rfl⟩
  · have hst' := (s.rs.rsst_chienStep (chien lam s.rs.nmsg)).resolve_left hne
    obtain ⟨hd, ht⟩ := decodes_forney_apply hst' h
    exact ⟨hd.after_quiet (quiet_of_rsst hm hst' rfl), ht⟩

/-- RSDEC's chain is a run of quiet moves and one that ends the block (R265). -/
theorem decodes_rsDecode {s t : State} {ba : BReg} {ec : Nat} (hchk : s.blockLengthError ba ec = none)
    (h : s.rsDecode ba ec = .ok t) : Decodes ba s t ∧ t.rs.rsst.terminal = true := by
  obtain ⟨s₁, h₁, h⟩ := bind_eq_ok.1 h
  obtain ⟨r, hr, rfl⟩ := rsSyn_eq_ok.1 h₁
  have m₁ := move_rsSyn hchk hr
  obtain ⟨he, rfl⟩ | ⟨hne, h⟩ := unlessIn_eq_ok.1 h
  · exact ⟨.unit _ m₁.reaches, he ▸ rfl⟩
  · have st₁ := (s.rs.rsst_synStep _ _ _).resolve_left hne
    obtain ⟨s₂, h₂, h⟩ := bind_eq_ok.1 h
    obtain ⟨syn, ⟨hsyn, -⟩, rfl⟩ := rsBm_eq_ok.1 h₂
    have m₂ := RsUnit.Move.locate syn st₁ hsyn
    obtain ⟨hd, ht⟩ := decodes_chien_forney_apply rfl h
    exact ⟨(hd.after_quiet (quiet_of_rsst m₂ rfl rfl)).after_quiet (quiet_of_rsst m₁ st₁ rfl), ht⟩

/-! ## The effects of a command -/

/-- The decoder commands that can end a block (R258). -/
def endsBlocks : Instr → Bool
  | .rssyn _ _ | .rschien | .rsforney | .rsapply _ | .rsdec _ _ => true
  | _ => false

/-- What command `i` can have changed when its completion effects begin: nothing, the report of one of its
exceptions, or what its *Writes* line names, within the bounds of the arrays where the state was in bounds. -/
inductive Effect (i : Instr) (s : State) : State → Prop
  | nothing (hd : destUnits i = []) : Effect i s s
  | raises (c : ErrCode) (d : Nat) (hc : c ∈ mayRaise i) : Effect i s (s.raise i c d)
  | setsX (r : XReg) (v : Word) (hr : destX i = some r) (hd : destUnits i = []) : Effect i s (s.setX r v)
  | setsLen (b : BReg) (n : Nat) (hb : destB i = some b) (hd : destUnits i = []) (hn : n ≤ Config.bufCap) :
      Effect i s (s.setLen b n)
  | putsByte (b : BReg) (k : Nat) (v : Byte) (hb : destB i = some b) (hd : destUnits i = [])
      (hk : k < Config.bufCap) : Effect i s ((s.writeB b k [v]).setLen b (max (s.lenB b) (k + 1)))
  | produces (b : BReg) (vs : List Byte) (hb : destB i = some b) (hd : destUnits i = [])
      (hvs : s.DataOk → vs.length ≤ Config.bufCap) : Effect i s (s.produce b vs)
  | streams (u : Bitstream) (hd : .stream ∈ destUnits i) (hu : s.DataOk → u.Ok) : Effect i s { s with bs := u }
  | reads (r : XReg) (v : Word) (u : Bitstream) (hr : destX i = some r) (hd : .stream ∈ destUnits i)
      (hu : s.DataOk → u.Ok) : Effect i s { s.setX r v with bs := u }
  | decodesSegment (b : BReg) (vs : List Byte) (r : XReg) (v : Word) (u : Bitstream) (hb : destB i = some b)
      (hr : destX i = some r) (hd : .stream ∈ destUnits i) (hvs : vs.length ≤ Config.bufCap) (hu : s.DataOk → u.Ok) :
      Effect i s { (s.produce b vs).setX r v with bs := u }
  | clearsAggregate (hi : i = .aggclr) :
      Effect i s { s with rs := { s.rs with aggn := 0, aggv := 0, allok := true } }
  | decodes (u : RsUnit) (hd : .decoder ∈ destUnits i) (h : s.rs.Reaches u)
      (hend : u.rsst.terminal = true → endsBlocks i = true) : Effect i s { s with rs := u }
  | repairs (b : BReg) (c : List Byte) (u : RsUnit) (hb : destB i = some b) (hd : .decoder ∈ destUnits i)
      (h : s.rs.Reaches u) (hc : c.length = u.nmsg) (hst : u.rsst = .corrected) (hend : endsBlocks i = true) :
      Effect i s { s.writeB b 0 c with rs := u }
  | lists (l : List (Nat × Nat)) (hd : .zigzag ∈ destUnits i)
      (hl : zigzag (Config.size s.ver) s.zig.role = .ok l) : Effect i s { s with zig := s.zig.list l }
  | places (kvs : List (Nat × Bool)) (hd : .zigzag ∈ destUnits i)
      (hk : s.DataOk → ∀ kv ∈ kvs, kv.1 < Config.zzCap) :
      Effect i s { s with zig := { s.zig with mod := writeCells s.zig.mod kvs } }

/-- Every state a command body answers with is one of its effects. -/
def HasEffect (i : Instr) (s : State) (r : Except Fault State) : Prop := ∀ u, r = .ok u → Effect i s u

namespace HasEffect

variable {i : Instr} {s : State} {r : Except Fault State}

theorem ok {u : State} (h : Effect i s u) : HasEffect i s (.ok u) := by
  rintro _ ⟨⟩
  exact h

/-- A check that raises, and the body behind it. -/
theorem check {p : Prop} [Decidable p] {c : ErrCode} {d : Nat} (hc : c ∈ mayRaise i)
    (h : ¬ p → HasEffect i s r) : HasEffect i s (if p then .ok (s.raise i c d) else r) := by
  split
  · exact ok (.raises c d hc)
  · exact h ‹_›

theorem map {α : Type} {x : Except Fault α} {f : α → State} (h : ∀ a, x = .ok a → Effect i s (f a)) :
    HasEffect i s (x.map f) := by
  intro u hu
  obtain ⟨a, ha, rfl⟩ := map_eq_ok.1 hu
  exact h a ha

theorem bind {α : Type} {x : Except Fault α} {f : α → Except Fault State}
    (h : ∀ a, x = .ok a → HasEffect i s (f a)) : HasEffect i s (x.bind f) := by
  intro u hu
  obtain ⟨a, ha, hu⟩ := bind_eq_ok.1 hu
  exact h a ha u hu

end HasEffect

end Sys2Proof.Machine
end

section
/-! PROOFS. Each command has one of the effects, command by command. -/

namespace Sys2Proof.Machine

/-- A command that ends does so in one of its effects, completed (R430, R436). -/
def Acts (i : Instr) : Prop := ∀ s t, exec i s = .next t → ∃ u, Effect i s u ∧ t = u.complete

namespace Acts

/-- A command acts as its body does. -/
theorem of {i : Instr} {body : State → Except Fault State} (hexec : ∀ s, exec i s = finish (body s))
    (hbody : ∀ s, HasEffect i s (body s)) : Acts i := by
  intro s t h
  rw [hexec] at h
  obtain ⟨u, hu, rfl⟩ := finish_eq_next.1 h
  exact ⟨u, hbody s u hu, rfl⟩

/-- A command that only sets a register acts. -/
theorem of_setX {i : Instr} {rd : XReg} {v : State → Word} (hr : destX i = some rd)
    (hd : destUnits i = []) (hexec : ∀ s, exec i s = finish (.ok (s.setX rd (v s)))) : Acts i :=
  .of hexec fun _ => .ok (.setsX _ _ hr hd)

/-! ## Control -/

theorem nop : Acts .nop := .of (fun _ => rfl) fun _ => .ok (.nothing rfl)

theorem ldi (rd : XReg) (imm : Nat) : Acts (.ldi rd imm) := .of_setX rfl rfl fun _ => rfl

theorem mov (rd rs1 : XReg) : Acts (.mov rd rs1) := .of_setX rfl rfl fun _ => rfl

theorem xor (rd rs1 rs2 : XReg) : Acts (.xor rd rs1 rs2) := .of_setX rfl rfl fun _ => rfl

theorem setlen (bd : BReg) (imm : Nat) : Acts (.setlen bd imm) :=
  .of (fun _ => rfl) fun _ => .check (by simp [mayRaise]) fun h => .ok (.setsLen _ _ rfl rfl (by omega))

theorem bget (rd : XReg) (ba : BReg) (rs1 : XReg) : Acts (.bget rd ba rs1) :=
  .of (fun _ => rfl) fun _ => .check (by simp [mayRaise]) fun _ => .map fun _ _ => .setsX _ _ rfl rfl

theorem bput (bd : BReg) (rs1 rs2 : XReg) : Acts (.bput bd rs1 rs2) :=
  .of (fun _ => rfl) fun _ => .check (by simp [mayRaise]) fun h => .ok (.putsByte _ _ _ rfl rfl (by omega))

theorem bcopy (bd ba : BReg) : Acts (.bcopy bd ba) :=
  .of (fun _ => rfl) fun _ => .map fun _ hd =>
    .produces _ _ rfl rfl fun hs => (content_eq_ok.1 hd).1 ▸ hs.buffers.len ba

theorem bcat (bd ba bb : BReg) : Acts (.bcat bd ba bb) :=
  .of (fun _ => rfl) fun _ => .check (by simp [mayRaise]) fun h => .map fun p hp => .produces _ _ rfl rfl fun _ => by
    obtain ⟨⟨ha, -⟩, hb, -⟩ := contents_eq_ok.1 hp
    rw [List.length_append, ha, hb]
    omega

theorem aggclr : Acts .aggclr := .of (fun _ => rfl) fun _ => .ok (.clearsAggregate rfl)

/-! ## GF(256) and BCH -/

theorem gadd (rd rs1 rs2 : XReg) : Acts (.gadd rd rs1 rs2) := .of_setX rfl rfl fun _ => rfl

theorem gmul (rd rs1 rs2 : XReg) : Acts (.gmul rd rs1 rs2) := .of_setX rfl rfl fun _ => rfl

theorem gdiv (rd rs1 rs2 : XReg) : Acts (.gdiv rd rs1 rs2) := .of (fun _ => rfl) fun s => by
  cases gfDiv (s.byteX rs1) (s.byteX rs2) with
  | none => exact .ok (.raises _ _ (by simp [mayRaise]))
  | some q => exact .ok (.setsX _ _ rfl rfl)

theorem ginv (rd rs1 : XReg) : Acts (.ginv rd rs1) := .of (fun _ => rfl) fun s => by
  cases gfInv (s.byteX rs1) with
  | none => exact .ok (.raises _ _ (by simp [mayRaise]))
  | some q => exact .ok (.setsX _ _ rfl rfl)

theorem gexp (rd rs1 : XReg) : Acts (.gexp rd rs1) := .of_setX rfl rfl fun _ => rfl

theorem glog (rd rs1 : XReg) : Acts (.glog rd rs1) := .of (fun _ => rfl) fun s => by
  cases gfLog (s.byteX rs1) with
  | none => exact .ok (.raises _ _ (by simp [mayRaise]))
  | some n => exact .ok (.setsX _ _ rfl rfl)

theorem bchfe (rd rs1 : XReg) : Acts (.bchfe rd rs1) := .of_setX rfl rfl fun _ => rfl

theorem bchfd (rd rs1 : XReg) : Acts (.bchfd rd rs1) := .of_setX rfl rfl fun _ => rfl

theorem bchve (rd rs1 : XReg) : Acts (.bchve rd rs1) := .of_setX rfl rfl fun _ => rfl

theorem bchvd (rd rs1 : XReg) : Acts (.bchvd rd rs1) := .of_setX rfl rfl fun _ => rfl

theorem fmtsel (rd rs1 rs2 : XReg) : Acts (.fmtsel rd rs1 rs2) := .of_setX rfl rfl fun _ => rfl

theorem versel (rd rs1 rs2 : XReg) : Acts (.versel rd rs1 rs2) := .of_setX rfl rfl fun _ => rfl

/-! ## Polynomials and the encoder -/

theorem peval (rd : XReg) (ba : BReg) (rs1 : XReg) : Acts (.peval rd ba rs1) :=
  .of (fun _ => rfl) fun _ => .map fun _ _ => .setsX _ _ rfl rfl

theorem pmul (bd ba bb : BReg) : Acts (.pmul bd ba bb) :=
  .of (fun _ => rfl) fun _ => .check (by simp [mayRaise]) fun h0 => .check (by simp [mayRaise]) fun h1 =>
    .map fun p hp => .produces _ _ rfl rfl fun _ => by
      obtain ⟨⟨ha, -⟩, hb, -⟩ := contents_eq_ok.1 hp
      rw [length_pmul (List.length_pos_iff.1 (by omega)) (List.length_pos_iff.1 (by omega)), ha, hb]
      omega

theorem rsgen (bd : BReg) (imm : Nat) : Acts (.rsgen bd imm) :=
  .of (fun _ => rfl) fun _ => .check (by simp [mayRaise]) fun h => .ok (.produces _ _ rfl rfl fun _ => by
    rw [length_rsGen, Config.bufCap]
    omega)

theorem rsenc (bd ba : BReg) (imm : Nat) : Acts (.rsenc bd ba imm) :=
  .of (fun _ => rfl) fun _ => .check (by simp [mayRaise]) fun h => .check (by simp [mayRaise]) fun _ =>
    .map fun d _ => .produces _ _ rfl rfl fun _ => by
      rw [length_rsRem, Config.bufCap]
      omega

/-! ## The decoder -/

/-- A decoder step that moves only the unit. -/
theorem effect_of_move {i : Instr} {s : State} {u : RsUnit} (hd : .decoder ∈ destUnits i) (h : s.rs.Move u)
    (hend : endsBlocks i = true ∨ u.rsst.terminal = false) : Effect i s { s with rs := u } :=
  .decodes u hd h.reaches fun ht => hend.resolve_right (by simp [ht])

theorem effect_of_decodes {i : Instr} {s t : State} {ba : BReg} (hb : destB i = some ba) (hd : .decoder ∈ destUnits i)
    (hend : endsBlocks i = true) (h : Decodes ba s t) : Effect i s t := by
  cases h with
  | unit u hu => exact .decodes u hd hu fun _ => hend
  | block c u hu hc hst => exact .repairs ba c u hb hd hu hc hst hend

theorem rssyn (ba : BReg) (imm : Nat) : Acts (.rssyn ba imm) := .of (fun _ => rfl) fun s => by
  cases hchk : s.blockLengthError ba imm with
  | some v => exact .ok (.raises _ _ (by simp [mayRaise]))
  | none =>
    exact .map fun r hr => effect_of_move (by simp [destUnits]) (move_rsSyn hchk (content_eq_ok.1 hr)) (.inl rfl)

theorem rsbm : Acts .rsbm := .of (fun _ => rfl) fun s => .check (by simp [mayRaise]) fun hst => .map fun syn hsyn =>
  effect_of_move (by simp [destUnits]) (.locate syn (not_not.1 hst) (readBlock_eq_ok.1 hsyn).1) (.inr rfl)

theorem rschien : Acts .rschien := .of (fun _ => rfl) fun s => .check (by simp [mayRaise]) fun hst =>
  .map fun lam _ => effect_of_move (by simp [destUnits]) (.search lam (not_not.1 hst)) (.inl rfl)

theorem rsforney : Acts .rsforney := .of (fun _ => rfl) fun s => .check (by simp [mayRaise]) fun hst =>
  .map fun ms hms => effect_of_move (by simp [destUnits]) (.measure ms (not_not.1 hst) hms) (.inl rfl)

theorem rsapply (ba : BReg) : Acts (.rsapply ba) :=
  .of (fun _ => rfl) fun s => .check (by simp [mayRaise]) fun hst => .check (by simp [mayRaise]) fun _ _ hu =>
    effect_of_decodes rfl (by simp [destUnits]) rfl (decodes_rsApply (not_not.1 hst) hu).1

theorem rsdec (ba : BReg) (imm : Nat) : Acts (.rsdec ba imm) := .of (fun _ => rfl) fun s => by
  cases hchk : s.blockLengthError ba imm with
  | some v => exact .ok (.raises _ _ (by simp [mayRaise]))
  | none => exact fun u hu => effect_of_decodes rfl (by simp [destUnits]) rfl (decodes_rsDecode hchk hu).1

/-! ## The bitstream -/

/-- Bits appended within the stream's capacity. -/
theorem effect_append {i : Instr} {s : State} {l : List Bool} (hd : .stream ∈ destUnits i)
    (hl : s.DataOk → s.bs.blen + l.length ≤ Config.bitCap) : Effect i s (s.appendBits l) :=
  .streams (s.appendBits l).bs hd fun hs => hs.bs.append (hl hs)

/-- The cursor stays in the stream when it passes only bits that are available (R340). -/
theorem cursor_le {s : State} (hs : s.DataOk) {p n : Nat} (h : ¬ n > s.avail p) (hp : p ≤ Config.bitCap) :
    p + n ≤ Config.bitCap := by
  have := hs.bs.blen
  simp only [State.avail] at h
  omega

theorem bsclr : Acts .bsclr := .of (fun _ => rfl) fun s => .ok <| .streams _ (by simp [destUnits]) fun hs =>
  have h : ({ s.bs with blen := 0 } : Bitstream).Ok := { hs.bs with blen := Nat.zero_le _ }
  (h.withCursor false (Nat.zero_le _) (Nat.two_pow_pos _)).withResult .segmentOk .noStage (Nat.two_pow_pos _)
    (Nat.two_pow_pos _) (Nat.two_pow_pos _) (Nat.two_pow_pos _)

theorem bsput (rs1 : XReg) (imm : Nat) : Acts (.bsput rs1 imm) :=
  .of (fun _ => rfl) fun s => .check (by simp [mayRaise]) fun _ => .check (by simp [mayRaise]) fun h =>
    .ok (effect_append (by simp [destUnits]) fun _ => by rw [length_bitsOf]; omega)

theorem bsget (rd : XReg) (imm : Nat) : Acts (.bsget rd imm) :=
  .of (fun _ => rfl) fun s => .check (by simp [mayRaise]) fun h0 => .check (by simp [mayRaise]) fun h =>
    .map fun v _ => .reads rd _ _ rfl (by simp [destUnits]) fun hs =>
      hs.bs.withCursor _ (cursor_le hs h hs.bs.rpos) hs.bs.databits

theorem bsload (ba : BReg) : Acts (.bsload ba) :=
  .of (fun _ => rfl) fun s => .check (by simp [mayRaise]) fun h => .map fun d hd =>
    effect_append (by simp [destUnits]) fun _ => by
      rw [length_bitsOfBytes, (content_eq_ok.1 hd).1]
      omega

theorem bsstore (bd : BReg) (rs1 : XReg) (imm : Nat) : Acts (.bsstore bd rs1 imm) :=
  .of (fun _ => rfl) fun s => .check (by simp [mayRaise]) fun h => .check (by simp [mayRaise]) fun _ =>
    .map fun d hd => .produces _ _ rfl rfl fun _ => by
      rw [(readMany_eq_ok.1 hd).1]
      omega

theorem segenc (ba : BReg) (imm : Nat) : Acts (.segenc ba imm) := .of (fun _ => rfl) fun s => by
  cases modeOf imm with
  | none => exact .ok (.raises _ _ (by simp [mayRaise]))
  | some mode =>
    refine .check (by simp [mayRaise]) fun _ => .bind fun bad _ => ?_
    cases bad with
    | some kb => exact .ok (.raises _ _ (by simp [mayRaise]))
    | none =>
      refine .check (by simp [mayRaise]) fun h => .map fun d hd => effect_append (by simp [destUnits]) fun _ => ?_
      rw [List.length_append, List.length_append, length_bitsOf, length_bitsOf, length_encodePayload,
        (content_eq_ok.1 hd).1]
      omega

theorem bsterm : Acts .bsterm :=
  .of (fun _ => rfl) fun s => .check (by simp [mayRaise]) fun h =>
    .ok (effect_append (by simp [destUnits]) fun hs => by
      have := hs.capb
      simp only [length_bitsOf, State.capBits, Config.capbMax, Config.bitCap] at *
      omega)

theorem bspad : Acts .bspad :=
  .of (fun _ => rfl) fun s => .check (by simp [mayRaise]) fun h =>
    .ok (effect_append (by simp [destUnits]) fun hs => by
      have := hs.capb
      have := add_length_padding_le (Nat.le_of_not_lt h)
      simp only [State.capBits, Config.capbMax, Config.bitCap] at *
      omega)

theorem bspadchk (rd : XReg) : Acts (.bspadchk rd) := .of (fun _ => rfl) fun _ => .map fun _ _ => .setsX _ _ rfl rfl

/-! ## Segment decoding -/

/-- A result of SEGDEC that consumes nothing (R359). -/
theorem effect_segOut {s : State} {rd : XReg} {bd : BReg} {st : SegStatus} {mode : Nat} {stage : SegStage}
    {cnt exp avl : Nat} (hmode : mode < 2 ^ 4) (hcnt : cnt < 2 ^ 16) (hexp : exp < 2 ^ 32)
    (havl : s.DataOk → avl < 2 ^ 32) : Effect (.segdec rd bd) s (s.segOut rd st mode stage cnt exp avl) :=
  .reads rd _ _ rfl (by simp [destUnits]) fun hs => hs.bs.withResult st stage hmode hcnt hexp (havl hs)

theorem avail_lt {s : State} (hs : s.DataOk) (p : Nat) : s.avail p < 2 ^ 32 := by
  have := hs.bs.blen
  simp only [State.avail, Config.bitCap] at *
  omega

theorem hasEffect_segPayload {s : State} {rd : XReg} {bd : BReg} {mode : Nat} {m : Mode} {w c : Nat}
    (hmode : mode < 2 ^ 4) (hc : c < 2 ^ 16) (hq : s.DataOk → s.bs.rpos + 4 + w ≤ Config.bitCap) :
    HasEffect (.segdec rd bd) s (s.segPayload rd bd mode m w c) := by
  have hn : pbits m c < 2 ^ 32 := by have := pbits_le m c; omega
  unfold State.segPayload
  dsimp only
  split
  · exact .ok (effect_segOut hmode hc hn fun hs => avail_lt hs _)
  · rename_i havl
    split
    · exact .ok (effect_segOut hmode hc (by decide) fun _ => by decide)
    · rename_i hcap
      refine .map fun chars? hd => ?_
      cases chars? with
      | none => exact effect_segOut hmode hc (by decide) fun _ => by decide
      | some chars =>
        have hlen : chars.length = c := by rw [length_decodeGroups hd, sum_groups]
        refine .decodesSegment bd chars rd _ _ rfl rfl (by simp [destUnits]) (by omega) fun hs => ?_
        refine (hs.bs.withCursor s.bs.termseen ?_ ?_).withResult _ _ hmode hc (Nat.two_pow_pos _) (Nat.two_pow_pos _)
        · have := cursor_le hs havl (hq hs)
          omega
        · exact (Nat.min_le_left _ _).trans_lt (by decide)

theorem hasEffect_segCount {s : State} {rd : XReg} {bd : BReg} {mode : Nat} {m : Mode} (hmode : mode < 2 ^ 4)
    (hp : s.DataOk → s.bs.rpos + 4 ≤ Config.bitCap) : HasEffect (.segdec rd bd) s (s.segCount rd bd mode m) := by
  have hw := cci_le_sixteen m s.ver
  unfold State.segCount
  dsimp only
  split
  · exact .ok (effect_segOut hmode (by decide) (by omega) fun hs => avail_lt hs _)
  · rename_i havl
    refine .bind fun c hc => hasEffect_segPayload hmode ?_ fun hs => cursor_le hs havl (hp hs)
    exact (peek_eq_ok.1 hc).1.trans_le (Nat.pow_le_pow_right (by decide) hw)

theorem segdec (rd : XReg) (bd : BReg) : Acts (.segdec rd bd) := .of (fun _ => rfl) fun s => by
  unfold State.segDecode
  dsimp only
  split
  · exact .ok (effect_segOut (by decide) (by decide) (by decide) fun hs => avail_lt hs _)
  · rename_i havl
    refine .bind fun mode hmode => ?_
    have hmode := (peek_eq_ok.1 hmode).1
    split
    · refine .ok (.reads rd _ _ rfl (by simp [destUnits]) fun hs => ?_)
      exact (hs.bs.withCursor true (cursor_le hs havl hs.bs.rpos) hs.bs.databits).withResult _ _ (Nat.two_pow_pos _)
        (Nat.two_pow_pos _) (Nat.two_pow_pos _) (Nat.two_pow_pos _)
    · cases modeOf mode with
      | none => exact .ok (effect_segOut hmode (by decide) (by decide) fun _ => by decide)
      | some m => exact hasEffect_segCount hmode fun hs => cursor_le hs havl hs.bs.rpos

/-! ## The zigzag unit -/

theorem zzgen : Acts .zzgen := .of (fun _ => rfl) fun s => .map fun l hl => .lists l (by simp [destUnits]) hl

/-- The cells ZZPLACE and ZZREAD use: one for each coordinate, each in the matrix (R404, R405). -/
theorem zzCells_eq_ok {s : State} {cells : List Nat} (h : s.zzCells = .ok cells) :
    cells.length = s.zig.zzcnt ∧ (s.DataOk → ∀ k ∈ cells, k < Config.zzCap) := by
  obtain ⟨es, hes, rfl⟩ := map_eq_ok.1 h
  obtain ⟨hl, hes⟩ := readBlock_eq_ok.1 hes
  refine ⟨by rw [List.length_map, hl], fun hs k hk => ?_⟩
  obtain ⟨e, he, rfl⟩ := List.mem_map.1 hk
  obtain ⟨j, hj, rfl⟩ := List.getElem_of_mem he
  have hmem := Memory.read_mem ((hes j hj).trans (List.getElem?_eq_getElem hj))
  obtain ⟨hr, hc⟩ := hs.zig.entries _ hmem
  exact cellIndex_lt hr hc

theorem zzplace : Acts .zzplace := .of (fun _ => rfl) fun s => .bind fun cells hcells => .map fun bs _ =>
  .places _ (by simp [destUnits]) fun hs kv hkv => (zzCells_eq_ok hcells).2 hs _ (List.of_mem_zip hkv).1

theorem length_readModules {m : Memory Bool} {ks : List Nat} {vs : List Bool} (h : readModules m ks = .ok vs) :
    vs.length = ks.length := by
  induction ks generalizing vs with
  | nil =>
    cases h
    rfl
  | cons k ks ih =>
    obtain ⟨v, -, h⟩ := bind_eq_ok.1 h
    obtain ⟨ws, hws, rfl⟩ := map_eq_ok.1 h
    rw [List.length_cons, List.length_cons, ih hws]

theorem zzread : Acts .zzread := .of (fun _ => rfl) fun s => .bind fun cells hcells => .map fun bs hbs =>
  .streams _ (by simp [destUnits]) fun hs => by
    have hcap : s.zig.zzcnt ≤ Config.bitCap := hs.zig.zzcnt.trans (by decide)
    exact { hs.bs.withCursor false (Nat.zero_le _) (Nat.two_pow_pos _) with
      bits := Memory.ok_writeBlock hs.bs.bits (by rw [length_readModules hbs, (zzCells_eq_ok hcells).1]; omega)
      blen := hcap }

end Acts

/-- Every command acts as `Effect` says. -/
theorem exec_acts (i : Instr) : Acts i := by
  cases i with
  | nop => exact Acts.nop
  | ldi rd imm => exact Acts.ldi rd imm
  | mov rd rs1 => exact Acts.mov rd rs1
  | xor rd rs1 rs2 => exact Acts.xor rd rs1 rs2
  | setlen bd imm => exact Acts.setlen bd imm
  | bget rd ba rs1 => exact Acts.bget rd ba rs1
  | bput bd rs1 rs2 => exact Acts.bput bd rs1 rs2
  | bcopy bd ba => exact Acts.bcopy bd ba
  | bcat bd ba bb => exact Acts.bcat bd ba bb
  | aggclr => exact Acts.aggclr
  | gadd rd rs1 rs2 => exact Acts.gadd rd rs1 rs2
  | gmul rd rs1 rs2 => exact Acts.gmul rd rs1 rs2
  | gdiv rd rs1 rs2 => exact Acts.gdiv rd rs1 rs2
  | ginv rd rs1 => exact Acts.ginv rd rs1
  | gexp rd rs1 => exact Acts.gexp rd rs1
  | glog rd rs1 => exact Acts.glog rd rs1
  | peval rd ba rs1 => exact Acts.peval rd ba rs1
  | pmul bd ba bb => exact Acts.pmul bd ba bb
  | rsgen bd imm => exact Acts.rsgen bd imm
  | rsenc bd ba imm => exact Acts.rsenc bd ba imm
  | rssyn ba imm => exact Acts.rssyn ba imm
  | rsbm => exact Acts.rsbm
  | rschien => exact Acts.rschien
  | rsforney => exact Acts.rsforney
  | rsapply ba => exact Acts.rsapply ba
  | rsdec ba imm => exact Acts.rsdec ba imm
  | bchfe rd rs1 => exact Acts.bchfe rd rs1
  | bchfd rd rs1 => exact Acts.bchfd rd rs1
  | bchve rd rs1 => exact Acts.bchve rd rs1
  | bchvd rd rs1 => exact Acts.bchvd rd rs1
  | fmtsel rd rs1 rs2 => exact Acts.fmtsel rd rs1 rs2
  | versel rd rs1 rs2 => exact Acts.versel rd rs1 rs2
  | bsclr => exact Acts.bsclr
  | bsput rs1 imm => exact Acts.bsput rs1 imm
  | bsget rd imm => exact Acts.bsget rd imm
  | bsload ba => exact Acts.bsload ba
  | bsstore bd rs1 imm => exact Acts.bsstore bd rs1 imm
  | segenc ba imm => exact Acts.segenc ba imm
  | bsterm => exact Acts.bsterm
  | bspad => exact Acts.bspad
  | segdec rd bd => exact Acts.segdec rd bd
  | bspadchk rd => exact Acts.bspadchk rd
  | zzgen => exact Acts.zzgen
  | zzplace => exact Acts.zzplace
  | zzread => exact Acts.zzread

end Sys2Proof.Machine
end

section
/-! PROOFS. What every command keeps, read off its effects. -/

namespace Sys2Proof.Machine

theorem exec_eq_next {i : Instr} {s t : State} (h : exec i s = .next t) : ∃ u, Effect i s u ∧ t = u.complete :=
  exec_acts i s t h

/-- No command touches the host's side (R57). -/
theorem Effect.host_eq {i : Instr} {s t : State} (h : Effect i s t) : t.host = s.host := by
  cases h <;> rfl

theorem exec_host {i : Instr} {s t : State} (h : exec i s = .next t) : t.host = s.host := by
  obtain ⟨u, hu, rfl⟩ := exec_eq_next h
  exact hu.host_eq

theorem exec_running {i : Instr} {s t : State} (h : exec i s = .next t) : t.ctl.running = none := by
  obtain ⟨u, -, rfl⟩ := exec_eq_next h
  rfl

/-! ## Bounds -/

theorem Effect.dataOk {i : Instr} {s t : State} (hs : s.DataOk) (h : Effect i s t) : t.DataOk := by
  cases h with
  | nothing => exact hs
  | raises => exact { hs with }
  | setsX => exact { hs with }
  | setsLen b n _ _ hn => exact { hs with buffers := hs.buffers.setLen hn }
  | putsByte b k v _ _ hk =>
    have hlen : s.lenB b ≤ Config.bufCap := hs.buffers.len b
    exact { hs with buffers := BuffersOk.setLen (s := s.writeB b k [v]) (hs.buffers.writeB hk) (by omega) }
  | produces b vs _ _ hvs => exact { hs with buffers := hs.buffers.produce (hvs hs) }
  | streams u _ hu => exact { hs with bs := hu hs }
  | reads r v u _ _ hu => exact { hs with bs := hu hs }
  | decodesSegment b vs r v u _ _ _ hvs hu => exact { hs with buffers := hs.buffers.produce hvs, bs := hu hs }
  | clearsAggregate => exact { hs with rs := { hs.rs with aggn := Nat.zero_le _, aggv := Nat.zero_le _ } }
  | decodes u _ hu => exact { hs with rs := hu.keeps (P := RsUnit.Ok) (fun _ _ h hm => hm.ok h) hs.rs }
  | repairs b c u _ _ hu hc =>
    have hok := hu.keeps (P := RsUnit.Ok) (fun _ _ h hm => hm.ok h) hs.rs
    have hcap : c.length ≤ Config.bufCap := (hc ▸ hok.nmsg).trans (by decide)
    exact { hs with buffers := hs.buffers.writeB (b := b) (k := 0) (vs := c) (by omega), rs := hok }
  | lists l _ hl => exact { hs with zig := hs.zig.list hs.ver.2 (sublist_of_zigzag hl) }
  | places kvs _ hk => exact { hs with zig := { hs.zig with mod := ok_writeCells hs.zig.mod (hk hs) } }

theorem exec_dataOk {i : Instr} {s t : State} (hs : s.DataOk) (h : exec i s = .next t) : t.DataOk := by
  obtain ⟨u, hu, rfl⟩ := exec_eq_next h
  exact { hu.dataOk hs with }

/-! ## The decoder and the zigzag unit -/

theorem Effect.rs_consistent {i : Instr} {s t : State} (hs : s.DataOk) (hr : s.rs.Consistent) (h : Effect i s t) :
    t.rs.Consistent := by
  have moved {u : RsUnit} (h : s.rs.Reaches u) : u.Consistent :=
    (h.keeps (P := fun u => u.Ok ∧ u.Consistent)
      (fun _ _ ⟨hok, hc⟩ hm => ⟨hm.ok hok, hm.consistent hok.aggn hc⟩) ⟨hs.rs, hr⟩).2
  cases h with
  | clearsAggregate => exact { hr with aggregate := ⟨le_rfl, fun _ => rfl⟩ }
  | decodes u _ hu => exact moved hu
  | repairs b c u _ _ hu => exact moved hu
  | _ => exact hr

theorem Effect.zig_consistent {i : Instr} {s t : State} (hs : s.DataOk) (hz : s.zig.Consistent)
    (h : Effect i s t) : t.zig.Consistent := by
  cases h with
  | lists l _ hl => exact s.zig.list_consistent hs.ver.2 (sublist_of_zigzag hl)
  | places => exact ⟨hz.written, hz.distinct, hz.noTiming⟩
  | _ => exact hz

/-! ## The aggregate -/

theorem destUnits_of_endsBlocks {i : Instr} (h : endsBlocks i = true) : destUnits i = [.decoder] := by
  cases i <;> simp_all [endsBlocks, destUnits]

/-- A command that can end a block changes only the report or the decoder. -/
theorem Effect.cases_of_endsBlocks {i : Instr} {s t : State} (h : Effect i s t) (hi : endsBlocks i = true) :
    (∃ c d, t = s.raise i c d) ∨ s.rs.Reaches t.rs := by
  have hu := destUnits_of_endsBlocks hi
  cases h with
  | raises c d => exact .inl ⟨c, d, rfl⟩
  | decodes u _ h => exact .inr h
  | repairs b c u _ _ h => exact .inr h
  | clearsAggregate hi' => simp [hi', endsBlocks] at hi
  | _ => simp_all

/-- Only AGGCLR and a command that ends a block change the aggregate (R258). -/
theorem Effect.sameAggregate {i : Instr} {s t : State} (h : Effect i s t) (hi : i ≠ .aggclr)
    (ht : endsBlocks i = true → t.rs.rsst.terminal = false) : s.rs.SameAggregate t.rs := by
  have moved {u : RsUnit} (h : s.rs.Reaches u) (hu : u.rsst.terminal = false) : s.rs.SameAggregate u := by
    obtain ⟨ht, -⟩ | ⟨-, hs⟩ := h.aggregate
    · simp [ht] at hu
    · exact hs
  cases h with
  | clearsAggregate hi' => exact absurd hi' hi
  | decodes u _ h hend =>
    refine moved h ?_
    by_contra hu
    simp [ht (hend (by simpa using hu))] at hu
  | repairs b c u _ _ h _ _ hend => exact moved h (ht hend)
  | _ => exact ⟨rfl, rfl, rfl⟩

end Sys2Proof.Machine
end

section
/-! PROOFS. The aggregate (R53, R258). -/

namespace Sys2Proof.Machine

theorem Raises.rs_eq {s t : State} {c : ErrCode} {w d : Word} (h : Raises s t c w d) : t.rs = s.rs := by
  unfold Raises at h
  rw [h]

theorem endsBlocks_iff {i : Instr} : endsBlocks i = true ↔ i = .rschien ∨ i = .rsforney
    ∨ (∃ ba ec, i = .rssyn ba ec) ∨ (∃ ba, i = .rsapply ba) ∨ ∃ ba ec, i = .rsdec ba ec := by
  cases i <;> simp [endsBlocks]

/-- Settles O32: a decoder command's moves count the block when one ends it, and no other effect but AGGCLR's touches
the aggregate. -/
theorem aggregateCountsTerminalBlocks : Obligations.AggregateCountsTerminalBlocks := by
  intro i s t h hi
  obtain ⟨u, hu, rfl⟩ := exec_eq_next h
  dsimp only
  rw [← endsBlocks_iff]
  constructor
  · rintro ⟨hstep, hterm, hraise⟩
    obtain ⟨c, d, rfl⟩ | hr := hu.cases_of_endsBlocks hstep
    · exact absurd ⟨c, _, raises_raise s i c d⟩ hraise
    · obtain ⟨-, hc⟩ | ⟨hq, -⟩ := hr.aggregate
      · exact hc
      · simp [hq] at hterm
  · intro hends
    by_cases hr : ∃ c d, Raises s u.complete c (encode i) d
    · obtain ⟨c, d, hr⟩ := hr
      simp only [hr.rs_eq, and_self]
    · exact hu.sameAggregate hi fun hstep => by
        by_contra hterm
        exact hends ⟨hstep, by simpa using hterm, hr⟩

end Sys2Proof.Machine
end

section
/-! PROOFS. From commands to steps: what the bus, the engine, a host action and a step keep, given what every
command keeps. -/

namespace Sys2Proof.Machine

/-! ## The words of the map -/

/-- A window's word lies in the window (R82). -/
def Target.InMap : Target → Prop
  | .bufWord _ q => q < 64
  | .bitsWord q => q < 1024
  | .roleWord row j | .modWord row j => row < Config.maxSize ∧ 32 * j < Config.maxSize
  | _ => True

theorem inMap_of_lookup {a : Nat} {t : Target} (h : registerMap.lookup a = some t) : t.InMap := by
  have hreg : ∀ p ∈ registerMap, p.2.InMap := by simp [registerMap, Target.InMap]
  obtain ⟨l₁, l₂, hl, -⟩ := List.lookup_eq_some_iff.1 h
  exact hreg (a, t) (hl ▸ by simp)

/-- The rows and words of ROLE and MOD: 177 rows of 24 bytes from `base` on (R82, R93). -/
theorem inMap_of_row {base a : Nat} (h : base ≤ a ∧ a < base + 0x1098) :
    (a - base) / 24 < Config.maxSize ∧ 32 * ((a - base) % 24 / 4) < Config.maxSize := by
  simp only [Config.maxSize]
  omega

theorem inMap_of_targetAt {a : Nat} {t : Target} (h : targetAt a = some t) : t.InMap := by
  unfold targetAt at h
  obtain ⟨-, ⟨⟩⟩ | ⟨-, h⟩ := ite_eq_iff.1 h
  · trivial
  obtain ⟨-, ⟨⟩⟩ | ⟨-, h⟩ := ite_eq_iff.1 h
  · trivial
  by_cases hreg : a < 0x00100
  · rw [if_pos hreg] at h
    exact inMap_of_lookup h
  rw [if_neg hreg] at h
  obtain ⟨-, ⟨⟩⟩ | ⟨-, h⟩ := ite_eq_iff.1 h
  · show a % 0x100 / 4 < 64
    omega
  obtain ⟨-, ⟨⟩⟩ | ⟨-, h⟩ := ite_eq_iff.1 h
  · trivial
  obtain ⟨-, ⟨⟩⟩ | ⟨-, h⟩ := ite_eq_iff.1 h
  · trivial
  obtain ⟨-, ⟨⟩⟩ | ⟨-, h⟩ := ite_eq_iff.1 h
  · trivial
  obtain ⟨-, ⟨⟩⟩ | ⟨-, h⟩ := ite_eq_iff.1 h
  · trivial
  obtain ⟨hb, ⟨⟩⟩ | ⟨-, h⟩ := ite_eq_iff.1 h
  · show (a - 0x01000) / 4 < 1024
    omega
  obtain ⟨hb, ⟨⟩⟩ | ⟨-, h⟩ := ite_eq_iff.1 h
  · exact inMap_of_row hb
  obtain ⟨hb, ⟨⟩⟩ | ⟨-, h⟩ := ite_eq_iff.1 h
  · exact inMap_of_row hb
  obtain ⟨-, ⟨⟩⟩ | ⟨-, h⟩ := ite_eq_iff.1 h
  · trivial
  · cases h

theorem inMap_of_busTarget {a : BitVec 17} {n : Nat} {t : Target} (h : busTarget a n = .ok t) : t.InMap := by
  unfold busTarget at h
  split at h
  · cases h
  · split at h
    · cases h
    · cases h
      exact inMap_of_targetAt ‹_›

/-- A bus write within the map keeps the arrays and registers in their bounds (R86, R88, R89). -/
theorem State.DataOk.writeTarget {s : State} (hs : s.DataOk) {t : Target} (ht : t.InMap) (w : Word) :
    (s.writeTarget t w).DataOk := by
  cases t with
  | ver =>
    rw [State.writeTarget]
    split
    · exact { hs with ver := ‹_› }
    · exact hs
  | capb =>
    rw [State.writeTarget]
    split
    · exact { hs with capb := ‹_› }
    · exact hs
  | blen =>
    rw [State.writeTarget]
    split
    · exact { hs with bs := { hs.bs with blen := ‹_› } }
    · exact hs
  | rpos =>
    rw [State.writeTarget]
    split
    · exact { hs with bs := { hs.bs with rpos := ‹_› } }
    · exact hs
  | len b =>
    rw [State.writeTarget]
    split
    · exact { hs with buffers := hs.buffers.setLen ‹_› }
    · exact hs
  | bufWord b q =>
    have hq : 4 * q + (bytesOfWord w).length ≤ Config.bufCap := by
      simp only [Target.InMap, Config.bufCap, length_bytesOfWord] at ht ⊢
      omega
    exact { hs with buffers := hs.buffers.writeB hq }
  | bitsWord q => exact { hs with bs := { hs.bs with bits := ok_writeStreamWord w hs.bs.bits ht } }
  | roleWord row j => exact { hs with zig := { hs.zig with role := ok_writeBitWord w hs.zig.role ht.1 ht.2 } }
  | modWord row j => exact { hs with zig := { hs.zig with mod := ok_writeBitWord w hs.zig.mod ht.1 ht.2 } }
  | _ => exact { hs with }

/-- The decoder's registers and windows are read-only (R88). -/
theorem writeTarget_rs (s : State) (t : Target) (w : Word) : (s.writeTarget t w).rs = s.rs := by
  cases t with
  | ver | capb | blen | rpos | len => rw [State.writeTarget]; split <;> rfl
  | _ => rfl

/-- ZZ and ZZCNT are read-only (R88). -/
theorem writeTarget_zz (s : State) (t : Target) (w : Word) :
    (s.writeTarget t w).zig.zz = s.zig.zz ∧ (s.writeTarget t w).zig.zzcnt = s.zig.zzcnt := by
  cases t with
  | ver | capb | blen | rpos | len => rw [State.writeTarget]; split <;> exact ⟨rfl, rfl⟩
  | _ => exact ⟨rfl, rfl⟩

theorem writeTarget_host (s : State) (t : Target) (w : Word) : (s.writeTarget t w).host = s.host := by
  cases t with
  | ver | capb | blen | rpos | len => rw [State.writeTarget]; split <;> rfl
  | _ => rfl

/-- A bus write, other than one to CMD, neither starts nor ends a command. -/
theorem writeTarget_running (s : State) (t : Target) (w : Word) :
    (s.writeTarget t w).ctl.running = s.ctl.running := by
  cases t with
  | ver | capb | blen | rpos | len => rw [State.writeTarget]; split <;> rfl
  | _ => rfl

/-! ## What every host action keeps -/

/-- A property of states that no rule of the host and no command breaks: it does not speak of the control
registers, nor of the host's side but its program and position; and bus writes, reset and commands keep it. -/
structure Kept (P : State → Prop) : Prop where
  ctl : ∀ s c, P s → P { s with ctl := c }
  host : ∀ s h, h.prog = s.host.prog → h.pc = s.host.pc → P s → P { s with host := h }
  write : ∀ s t w, t.InMap → P s → P (s.writeTarget t w)
  reset : ∀ s, P s → P s.platformReset
  exec : ∀ i s t, P s → exec i s = .next t → P t

namespace Kept

variable {P : State → Prop} {s t : State}

theorem setRdata (hP : Kept P) (h : P s) (v : Word) : P (s.setRdata v) := hP.host s _ rfl rfl h

theorem runWord (hP : Kept P) {w : Word} (h : P s) (hr : runWord w s = .next t) : P t := by
  obtain ⟨i, -, he⟩ | ⟨e, -, he⟩ := runWord_eq w s <;> rw [he] at hr
  · exact hP.exec i s t h hr
  · cases hr
    cases e <;> exact hP.ctl s _ h

theorem tick (hP : Kept P) (h : P s) (ht : tick s = .next t) : P t := by
  obtain ⟨-, rfl⟩ | ⟨r, -, ⟨-, hr⟩ | ⟨-, rfl⟩⟩ := tick_eq_next.1 ht
  · exact h
  · exact hP.runWord h hr
  · exact hP.ctl s _ h

theorem writeCmd (hP : Kept P) {w : Word} (h : P s) (ht : s.writeCmd w = .next t) : P t := by
  have haccepted (n : Nat) : P (s.takeLatency.accept w n) := hP.ctl _ _ (hP.host s _ rfl rfl h)
  unfold State.writeCmd at ht
  split at ht
  · exact hP.tick (hP.ctl s _ h) ht
  · dsimp only at ht
    split at ht
    · exact hP.runWord (haccepted _) ht
    · cases ht
      exact haccepted _

theorem hostWrite (hP : Kept P) {a : BitVec 17} {n : Nat} {v : Word} (h : P s) (ht : s.hostWrite a n v = .next t) :
    P t := by
  obtain ⟨tgt, hb, ⟨-, ht⟩ | ⟨-, -, rfl⟩ | ⟨r, -, -, -, ht⟩⟩ := hostWrite_eq_next ht
  · exact hP.writeCmd h ht
  · exact hP.write s tgt v (inMap_of_busTarget hb) h
  · exact hP.tick (hP.write s tgt v (inMap_of_busTarget hb) h) ht

end Kept

/-- A bus read that answers: the word read with nothing running, or the word of a busy read and the engine. -/
theorem hostRead_eq_next {s t : State} {a : BitVec 17} {n : Nat} (h : s.hostRead a n = .next t) :
    ∃ tgt, busTarget a n = .ok tgt ∧
      ((s.ctl.running = none ∧ ∃ v, s.readTarget tgt = .ok v ∧ t = s.setRdata v)
      ∨ ∃ r v, s.ctl.running = some r ∧ s.busyRead r.word tgt = .ok v
          ∧ tick (s.setRdata v).takeChoice = .next t) := by
  unfold State.hostRead at h
  split at h
  · cases h
  · rename_i tgt hb
    refine ⟨tgt, hb, ?_⟩
    split at h
    · rename_i hr
      split at h
      · cases h
      · cases h
        exact .inl ⟨hr, _, ‹_›, rfl⟩
    · rename_i r hr
      split at h
      · cases h
      · exact .inr ⟨r, _, hr, ‹_›, h⟩

/-- A wait that answers: nothing runs, or the running command completes; then STATUS is read. -/
theorem hostWait_eq_next {s t : State} (h : s.hostWait = .next t) :
    ∃ u, ((s.ctl.running = none ∧ u = s) ∨ ∃ r, s.ctl.running = some r ∧ runWord r.word s = .next u)
      ∧ t = u.setRdata u.statusWord := by
  unfold State.hostWait at h
  split at h
  · cases h
    exact ⟨s, .inl ⟨‹_›, rfl⟩, rfl⟩
  · rename_i r hr
    split at h
    · cases h
      exact ⟨_, .inr ⟨r, hr, ‹_›⟩, rfl⟩
    · cases h
    · cases h

namespace Kept

variable {P : State → Prop} {s t : State}

theorem hostRead (hP : Kept P) {a : BitVec 17} {n : Nat} (h : P s) (ht : s.hostRead a n = .next t) : P t := by
  obtain ⟨tgt, -, ⟨-, v, -, rfl⟩ | ⟨r, v, -, -, ht⟩⟩ := hostRead_eq_next ht
  · exact hP.setRdata h v
  · exact hP.tick (s := (s.setRdata v).takeChoice) (hP.host _ _ rfl rfl (hP.setRdata h v)) ht

theorem hostWait (hP : Kept P) (h : P s) (ht : s.hostWait = .next t) : P t := by
  obtain ⟨u, ⟨-, rfl⟩ | ⟨r, -, hr⟩, rfl⟩ := hostWait_eq_next ht
  · exact hP.setRdata h _
  · exact hP.setRdata (hP.runWord h hr) _

/-- What a host action keeps (R57, R130, R470). -/
theorem perform (hP : Kept P) {a : HostAction} (h : P s) (ht : s.perform a = .next t) : P t := by
  cases a with
  | busWrite addr bytes v => exact hP.hostWrite h ht
  | busRead addr bytes => exact hP.hostRead h ht
  | wait => exact hP.hostWait h ht
  | platformReset =>
    cases ht
    exact hP.reset s h

/-- What a step keeps, when moving the position on keeps it too. -/
theorem step (hP : Kept P) (hadvance : ∀ s, P s → P s.advance) (h : P s) (ht : step s = .next t) : P t := by
  obtain ⟨a, -, he⟩ | ⟨-, he⟩ := step_eq s <;> rw [he] at ht
  · exact hP.perform (hadvance s h) ht
  · exact hP.tick h ht

end Kept

/-! ## The position -/

/-- The program and the position are the host's own: no action but reaching the next one changes them. -/
theorem kept_position (p : List HostAction) (n : Nat) : Kept fun s => s.host.prog = p ∧ s.host.pc = n where
  ctl _ _ h := h
  host _ _ hp hn h := ⟨hp.trans h.1, hn.trans h.2⟩
  write s t w _ h := by rwa [writeTarget_host]
  reset _ h := h
  exec _ _ _ h he := by rwa [exec_host he]

/-! ## The bounds -/

theorem reset_dataOk : State.reset.DataOk where
  buffers := ⟨by decide, by decide⟩
  ver := by decide
  capb := by decide
  bs := by constructor <;> decide
  rs := by constructor <;> decide
  zig := by constructor <;> decide

theorem kept_dataOk : Kept State.DataOk where
  ctl _ _ h := { h with }
  host _ _ _ _ h := { h with }
  write _ _ w ht h := h.writeTarget ht w
  reset _ _ := { reset_dataOk with }
  exec _ _ _ h he := exec_dataOk h he

theorem step_dataOk {s t : State} (hs : s.DataOk) (h : step s = .next t) : t.DataOk :=
  kept_dataOk.step (fun _ h => { h with }) hs h

/-! ## The count of a running command -/

theorem runWord_running {w : Word} {s t : State} (h : runWord w s = .next t) : t.ctl.running = none := by
  obtain ⟨i, -, he⟩ | ⟨e, -, he⟩ := runWord_eq w s <;> rw [he] at h
  · exact exec_running h
  · cases h
    rfl

theorem leftOk_of_running_eq_none {s : State} (h : s.ctl.running = none) : s.LeftOk := by
  intro r hr
  simp [h] at hr

theorem tick_leftOk {s t : State} (hs : s.LeftOk) (h : tick s = .next t) : t.LeftOk := by
  obtain ⟨-, rfl⟩ | ⟨r, -, ⟨-, hr⟩ | ⟨hl, rfl⟩⟩ := tick_eq_next.1 h
  · exact hs
  · exact leftOk_of_running_eq_none (runWord_running hr)
  · rintro _ ⟨⟩
    exact Nat.sub_pos_of_lt hl

theorem writeCmd_leftOk {s t : State} {w : Word} (hs : s.LeftOk) (h : s.writeCmd w = .next t) : t.LeftOk := by
  unfold State.writeCmd at h
  split at h
  · exact tick_leftOk (s := s.overrun w) hs h
  · dsimp only at h
    split at h
    · exact leftOk_of_running_eq_none (runWord_running h)
    · cases h
      rintro _ ⟨⟩
      exact Nat.pos_of_ne_zero ‹_›

theorem perform_leftOk {s t : State} {a : HostAction} (hs : s.LeftOk) (h : s.perform a = .next t) : t.LeftOk := by
  cases a with
  | busWrite addr bytes v =>
    have hw (tgt : Target) : (s.writeTarget tgt v).LeftOk := by rwa [State.LeftOk, writeTarget_running]
    obtain ⟨tgt, -, ⟨-, h⟩ | ⟨-, -, rfl⟩ | ⟨r, -, -, -, h⟩⟩ := hostWrite_eq_next h
    · exact writeCmd_leftOk hs h
    · exact hw tgt
    · exact tick_leftOk (hw tgt) h
  | busRead addr bytes =>
    obtain ⟨tgt, -, ⟨-, v, -, rfl⟩ | ⟨r, v, -, -, h⟩⟩ := hostRead_eq_next h
    · exact hs
    · exact tick_leftOk (s := (s.setRdata v).takeChoice) hs h
  | wait =>
    obtain ⟨u, ⟨-, rfl⟩ | ⟨r, -, hr⟩, rfl⟩ := hostWait_eq_next h
    · exact hs
    · have hu := runWord_running hr
      exact leftOk_of_running_eq_none hu
  | platformReset =>
    cases h
    exact leftOk_of_running_eq_none rfl

theorem step_leftOk {s t : State} (hs : s.LeftOk) (h : step s = .next t) : t.LeftOk := by
  obtain ⟨a, -, he⟩ | ⟨-, he⟩ := step_eq s <;> rw [he] at h
  · exact perform_leftOk (s := s.advance) hs h
  · exact tick_leftOk hs h

/-! ## The units -/

theorem reset_rs_consistent : State.reset.rs.Consistent :=
  ⟨nofun, nofun, nofun, nofun, nofun, by decide, rfl, rfl, rfl, by decide⟩

theorem reset_zig_consistent : State.reset.zig.Consistent := ⟨nofun, nofun, nofun⟩

theorem kept_rs_consistent : Kept fun s => s.DataOk ∧ s.rs.Consistent where
  ctl _ _ h := ⟨{ h.1 with }, h.2⟩
  host _ _ _ _ h := ⟨{ h.1 with }, h.2⟩
  write s t w ht h := ⟨h.1.writeTarget ht w, (writeTarget_rs s t w).symm ▸ h.2⟩
  reset _ _ := ⟨{ reset_dataOk with }, reset_rs_consistent⟩
  exec _ s _ h he := by
    obtain ⟨u, hu, rfl⟩ := exec_eq_next he
    exact ⟨exec_dataOk h.1 he, (hu.rs_consistent h.1 h.2 : u.rs.Consistent)⟩

theorem Zigzag.Consistent.of_zz {z z' : Zigzag} (h : z.Consistent) (hzz : z'.zz = z.zz) (hcnt : z'.zzcnt = z.zzcnt) :
    z'.Consistent := by
  obtain ⟨hw, hd, ht⟩ := h
  constructor <;> rw [hzz, hcnt] <;> assumption

theorem kept_zig_consistent : Kept fun s => s.DataOk ∧ s.zig.Consistent where
  ctl _ _ h := ⟨{ h.1 with }, h.2⟩
  host _ _ _ _ h := ⟨{ h.1 with }, h.2⟩
  write s t w ht h := ⟨h.1.writeTarget ht w, h.2.of_zz (writeTarget_zz s t w).1 (writeTarget_zz s t w).2⟩
  reset _ _ := ⟨{ reset_dataOk with }, reset_zig_consistent⟩
  exec _ s _ h he := by
    obtain ⟨u, hu, rfl⟩ := exec_eq_next he
    exact ⟨exec_dataOk h.1 he, (hu.zig_consistent h.1 h.2 : u.zig.Consistent)⟩

/-! ## The obligations -/

/-- Settles O58: every effect of a command and every bus write keeps the bounds unit by unit, and a command is left
running only with actions left. -/
theorem stepKeepsInvariant : Obligations.StepKeepsInvariant := by
  intro s t hs h
  obtain ⟨hdata, hleft⟩ := inv_iff.1 hs
  exact inv_iff.2 ⟨step_dataOk hdata h, step_leftOk hleft h⟩

/-- Settles O59: only the decoder's moves change the decoder, and only ZZGEN the coordinate list. -/
theorem stepKeepsUnitsConsistent : Obligations.StepKeepsUnitsConsistent :=
  ⟨fun _ _ hs hr h => (kept_rs_consistent.step (fun _ h => ⟨{ h.1 with }, h.2⟩) ⟨hs.dataOk, hr⟩ h).2,
    fun _ _ hs hz h => (kept_zig_consistent.step (fun _ h => ⟨{ h.1 with }, h.2⟩) ⟨hs.dataOk, hz⟩ h).2⟩

/-- Settles O60: no array lists a cell after reset and every register is at a legal value. -/
theorem resetMeetsInvariants : Obligations.ResetMeetsInvariants :=
  ⟨inv_iff.2 ⟨reset_dataOk, leftOk_of_running_eq_none rfl⟩, reset_rs_consistent, reset_zig_consistent⟩

/-- Settles O6: the position moves on before the action is performed, and nothing the action does touches it. -/
theorem everyActionAdvancesPc : Obligations.EveryActionAdvancesPc := by
  intro s t h
  obtain ⟨a, ha, he⟩ | ⟨hend, he⟩ := step_eq s <;> rw [he] at h
  · have hlt : s.host.pc < s.host.prog.length := (List.getElem?_eq_some_iff.1 ha).1
    rw [if_pos hlt]
    exact (kept_position s.host.prog (s.host.pc + 1)).perform (s := s.advance) ⟨rfl, rfl⟩ h
  · rw [if_neg (by omega)]
    exact (kept_position s.host.prog s.host.pc).tick ⟨rfl, rfl⟩ h

end Sys2Proof.Machine
end

section
/-! PROOFS. The host register space with the engine idle: where each register is, what a read returns and what a
write sets. -/

namespace Sys2Proof.Machine

/-! ## Packed registers -/

theorem toNat_append_add {m n : Nat} (x : BitVec m) (y : BitVec n) :
    (x ++ y).toNat = x.toNat * 2 ^ n + y.toNat := by
  rw [BitVec.toNat_append, ← Nat.shiftLeft_add_eq_or_of_lt y.isLt, Nat.shiftLeft_eq]

/-- A field of a packed register, above the fields below it. -/
theorem toNat_field_append {m n v : Nat} (hv : v < 2 ^ m) (y : BitVec n) :
    (BitVec.ofNat m v ++ y).toNat = v * 2 ^ n + y.toNat := by
  rw [toNat_append_add, BitVec.toNat_ofNat, Nat.mod_eq_of_lt hv]

theorem word_eq_ofNat {w : Word} {v : Nat} (h : w.toNat = v) : w = BitVec.ofNat 32 v := by
  rw [← h, BitVec.ofNat_toNat, BitVec.setWidth_eq]

theorem ErrCode.toNat_lt (c : ErrCode) : c.toNat < 2 ^ 8 := by cases c <;> decide

theorem SegStatus.toNat_lt (c : SegStatus) : c.toNat < 2 ^ 4 := by cases c <;> decide

theorem SegStage.toNat_lt (c : SegStage) : c.toNat < 2 ^ 2 := by cases c <;> decide

theorem RsReason.toNat_lt (c : RsReason) : c.toNat < 2 ^ 2 := by cases c <;> decide

/-- The fields of STATUS at their places (R37). -/
theorem statusWord_eq (s : State) : s.statusWord = BitVec.ofNat 32 (s.ctl.running.isSome.toNat
    + 2 * s.ctl.done.toNat + 4 * s.ctl.err.toNat + 8 * s.ctl.eovf.toNat + 2 ^ 8 * s.ctl.errcode.toNat) := by
  apply word_eq_ofNat
  simp only [State.statusWord, toNat_append_add, BitVec.toNat_ofNat, Nat.mod_eq_of_lt s.ctl.errcode.toNat_lt,
    BitVec.toNat_ofBool, State.busy]
  omega

/-- The fields of IRQEN at their places (R38). -/
theorem irqenWord_eq (s : State) :
    s.irqenWord = BitVec.ofNat 32 (s.ctl.doneie.toNat + 2 * s.ctl.errie.toNat) := by
  apply word_eq_ofNat
  simp only [State.irqenWord, toNat_append_add, BitVec.toNat_ofNat, BitVec.toNat_ofBool]
  omega

/-- The fields of SEGRES at their places (R46). -/
theorem segresWord_eq {s : State} (h : s.bs.Ok) : s.segresWord = BitVec.ofNat 32 (s.bs.segst.toNat
    + 2 ^ 4 * s.bs.segmode + 2 ^ 8 * s.bs.segstage.toNat + 2 ^ 16 * s.bs.segcnt) := by
  apply word_eq_ofNat
  simp only [State.segresWord, toNat_append_add, BitVec.toNat_ofNat, Nat.mod_eq_of_lt h.segcnt,
    Nat.mod_eq_of_lt s.bs.segstage.toNat_lt, Nat.mod_eq_of_lt h.segmode, Nat.mod_eq_of_lt s.bs.segst.toNat_lt]
  omega

/-- The fields of BSSTAT at their places (R48). -/
theorem bsstatWord_eq {s : State} (h : s.bs.Ok) :
    s.bsstatWord = BitVec.ofNat 32 (s.bs.termseen.toNat + 2 ^ 16 * s.bs.databits) := by
  apply word_eq_ofNat
  simp only [State.bsstatWord, toNat_append_add, BitVec.toNat_ofNat, Nat.mod_eq_of_lt h.databits,
    BitVec.toNat_ofBool]
  omega

/-- The fields of RSRES at their places (R50). -/
theorem rsresWord_eq {s : State} (h : s.rs.Ok) : s.rsresWord = BitVec.ofNat 32 (s.rs.reason.toNat
    + 2 ^ 8 * s.rs.detected + 2 ^ 16 * s.rs.maxcorr + 2 ^ 24 * s.rs.corrected) := by
  apply word_eq_ofNat
  simp only [State.rsresWord, toNat_append_add, BitVec.toNat_ofNat, Nat.mod_eq_of_lt s.rs.reason.toNat_lt,
    Nat.mod_eq_of_lt (Nat.lt_succ_of_le h.detected), Nat.mod_eq_of_lt (Nat.lt_succ_of_le h.maxcorr),
    Nat.mod_eq_of_lt (Nat.lt_succ_of_le h.corrected)]
  omega

/-- The fields of RSPAR at their places (R51). -/
theorem rsparWord_eq {s : State} (h : s.rs.Ok) : s.rsparWord = BitVec.ofNat 32 (s.rs.nmsg
    + 2 ^ 8 * s.rs.nsyn + 2 ^ 16 * s.rs.ldeg + 2 ^ 24 * s.rs.npos) := by
  apply word_eq_ofNat
  simp only [State.rsparWord, toNat_append_add, BitVec.toNat_ofNat, Nat.mod_eq_of_lt (Nat.lt_succ_of_le h.nmsg),
    Nat.mod_eq_of_lt (Nat.lt_succ_of_le h.nsyn), Nat.mod_eq_of_lt (Nat.lt_succ_of_le h.ldeg),
    Nat.mod_eq_of_lt (Nat.lt_succ_of_le h.npos)]
  omega

/-- The fields of AGG at their places (R53). -/
theorem aggWord_eq {s : State} (h : s.rs.Ok) :
    s.aggWord = BitVec.ofNat 32 (s.rs.aggn + 2 ^ 16 * s.rs.aggv) := by
  apply word_eq_ofNat
  simp only [State.aggWord, toNat_append_add, BitVec.toNat_ofNat, Nat.mod_eq_of_lt (Nat.lt_succ_of_le h.aggn),
    Nat.mod_eq_of_lt (Nat.lt_succ_of_le h.aggv)]
  omega

theorem aggflagWord_eq (s : State) : s.aggflagWord = BitVec.ofNat 32 s.rs.allok.toNat := by
  apply word_eq_ofNat
  simp only [State.aggflagWord, toNat_append_add, BitVec.toNat_ofNat, BitVec.toNat_ofBool]
  omega

/-! ## Where the registers are -/

theorem busTarget_x (r : XReg) : busTarget (BitVec.ofNat 17 (0x00040 + 4 * r.val)) 4 = .ok (.x r) := by
  revert r
  decide

theorem busTarget_len (b : BReg) : busTarget (BitVec.ofNat 17 (0x00060 + 4 * b.val)) 4 = .ok (.len b) := by
  revert b
  decide

/-- The address holds a register that reads as the number (R82). -/
def State.ReadsAs (s : State) (a v : Nat) : Prop :=
  ∃ t, busTarget (BitVec.ofNat 17 a) 4 = .ok t ∧ s.readTarget t = .ok (BitVec.ofNat 32 v)

theorem ofNat_toNat_word (w : Word) : BitVec.ofNat 32 w.toNat = w := by simp

/-- Every register of the map reads as its fields at their places. -/
theorem registerValues_readsAs {s : State} (h : s.DataOk) : ∀ av ∈ s.registerValues, s.ReadsAs av.1 av.2 := by
  have word (w : Word) : Except.ok (ε := Fault) w = .ok (BitVec.ofNat 32 w.toNat) := by rw [ofNat_toNat_word]
  simp only [State.registerValues, List.forall_mem_append, List.forall_mem_map, List.forall_mem_cons]
  refine ⟨⟨⟨⟨⟨.id, by decide, rfl⟩, ⟨.cmd, by decide, rfl⟩, ⟨.status, by decide, congrArg _ (statusWord_eq s)⟩,
      ⟨.irqen, by decide, congrArg _ (irqenWord_eq s)⟩, ⟨.errcmd, by decide, word _⟩, ⟨.errdata, by decide, word _⟩,
      ⟨.cmdcnt, by decide, word _⟩, ⟨.ver, by decide, rfl⟩, ⟨.capb, by decide, rfl⟩, ⟨.blen, by decide, rfl⟩,
      ⟨.rpos, by decide, rfl⟩, ⟨.zzcnt, by decide, rfl⟩, ⟨.segres, by decide, congrArg _ (segresWord_eq h.bs)⟩,
      ⟨.segexp, by decide, rfl⟩, ⟨.segavl, by decide, rfl⟩, ⟨.bsstat, by decide, congrArg _ (bsstatWord_eq h.bs)⟩,
      nofun⟩,
    fun r _ => ⟨.x r, busTarget_x r, word _⟩⟩, fun b _ => ⟨.len b, busTarget_len b, rfl⟩⟩,
    ⟨.rsst, by decide, rfl⟩, ⟨.rsres, by decide, congrArg _ (rsresWord_eq h.rs)⟩,
    ⟨.rspar, by decide, congrArg _ (rsparWord_eq h.rs)⟩, ⟨.agg, by decide, congrArg _ (aggWord_eq h.rs)⟩,
    ⟨.aggflag, by decide, congrArg _ (aggflagWord_eq s)⟩, nofun⟩

/-! ## Bus accesses with the engine idle -/

theorem step_busRead_idle {s : State} {a : BitVec 17} {t : Target} {v : Word} (ha : s.atAction (.busRead a 4))
    (hr : s.ctl.running = none) (ht : busTarget a 4 = .ok t) (hv : s.readTarget t = .ok v) :
    step s = .next (s.advance.setRdata v) := by
  have hv : s.advance.readTarget t = .ok v := by cases t <;> exact hv
  rw [step_of_atAction ha, State.perform, State.hostRead, ht]
  simp only [State.advance_ctl, hr, hv]

theorem step_busWrite_idle {s : State} {a : BitVec 17} {t : Target} {v : Word} (ha : s.atAction (.busWrite a 4 v))
    (hr : s.ctl.running = none) (ht : busTarget a 4 = .ok t) (hcmd : t ≠ .cmd) :
    step s = .next (s.advance.writeTarget t v) := by
  rw [step_of_atAction ha, State.perform, State.hostWrite, ht]
  split
  · simp_all
  · simp_all
  · simp_all

/-- Settles O52: each register of the map is where `registerValues` has it, and its word is its fields. -/
theorem registerReadsReturnTheirFields : Obligations.RegisterReadsReturnTheirFields := by
  intro s a v hs hr hav ha
  obtain ⟨t, ht, hv⟩ := registerValues_readsAs hs.dataOk (a, v) hav
  exact step_busRead_idle ha hr ht hv

/-! ## Command writes with the engine idle -/

theorem step_issue_idle {s : State} {w : Word} (ha : s.atAction (issue w)) (hr : s.ctl.running = none)
    (hl : s.host.latencies.headD 0 = 0) :
    step s = runWord w (s.advance.takeLatency.accept w 0) := by
  have hbusy : s.advance.busy = false := by simp [State.busy, hr]
  have hn : s.advance.host.latencies.headD 0 = 0 := hl
  rw [step_of_atAction ha]
  show s.advance.writeCmd w = _
  rw [State.writeCmd, hbusy]
  simp only [hn, Bool.false_eq_true, if_false, if_true]

/-- Settles O4: with BUSY = 0 and latency 0 the CMD write runs its word at once, and the word decodes to `i`. -/
theorem stepRunsDecodedCommand : Obligations.StepRunsDecodedCommand := by
  intro s w i ha hr hl hd
  rw [step_issue_idle ha hr hl, runWord, hd]
  rfl

/-! ## Reset -/

/-- Settles O57: the values are the reset state's own, and no array of it lists a cell. -/
theorem resetValues : Obligations.ResetValues := by
  refine ⟨fun a v h => ?_, rfl, fun a k => ?_, fun s ha => ?_⟩
  · have hall : ∀ av ∈ State.reset.registerValues, av.2 =
        if av.1 = 0x00000 then 0x51520007 else if av.1 = 0x0001C then 1 else if av.1 = 0x00080 then 1 else 0 := by
      decide
    exact hall (a, v) h
  · cases a with
    | buf b =>
      have hb : ∀ b, State.reset.memB b = [] := by decide
      simp [State.unwritten, hb, Memory.read]
    | _ => rfl
  · rw [step_of_atAction ha]
    rfl

end Sys2Proof.Machine
end

section
/-! PROOFS. What a bus write sets with the engine idle (R30, R33, R38, R41 to R45, R88). -/

namespace Sys2Proof.Machine

/-! ## Registers with illegal values -/

theorem writeTarget_ver (s : State) (w : Word) : s.writeTarget .ver w =
    { s with ver := if 1 ≤ w.toNat ∧ w.toNat ≤ 40 then w.toNat else s.ver } := by
  rw [State.writeTarget, Config.verMin, Config.verMax]
  split <;> rfl

theorem writeTarget_capb (s : State) (w : Word) : s.writeTarget .capb w =
    { s with capb := if w.toNat ≤ 4096 then w.toNat else s.capb } := by
  rw [State.writeTarget, Config.capbMax]
  split <;> rfl

theorem writeTarget_blen (s : State) (w : Word) : s.writeTarget .blen w =
    { s with bs := { s.bs with blen := if w.toNat ≤ 32768 then w.toNat else s.bs.blen } } := by
  rw [State.writeTarget, Config.bitCap]
  split <;> rfl

theorem writeTarget_rpos (s : State) (w : Word) : s.writeTarget .rpos w =
    { s with bs := { s.bs with rpos := if w.toNat ≤ 32768 then w.toNat else s.bs.rpos } } := by
  rw [State.writeTarget, Config.bitCap]
  split <;> rfl

theorem writeTarget_len (s : State) (b : BReg) (w : Word) : s.writeTarget (.len b) w =
    { s with len := s.len.set b (if w.toNat ≤ 256 then w.toNat else s.lenB b) } := by
  rw [State.writeTarget, Config.bufCap]
  split
  · rfl
  · simp [State.lenB]

/-! ## Read-only words -/

/-- A word whose write is ignored (R88); CMD is not one, a write there runs a command. -/
def Target.readOnly : Target → Bool
  | .id | .errcmd | .errdata | .cmdcnt | .zzcnt | .segres | .segexp | .segavl | .bsstat => true
  | .rsst | .rsres | .rspar | .agg | .aggflag => true
  | .synWord _ | .lambdaWord _ | .posWord _ | .magWord _ | .zzWord _ => true
  | _ => false

theorem writeTarget_readOnly {t : Target} (h : t.readOnly = true) (s : State) (w : Word) :
    s.writeTarget t w = s ∧ t ≠ .cmd := by
  cases t with
  | cmd | status | irqen | ver | capb | blen | rpos | x | len | bufWord | bitsWord | roleWord | modWord => cases h
  | _ => exact ⟨rfl, nofun⟩

/-- The map at an aligned address (R82). -/
theorem busTarget_of_targetAt {a : Nat} {t : Target} (ha : a < 0x20000) (h4 : a % 4 = 0) (h : targetAt a = some t) :
    busTarget (BitVec.ofNat 17 a) 4 = .ok t := by
  have hn : (BitVec.ofNat 17 a).toNat = a := by
    rw [BitVec.toNat_ofNat]
    exact Nat.mod_eq_of_lt ha
  rw [busTarget, hn, if_neg (by omega), h]

theorem targetAt_syn {a : Nat} (h : 0x00500 ≤ a ∧ a < 0x00600) :
    targetAt a = some (.synWord (a % 0x100 / 4)) := by
  simp (disch := omega) only [targetAt, if_neg, if_pos]

theorem targetAt_lambda {a : Nat} (h : 0x00600 ≤ a ∧ a < 0x00700) :
    targetAt a = some (.lambdaWord (a % 0x100 / 4)) := by
  simp (disch := omega) only [targetAt, if_neg, if_pos]

theorem targetAt_pos {a : Nat} (h : 0x00700 ≤ a ∧ a < 0x00800) :
    targetAt a = some (.posWord (a % 0x100 / 4)) := by
  simp (disch := omega) only [targetAt, if_neg, if_pos]

theorem targetAt_mag {a : Nat} (h : 0x00800 ≤ a ∧ a < 0x00900) : targetAt a = some (.magWord (a % 0x100 / 4)) := by
  simp (disch := omega) only [targetAt, if_neg, if_pos]

theorem targetAt_zz {a : Nat} (h : 0x10000 ≤ a) : targetAt a = some (.zzWord ((a - 0x10000) / 4)) := by
  simp (disch := omega) only [targetAt, if_neg, if_pos]

/-- The windows of SYN, LAMBDA, POS, MAG and ZZ are read-only (R82, R88). -/
theorem targetAt_readOnly_window {a : Nat} (h : (0x00500 ≤ a ∧ a < 0x00900) ∨ (0x10000 ≤ a ∧ a < 0x20000)) :
    ∃ t, targetAt a = some t ∧ t.readOnly = true := by
  have hwindow : (0x00500 ≤ a ∧ a < 0x00600) ∨ (0x00600 ≤ a ∧ a < 0x00700) ∨ (0x00700 ≤ a ∧ a < 0x00800)
    ∨ (0x00800 ≤ a ∧ a < 0x00900) ∨ 0x10000 ≤ a := by omega
  rcases hwindow with h | h | h | h | h
  · exact ⟨_, targetAt_syn h, rfl⟩
  · exact ⟨_, targetAt_lambda h, rfl⟩
  · exact ⟨_, targetAt_pos h, rfl⟩
  · exact ⟨_, targetAt_mag h, rfl⟩
  · exact ⟨_, targetAt_zz h, rfl⟩

theorem step_busWrite_readOnly {s : State} {a : BitVec 17} {t : Target} {v : Word}
    (ha : s.atAction (.busWrite a 4 v)) (hr : s.ctl.running = none) (ht : busTarget a 4 = .ok t)
    (hro : t.readOnly = true) : step s = .next s.advance := by
  obtain ⟨hw, hcmd⟩ := writeTarget_readOnly hro s.advance v
  rw [step_busWrite_idle ha hr ht hcmd, hw]

/-- Settles O53: a write reaches the register of its address, which takes it as its equation says. -/
theorem registerWritesAreLegalized : Obligations.RegisterWritesAreLegalized := by
  intro s a v hr ha s' n
  have write {t : Target} (ht : busTarget (BitVec.ofNat 17 a) 4 = .ok t) (hcmd : t ≠ .cmd) :=
    step_busWrite_idle ha hr ht hcmd
  refine ⟨?_, ?_, ?_, ?_, ?_, fun r hra => ?_, fun b hba => ?_, fun hmem => ?_, fun hwin h4 => ?_⟩
  · rintro rfl
    exact write (t := .irqen) (by decide) (by decide)
  · rintro rfl
    rw [write (t := .ver) (by decide) (by decide), writeTarget_ver]
    rfl
  · rintro rfl
    rw [write (t := .capb) (by decide) (by decide), writeTarget_capb]
    rfl
  · rintro rfl
    rw [write (t := .blen) (by decide) (by decide), writeTarget_blen]
    rfl
  · rintro rfl
    rw [write (t := .rpos) (by decide) (by decide), writeTarget_rpos]
    rfl
  · subst hra
    exact write (busTarget_x r) nofun
  · subst hba
    rw [write (busTarget_len b) nofun, writeTarget_len]
    rfl
  · have hall : ∀ a ∈ [0x00000, 0x00010, 0x00014, 0x00018, 0x0002C, 0x00030, 0x00034, 0x00038, 0x0003C, 0x00070,
        0x00074, 0x00078, 0x0007C, 0x00080], a < 0x20000 ∧ a % 4 = 0 ∧ ((targetAt a).any Target.readOnly) = true := by
      decide
    obtain ⟨hlt, h4, hro⟩ := hall a hmem
    obtain ⟨t, ht, hro⟩ := (Option.any_eq_true _ _).1 hro
    exact step_busWrite_readOnly ha hr (busTarget_of_targetAt hlt h4 ht) hro
  · obtain ⟨t, ht, hro⟩ := targetAt_readOnly_window hwin
    exact step_busWrite_readOnly ha hr (busTarget_of_targetAt (by omega) h4 ht) hro

end Sys2Proof.Machine
end

section
/-! PROOFS. Decoding takes the word of a well-formed command back to the command (R124, R131). -/

namespace Sys2Proof

/-! ## Words field by field -/

/-- The bits of the fields `f` and of the fields `g`. -/
def Fields.or (f g : Fields) : Fields where
  op := f.op ||| g.op
  rd := f.rd ||| g.rd
  rs1 := f.rs1 ||| g.rs1
  rs2 := f.rs2 ||| g.rs2
  bd := f.bd ||| g.bd
  ba := f.ba ||| g.ba
  bb := f.bb ||| g.bb
  imm := f.imm ||| g.imm

/-- The bits of the fields `f` that `g` lacks. -/
def Fields.outside (f g : Fields) : Fields where
  op := f.op &&& ~~~g.op
  rd := f.rd &&& ~~~g.rd
  rs1 := f.rs1 &&& ~~~g.rs1
  rs2 := f.rs2 &&& ~~~g.rs2
  bd := f.bd &&& ~~~g.bd
  ba := f.ba &&& ~~~g.ba
  bb := f.bb &&& ~~~g.bb
  imm := f.imm &&& ~~~g.imm

def Fields.zero : Fields := ⟨0, 0, 0, 0, 0, 0, 0, 0⟩

theorem fieldsOf_or (w v : Word) : fieldsOf (w ||| v) = (fieldsOf w).or (fieldsOf v) := by
  simp only [fieldsOf, Fields.or, BitVec.extractLsb'_or]

theorem extractLsb'_and_not (w v : Word) (start len : Nat) (h : start + len ≤ 32) :
    (w &&& ~~~v).extractLsb' start len = w.extractLsb' start len &&& ~~~v.extractLsb' start len := by
  apply BitVec.eq_of_getLsbD_eq
  intro i hi
  simp only [BitVec.getLsbD_extractLsb', BitVec.getLsbD_and, BitVec.getLsbD_not, hi, decide_true, Bool.true_and,
    decide_eq_true (show start + i < 32 by omega)]

theorem fieldsOf_and_not (w v : Word) : fieldsOf (w &&& ~~~v) = (fieldsOf w).outside (fieldsOf v) := by
  simp only [fieldsOf, Fields.outside]
  congr 1 <;> exact extractLsb'_and_not _ _ _ _ (by decide)

/-- Each mask of R121 is its own field. -/
theorem fieldsOf_masks : fieldsOf maskOP = { Fields.zero with op := .allOnes 8 }
    ∧ fieldsOf maskRD = { Fields.zero with rd := .allOnes 3 }
    ∧ fieldsOf maskRS1 = { Fields.zero with rs1 := .allOnes 3 }
    ∧ fieldsOf maskRS2 = { Fields.zero with rs2 := .allOnes 3 }
    ∧ fieldsOf maskBD = { Fields.zero with bd := .allOnes 2 }
    ∧ fieldsOf maskBA = { Fields.zero with ba := .allOnes 2 }
    ∧ fieldsOf maskBB = { Fields.zero with bb := .allOnes 2 }
    ∧ fieldsOf maskIMM9 = { Fields.zero with imm := .allOnes 9 } := by
  decide

/-- A command has no field outside its opcode and the fields it uses (R127, R131). -/
theorem fields_outside_fieldMask (i : Instr) : i.fields.outside (fieldsOf (maskOP ||| i.fieldMask)) = .zero := by
  obtain ⟨hop, hrd, hrs1, hrs2, hbd, hba, hbb, himm⟩ := fieldsOf_masks
  cases i <;> simp only [Instr.fieldMask, Instr.fields, Fields.outside, Fields.or, Fields.zero, fieldsOf_or, hop, hrd,
    hrs1, hrs2, hbd, hba, hbb, himm, BitVec.not_allOnes, BitVec.or_zero, BitVec.zero_or, BitVec.and_zero,
    BitVec.zero_and, BitVec.ofNat_eq_ofNat]

theorem encode_unused (i : Instr) : encode i &&& ~~~(maskOP ||| i.fieldMask) = 0 := by
  rw [encode, ← wordOf_fieldsOf (wordOf i.fields &&& _), fieldsOf_and_not, fieldsOf_wordOf, fields_outside_fieldMask]
  decide

/-! ## Decoding a command's word -/

theorem assemble_fields (i : Instr) : Laws.AssembleFields.Statement i := by
  cases i with
  | nop => exact Laws.AssembleFields.nop
  | ldi rd imm => exact Laws.AssembleFields.ldi rd imm
  | mov rd rs1 => exact Laws.AssembleFields.mov rd rs1
  | xor rd rs1 rs2 => exact Laws.AssembleFields.xor rd rs1 rs2
  | setlen bd imm => exact Laws.AssembleFields.setlen bd imm
  | bget rd ba rs1 => exact Laws.AssembleFields.bget rd ba rs1
  | bput bd rs1 rs2 => exact Laws.AssembleFields.bput bd rs1 rs2
  | bcopy bd ba => exact Laws.AssembleFields.bcopy bd ba
  | bcat bd ba bb => exact Laws.AssembleFields.bcat bd ba bb
  | aggclr => exact Laws.AssembleFields.aggclr
  | gadd rd rs1 rs2 => exact Laws.AssembleFields.gadd rd rs1 rs2
  | gmul rd rs1 rs2 => exact Laws.AssembleFields.gmul rd rs1 rs2
  | gdiv rd rs1 rs2 => exact Laws.AssembleFields.gdiv rd rs1 rs2
  | ginv rd rs1 => exact Laws.AssembleFields.ginv rd rs1
  | gexp rd rs1 => exact Laws.AssembleFields.gexp rd rs1
  | glog rd rs1 => exact Laws.AssembleFields.glog rd rs1
  | peval rd ba rs1 => exact Laws.AssembleFields.peval rd ba rs1
  | pmul bd ba bb => exact Laws.AssembleFields.pmul bd ba bb
  | rsgen bd imm => exact Laws.AssembleFields.rsgen bd imm
  | rsenc bd ba imm => exact Laws.AssembleFields.rsenc bd ba imm
  | rssyn ba imm => exact Laws.AssembleFields.rssyn ba imm
  | rsbm => exact Laws.AssembleFields.rsbm
  | rschien => exact Laws.AssembleFields.rschien
  | rsforney => exact Laws.AssembleFields.rsforney
  | rsapply ba => exact Laws.AssembleFields.rsapply ba
  | rsdec ba imm => exact Laws.AssembleFields.rsdec ba imm
  | bchfe rd rs1 => exact Laws.AssembleFields.bchfe rd rs1
  | bchfd rd rs1 => exact Laws.AssembleFields.bchfd rd rs1
  | bchve rd rs1 => exact Laws.AssembleFields.bchve rd rs1
  | bchvd rd rs1 => exact Laws.AssembleFields.bchvd rd rs1
  | fmtsel rd rs1 rs2 => exact Laws.AssembleFields.fmtsel rd rs1 rs2
  | versel rd rs1 rs2 => exact Laws.AssembleFields.versel rd rs1 rs2
  | bsclr => exact Laws.AssembleFields.bsclr
  | bsput rs1 imm => exact Laws.AssembleFields.bsput rs1 imm
  | bsget rd imm => exact Laws.AssembleFields.bsget rd imm
  | bsload ba => exact Laws.AssembleFields.bsload ba
  | bsstore bd rs1 imm => exact Laws.AssembleFields.bsstore bd rs1 imm
  | segenc ba imm => exact Laws.AssembleFields.segenc ba imm
  | bsterm => exact Laws.AssembleFields.bsterm
  | bspad => exact Laws.AssembleFields.bspad
  | segdec rd bd => exact Laws.AssembleFields.segdec rd bd
  | bspadchk rd => exact Laws.AssembleFields.bspadchk rd
  | zzgen => exact Laws.AssembleFields.zzgen
  | zzplace => exact Laws.AssembleFields.zzplace
  | zzread => exact Laws.AssembleFields.zzread

/-- Decoding takes a command's word back to the command (R124, R131). -/
theorem decode_encode {i : Instr} (h : i.wellFormed = true) : decode (encode i) = .ok i := by
  have hi : assemble (fieldsOf (encode i)) = some i := by
    rw [encode, fieldsOf_wordOf]
    exact assemble_fields i h
  simp only [decode, hi, encode_unused, ne_eq, not_true_eq_false, if_false]

end Sys2Proof
end

section
/-! PROOFS. What a running command uses, target by target: the parts the model computes are the words the
obligation lists (R475, U2). -/

namespace Sys2Proof.Machine

theorem mem_when {p : Prop} [Decidable p] {q q' : Part} : q' ∈ q.when p ↔ p ∧ q' = q := by
  unfold Part.when
  split <;> simp [*]

theorem modeOf_eq_none_or (imm : Nat) : (modeOf imm = none ∧ ∀ m, imm ≠ modeIndicator m)
    ∨ ∃ m, modeOf imm = some m ∧ imm = modeIndicator m := by
  by_cases h1 : imm = 1
  · exact .inr ⟨.numeric, by simp [modeOf, h1], h1⟩
  · by_cases h2 : imm = 2
    · exact .inr ⟨.alnum, by simp [modeOf, h2], h2⟩
    · by_cases h4 : imm = 4
      · exact .inr ⟨.byte, by simp [modeOf, h4], h4⟩
      · exact .inl ⟨by simp [modeOf, h1, h2, h4], fun m => by cases m <;> assumption⟩

theorem modeIndicator_inj {m m' : Mode} : modeIndicator m = modeIndicator m' ↔ m = m' := by
  cases m <;> cases m' <;> decide

/-- The parts of SEGENC: its buffer, BLEN, and with a supported mode VER and the bits of the segment. -/
theorem mem_partsOf_segenc {ba : BReg} {imm : Nat} {s : State} {p : Part} : p ∈ partsOf (.segenc ba imm) s ↔
    p = .len ba ∨ p = .bytes ba 0 (s.lenB ba) ∨ p = .blen ∨ ∃ m, imm = modeIndicator m
      ∧ (p = .ver ∨ p = .bits s.bs.blen (segmentBits m s.ver (s.lenB ba))) := by
  obtain ⟨hm, hne⟩ | ⟨m, hm, rfl⟩ := modeOf_eq_none_or imm
  · simp [partsOf, hm, hne]
  · simp only [partsOf, hm, List.mem_cons, List.not_mem_nil, or_false, modeIndicator_inj, exists_eq_left']
    tauto

theorem mem_partsOf_bget {rd : XReg} {ba : BReg} {rs1 : XReg} {s : State} {p : Part} :
    p ∈ partsOf (.bget rd ba rs1) s ↔ p = .x rd ∨ p = .x rs1 ∨ p = .len ba
      ∨ s.natX rs1 < s.lenB ba ∧ p = .bytes ba (s.natX rs1) 1 := by
  simp [partsOf, mem_when]

theorem mem_partsOf_bsget {rd : XReg} {imm : Nat} {s : State} {p : Part} :
    p ∈ partsOf (.bsget rd imm) s ↔ p = .x rd ∨ p = .rpos ∨ (1 ≤ imm ∧ imm ≤ 32) ∧ p = .blen
      ∨ (1 ≤ imm ∧ imm ≤ 32 ∧ imm ≤ s.avail s.bs.rpos) ∧ p = .bits s.bs.rpos imm := by
  simp [partsOf, mem_when]

theorem mem_partsOf_bsstore {bd : BReg} {rs1 : XReg} {imm : Nat} {s : State} {p : Part} :
    p ∈ partsOf (.bsstore bd rs1 imm) s ↔ p = .x rs1 ∨ p = .len bd ∨ p = .bytes bd 0 imm ∨ imm ≤ 256 ∧ p = .blen
      ∨ (imm ≤ 256 ∧ 8 * (s.natX rs1 + imm) ≤ s.bs.blen) ∧ p = .bits (8 * s.natX rs1) (8 * imm) := by
  simp only [partsOf, mem_when, List.mem_append, List.mem_cons, List.not_mem_nil, or_false, or_assoc]
  rfl

theorem mem_parts_x {i : Instr} {s : State} {r : XReg} : .x r ∈ partsOf i s ↔ r ∈ operandX i := by
  cases i with
  | segenc => simp [mem_partsOf_segenc, operandX]
  | _ => simp [partsOf, operandX, mem_when]

theorem mem_parts_len {i : Instr} {s : State} {b : BReg} : .len b ∈ partsOf i s ↔ b ∈ operandB i := by
  cases i with
  | segenc => simp [mem_partsOf_segenc, operandB]
  | _ => simp [partsOf, operandB, mem_when]

theorem mem_parts_ver {i : Instr} {s : State} : .ver ∈ partsOf i s ↔ usesWord i s .ver := by
  cases i with
  | segenc => simp [mem_partsOf_segenc, usesWord]
  | _ => simp [partsOf, usesWord, mem_when]

theorem mem_parts_capb {i : Instr} {s : State} : .capb ∈ partsOf i s ↔ usesWord i s .capb := by
  cases i with
  | segenc => simp [mem_partsOf_segenc, usesWord]
  | _ => simp [partsOf, usesWord, mem_when]

theorem mem_parts_blen {i : Instr} {s : State} : .blen ∈ partsOf i s ↔ usesWord i s .blen := by
  cases i with
  | segenc => simp [mem_partsOf_segenc, usesWord]
  | bsstore => simp [mem_partsOf_bsstore, usesWord]
  | _ => simp [partsOf, usesWord, mem_when]

theorem mem_parts_rpos {i : Instr} {s : State} : .rpos ∈ partsOf i s ↔ usesWord i s .rpos := by
  cases i with
  | segenc => simp [mem_partsOf_segenc, usesWord]
  | _ => simp [partsOf, usesWord, mem_when]

/-- Byte k of buffer b is in the part. -/
def Part.hasByte (p : Part) (b : BReg) (k : Nat) : Prop := ∃ lo n, .bytes b lo n = p ∧ lo ≤ k ∧ k < lo + n

/-- Stream bit k is in the part. -/
def Part.hasBit (p : Part) (k : Nat) : Prop := ∃ lo n, .bits lo n = p ∧ lo ≤ k ∧ k < lo + n

/-- The bytes of the parts are the bytes the command uses. -/
theorem hasByte_parts {i : Instr} {s : State} {b : BReg} {k : Nat} :
    (∃ p ∈ partsOf i s, p.hasByte b k) ↔ usesByte i s b k := by
  cases i with
  | segenc => simp [mem_partsOf_segenc, Part.hasByte, usesByte]
  | bget rd ba rs1 =>
    simp only [mem_partsOf_bget, State.natX, Part.hasByte, exists_eq_or_imp, reduceCtorEq, false_and,
      exists_const, ↓existsAndEq, Part.bytes.injEq, false_or, true_and, and_true, usesByte]
    grind
  | bput bd rs1 rs2 =>
    simp only [partsOf, State.natX, List.mem_cons, List.not_mem_nil, or_false, Part.hasByte, exists_eq_or_imp,
      reduceCtorEq, false_and, exists_const, ↓existsAndEq, Part.bytes.injEq, false_or, true_and, and_true, usesByte]
    grind
  | bcat bd ba bb | pmul bd ba bb =>
    simp only [partsOf, List.mem_cons, List.not_mem_nil, or_false, Part.hasByte, or_and_right, exists_or,
      ↓existsAndEq, reduceCtorEq, false_and, exists_const, and_false, Part.bytes.injEq, and_true, zero_add, true_and,
      false_or, usesByte]
    grind
  | bsstore => simp [mem_partsOf_bsstore, Part.hasByte, usesByte]
  | _ => simp [partsOf, Part.hasByte, usesByte, mem_when, or_and_right, exists_or]

/-- The bits of the parts are the bits the command uses. -/
theorem hasBit_parts {i : Instr} {s : State} {k : Nat} :
    (∃ p ∈ partsOf i s, p.hasBit k) ↔ usesBit i s k := by
  cases i with
  | segenc => simp [mem_partsOf_segenc, Part.hasBit, usesBit, segmentBits]
  | bsget =>
    simp only [mem_partsOf_bsget, State.avail, Part.hasBit, exists_eq_or_imp, reduceCtorEq, false_and,
      exists_const, ↓existsAndEq, and_false, Part.bits.injEq, false_or, true_and, and_true, usesBit]
    omega
  | bsstore => simp [mem_partsOf_bsstore, Part.hasBit, usesBit, State.natX, and_assoc]
  | bspad =>
    simp only [partsOf, State.capBits, List.mem_cons, List.not_mem_nil, or_false, Part.hasBit, exists_eq_or_imp,
      reduceCtorEq, false_and, exists_const, ↓existsAndEq, Part.bits.injEq, false_or, true_and, and_true,
      exists_eq_left, usesBit]
    omega
  | _ => simp [partsOf, Part.hasBit, usesBit, mem_when, State.capBits]

/-! ## Roles and modules -/

theorem mem_parts_roles {i : Instr} {s : State} {n : Nat} :
    .roles n ∈ partsOf i s ↔ i = .zzgen ∧ n = Config.size s.ver := by
  cases i with
  | segenc => simp [mem_partsOf_segenc]
  | _ => simp [partsOf, mem_when]

theorem mem_parts_modules {i : Instr} {s : State} {ws : List (Nat × Nat)} :
    .modules ws ∈ partsOf i s ↔ (i = .zzplace ∨ i = .zzread) ∧ ws = s.listedModWords := by
  cases i with
  | segenc => simp [mem_partsOf_segenc]
  | _ => simp [partsOf, mem_when]

/-- The listed words of MOD are the words of the first ZZCNT coordinates (R404, R405). -/
theorem mem_listedModWords {s : State} (h : s.zig.zz.wf) {row j : Nat} : (row, j) ∈ s.listedModWords ↔
    ∃ k e, k < s.zig.zzcnt ∧ s.zig.zz.read k = some e ∧ e.1.toNat = row ∧ e.2.toNat / 32 = j := by
  simp only [State.listedModWords, List.mem_map, List.mem_filter, decide_eq_true_eq, Prod.mk.injEq]
  constructor
  · rintro ⟨⟨k, e⟩, ⟨hmem, hk⟩, hrow, hj⟩
    exact ⟨k, e, hk, Memory.read_eq_some_of_mem h hmem, hrow, hj⟩
  · rintro ⟨k, e, hk, hread, hrow, hj⟩
    exact ⟨(k, e), ⟨Memory.read_mem hread, hk⟩, hrow, hj⟩

/-- A word of ROLE holds a cell of the matrix outside column 6 exactly when its first cell is in the matrix. -/
theorem exists_column_iff {size row j : Nat} :
    (∃ c, c / 32 = j ∧ c ≠ 6 ∧ row < size ∧ c < size) ↔ row < size ∧ 32 * j < size := by
  constructor
  · rintro ⟨c, rfl, -, hr, hc⟩
    exact ⟨hr, by omega⟩
  · rintro ⟨hr, hj⟩
    exact ⟨32 * j, by omega, by omega, hr, hj⟩

/-! ## When a part is in a word -/

theorem isIn_bufWord {p : Part} {b : BReg} {q : Nat} :
    p.isIn (.bufWord b q) = true ↔ ∃ k, 4 * q ≤ k ∧ k < 4 * q + 4 ∧ p.hasByte b k := by
  cases p with
  | bytes b' lo n =>
    simp only [Part.isIn, Part.hasByte, Bool.and_eq_true, beq_iff_eq, runsMeet_iff, Part.bytes.injEq]
    constructor
    · rintro ⟨rfl, k, hp, h1, h2⟩
      exact ⟨k, h1, h2, lo, n, ⟨rfl, rfl, rfl⟩, hp⟩
    · rintro ⟨k, h1, h2, _, _, ⟨rfl, rfl, rfl⟩, hp⟩
      exact ⟨rfl, k, hp, h1, h2⟩
  | _ => simp [Part.isIn, Part.hasByte]

theorem isIn_bitsWord {p : Part} {q : Nat} :
    p.isIn (.bitsWord q) = true ↔ ∃ k, 32 * q ≤ k ∧ k < 32 * q + 32 ∧ p.hasBit k := by
  cases p with
  | bits lo n =>
    simp only [Part.isIn, Part.hasBit, runsMeet_iff, Part.bits.injEq]
    constructor
    · rintro ⟨k, hp, h1, h2⟩
      exact ⟨k, h1, h2, lo, n, ⟨rfl, rfl⟩, hp⟩
    · rintro ⟨k, h1, h2, _, _, ⟨rfl, rfl⟩, hp⟩
      exact ⟨k, hp, h1, h2⟩
  | _ => simp [Part.isIn, Part.hasBit]

theorem isIn_roleWord {p : Part} {row j : Nat} :
    p.isIn (.roleWord row j) = true ↔ ∃ n, p = .roles n ∧ row < n ∧ 32 * j < n := by
  cases p <;> simp [Part.isIn]

theorem isIn_modWord {p : Part} {row j : Nat} :
    p.isIn (.modWord row j) = true ↔ ∃ ws, p = .modules ws ∧ (row, j) ∈ ws := by
  cases p <;> simp [Part.isIn]

/-- The register a part is, where it is one. -/
def Part.register : Part → Option Target
  | .x r => some (.x r)
  | .len b => some (.len b)
  | .ver => some .ver
  | .capb => some .capb
  | .blen => some .blen
  | .rpos => some .rpos
  | .bytes _ _ _ | .bits _ _ | .roles _ | .modules _ => none

theorem isIn_of_register {p q : Part} {t : Target} (h : q.register = some t) : p.isIn t = true ↔ p = q := by
  cases q with
  | x | len | ver | capb | blen | rpos =>
    cases h
    cases p <;> simp [Part.isIn]
  | bytes | bits | roles | modules => cases h

theorem exists_isIn_register {l : List Part} {q : Part} {t : Target} (h : q.register = some t) :
    (∃ p ∈ l, p.isIn t = true) ↔ q ∈ l := by
  simp only [isIn_of_register h, exists_eq_right]

/-- Some part is in a word exactly when the command uses the word. -/
theorem exists_isIn_iff {i : Instr} {s : State} {t : Target} (ht : t ≠ .status)
    (hzz : (∃ row j, t = .modWord row j) → s.zig.zz.wf) :
    (∃ p ∈ partsOf i s, p.isIn t = true) ↔ usesWord i s t := by
  cases t with
  | status => exact absurd rfl ht
  | x r => exact (exists_isIn_register rfl).trans mem_parts_x
  | len b => exact (exists_isIn_register rfl).trans mem_parts_len
  | ver => exact (exists_isIn_register rfl).trans mem_parts_ver
  | capb => exact (exists_isIn_register rfl).trans mem_parts_capb
  | blen => exact (exists_isIn_register rfl).trans mem_parts_blen
  | rpos => exact (exists_isIn_register rfl).trans mem_parts_rpos
  | bufWord b q =>
    simp only [isIn_bufWord, usesWord, ← hasByte_parts]
    exact ⟨fun ⟨p, hp, k, h1, h2, hk⟩ => ⟨k, h1, h2, p, hp, hk⟩,
      fun ⟨k, h1, h2, p, hp, hk⟩ => ⟨p, hp, k, h1, h2, hk⟩⟩
  | bitsWord q =>
    simp only [isIn_bitsWord, usesWord, ← hasBit_parts]
    exact ⟨fun ⟨p, hp, k, h1, h2, hk⟩ => ⟨k, h1, h2, p, hp, hk⟩,
      fun ⟨k, h1, h2, p, hp, hk⟩ => ⟨p, hp, k, h1, h2, hk⟩⟩
  | roleWord row j =>
    have hparts : (∃ p ∈ partsOf i s, p.isIn (.roleWord row j) = true)
        ↔ i = .zzgen ∧ row < Config.size s.ver ∧ 32 * j < Config.size s.ver := by
      simp only [isIn_roleWord]
      constructor
      · rintro ⟨_, hp, n, rfl, hn⟩
        obtain ⟨hi, rfl⟩ := mem_parts_roles.1 hp
        exact ⟨hi, hn⟩
      · rintro ⟨hi, hn⟩
        exact ⟨_, mem_parts_roles.2 ⟨hi, rfl⟩, _, rfl, hn⟩
    exact hparts.trans (and_congr_right fun _ => exists_column_iff.symm)
  | modWord row j =>
    simp only [isIn_modWord, usesWord, ← mem_listedModWords (hzz ⟨row, j, rfl⟩)]
    constructor
    · rintro ⟨_, hp, ws, rfl, hmem⟩
      obtain ⟨hi, rfl⟩ := mem_parts_modules.1 hp
      exact ⟨hi, hmem⟩
    · rintro ⟨hi, hmem⟩
      exact ⟨_, mem_parts_modules.2 ⟨hi, rfl⟩, _, rfl, hmem⟩
  | _ => simp [usesWord, Part.isIn]

/-- What the model refuses is what the obligation calls used: the parts of the running command, word by word. -/
theorem inUse_iff_usesWord {i : Instr} {s : State} {t : Target} (hi : i.wellFormed = true)
    (hzz : (∃ row j, t = .modWord row j) → s.zig.zz.wf) : s.inUse (encode i) t = true ↔ usesWord i s t := by
  by_cases ht : t = .status
  · subst ht
    simp [State.inUse, usesWord]
  · rw [← exists_isIn_iff ht hzz]
    simp [State.inUse, decode_encode hi, ht]

end Sys2Proof.Machine
end

section
/-! PROOFS. Bus accesses while a command runs (R475, U2). -/

namespace Sys2Proof.Machine

theorem readTarget_advance (s : State) (t : Target) : s.advance.readTarget t = s.readTarget t := by
  cases t <;> rfl

/-- With two or more actions left the engine only counts down (log entry 2). -/
theorem tick_of_two_le {s : State} {w : Word} {n : Nat} (hr : s.ctl.running = some ⟨w, n⟩) (hn : 2 ≤ n) :
    tick s = .next { s with ctl := { s.ctl with running := some ⟨w, n - 1⟩ } } := by
  have hl : ¬ n ≤ 1 := by omega
  simp only [tick, hr, if_neg hl]

theorem runWord_encode {i : Instr} (hi : i.wellFormed = true) (s : State) : runWord (encode i) s = exec i s := by
  rw [runWord, decode_encode hi]

/-- A busy read returns the word before the command, or, of a word other than STATUS, the word after it (R475). -/
theorem busyRead_eq_ok {s : State} {w v : Word} {t : Target} (h : s.busyRead w t = .ok v) :
    s.readTarget t = .ok v ∨ ∃ u, runWord w s = .next u ∧ t ≠ .status ∧ u.readTarget t = .ok v := by
  unfold State.busyRead at h
  split at h
  · exact .inl h
  · rename_i hst
    split at h
    · split at h
      · exact .inr ⟨_, ‹_›, hst, h⟩
      · exact .inl h
    · exact .inl h
    · exact .inl h

theorem step_busWrite_used {s : State} {a : BitVec 17} {t : Target} {v : Word} {r : Running}
    (ha : s.atAction (.busWrite a 4 v)) (hr : s.ctl.running = some r) (ht : busTarget a 4 = .ok t) (hcmd : t ≠ .cmd)
    (hu : s.inUse r.word t = true) : step s = .refused (.writeToStateInUse a) := by
  rw [step_of_atAction ha, State.perform, State.hostWrite, ht]
  cases t with
  | cmd => exact absurd rfl hcmd
  | _ => simp only [State.advance_ctl, hr, inUse_advance, hu, if_true]

theorem step_busWrite_unused {s : State} {a : BitVec 17} {t : Target} {v : Word} {r : Running}
    (ha : s.atAction (.busWrite a 4 v)) (hr : s.ctl.running = some r) (ht : busTarget a 4 = .ok t) (hcmd : t ≠ .cmd)
    (hu : s.inUse r.word t = false) : step s = tick (s.advance.writeTarget t v) := by
  rw [step_of_atAction ha, State.perform, State.hostWrite, ht]
  cases t with
  | cmd => exact absurd rfl hcmd
  | _ => simp only [State.advance_ctl, hr, inUse_advance, hu, Bool.false_eq_true, if_false]

/-- Settles O56: the parts the model refuses writes to are the words the obligation calls used, and a busy read is
the free choice between the words before and after. -/
theorem busyAccessesRespectTheHazard : Obligations.BusyAccessesRespectTheHazard := by
  intro s i n a tgt hn hr hi ht
  have hunused {v : Word} (hcmd : tgt ≠ .cmd) (ha : s.atAction (.busWrite a 4 v))
      (hu : s.inUse (encode i) tgt = false) : step s = .next { s.advance.writeTarget tgt v with
        ctl := { (s.advance.writeTarget tgt v).ctl with running := some ⟨encode i, n - 1⟩ } } := by
    rw [step_busWrite_unused ha hr ht hcmd hu]
    exact tick_of_two_le ((writeTarget_running _ _ _).trans hr) hn
  refine ⟨fun t ha h => ?_, fun v hcmd hzz ha => ⟨fun hu => ?_, fun hu => ?_⟩, ?_⟩
  · rw [step_of_atAction ha] at h
    obtain ⟨tgt', ht', ⟨hidle, -⟩ | ⟨r, v, hr', hv, htick⟩⟩ := hostRead_eq_next h
    · exact absurd (hr.symm.trans hidle) nofun
    · cases ht.symm.trans ht'
      cases hr.symm.trans hr'
      rw [tick_of_two_le (s := (s.advance.setRdata v).takeChoice) hr hn] at htick
      cases htick
      rw [← readTarget_advance]
      exact (busyRead_eq_ok hv).imp_right fun ⟨u, hu, h⟩ => ⟨u, runWord_encode hi _ ▸ hu, h⟩
  · exact step_busWrite_used ha hr ht hcmd ((inUse_iff_usesWord hi hzz).2 hu)
  · exact hunused hcmd ha (by simpa using mt (inUse_iff_usesWord hi hzz).1 hu)
  · rintro v rfl ha
    have hu : s.inUse (encode i) .irqen = false := by
      simpa [usesWord] using (inUse_iff_usesWord (s := s) (t := .irqen) hi nofun).not
    exact hunused nofun ha hu

end Sys2Proof.Machine
end

section
/-! PROOFS. What each host action does while a command runs (R130, R430, R478): it counts the command down, or
is the whole command. -/

namespace Sys2Proof.Machine

/-- A step that is the engine's turn in the state `t` counts the running command down in `t`, or runs it whole
(log entry 2). -/
theorem step_eq_of_tick {s t : State} {w : Word} {n : Nat} (h : step s = tick t)
    (hr : t.ctl.running = some ⟨w, n⟩) :
    (2 ≤ n → step s = .next { t with ctl := { t.ctl with running := some ⟨w, n - 1⟩ } })
    ∧ (n ≤ 1 → step s = runWord w t) := by
  rw [h]
  refine ⟨tick_of_two_le hr, fun hn => ?_⟩
  simp only [tick, hr, if_pos hn]

theorem step_at_end {s : State} (h : s.host.prog.length ≤ s.host.pc) : step s = tick s := by
  rw [step, List.getElem?_eq_none h]

theorem step_issue_delayed {s : State} {w : Word} {n : Nat} {rest : List Nat} (ha : s.atAction (issue w))
    (hr : s.ctl.running = none) (hl : s.host.latencies = (n + 1) :: rest) :
    step s = .next (s.advance.takeLatency.accept w (n + 1)) := by
  have hbusy : s.advance.busy = false := by simp [State.busy, hr]
  have hn : s.advance.host.latencies.headD 0 = n + 1 := congrArg (List.headD · 0) hl
  rw [step_of_atAction ha]
  show s.advance.writeCmd w = _
  rw [State.writeCmd, hbusy]
  simp only [hn, Bool.false_eq_true, if_false, Nat.add_one_ne_zero]

theorem step_wait_running {s : State} {w : Word} {n : Nat} (ha : s.atAction .wait)
    (hr : s.ctl.running = some ⟨w, n⟩) :
    step s = thenRun (runWord w s.advance) fun t => .next (t.setRdata t.statusWord) := by
  rw [step_of_atAction ha, State.perform, State.hostWait]
  simp only [State.advance_ctl, hr]
  cases runWord w s.advance <;> rfl

/-- A busy read answers when the word has a value before the command and, where the command ends, after it. -/
theorem exists_busyRead {s : State} {w : Word} {t : Target} (hold : ∃ x, s.readTarget t = .ok x)
    (hnew : ∀ u, runWord w s = .next u → ∃ x, u.readTarget t = .ok x) : ∃ x, s.busyRead w t = .ok x := by
  unfold State.busyRead
  split
  · exact hold
  · split
    · split
      · exact hnew _ ‹_›
      · exact hold
    · exact hold
    · exact hold

theorem step_busRead_running {s : State} {a : BitVec 17} {t : Target} {x : Word} {r : Running}
    (ha : s.atAction (.busRead a 4)) (hr : s.ctl.running = some r) (ht : busTarget a 4 = .ok t)
    (hx : s.advance.busyRead r.word t = .ok x) : step s = tick (s.advance.setRdata x).takeChoice := by
  rw [step_of_atAction ha, State.perform, State.hostRead, ht]
  simp only [State.advance_ctl, hr, hx]

/-- Settles O7: acceptance sets BUSY alone, and every action beside a running command is the engine's turn in the
state the action leaves, or for a WAIT the whole command. -/
theorem runningCommandCompletesAtOnce : Obligations.RunningCommandCompletesAtOnce := by
  constructor
  · intro s w n rest ha hr hl
    rw [step_issue_delayed ha hr hl]
    simp only [State.accept, State.takeLatency, State.advance, hl, List.tail_cons]
  · intro s w n hr counted goesOn
    refine ⟨fun hend => step_eq_of_tick (step_at_end hend) hr, fun ha => step_wait_running ha hr,
      fun a tgt ha ht hold hnew => ?_, fun a tgt v ha ht hcmd hu => ?_⟩
    · obtain ⟨x, hx⟩ := exists_busyRead (s := s.advance) (by rwa [readTarget_advance]) hnew
      exact ⟨x, step_eq_of_tick (step_busRead_running ha hr ht hx) hr⟩
    · exact step_eq_of_tick (step_busWrite_unused ha hr ht hcmd hu) ((writeTarget_running _ _ _).trans hr)

end Sys2Proof.Machine
end

section
/-! PROOFS. The only fault of a command or of a read is a cell nothing has written (R472, U1), and a command is
never refused. -/

namespace Sys2Proof.Machine

/-- A reading of the state `s` that fails does so at a cell of `s` that nothing has written. -/
def OnlyUnwritten (s : State) {α : Type} (r : Except Fault α) : Prop :=
  ∀ f, r = .error f → ∃ a k, s.unwritten a k ∧ f = .unwrittenRead a k

/-- Every cell written in `s` is written in `t`. -/
def State.StaysWritten (s t : State) : Prop := ∀ a k, t.unwritten a k → s.unwritten a k

namespace OnlyUnwritten

variable {α β : Type} {s : State} {r : Except Fault α}

theorem ok {v : α} : OnlyUnwritten s (.ok v) := nofun

/-- A check that raises, and the reading behind it. -/
theorem check {p : Prop} [Decidable p] {v : α} (h : OnlyUnwritten s r) :
    OnlyUnwritten s (if p then .ok v else r) := by
  split
  · exact ok
  · exact h

theorem map {f : α → β} (h : OnlyUnwritten s r) : OnlyUnwritten s (r.map f) :=
  fun e he => h e (map_eq_error.1 he)

theorem bind {f : α → Except Fault β} (h : OnlyUnwritten s r) (hf : ∀ v, OnlyUnwritten s (f v)) :
    OnlyUnwritten s (r.bind f) := by
  intro e he
  obtain he | ⟨v, -, he⟩ := bind_eq_error.1 he
  · exact h e he
  · exact hf v e he

theorem readCell {a : ArrayName} {m : Memory α} {k : Nat} (h : m.read k = none → s.unwritten a k) :
    OnlyUnwritten s (readCell a m k) := by
  intro e he
  obtain ⟨hk, rfl⟩ := readCell_eq_error.1 he
  exact ⟨a, k, h hk, rfl⟩

theorem readMany {read : Nat → Except Fault α} {k n : Nat} (h : ∀ k, OnlyUnwritten s (read k)) :
    OnlyUnwritten s (readMany read k n) := by
  intro e he
  obtain ⟨j, -, he, -⟩ := readMany_eq_error.1 he
  exact h _ e he

theorem readBlock {a : ArrayName} {m : Memory α} {k n : Nat} (h : ∀ k, m.read k = none → s.unwritten a k) :
    OnlyUnwritten s (readBlock a m k n) :=
  readMany fun k => readCell (h k)

/-- A window's cell: one past the array reads as a fixed value. -/
theorem cellWithin {a : ArrayName} {m : Memory α} {p : Prop} [Decidable p] {k : Nat} {v : α}
    (h : m.read k = none → s.unwritten a k) : OnlyUnwritten s (if p then Machine.readCell a m k else .ok v) := by
  split
  · exact readCell h
  · exact ok

theorem content (b : BReg) : OnlyUnwritten s (s.content b) := readBlock fun _ h => h

theorem contents (ba bb : BReg) : OnlyUnwritten s (s.contents ba bb) := bind (content ba) fun _ => map (content bb)

theorem peek (p n : Nat) : OnlyUnwritten s (s.peek p n) := map (readBlock fun _ h => h)

/-! ## The decoder -/

/-- One step after another: what the second reads and the first wrote is no unwritten cell. -/
theorem andThen {x : Except Fault State} {next : State → Except Fault State} (hx : OnlyUnwritten s x)
    (hkeeps : ∀ t, x = .ok t → s.StaysWritten t) (hnext : ∀ t, OnlyUnwritten t (next t)) :
    OnlyUnwritten s (x.bind next) := by
  intro e he
  obtain he | ⟨t, ht, he⟩ := bind_eq_error.1 he
  · exact hx e he
  · obtain ⟨a, k, hk, rfl⟩ := hnext t e he
    exact ⟨a, k, hkeeps t ht a k hk, rfl⟩

theorem unlessIn {stop : RsState} {next : State → Except Fault State} (h : OnlyUnwritten s (next s)) :
    OnlyUnwritten s (unlessIn stop next s) :=
  check h

theorem rsSyn (ba : BReg) (ec : Nat) : OnlyUnwritten s (s.rsSyn ba ec) := map (content ba)

theorem rsBm : OnlyUnwritten s s.rsBm := map (readBlock fun _ h => h)

theorem rsChien : OnlyUnwritten s s.rsChien := map (readBlock fun _ h => h)

theorem rsForney : OnlyUnwritten s s.rsForney :=
  map <| bind (readBlock (a := .syn) fun _ h => h) fun _ => bind (readBlock (a := .lambda) fun _ h => h) fun _ =>
    map (readBlock (a := .pos) fun _ h => h)

theorem rsApply (ba : BReg) : OnlyUnwritten s (s.rsApply ba) :=
  map <| bind (readBlock (a := .buf ba) fun _ h => h) fun _ => bind (readBlock (a := .pos) fun _ h => h) fun _ =>
    map (readBlock (a := .mag) fun _ h => h)

end OnlyUnwritten

theorem Memory.read_eq_none_of_writeBlock {α : Type} {m : Memory α} {k a : Nat} {vs : List α}
    (h : (m.writeBlock k vs).read a = none) : m.read a = none := by
  rw [Memory.read_writeBlock] at h
  split at h
  · have := List.getElem?_eq_none_iff.1 h
    omega
  · exact h

/-- Every cell of the unit's memories written in `u` is written in `v`. -/
structure RsUnit.StaysWritten (u v : RsUnit) : Prop where
  syn : ∀ k, v.syn.read k = none → u.syn.read k = none
  lambda : ∀ k, v.lambda.read k = none → u.lambda.read k = none
  pos : ∀ k, v.pos.read k = none → u.pos.read k = none
  mag : ∀ k, v.mag.read k = none → u.mag.read k = none

theorem RsUnit.StaysWritten.state {s : State} {u : RsUnit} (h : s.rs.StaysWritten u) :
    s.StaysWritten { s with rs := u } := by
  intro a k hk
  cases a with
  | syn => exact h.syn k hk
  | lambda => exact h.lambda k hk
  | pos => exact h.pos k hk
  | mag => exact h.mag k hk
  | _ => exact hk

theorem RsUnit.staysWritten_synStep (u : RsUnit) (n ec : Nat) (syn : List Byte) :
    u.StaysWritten (u.synStep n ec syn) := by
  unfold RsUnit.synStep
  dsimp only
  split <;> exact ⟨fun _ => Memory.read_eq_none_of_writeBlock, fun _ h => h, fun _ h => h, fun _ h => h⟩

theorem RsUnit.staysWritten_chienStep (u : RsUnit) (p : List Nat) : u.StaysWritten (u.chienStep p) := by
  unfold RsUnit.chienStep
  dsimp only
  split <;> exact ⟨fun _ h => h, fun _ h => h, fun _ => Memory.read_eq_none_of_writeBlock, fun _ h => h⟩

theorem RsUnit.staysWritten_forneyStep (u : RsUnit) (ms : List Byte × Bool) :
    u.StaysWritten (u.forneyStep ms) := by
  unfold RsUnit.forneyStep
  dsimp only
  split <;> exact ⟨fun _ h => h, fun _ h => h, fun _ h => h, fun _ => Memory.read_eq_none_of_writeBlock⟩

theorem staysWritten_rsSyn {s t : State} {ba : BReg} {ec : Nat} (h : s.rsSyn ba ec = .ok t) :
    s.StaysWritten t := by
  obtain ⟨r, -, rfl⟩ := rsSyn_eq_ok.1 h
  exact (s.rs.staysWritten_synStep _ _ _).state

theorem staysWritten_rsBm {s t : State} (h : s.rsBm = .ok t) : s.StaysWritten t := by
  obtain ⟨syn, -, rfl⟩ := rsBm_eq_ok.1 h
  exact RsUnit.StaysWritten.state
    ⟨fun _ h => h, fun _ => Memory.read_eq_none_of_writeBlock, fun _ h => h, fun _ h => h⟩

theorem staysWritten_rsChien {s t : State} (h : s.rsChien = .ok t) : s.StaysWritten t := by
  obtain ⟨lam, -, rfl⟩ := rsChien_eq_ok.1 h
  exact (s.rs.staysWritten_chienStep _).state

theorem staysWritten_rsForney {s t : State} (h : s.rsForney = .ok t) : s.StaysWritten t := by
  obtain ⟨ms, -, rfl⟩ := rsForney_eq_ok.1 h
  exact (s.rs.staysWritten_forneyStep ms).state

namespace OnlyUnwritten

variable {s : State}

/-- The chain of R265 reads what its own steps wrote, or what was there before. -/
theorem rsDecode (ba : BReg) (ec : Nat) : OnlyUnwritten s (s.rsDecode ba ec) :=
  andThen (rsSyn ba ec) (fun _ => staysWritten_rsSyn) fun _ => unlessIn <|
    andThen rsBm (fun _ => staysWritten_rsBm) fun _ =>
      andThen rsChien (fun _ => staysWritten_rsChien) fun _ => unlessIn <|
        andThen rsForney (fun _ => staysWritten_rsForney) fun _ => unlessIn (rsApply ba)

/-! ## The bitstream and the zigzag unit -/

theorem badChar (mode : Mode) (ba : BReg) (k n : Nat) : OnlyUnwritten s (s.badChar mode ba k n) := by
  induction n generalizing k with
  | zero => exact ok
  | succ n ih =>
    refine bind (readCell fun h => h) fun b => ?_
    cases charValue mode b with
    | none => exact ok
    | some _ => exact ih (k + 1)

theorem checkChars (mode : Mode) (ba : BReg) : OnlyUnwritten s (s.checkChars mode ba) := by
  cases mode with
  | byte => exact ok
  | numeric | alnum => exact badChar _ ba _ _

theorem decodeGroups (mode : Mode) (gs : List Nat) (q : Nat) : OnlyUnwritten s (s.decodeGroups mode gs q) := by
  induction gs generalizing q with
  | nil => exact ok
  | cons g gs ih => exact bind (peek _ _) fun _ => check (map (ih _))

theorem segDecode (rd : XReg) (bd : BReg) : OnlyUnwritten s (s.segDecode rd bd) := by
  refine check <| bind (peek _ _) fun mode => check ?_
  cases modeOf mode with
  | none => exact ok
  | some m => exact check <| bind (peek _ _) fun _ => check <| check <| map (decodeGroups _ _ _)

theorem padCheck : OnlyUnwritten s s.padCheck := map <| readMany fun _ => peek _ _

theorem keepData (rcs : List (Nat × Nat)) : OnlyUnwritten s (keepData s.zig.role rcs) := by
  induction rcs with
  | nil => exact ok
  | cons rc rcs ih => exact bind (readCell fun h => h) fun _ => map ih

theorem readModules (ks : List Nat) : OnlyUnwritten s (readModules s.zig.mod ks) := by
  induction ks with
  | nil => exact ok
  | cons k ks ih => exact bind (readCell fun h => h) fun _ => map ih

theorem zzCells : OnlyUnwritten s s.zzCells := map (readBlock fun _ h => h)

end OnlyUnwritten

/-- Every command is a body finished: it completes, or fails at an unwritten cell (R430, R472). -/
theorem exec_eq_finish (i : Instr) (s : State) : ∃ r, exec i s = finish r ∧ OnlyUnwritten s r := by
  cases i with
  | setlen | bput | rsgen | bsterm | bspad => exact ⟨_, rfl, .check .ok⟩
  | bsput => exact ⟨_, rfl, .check (.check .ok)⟩
  | bget rd ba rs1 => exact ⟨_, rfl, .check <| .map <| .readCell fun h => h⟩
  | bcopy bd ba | peval rd ba rs1 => exact ⟨_, rfl, .map (.content ba)⟩
  | bsload ba => exact ⟨_, rfl, .check <| .map (.content ba)⟩
  | rsenc bd ba n => exact ⟨_, rfl, .check <| .check <| .map (.content ba)⟩
  | bcat bd ba bb => exact ⟨_, rfl, .check <| .map (.contents ba bb)⟩
  | pmul bd ba bb => exact ⟨_, rfl, .check <| .check <| .map (.contents ba bb)⟩
  | gdiv rd rs1 rs2 =>
    refine ⟨_, rfl, ?_⟩
    cases gfDiv (s.byteX rs1) (s.byteX rs2) <;> exact .ok
  | ginv rd rs1 =>
    refine ⟨_, rfl, ?_⟩
    cases gfInv (s.byteX rs1) <;> exact .ok
  | glog rd rs1 =>
    refine ⟨_, rfl, ?_⟩
    cases gfLog (s.byteX rs1) <;> exact .ok
  | rssyn ba n =>
    refine ⟨_, rfl, ?_⟩
    cases s.blockLengthError ba n with
    | some v => exact .ok
    | none => exact .rsSyn ba n
  | rsbm => exact ⟨_, rfl, .check .rsBm⟩
  | rschien => exact ⟨_, rfl, .check .rsChien⟩
  | rsforney => exact ⟨_, rfl, .check .rsForney⟩
  | rsapply ba => exact ⟨_, rfl, .check <| .check (.rsApply ba)⟩
  | rsdec ba n =>
    refine ⟨_, rfl, ?_⟩
    cases s.blockLengthError ba n with
    | some v => exact .ok
    | none => exact .rsDecode ba n
  | bsget rd n => exact ⟨_, rfl, .check <| .check <| .map (.peek _ _)⟩
  | bsstore bd rs1 n => exact ⟨_, rfl, .check <| .check <| .map <| .readMany fun _ => .map (.peek _ _)⟩
  | segenc ba n =>
    refine ⟨_, rfl, ?_⟩
    cases modeOf n with
    | none => exact .ok
    | some m =>
      refine .check <| .bind (.checkChars m ba) fun bad => ?_
      cases bad with
      | some kb => exact .ok
      | none => exact .check <| .map (.content ba)
  | segdec rd bd => exact ⟨_, rfl, .segDecode rd bd⟩
  | bspadchk rd => exact ⟨_, rfl, .map .padCheck⟩
  | zzgen => exact ⟨_, rfl, .map (.keepData _)⟩
  | zzplace => exact ⟨_, rfl, .bind .zzCells fun _ => .map <| .readBlock fun _ h => h⟩
  | zzread => exact ⟨_, rfl, .bind .zzCells fun _ => .map (.readModules _)⟩
  | _ => exact ⟨_, rfl, .ok⟩

/-- A command completes or stops at a cell nothing has written; it is never refused (R472). -/
theorem exec_next_or_unwritten (i : Instr) (s : State) :
    (∃ t, exec i s = .next t) ∨ ∃ a k, s.unwritten a k ∧ exec i s = .fault (.unwrittenRead a k) := by
  obtain ⟨r, he, hr⟩ := exec_eq_finish i s
  rw [he]
  cases r with
  | ok t => exact .inl ⟨_, rfl⟩
  | error f =>
    obtain ⟨a, k, hk, rfl⟩ := hr f rfl
    exact .inr ⟨a, k, hk, rfl⟩

/-- A word of the map that cannot be read has an unwritten cell (R472). -/
theorem readTarget_onlyUnwritten (s : State) (t : Target) : OnlyUnwritten s (s.readTarget t) := by
  cases t with
  | bufWord | synWord | lambdaWord | posWord | magWord | roleWord | modWord | zzWord =>
    exact .map <| .readMany fun _ => .cellWithin fun h => h
  | bitsWord q => exact .map <| .readMany fun _ => .map <| .readBlock fun _ h => h
  | _ => exact .ok

end Sys2Proof.Machine
end

section
/-! PROOFS. Bus errors (R85, R87): where the map has no target, and that an access which finds one stops at most
at a cell nothing has written. -/

namespace Sys2Proof.Machine

/-! ## The holes of the map -/

/-- An address of no register or window (R82, R87). -/
def Unmapped (a : Nat) : Prop :=
  (0x00084 ≤ a ∧ a < 0x00100) ∨ (0x00900 ≤ a ∧ a < 0x01000) ∨ (0x03098 ≤ a ∧ a < 0x04000)
    ∨ (0x05098 ≤ a ∧ a < 0x10000)

/-- Below the windows the registers fill the map up to 0x00080. -/
theorem targetAt_register_eq_none_iff {a : Nat} (h4 : a % 4 = 0) (h : a < 0x00100) :
    targetAt a = none ↔ 0x00084 ≤ a := by
  have hwords : ∀ q < 64, targetAt (4 * q) = none ↔ 0x00084 ≤ 4 * q := by decide
  have ha : a = 4 * (a / 4) := by omega
  rw [ha]
  exact hwords _ (by omega)

theorem targetAt_eq_none_iff {a : Nat} (h4 : a % 4 = 0) : targetAt a = none ↔ Unmapped a := by
  unfold Unmapped
  by_cases hreg : a < 0x00100
  · rw [targetAt_register_eq_none_iff h4 hreg]
    omega
  · rw [targetAt, if_neg (by omega), if_neg (by omega), if_neg hreg]
    split_ifs <;> simp only [true_iff, false_iff] <;> omega

theorem busTarget_misaligned {a : BitVec 17} {n : Nat} (h : n ≠ 4 ∨ a.toNat % 4 ≠ 0) :
    busTarget a n = .error (.misalignedAccess a n) := by
  rw [busTarget, if_pos h]

theorem busTarget_unmapped {a : BitVec 17} (h4 : a.toNat % 4 = 0) (h : Unmapped a.toNat) :
    busTarget a 4 = .error (.unmappedAccess a) := by
  rw [busTarget, if_neg (by omega), (targetAt_eq_none_iff h4).2 h]

theorem busTarget_mapped {a : BitVec 17} (h4 : a.toNat % 4 = 0) (h : ¬ Unmapped a.toNat) :
    ∃ t, busTarget a 4 = .ok t := by
  obtain ⟨t, ht⟩ := Option.ne_none_iff_exists'.1 (mt (targetAt_eq_none_iff h4).1 h)
  exact ⟨t, by rw [busTarget, if_neg (by omega), ht]⟩

/-! ## Outcomes that are no bus error -/

theorem readTarget_error {s : State} {t : Target} {f : Fault} (h : s.readTarget t = .error f) :
    ∃ a k, f = .unwrittenRead a k := by
  obtain ⟨a, k, -, hf⟩ := readTarget_onlyUnwritten s t f h
  exact ⟨a, k, hf⟩

/-- A busy read fails as a read before or after the command does (R475). -/
theorem busyRead_error {s : State} {w : Word} {t : Target} {f : Fault} (h : s.busyRead w t = .error f) :
    ∃ a k, f = .unwrittenRead a k := by
  unfold State.busyRead at h
  split at h
  · exact readTarget_error h
  · split at h
    · split at h <;> exact readTarget_error h
    · exact readTarget_error h
    · exact readTarget_error h

/-- Where the outcome is a fault, it is one of an unwritten cell. -/
def NoBusError (r : Res) : Prop := ∀ f, r = .fault f → ∃ a k, f = .unwrittenRead a k

namespace NoBusError

theorem next {s : State} : NoBusError (.next s) := nofun

theorem refused {e : Refusal} : NoBusError (.refused e) := nofun

theorem fault {f : Fault} (h : ∃ a k, f = .unwrittenRead a k) : NoBusError (.fault f) := by
  rintro _ ⟨⟩
  exact h

theorem exec (i : Instr) (s : State) : NoBusError (exec i s) := by
  obtain ⟨t, ht⟩ | ⟨a, k, -, hf⟩ := exec_next_or_unwritten i s
  · rw [ht]
    exact next
  · rw [hf]
    exact fault ⟨a, k, rfl⟩

theorem runWord (w : Word) (s : State) : NoBusError (runWord w s) := by
  obtain ⟨i, -, he⟩ | ⟨e, -, he⟩ := runWord_eq w s <;> rw [he]
  · exact exec i s
  · exact next

theorem tick (s : State) : NoBusError (tick s) := by
  unfold Machine.tick
  split
  · exact next
  · split
    · exact runWord _ s
    · exact next

theorem writeCmd (s : State) (w : Word) : NoBusError (s.writeCmd w) := by
  unfold State.writeCmd
  split
  · exact tick _
  · dsimp only
    split
    · exact runWord _ _
    · exact next

theorem hostWrite {s : State} {a : BitVec 17} {n : Nat} {t : Target} (ht : busTarget a n = .ok t) (v : Word) :
    NoBusError (s.hostWrite a n v) := by
  unfold State.hostWrite
  rw [ht]
  split
  · cases ‹Except.ok t = Except.error _›
  · exact writeCmd s v
  · split
    · exact next
    · split
      · exact refused
      · exact tick _

theorem hostRead {s : State} {a : BitVec 17} {n : Nat} {t : Target} (ht : busTarget a n = .ok t) :
    NoBusError (s.hostRead a n) := by
  unfold State.hostRead
  rw [ht]
  dsimp only
  split
  · split
    · exact fault (readTarget_error ‹_›)
    · exact next
  · split
    · exact fault (busyRead_error ‹_›)
    · exact tick _

end NoBusError

/-- A read or a write of `n` bytes at an address. -/
def HostAction.accesses (x : HostAction) (a : BitVec 17) (n : Nat) (v : Word) : Prop :=
  x = .busRead a n ∨ x = .busWrite a n v

theorem step_access_error {s : State} {x : HostAction} {a : BitVec 17} {n : Nat} {v : Word} {f : Fault}
    (hx : x.accesses a n v) (hs : s.atAction x) (h : busTarget a n = .error f) : step s = .fault f := by
  rw [step_of_atAction hs]
  obtain rfl | rfl := hx
  · rw [State.perform, State.hostRead, h]
  · rw [State.perform, State.hostWrite, h]

theorem step_access_noBusError {s : State} {x : HostAction} {a : BitVec 17} {n : Nat} {v : Word} {t : Target}
    (hx : x.accesses a n v) (hs : s.atAction x) (h : busTarget a n = .ok t) : NoBusError (step s) := by
  rw [step_of_atAction hs]
  obtain rfl | rfl := hx
  · exact .hostRead h
  · exact .hostWrite h v

/-- Settles O55: the map has no target exactly in its holes, and an access with a target runs into no bus error. -/
theorem busErrorsStopTheRun : Obligations.BusErrorsStopTheRun := by
  intro s addr bytes v a unmapped act x hx hs
  refine ⟨fun h => step_access_error hx hs (busTarget_misaligned h), ?_, ?_⟩
  · rintro rfl h4 h
    exact step_access_error hx hs (busTarget_unmapped h4 h)
  · rintro rfl h4 h
    obtain ⟨t, ht⟩ := busTarget_mapped h4 h
    have hstep := step_access_noBusError hx hs ht
    constructor <;> intro hf <;> obtain ⟨_, _, ⟨⟩⟩ := hstep _ hf

end Sys2Proof.Machine
end

section
/-! PROOFS. The words of the windows (R86, R89 to R94): which cells of its array a word is, in which order, on a
write and on a read. -/

namespace Sys2Proof.Machine

/-! ## Where the windows are -/

theorem busTarget_bufWord (b : BReg) {q : Nat} (hq : q < 64) :
    busTarget (BitVec.ofNat 17 (0x00100 + 0x100 * b.val + 4 * q)) 4 = .ok (.bufWord b q) := by
  have hb := b.isLt
  refine busTarget_of_targetAt (by omega) (by omega) ?_
  have hbuf : Fin.ofNat 4 ((0x00100 + 0x100 * b.val + 4 * q - 0x00100) / 0x100) = b := by
    apply Fin.ext
    rw [Fin.val_ofNat]
    omega
  have hword : (0x00100 + 0x100 * b.val + 4 * q) % 0x100 / 4 = q := by omega
  rw [targetAt, if_neg (by omega), if_neg (by omega), if_neg (by omega), if_pos (by omega), hbuf, hword]

theorem busTarget_bitsWord {q : Nat} (hq : q < 1024) :
    busTarget (BitVec.ofNat 17 (0x01000 + 4 * q)) 4 = .ok (.bitsWord q) := by
  refine busTarget_of_targetAt (by omega) (by omega) ?_
  have hword : (0x01000 + 4 * q - 0x01000) / 4 = q := by omega
  rw [targetAt]
  simp (disch := omega) only [if_neg, if_pos, hword]

/-- Word j of row r of a window of 177 rows of 24 bytes (R93). -/
theorem rowWord_of_address (base : Nat) {r j : Nat} (hj : j < 6) :
    (base + 24 * r + 4 * j - base) / 24 = r ∧ (base + 24 * r + 4 * j - base) % 24 / 4 = j := by
  omega

theorem busTarget_roleWord {r j : Nat} (hr : r < 177) (hj : j < 6) :
    busTarget (BitVec.ofNat 17 (0x02000 + 24 * r + 4 * j)) 4 = .ok (.roleWord r j) := by
  refine busTarget_of_targetAt (by omega) (by omega) ?_
  obtain ⟨hrow, hword⟩ := rowWord_of_address 0x02000 (r := r) hj
  rw [targetAt]
  simp (disch := omega) only [if_neg, if_pos, hrow, hword]

theorem busTarget_modWord {r j : Nat} (hr : r < 177) (hj : j < 6) :
    busTarget (BitVec.ofNat 17 (0x04000 + 24 * r + 4 * j)) 4 = .ok (.modWord r j) := by
  refine busTarget_of_targetAt (by omega) (by omega) ?_
  obtain ⟨hrow, hword⟩ := rowWord_of_address 0x04000 (r := r) hj
  rw [targetAt]
  simp (disch := omega) only [if_neg, if_pos, hrow, hword]

theorem busTarget_zzWord {q : Nat} (hq : q < 16384) :
    busTarget (BitVec.ofNat 17 (0x10000 + 4 * q)) 4 = .ok (.zzWord q) := by
  refine busTarget_of_targetAt (by omega) (by omega) ?_
  rw [targetAt_zz (by omega), show (0x10000 + 4 * q - 0x10000) / 4 = q by omega]

/-- Word q of a window of 0x100 bytes. -/
theorem byteWord_of_address {base q : Nat} (hbase : base % 0x100 = 0) (hq : q < 64) :
    (base + 4 * q) % 0x100 / 4 = q := by
  omega

theorem busTarget_synWord {q : Nat} (hq : q < 64) :
    busTarget (BitVec.ofNat 17 (0x00500 + 4 * q)) 4 = .ok (.synWord q) := by
  refine busTarget_of_targetAt (by omega) (by omega) ?_
  rw [targetAt_syn (by omega), byteWord_of_address (by decide) hq]

theorem busTarget_lambdaWord {q : Nat} (hq : q < 64) :
    busTarget (BitVec.ofNat 17 (0x00600 + 4 * q)) 4 = .ok (.lambdaWord q) := by
  refine busTarget_of_targetAt (by omega) (by omega) ?_
  rw [targetAt_lambda (by omega), byteWord_of_address (by decide) hq]

theorem busTarget_posWord {q : Nat} (hq : q < 64) :
    busTarget (BitVec.ofNat 17 (0x00700 + 4 * q)) 4 = .ok (.posWord q) := by
  refine busTarget_of_targetAt (by omega) (by omega) ?_
  rw [targetAt_pos (by omega), byteWord_of_address (by decide) hq]

theorem busTarget_magWord {q : Nat} (hq : q < 64) :
    busTarget (BitVec.ofNat 17 (0x00800 + 4 * q)) 4 = .ok (.magWord q) := by
  refine busTarget_of_targetAt (by omega) (by omega) ?_
  rw [targetAt_mag (by omega), byteWord_of_address (by decide) hq]

/-! ## Bytes and bits of a word -/

/-- Byte m of a word put together from bytes (R90). -/
theorem extractLsb'_wordOfBytes (bytes : List Byte) {m : Nat} (hm : m < 4) :
    (wordOfBytes bytes).extractLsb' (8 * m) 8 = bytes.getD m 0 := by
  apply BitVec.eq_of_getLsbD_eq
  intro i hi
  simp only [wordOfBytes, BitVec.getLsbD_extractLsb', BitVec.getLsbD_append, hi, decide_true, Bool.true_and]
  interval_cases m <;> simp (disch := omega) only [if_pos, if_neg] <;> congr 1 <;> omega

theorem getElem?_bytesOfWord (w : Word) {m : Nat} (hm : m < 4) :
    (bytesOfWord w)[m]? = some (w.extractLsb' (8 * m) 8) := by
  interval_cases m <;> rfl

/-- Bit k of byte m of a list of bytes, each byte most significant bit first (R91). -/
theorem getElem?_bitsOfBytes {d : List Byte} {m k : Nat} {b : Byte} (hm : d[m]? = some b) (hk : k < 8) :
    (bitsOfBytes d)[8 * m + k]? = some (b.getLsbD (7 - k)) := by
  induction d generalizing m with
  | nil => cases hm
  | cons c d ih =>
    rw [show bitsOfBytes (c :: d) = bitsOf c.toNat 8 ++ bitsOfBytes d from rfl]
    cases m with
    | zero =>
      cases hm
      rw [List.getElem?_append_left (by rw [length_bitsOf]; omega)]
      simp [bitsOf, hk, BitVec.getLsbD]
    | succ m =>
      rw [List.getElem?_append_right (by rw [length_bitsOf]; omega), length_bitsOf,
        show 8 * (m + 1) + k - 8 = 8 * m + k by omega]
      exact ih hm

/-- Bit d of a number is at index d of its bits, least significant first (R93). -/
theorem getElem?_reverse_bitsOf {v n d : Nat} (hd : d < n) : (bitsOf v n).reverse[d]? = some (v.testBit d) := by
  rw [List.getElem?_reverse (by rwa [length_bitsOf]), length_bitsOf]
  simp [bitsOf, show n - 1 - d < n by omega, show n - 1 - (n - 1 - d) = d by omega]

/-- The number a string of bits writes has the last one lowest (R91). -/
theorem getLsbD_ofNat_natOfBits {bs : List Bool} {n d : Nat} (hn : bs.length = n) (hd : d < n) :
    (BitVec.ofNat n (natOfBits bs)).getLsbD d = bs[n - 1 - d] := by
  have h := testBit_natOfBits bs (n - 1 - d) (by omega)
  rw [← h, BitVec.getLsbD_ofNat, hn, show n - 1 - (n - 1 - d) = d by omega]
  simp [hd]

/-! ## Writes -/

/-- The stream bits a word of the BITS window sets (R92). -/
theorem read_writeStreamWord (mem : Memory Bool) (q : Nat) (w : Word) {m k : Nat} (hm : m < 4) (hk : k < 8) :
    (writeStreamWord mem q w).read (32 * q + 8 * m + k) = some (w.getLsbD (8 * m + 7 - k)) := by
  have hbit : (bitsOfBytes (bytesOfWord w))[8 * m + k]? = some (w.getLsbD (8 * m + 7 - k)) := by
    rw [getElem?_bitsOfBytes (getElem?_bytesOfWord w hm) hk, BitVec.getLsbD_extractLsb',
      show 8 * m + (7 - k) = 8 * m + 7 - k by omega]
    simp [show 7 - k < 8 by omega]
  have hread := Memory.holds_writeBlock mem (32 * q) (bitsOfBytes (bytesOfWord w)) (8 * m + k)
    (List.getElem?_eq_some_iff.1 hbit).1
  rw [Nat.add_assoc]
  exact hread.trans hbit

theorem sameOutside_writeStreamWord (mem : Memory Bool) (q : Nat) (w : Word) :
    mem.sameOutside (writeStreamWord mem q w) (32 * q) 32 :=
  Memory.sameOutside_writeBlock mem (32 * q) (bitsOfBytes (bytesOfWord w))

/-- The cells of its row that a word of ROLE or MOD sets (R93). -/
theorem read_writeBitWord (mem : Memory Bool) (r j : Nat) (w : Word) {c : Nat} (hlo : 32 * j ≤ c)
    (hhi : c < 32 * j + 32) (hc : c < 177) :
    (writeBitWord mem r j w).read (177 * r + c) = some (w.getLsbD (c % 32)) := by
  have hbit : ((bitsOf w.toNat 32).reverse.take (177 - 32 * j))[c - 32 * j]? = some (w.getLsbD (c % 32)) := by
    rw [List.getElem?_take_of_lt (by omega), getElem?_reverse_bitsOf (by omega), show c - 32 * j = c % 32 by omega]
    rfl
  have hread := Memory.holds_writeBlock mem (177 * r + 32 * j) _ _ (List.getElem?_eq_some_iff.1 hbit).1
  rw [show 177 * r + c = 177 * r + 32 * j + (c - 32 * j) by omega]
  exact hread.trans hbit

theorem sameOutside_writeBitWord (mem : Memory Bool) (r j : Nat) (w : Word) :
    mem.sameOutside (writeBitWord mem r j w) (177 * r + 32 * j) (min 32 (177 - 32 * j)) := by
  have h := Memory.sameOutside_writeBlock mem (177 * r + 32 * j) ((bitsOf w.toNat 32).reverse.take (177 - 32 * j))
  rwa [List.length_take, List.length_reverse, length_bitsOf, Nat.min_comm] at h

/-! ## Reads -/

/-- Reads in a row answer when every one does. -/
theorem exists_readMany {α : Type} {read : Nat → Except Fault α} {k n : Nat}
    (h : ∀ j, j < n → ∃ v, read (k + j) = .ok v) : ∃ vs, readMany read k n = .ok vs := by
  cases hr : readMany read k n with
  | ok vs => exact ⟨vs, rfl⟩
  | error f =>
    obtain ⟨j, hj, he, -⟩ := readMany_eq_error.1 hr
    obtain ⟨v, hv⟩ := h j hj
    cases hv.symm.trans he

theorem exists_readCell {α : Type} (a : ArrayName) {m : Memory α} {k : Nat} (h : (m.read k).isSome = true) :
    ∃ v, readCell a m k = .ok v := by
  obtain ⟨v, hv⟩ := Option.isSome_iff_exists.1 h
  exact ⟨v, readCell_eq_ok.2 hv⟩

/-- A cell of a window: one past the array reads as `d` (R90, R93, R94). -/
theorem cellWithin_eq_ok {α : Type} {a : ArrayName} {m : Memory α} {p : Prop} [Decidable p] {k : Nat} {d v : α} :
    (if p then readCell a m k else .ok d) = .ok v ↔ if p then m.read k = some v else v = d := by
  split
  · exact readCell_eq_ok
  · rw [Except.ok.injEq, eq_comm]

theorem exists_cellWithin {α : Type} (a : ArrayName) {m : Memory α} {p : Prop} [Decidable p] {k : Nat} (d : α)
    (h : p → (m.read k).isSome = true) : ∃ v, (if p then readCell a m k else .ok d) = .ok v := by
  split
  · exact exists_readCell a (h ‹_›)
  · exact ⟨d, rfl⟩

/-- A byte window's word is its bytes, the low one first; bytes past the array are 0 (R90). -/
theorem readByteWord_eq_ok {a : ArrayName} {m : Memory Byte} {cap q : Nat} {b : Nat → Byte}
    (h : ∀ k, k < 4 → if 4 * q + k < cap then m.read (4 * q + k) = some (b k) else b k = 0) :
    readByteWord a m cap q = .ok (BitVec.ofNat 32
      ((b 0).toNat + 2 ^ 8 * (b 1).toNat + 2 ^ 16 * (b 2).toNat + 2 ^ 24 * (b 3).toNat)) := by
  refine map_eq_ok.2 ⟨(List.range 4).map b, readMany_eq_ok.2 ⟨rfl, fun k v hk => ?_⟩, word_eq_ofNat ?_⟩
  · obtain ⟨hlt, rfl⟩ := List.getElem?_eq_some_iff.1 hk
    rw [List.getElem_map, List.getElem_range]
    exact cellWithin_eq_ok.2 (h k hlt)
  · show (b 3 ++ b 2 ++ b 1 ++ b 0 : BitVec (8 + 8 + 8 + 8)).toNat = _
    simp only [toNat_append_add]
    omega

theorem getLsbD_wordOfBytes (bytes : List Byte) {m i : Nat} (hm : m < 4) (hi : i < 8) :
    (wordOfBytes bytes).getLsbD (8 * m + i) = (bytes.getD m 0).getLsbD i := by
  rw [← extractLsb'_wordOfBytes bytes hm, BitVec.getLsbD_extractLsb']
  simp [hi]

/-- A BITS window's word, each byte most significant bit first (R92). -/
theorem exists_readStreamWord {mem : Memory Bool} {q : Nat}
    (h : ∀ k, k < 32 → (mem.read (32 * q + k)).isSome = true) : ∃ x, readStreamWord mem q = .ok x
      ∧ ∀ m k, m < 4 → k < 8 → mem.read (32 * q + 8 * m + k) = some (x.getLsbD (8 * m + 7 - k)) := by
  obtain ⟨bytes, hbytes⟩ := exists_readMany (k := 4 * q) (n := 4)
    (read := fun k => (readBlock .bits mem (8 * k) 8).map fun bs => BitVec.ofNat 8 (natOfBits bs)) fun m hm => by
      obtain ⟨bs, hbs⟩ := exists_readMany (read := readCell .bits mem) (k := 8 * (4 * q + m)) (n := 8) fun k hk =>
        exists_readCell .bits (by
          have := h (8 * m + k) (by omega)
          rwa [show 8 * (4 * q + m) + k = 32 * q + (8 * m + k) by omega])
      exact ⟨_, map_eq_ok.2 ⟨bs, hbs, rfl⟩⟩
  refine ⟨_, map_eq_ok.2 ⟨bytes, hbytes, rfl⟩, fun m k hm hk => ?_⟩
  obtain ⟨hlen, hread⟩ := readMany_eq_ok.1 hbytes
  have hget := List.getElem?_eq_getElem (l := bytes) (i := m) (by omega)
  obtain ⟨bs, hbs, hb⟩ := map_eq_ok.1 (hread m _ hget)
  obtain ⟨hl, hbs⟩ := readBlock_eq_ok.1 hbs
  rw [show 32 * q + 8 * m + k = 8 * (4 * q + m) + k by omega, hbs k (by omega),
    show 8 * m + 7 - k = 8 * m + (7 - k) by omega, getLsbD_wordOfBytes bytes hm (by omega), List.getD_eq_getElem?_getD,
    hget, Option.getD_some, ← hb, getLsbD_ofNat_natOfBits hl (by omega), List.getElem?_eq_getElem (by omega)]
  simp only [show 8 - 1 - (7 - k) = k by omega]

/-- A word of ROLE or MOD, the cells of its row from bit 0 up, those past column 176 reading 0 (R93). -/
theorem exists_readBitWord (a : ArrayName) {mem : Memory Bool} {r j : Nat}
    (h : ∀ c, 32 * j ≤ c → c < 32 * j + 32 → c < 177 → (mem.read (177 * r + c)).isSome = true) :
    ∃ x, readBitWord a mem r j = .ok x ∧ ∀ d, d < 32 →
      if 32 * j + d < 177 then mem.read (177 * r + (32 * j + d)) = some (x.getLsbD d) else x.getLsbD d = false := by
  obtain ⟨bs, hbs⟩ := exists_readMany (k := 32 * j) (n := 32)
    (read := fun c => if c < 177 then readCell a mem (177 * r + c) else .ok false) fun d hd =>
      exists_cellWithin a false (h _ (by omega) (by omega))
  obtain ⟨hlen, hread⟩ := readMany_eq_ok.1 hbs
  refine ⟨_, map_eq_ok.2 ⟨bs, hbs, rfl⟩, fun d hd => ?_⟩
  have hbit : (BitVec.ofNat 32 (natOfBits bs.reverse)).getLsbD d = bs[d] := by
    rw [getLsbD_ofNat_natOfBits (by rw [List.length_reverse, hlen]) hd, List.getElem_reverse]
    simp only [hlen, show 32 - 1 - (32 - 1 - d) = d by omega]
  rw [hbit]
  exact cellWithin_eq_ok.1 (hread d _ (List.getElem?_eq_getElem (by omega)))

/-- The entries of a ZZ window's word, the low half first, row above column (R94). -/
theorem getElem?_entries_zzWord (e₀ e₁ : Byte × Byte) {i : Nat} (hi : i < 2) :
    let x := wordOfBytes [e₀.2, e₀.1, e₁.2, e₁.1]
    [e₀, e₁][i]? = some (x.extractLsb' (16 * i + 8) 8, x.extractLsb' (16 * i) 8) := by
  intro x
  have byte {m : Nat} (hm : m < 4) : x.extractLsb' (8 * m) 8 = [e₀.2, e₀.1, e₁.2, e₁.1].getD m 0 :=
    extractLsb'_wordOfBytes _ hm
  rw [show 16 * i + 8 = 8 * (2 * i + 1) by omega, show 16 * i = 8 * (2 * i) by omega, byte (by omega),
    byte (by omega)]
  interval_cases i <;> rfl

/-- A ZZ window's word: two entries, the low half first, each with its row above its column; entries past the
memory read 0 (R94). -/
theorem exists_readZzWord {mem : Memory (Byte × Byte)} {q : Nat}
    (h : ∀ k, 2 * q ≤ k → k < 2 * q + 2 → k < 31329 → (mem.read k).isSome = true) :
    ∃ x, readZzWord mem q = .ok x ∧ ∀ i, i < 2 →
      if 2 * q + i < 31329 then
        mem.read (2 * q + i) = some (x.extractLsb' (16 * i + 8) 8, x.extractLsb' (16 * i) 8)
      else x.extractLsb' (16 * i) 16 = 0 := by
  obtain ⟨es, hes⟩ := exists_readMany (k := 2 * q) (n := 2)
    (read := fun k => if k < 31329 then readCell .zz mem k else .ok (0, 0)) fun i hi =>
      exists_cellWithin .zz (0, 0) (h _ (by omega) (by omega))
  obtain ⟨hlen, hread⟩ := readMany_eq_ok.1 hes
  obtain ⟨e₀, e₁, rfl⟩ := List.length_eq_two.1 hlen
  refine ⟨wordOfBytes [e₀.2, e₀.1, e₁.2, e₁.1], map_eq_ok.2 ⟨_, hes, rfl⟩, fun i hi => ?_⟩
  have hentry := cellWithin_eq_ok.1 (hread i _ (getElem?_entries_zzWord e₀ e₁ hi))
  split
  · rwa [if_pos ‹_›] at hentry
  · rw [if_neg ‹_›, Prod.mk.injEq] at hentry
    obtain ⟨hrow, hcol⟩ := hentry
    rw [← BitVec.extractLsb'_append_extractLsb'_eq_extractLsb' (show 16 * i + 8 = 16 * i + 8 from rfl), hrow, hcol]
    rfl

/-! ## The obligation -/

/-- Settles O54: every window's address reaches its word, which takes and returns its cells in their order. -/
theorem windowsKeepTheirOrder : Obligations.WindowsKeepTheirOrder := by
  intro s v hr s' returns
  have read {a : Nat} {t : Target} {x : Word} (ha : s.atAction (.busRead (BitVec.ofNat 17 a) 4))
      (ht : busTarget (BitVec.ofNat 17 a) 4 = .ok t) (hx : s.readTarget t = .ok x) : returns x :=
    step_busRead_idle ha hr ht hx
  refine ⟨fun b q hq => ⟨fun ha => ?_, fun b0 b1 b2 b3 h ha => ?_⟩, fun q hq ha => ?_, fun r j hrow hj ha => ?_,
    fun r j hrow hj ha => ?_, fun base cap mem q b hmem hq ha h => ?_, fun q hq ha h => ?_,
    fun base mem r j hmem hrow hj ha h => ?_, fun q hq ha h => ?_⟩
  · refine ⟨_, step_busWrite_idle ha hr (busTarget_bufWord b hq) nofun, rfl, ?_, ?_, fun b' hb' => ?_⟩
    · rw [State.writeTarget, State.memB_writeB]
      exact Memory.holds_writeBlock _ _ _
    · rw [State.writeTarget, State.memB_writeB]
      exact Memory.sameOutside_writeBlock _ _ _
    · exact State.memB_writeB_of_ne _ _ _ hb'
  · refine read ha (busTarget_bufWord b hq) (readByteWord_eq_ok (b := fun k => [b0, b1, b2, b3].getD k 0) ?_)
    intro k hk
    rw [if_pos (by omega), h k hk]
    interval_cases k <;> rfl
  · exact ⟨_, step_busWrite_idle ha hr (busTarget_bitsWord hq) nofun, rfl,
      fun m k hm hk => read_writeStreamWord _ q v hm hk, sameOutside_writeStreamWord _ q v⟩
  · exact ⟨_, step_busWrite_idle ha hr (busTarget_roleWord hrow hj) nofun, rfl,
      fun c hlo hhi hc => read_writeBitWord _ r j v hlo hhi hc, sameOutside_writeBitWord _ r j v⟩
  · exact ⟨_, step_busWrite_idle ha hr (busTarget_modWord hrow hj) nofun, rfl,
      fun c hlo hhi hc => read_writeBitWord _ r j v hlo hhi hc, sameOutside_writeBitWord _ r j v⟩
  · simp only [List.mem_cons, Prod.mk.injEq, List.not_mem_nil, or_false] at hmem
    obtain ⟨rfl, rfl, rfl⟩ | ⟨rfl, rfl, rfl⟩ | ⟨rfl, rfl, rfl⟩ | ⟨rfl, rfl, rfl⟩ := hmem
    · exact read ha (busTarget_synWord hq) (readByteWord_eq_ok h)
    · exact read ha (busTarget_lambdaWord hq) (readByteWord_eq_ok h)
    · exact read ha (busTarget_posWord hq) (readByteWord_eq_ok h)
    · exact read ha (busTarget_magWord hq) (readByteWord_eq_ok h)
  · obtain ⟨x, hx, hbits⟩ := exists_readStreamWord h
    exact ⟨x, read ha (busTarget_bitsWord hq) hx, hbits⟩
  · simp only [List.mem_cons, Prod.mk.injEq, List.not_mem_nil, or_false] at hmem
    obtain ⟨rfl, rfl⟩ | ⟨rfl, rfl⟩ := hmem
    · obtain ⟨x, hx, hcells⟩ := exists_readBitWord .role h
      exact ⟨x, read ha (busTarget_roleWord hrow hj) hx, hcells⟩
    · obtain ⟨x, hx, hcells⟩ := exists_readBitWord .mod h
      exact ⟨x, read ha (busTarget_modWord hrow hj) hx, hcells⟩
  · obtain ⟨x, hx, hentries⟩ := exists_readZzWord h
    exact ⟨x, read ha (busTarget_zzWord hq) hx, hentries⟩

end Sys2Proof.Machine
end

section
/-! PROOFS. The decoder of R124 says no more and no less than its opcode map and its masks: a word that decodes is
its command's word, and the map and the masks are those of the table (R127). -/

namespace Sys2Proof

/-! ## Words field by field -/

/-- The bits of the fields `f` that `g` has too. -/
def Fields.within (f g : Fields) : Fields where
  op := f.op &&& g.op
  rd := f.rd &&& g.rd
  rs1 := f.rs1 &&& g.rs1
  rs2 := f.rs2 &&& g.rs2
  bd := f.bd &&& g.bd
  ba := f.ba &&& g.ba
  bb := f.bb &&& g.bb
  imm := f.imm &&& g.imm

theorem fieldsOf_and (w v : Word) : fieldsOf (w &&& v) = (fieldsOf w).within (fieldsOf v) := by
  simp only [fieldsOf, Fields.within, BitVec.extractLsb'_and]

theorem fieldsOf_op_toNat (w : Word) : (fieldsOf w).op.toNat = w.toNat / 2 ^ 24 := by
  have hw : w.toNat / 2 ^ 24 < 2 ^ 8 := by have := w.isLt; omega
  rw [fieldsOf, BitVec.extractLsb'_toNat, Nat.shiftRight_eq_div_pow, Nat.mod_eq_of_lt hw]

theorem and_eq_of_and_not_eq_zero {w v : Word} (h : w &&& ~~~v = 0) : w &&& v = w := calc
  w &&& v = w &&& v ||| w &&& ~~~v := by rw [h]; exact BitVec.or_zero.symm
  _ = w := by rw [← BitVec.and_or_distrib_left, BitVec.or_not_self, BitVec.and_allOnes]

/-! ## What the opcode map makes of the fields -/

/-- The only immediate a command takes from the fields is IMM9 (R121, R122). -/
theorem wellFormed_of_assemble {f : Fields} {i : Instr} (h : assemble f = some i) : i.wellFormed = true := by
  unfold assemble at h
  split at h <;> cases h <;>
    simp only [Instr.wellFormed, Instr.imm?, decide_eq_true_eq, f.imm.isLt]

/-- The command of an opcode has that opcode, the operands of the fields it uses, and 0 elsewhere (R127, R131). -/
theorem fields_of_assemble {f : Fields} {i : Instr} (h : assemble f = some i) :
    i.fields = f.within (fieldsOf (maskOP ||| i.fieldMask)) := by
  obtain ⟨hop, hrd, hrs1, hrs2, hbd, hba, hbb, himm⟩ := fieldsOf_masks
  have op_eq {k : Nat} (hk : f.op.toNat = k) : f.op = BitVec.ofNat 8 k := by
    rw [← hk, BitVec.ofNat_toNat, BitVec.setWidth_eq]
  unfold assemble at h
  split at h <;> cases h <;> rename_i hk <;>
    simp only [Instr.fieldMask, Instr.fields, Fields.within, Fields.or, Fields.zero, fieldsOf_or, hop, hrd, hrs1, hrs2,
      hbd, hba, hbb, himm, BitVec.and_allOnes, BitVec.or_zero, BitVec.zero_or, BitVec.and_zero, BitVec.ofNat_eq_ofNat,
      BitVec.ofFin_toFin, BitVec.ofNat_toNat, BitVec.setWidth_eq, op_eq hk]

/-- The opcode map of the decoder and the table's list the same opcodes, with the same used bits (R127). -/
theorem fieldMask_assemble (f : Fields) :
    (assemble f).map Instr.fieldMask = (Machine.usedMask.lookup f.op.toNat).map (BitVec.ofNat 32) := by
  unfold assemble
  split
  case h_46 =>
    -- An opcode outside the map is none of the table's.
    have hlookup : Machine.usedMask.lookup f.op.toNat = none := by
      simp only [List.lookup_eq_none_iff, Machine.usedMask, List.cons_append, List.nil_append, List.forall_mem_cons,
        List.not_mem_nil, false_implies, implies_true, and_true, bne_iff_ne]
      and_intros <;> assumption
    rw [hlookup]
    rfl
  all_goals rename_i hk; rw [hk]; rfl

/-! ## The decoder's three answers -/

theorem decode_of_assemble_eq_none {w : Word} (h : assemble (fieldsOf w) = none) :
    decode w = .error (.illegalOpcode (fieldsOf w).op) := by
  rw [decode, h]

theorem decode_of_assemble_eq_some {w : Word} {i : Instr} (h : assemble (fieldsOf w) = some i) :
    decode w = if w &&& ~~~(maskOP ||| i.fieldMask) ≠ 0
      then .error (.reservedField (w &&& ~~~(maskOP ||| i.fieldMask))) else .ok i := by
  rw [decode, h]

theorem decode_eq_ok_iff {w : Word} {i : Instr} :
    decode w = .ok i ↔ assemble (fieldsOf w) = some i ∧ w &&& ~~~(maskOP ||| i.fieldMask) = 0 := by
  cases h : assemble (fieldsOf w) with
  | none => simp [decode_of_assemble_eq_none h]
  | some j =>
    rw [decode_of_assemble_eq_some h]
    split
    · rename_i hu
      simp only [reduceCtorEq, Option.some.injEq, false_iff, not_and]
      rintro rfl
      exact hu
    · rename_i hu
      simp only [Except.ok.injEq, Option.some.injEq, iff_self_and]
      rintro rfl
      exact not_not.1 hu

/-- A word that decodes has no bit outside its command's fields, so it is the command's word (R131). -/
theorem encode_of_decode {w : Word} {i : Instr} (h : decode w = .ok i) : encode i = w := by
  obtain ⟨hi, hunused⟩ := decode_eq_ok_iff.1 h
  calc encode i = wordOf (fieldsOf (w &&& (maskOP ||| i.fieldMask))) := by
        rw [encode, fields_of_assemble hi, fieldsOf_and]
    _ = w := by rw [wordOf_fieldsOf, and_eq_of_and_not_eq_zero hunused]

/-- Settles O1: `decode_encode` one way, `encode_of_decode` the other. -/
theorem decodeAndEncodeAgree : Obligations.DecodeAndEncodeAgree :=
  ⟨fun _ => decode_encode, fun _ _ h => ⟨wellFormed_of_assemble (decode_eq_ok_iff.1 h).1, encode_of_decode h⟩⟩

/-- Settles O2: the table has the opcodes and the masks of the decoder's own map. -/
theorem decodeRejectsByName : Obligations.DecodeRejectsByName := by
  intro w
  have htable := fieldMask_assemble (fieldsOf w)
  rw [fieldsOf_op_toNat] at htable
  refine ⟨fun hnone => ?_, fun m hm => ?_⟩
  · rw [hnone, Option.map_none, Option.map_eq_none_iff] at htable
    exact decode_of_assemble_eq_none htable
  · rw [hm, Option.map_some, Option.map_eq_some_iff] at htable
    obtain ⟨i, hi, hmask⟩ := htable
    rw [← hmask]
    refine ⟨fun hused => ?_, fun hunused => ⟨i, decode_eq_ok_iff.2 ⟨hi, hunused⟩⟩⟩
    rw [decode_of_assemble_eq_some hi]
    exact if_pos hused

/-! ## The example words -/

/-- Settles O3: the decoder evaluated on the eleven words. -/
theorem exampleWordsDecode : Obligations.ExampleWordsDecode := by
  unfold Obligations.ExampleWordsDecode
  decide

end Sys2Proof
end

section
/-! PROOFS. A word that does not decode, at the CMD write with the engine idle. -/

namespace Sys2Proof.Machine

theorem step_issue_undecodable {s : State} {w : Word} {e : DecodeError} (ha : s.atAction (issue w))
    (hr : s.ctl.running = none) (hl : s.host.latencies.headD 0 = 0) (he : decode w = .error e) :
    step s = .next ((s.advance.takeLatency.accept w 0).raiseDecode w e).complete := by
  rw [step_issue_idle ha hr hl, runWord, he]
  rfl

/-- Settles O5: the word is reported and completes, with nothing between. -/
theorem undecodableWordRaises : Obligations.UndecodableWordRaises := by
  intro s w ha hr hl
  exact ⟨fun op he => ⟨_, step_issue_undecodable ha hr hl he, rfl⟩,
    fun unused he => ⟨_, step_issue_undecodable ha hr hl he, rfl⟩⟩

end Sys2Proof.Machine
end

section
/-! PROOFS. A command's word is the number R131 writes: the opcode and each field times the weight of its place. -/

namespace Sys2Proof.Machine

/-- The fields lie side by side in the word (R121). -/
theorem wordOf_eq_ofNat (f : Fields) : wordOf f = BitVec.ofNat 32 (f.op.toNat * 2 ^ 24 + f.rd.toNat * 2 ^ 21
    + f.rs1.toNat * 2 ^ 18 + f.rs2.toNat * 2 ^ 15 + f.bd.toNat * 2 ^ 13 + f.ba.toNat * 2 ^ 11
    + f.bb.toNat * 2 ^ 9 + f.imm.toNat) := by
  apply word_eq_ofNat
  simp only [wordOf, toNat_append_add]
  ring

/-- A command's word from its fields, the opcode and the immediate given as numbers (R131). -/
theorem encode_eq_commandWord {i : Instr} {op imm : Nat} {rd rs1 rs2 : XReg} {bd ba bb : BReg}
    (hop : op < 256) (himm : imm < 512)
    (hfields : i.fields = ⟨.ofNat 8 op, .ofFin rd, .ofFin rs1, .ofFin rs2, .ofFin bd, .ofFin ba, .ofFin bb,
      .ofNat 9 imm⟩) :
    encode i = commandWord op rd rs1 rs2 bd ba bb imm := by
  rw [encode, hfields, wordOf_eq_ofNat, commandWord]
  simp only [BitVec.toNat_ofNat, BitVec.toNat_ofFin, Nat.mod_eq_of_lt hop, Nat.mod_eq_of_lt himm]

/-- The word of a command that carries no immediate. -/
theorem encode_eq_commandWord_zero {i : Instr} {op : Nat} {rd rs1 rs2 : XReg} {bd ba bb : BReg} (hop : op < 256)
    (hfields : i.fields = ⟨.ofNat 8 op, .ofFin rd, .ofFin rs1, .ofFin rs2, .ofFin bd, .ofFin ba, .ofFin bb, 0⟩) :
    encode i = commandWord op rd rs1 rs2 bd ba bb 0 :=
  encode_eq_commandWord hop (by decide) hfields

end Sys2Proof.Machine
end

section
/-! PROOFS. The control commands (40_control.md): each completes with the state its rule names. -/

namespace Sys2Proof.Machine

/-! ## Checks and answers -/

/-- A command whose check fails raises. -/
theorem raises_of_check {i : Instr} {s : State} {p : Prop} [Decidable p] {code : ErrCode} {data : Nat}
    {body : Except Fault State} (hexec : exec i s = finish (if p then .ok (s.raise i code data) else body))
    (hp : p) : ∃ t, exec i s = .next t ∧ Raises s t code (encode i) (BitVec.ofNat 32 data) := by
  rw [hexec, if_pos hp]
  exact ⟨_, rfl, raises_raise s i code data⟩

/-- A command whose check passes goes on with what its rule says. -/
theorem exec_of_check_passed {i : Instr} {s u : State} {p : Prop} [Decidable p] {body : Except Fault State}
    (hexec : exec i s = finish (if p then .ok u else body)) (hp : ¬p) : exec i s = finish body := by
  rw [hexec, if_neg hp]

/-- The bytes and the length of one buffer are all that these two writes change. -/
theorem writesB_writeB_setLen (s : State) (b : BReg) (k : Nat) (vs : List Byte) (n : Nat) :
    WritesB s ((s.writeB b k vs).setLen b n).complete b k vs n where
  completed := rfl
  length := (s.writeB b k vs).lenB_setLen b n
  bytes := by
    show ((s.writeB b k vs).memB b).holds k vs
    rw [State.memB_writeB]
    exact Memory.holds_writeBlock _ _ _
  frame := by
    show (s.memB b).sameOutside ((s.writeB b k vs).memB b) k vs.length
    rw [State.memB_writeB]
    exact Memory.sameOutside_writeBlock _ _ _
  others _ h := ⟨(s.writeB b k vs).lenB_setLen_of_ne n h, s.memB_writeB_of_ne k vs h⟩
  host := rfl
  x := rfl
  ver := rfl
  capb := rfl
  bs := rfl
  rs := rfl
  zig := rfl

/-- Writing no byte changes nothing. -/
theorem State.writeB_nil (s : State) (b : BReg) : s.writeB b 0 [] = s := by
  have hmem : (s.memB b).writeBlock 0 [] = s.memB b := by simp [Memory.writeBlock, cellsFrom]
  rw [State.writeB, hmem]
  simp [State.memB]

/-- A command that ends by setting a length writes no byte. -/
theorem writesB_setLen (s : State) (b : BReg) (n : Nat) : WritesB s (s.setLen b n).complete b 0 [] n := by
  have hwrites := writesB_writeB_setLen s b 0 [] n
  rwa [s.writeB_nil b] at hwrites

/-! ## Copies -/

/-- BCOPY produces the content its source had before (R157, R125). -/
theorem exec_bcopy {s : State} {ba : BReg} {a : List Byte} (bd : BReg) (ha : s.Holds ba a) :
    exec (.bcopy bd ba) s = .next (s.produce bd a).complete := by
  show finish ((s.content ba).map (s.produce bd)) = _
  rw [content_eq_ok.2 ha]
  rfl

/-- BCAT produces the contents its sources had before, one after the other (R158, R125). -/
theorem exec_bcat {s : State} {ba bb : BReg} {a b : List Byte} (bd : BReg) (ha : s.Holds ba a)
    (hb : s.Holds bb b) (hlen : a.length + b.length ≤ 256) :
    exec (.bcat bd ba bb) s = .next (s.produce bd (a ++ b)).complete := by
  have hcheck : ¬ s.lenB ba + s.lenB bb > Config.bufCap := by
    rw [← ha.1, ← hb.1]
    exact Nat.not_lt.2 hlen
  have hread : s.contents ba bb = .ok (a, b) := contents_eq_ok.2 ⟨ha, hb⟩
  rw [exec_of_check_passed rfl hcheck, hread]
  rfl

/-- Settles O16: both copies read their sources in the state before the command and produce what they read. -/
theorem copiesProduceOldContents : Obligations.CopiesProduceOldContents := by
  intro s bd ba bb a b
  refine ⟨encode_eq_commandWord_zero (by decide) rfl, encode_eq_commandWord_zero (by decide) rfl, fun ha => ?_,
    fun ha hb hlen => ?_, fun hlen => raises_of_check rfl hlen⟩
  · exact ⟨_, exec_bcopy bd ha, writesB_produce s bd a⟩
  · exact ⟨_, exec_bcat bd ha hb hlen, List.length_append (as := a) ▸ writesB_produce s bd (a ++ b)⟩

/-! ## Registers, lengths and the aggregate -/

/-- SETLEN up to the capacity (R154). -/
theorem exec_setlen {s : State} {bd : BReg} {imm : Nat} (h : imm ≤ 256) :
    exec (.setlen bd imm) s = .next (s.setLen bd imm).complete := by
  rw [exec_of_check_passed rfl (Nat.not_lt.2 h)]
  rfl

/-- Settles O14: NOP and AGGCLR complete with the state they name, the others by the shape of what they write. -/
theorem controlCommands : Obligations.ControlCommands := by
  intro s rd rs1 rs2 bd imm himm
  have hnop : encode .nop = 0x00000000 := by decide
  have haggclr : encode .aggclr = 0x09000000 := by decide
  refine ⟨hnop, encode_eq_commandWord (by decide) himm rfl, encode_eq_commandWord_zero (by decide) rfl,
    encode_eq_commandWord_zero (by decide) rfl, encode_eq_commandWord (by decide) himm rfl, haggclr,
    ⟨_, rfl, rfl, rfl⟩, ?ldi, ?mov, ?xor, fun hle => ?fits, fun hgt => raises_of_check rfl hgt,
    ⟨_, rfl, rfl, rfl⟩⟩
  case ldi => exact ⟨_, rfl, writesX_setX s rd _⟩
  case mov => exact ⟨_, rfl, writesX_setX s rd _⟩
  case xor => exact ⟨_, rfl, writesX_setX s rd _⟩
  case fits => exact ⟨_, exec_setlen hle, writesB_setLen s bd imm⟩

/-! ## Bytes -/

/-- BGET inside the content (R155). -/
theorem exec_bget {s : State} {ba : BReg} {rs1 : XReg} {b : Byte} (rd : XReg)
    (hk : (s.getX rs1).toNat < s.lenB ba) (hb : (s.memB ba).read (s.getX rs1).toNat = some b) :
    exec (.bget rd ba rs1) s = .next (s.setXByte rd b).complete := by
  have hread : s.byteB ba (s.natX rs1) = .ok b := readCell_eq_ok.2 hb
  rw [exec_of_check_passed rfl (Nat.not_le.2 hk), hread]
  rfl

/-- BPUT inside the buffer (R156). -/
theorem exec_bput {s : State} {bd : BReg} {rs1 rs2 : XReg} (hk : (s.getX rs1).toNat < 256) :
    exec (.bput bd rs1 rs2) s = .next ((s.writeB bd (s.natX rs1) [s.byteX rs2]).setLen bd
      (max (s.lenB bd) (s.natX rs1 + 1))).complete := by
  rw [exec_of_check_passed rfl (Nat.not_le.2 hk)]
  rfl

/-- Settles O15: either the index check raises, with the register as its detail, or the one byte is read or
written. -/
theorem byteCommands : Obligations.ByteCommands := by
  intro s rd rs1 rs2 bd ba k
  have hdata : BitVec.ofNat 32 k = s.getX rs1 := ofNat_toNat_word _
  rw [← hdata]
  refine ⟨encode_eq_commandWord_zero (by decide) rfl, encode_eq_commandWord_zero (by decide) rfl, fun b hk hb => ?_,
    fun hk => raises_of_check rfl hk, fun hk => ?_, fun hk => raises_of_check rfl hk⟩
  · exact ⟨_, exec_bget rd hk hb, writesX_setX s rd b.toWord⟩
  · exact ⟨_, exec_bput hk, writesB_writeB_setLen s bd k _ _⟩

end Sys2Proof.Machine
end

section
/-! PROOFS. The field GF(256) (41_gf256.md, R180 to R188): what the ROMs hold, and that the bytes are 0 and the
powers of α, which multiply by adding exponents. -/

namespace Sys2Proof.Machine

/-! ## The ROMs -/

/-- One round of R180: the shift left, and when a bit falls out the reduction by 0x11D, whose ninth bit is that
bit. It is multiplication by α, see `gfMul_gfExp_natCast`. -/
def xtime (x : Byte) : Byte := (x <<< 1) ^^^ (if x.msb then 0x1D else 0)

theorem toNat_xtime : ∀ x : Byte, (xtime x).toNat =
    if 2 * x.toNat < 256 then 2 * x.toNat else (2 * x.toNat) ^^^ 0x11D := by decide

theorem xtime_gfAdd (a b : Byte) : xtime (gfAdd a b) = gfAdd (xtime a) (xtime b) := by
  have hcarry : ∀ p q : Bool, (if (p ^^ q) then 0x1D else 0 : Byte)
      = (if p then 0x1D else 0) ^^^ (if q then 0x1D else 0) := by decide
  rw [gfAdd, xtime, BitVec.shiftLeft_xor_distrib, BitVec.msb_xor, hcarry, gfAdd, xtime, xtime]
  ac_rfl

/-- The indices of EXP are the bytes below 255, over which a table is checked. -/
theorem forall_lt_255_of_forall_byte {P : Nat → Prop} (h : ∀ x : Byte, x.toNat < 255 → P x.toNat) {i : Nat}
    (hi : i < 255) : P i := by
  have hx : (BitVec.ofNat 8 i).toNat = i := Nat.mod_eq_of_lt (by omega)
  exact hx ▸ h (BitVec.ofNat 8 i) (hx.symm ▸ hi)

/-- EXP goes round: its entry 254 is followed by its entry 0. -/
theorem expAt_succ {i : Nat} (hi : i < 255) : expAt ((i + 1) % 255) = xtime (expAt i) :=
  forall_lt_255_of_forall_byte (P := fun i => expAt ((i + 1) % 255) = xtime (expAt i)) (by decide) hi

theorem logAt_expAt {i : Nat} (hi : i < 255) : expAt i ≠ 0 ∧ logAt (expAt i) = i :=
  forall_lt_255_of_forall_byte (P := fun i => expAt i ≠ 0 ∧ logAt (expAt i) = i) (by decide) hi

theorem expAt_logAt : ∀ {x : Byte}, x ≠ 0 → logAt x < 255 ∧ expAt (logAt x) = x := by decide

/-! ## Sums -/

theorem gfAdd_comm (a b : Byte) : gfAdd a b = gfAdd b a := BitVec.xor_comm a b

theorem gfAdd_assoc (a b c : Byte) : gfAdd (gfAdd a b) c = gfAdd a (gfAdd b c) := BitVec.xor_assoc a b c

theorem gfAdd_left_comm (a b c : Byte) : gfAdd a (gfAdd b c) = gfAdd b (gfAdd a c) := by
  rw [← gfAdd_assoc, gfAdd_comm a b, gfAdd_assoc]

theorem gfAdd_zero_left (a : Byte) : gfAdd 0 a = a := BitVec.zero_xor

theorem gfAdd_zero_right (a : Byte) : gfAdd a 0 = a := BitVec.xor_zero

/-! ## The powers of α -/

theorem gfExp_natCast (n : Nat) : gfExp n = expAt (n % 255) := rfl

theorem gfExp_zero : gfExp 0 = 1 := rfl

theorem gfExp_natCast_succ (n : Nat) : gfExp (n + 1 : Nat) = xtime (gfExp n) := by
  rw [gfExp_natCast, gfExp_natCast, ← expAt_succ (Nat.mod_lt n (by decide)), Nat.mod_add_mod]

theorem gfExp_emod (i : Int) : gfExp (i % 255) = gfExp i := by
  rw [gfExp, gfExp, Int.emod_emod]

theorem toNat_emod_lt (i : Int) : (i % 255).toNat < 255 := by omega

theorem gfExp_ne_zero (i : Int) : gfExp i ≠ 0 := (logAt_expAt (toNat_emod_lt i)).1

theorem logAt_gfExp (i : Int) : (logAt (gfExp i) : Int) = i % 255 := by
  rw [gfExp, (logAt_expAt (toNat_emod_lt i)).2]
  omega

/-- Every byte is 0 or a power of α (R181). -/
theorem eq_zero_or_gfExp (a : Byte) : a = 0 ∨ ∃ n : Nat, a = gfExp n := by
  refine or_iff_not_imp_left.2 fun ha => ⟨logAt a, ?_⟩
  obtain ⟨hlt, hexp⟩ := expAt_logAt ha
  rw [gfExp_natCast, Nat.mod_eq_of_lt hlt, hexp]

/-! ## Products and quotients -/

theorem gfMul_zero_left (a : Byte) : gfMul 0 a = 0 := if_pos (.inl rfl)

theorem gfMul_zero_right (a : Byte) : gfMul a 0 = 0 := if_pos (.inr rfl)

theorem gfMul_comm (a b : Byte) : gfMul a b = gfMul b a := by
  simp only [gfMul, or_comm (a := a = 0), Nat.add_comm (logAt a)]

theorem gfMul_gfExp (i j : Int) : gfMul (gfExp i) (gfExp j) = gfExp (i + j) := by
  have hnz : ¬ (gfExp i = 0 ∨ gfExp j = 0) := not_or.2 ⟨gfExp_ne_zero i, gfExp_ne_zero j⟩
  rw [gfMul, if_neg hnz, ← gfExp_natCast, Nat.cast_add, logAt_gfExp, logAt_gfExp, ← gfExp_emod, ← Int.add_emod,
    gfExp_emod]

theorem gfDiv_gfExp (i j : Int) : gfDiv (gfExp i) (gfExp j) = some (gfExp (i - j)) := by
  rw [gfDiv, if_neg (gfExp_ne_zero j), if_neg (gfExp_ne_zero i), logAt_gfExp, logAt_gfExp, ← Int.sub_emod, gfExp]

theorem gfMul_one_left (a : Byte) : gfMul 1 a = a := by
  obtain rfl | ⟨n, rfl⟩ := eq_zero_or_gfExp a
  · exact gfMul_zero_right 1
  · rw [← gfExp_zero, gfMul_gfExp, Int.zero_add]

theorem gfMul_one_right (a : Byte) : gfMul a 1 = a := by rw [gfMul_comm, gfMul_one_left]

theorem gfMul_assoc (a b c : Byte) : gfMul (gfMul a b) c = gfMul a (gfMul b c) := by
  obtain rfl | ⟨i, rfl⟩ := eq_zero_or_gfExp a
  · simp only [gfMul_zero_left]
  obtain rfl | ⟨j, rfl⟩ := eq_zero_or_gfExp b
  · simp only [gfMul_zero_left, gfMul_zero_right]
  obtain rfl | ⟨k, rfl⟩ := eq_zero_or_gfExp c
  · simp only [gfMul_zero_right]
  simp only [gfMul_gfExp, Int.add_assoc]

theorem gfMul_left_comm (a b c : Byte) : gfMul a (gfMul b c) = gfMul b (gfMul a c) := by
  rw [← gfMul_assoc, gfMul_comm a b, gfMul_assoc]

theorem gfMul_eq_zero_iff (a b : Byte) : gfMul a b = 0 ↔ a = 0 ∨ b = 0 := by
  obtain rfl | ⟨i, rfl⟩ := eq_zero_or_gfExp a
  · simp only [gfMul_zero_left, true_or]
  obtain rfl | ⟨j, rfl⟩ := eq_zero_or_gfExp b
  · simp only [gfMul_zero_right, or_true]
  simp only [gfMul_gfExp, gfExp_ne_zero, or_self]

/-- Multiplication by α^n is n rounds of the construction, by which it is additive. -/
theorem gfMul_gfExp_natCast (n : Nat) (b : Byte) : gfMul (gfExp n) b = xtime^[n] b := by
  obtain rfl | ⟨j, rfl⟩ := eq_zero_or_gfExp b
  · rw [gfMul_zero_right, Function.iterate_fixed (by decide)]
  rw [gfMul_gfExp, ← Nat.cast_add]
  induction n with
  | zero => rw [Nat.zero_add, Function.iterate_zero_apply]
  | succ n ih => rw [Function.iterate_succ_apply', ← ih, ← gfExp_natCast_succ, Nat.add_right_comm]

theorem gfMul_gfAdd (a b c : Byte) : gfMul a (gfAdd b c) = gfAdd (gfMul a b) (gfMul a c) := by
  obtain rfl | ⟨n, rfl⟩ := eq_zero_or_gfExp a
  · simp only [gfMul_zero_left, gfAdd_zero_right]
  have hadd : Function.Semiconj₂ xtime gfAdd gfAdd := xtime_gfAdd
  simpa only [gfMul_gfExp_natCast] using hadd.iterate n b c

theorem gfAdd_gfMul (a b c : Byte) : gfMul (gfAdd a b) c = gfAdd (gfMul a c) (gfMul b c) := by
  rw [gfMul_comm, gfMul_gfAdd, gfMul_comm c, gfMul_comm c]

/-- A divisor that is not 0 has an inverse, and dividing by it is multiplying by that. -/
theorem exists_gfInv {b : Byte} (hb : b ≠ 0) :
    ∃ r, gfInv b = some r ∧ gfMul r b = 1 ∧ ∀ a, gfDiv a b = some (gfMul a r) := by
  obtain rfl | ⟨n, rfl⟩ := eq_zero_or_gfExp b
  · exact absurd rfl hb
  refine ⟨gfExp (-n), ?_, ?_, fun a => ?_⟩
  · rw [gfInv, ← gfExp_zero, gfDiv_gfExp, Int.zero_sub]
  · rw [gfMul_gfExp, Int.add_left_neg, gfExp_zero]
  · obtain rfl | ⟨m, rfl⟩ := eq_zero_or_gfExp a
    · rw [gfMul_zero_left, gfDiv, if_neg hb, if_pos rfl]
    · rw [gfDiv_gfExp, gfMul_gfExp, Int.sub_eq_add_neg]

theorem gfDiv_zero (a : Byte) : gfDiv a 0 = none := if_pos rfl

/-- Settles O17: the ROMs are checked entry by entry, and the laws are those of exponents and of `xtime`. -/
theorem tablesAndFieldLaws : Obligations.TablesAndFieldLaws := by
  refine ⟨rfl, fun i hi => ?_, fun i hi => logAt_expAt hi, fun x hx => expAt_logAt hx, gfMul_comm, gfMul_assoc,
    fun a => ⟨gfMul_one_left a, gfMul_zero_left a⟩, gfMul_gfAdd, gfMul_eq_zero_iff, fun a b hb => ?_⟩
  · rw [← toNat_xtime, ← expAt_succ (by omega), Nat.mod_eq_of_lt (by omega)]
  · obtain ⟨r, hinv, hone, hdiv⟩ := exists_gfInv hb
    exact ⟨gfMul a r, r, hdiv a, hinv, by rw [gfMul_assoc, hone, gfMul_one_right], rfl⟩

end Sys2Proof.Machine
end

section
/-! PROOFS. The field commands (41_gf256.md, R190 to R195): each writes its byte or its logarithm, or raises for an
operand of 0. -/

namespace Sys2Proof.Machine

/-- GDIV by a byte that is not 0 (R192). -/
theorem exec_gdiv {s : State} {rs1 rs2 : XReg} {q : Byte} (rd : XReg)
    (hq : gfDiv (s.byteX rs1) (s.byteX rs2) = some q) :
    exec (.gdiv rd rs1 rs2) s = .next (s.setXByte rd q).complete := by
  show execGdiv rd rs1 rs2 s = _
  rw [execGdiv, hq]
  rfl

/-- GDIV by 0 reports the dividend (R192). -/
theorem exec_gdiv_zero {s : State} {rs1 rs2 : XReg} (rd : XReg) (hb : s.byteX rs2 = 0) :
    exec (.gdiv rd rs1 rs2) s = .next (s.raise (.gdiv rd rs1 rs2) .divByZero (s.byteX rs1).toNat).complete := by
  show execGdiv rd rs1 rs2 s = _
  rw [execGdiv, hb, gfDiv_zero]
  rfl

/-- GINV of a byte that is not 0 (R193). -/
theorem exec_ginv {s : State} {rs1 : XReg} {q : Byte} (rd : XReg) (hq : gfInv (s.byteX rs1) = some q) :
    exec (.ginv rd rs1) s = .next (s.setXByte rd q).complete := by
  show execGinv rd rs1 s = _
  rw [execGinv, hq]
  rfl

/-- GINV of 0 (R193). -/
theorem exec_ginv_zero {s : State} {rs1 : XReg} (rd : XReg) (ha : s.byteX rs1 = 0) :
    exec (.ginv rd rs1) s = .next (s.raise (.ginv rd rs1) .divByZero 0).complete := by
  show execGinv rd rs1 s = _
  rw [execGinv, ha, gfInv, gfDiv_zero]
  rfl

/-- GLOG of a byte that is not 0 (R195). -/
theorem exec_glog {s : State} {rs1 : XReg} (rd : XReg) (ha : s.byteX rs1 ≠ 0) :
    exec (.glog rd rs1) s = .next (s.setXNat rd (logAt (s.byteX rs1))).complete := by
  show execGlog rd rs1 s = _
  rw [execGlog, gfLog, if_neg ha]
  rfl

/-- GLOG of 0 (R195). -/
theorem exec_glog_zero {s : State} {rs1 : XReg} (rd : XReg) (ha : s.byteX rs1 = 0) :
    exec (.glog rd rs1) s = .next (s.raise (.glog rd rs1) .logOfZero 0).complete := by
  show execGlog rd rs1 s = _
  rw [execGlog, gfLog, if_pos ha]
  rfl

/-- Settles O18: GADD, GMUL and GEXP write a register in every state, the others by whether the operand is 0. -/
theorem fieldCommands : Obligations.FieldCommands := by
  intro s rd rs1 rs2 a b
  refine ⟨encode_eq_commandWord_zero (by decide) rfl, encode_eq_commandWord_zero (by decide) rfl,
    encode_eq_commandWord_zero (by decide) rfl, encode_eq_commandWord_zero (by decide) rfl,
    encode_eq_commandWord_zero (by decide) rfl, encode_eq_commandWord_zero (by decide) rfl,
    ⟨_, rfl, writesX_setX s rd _⟩, ⟨_, rfl, writesX_setX s rd _⟩, ⟨_, rfl, writesX_setX s rd _⟩,
    fun hb => ?div, fun hb => ?divZero, fun ha => ?inv, fun ha => ?invZero, fun ha => ?log, fun ha => ?logZero⟩
  case div =>
    obtain ⟨r, -, -, hdiv⟩ := exists_gfInv hb
    exact ⟨_, _, exec_gdiv rd (hdiv a), hdiv a, writesX_setX s rd _⟩
  case divZero =>
    rw [← BitVec.ofNat_toNat]
    exact ⟨_, exec_gdiv_zero rd hb, raises_raise s _ _ _⟩
  case inv =>
    obtain ⟨r, hinv, hone, -⟩ := exists_gfInv ha
    exact ⟨_, r, exec_ginv rd hinv, hone, writesX_setX s rd _⟩
  case invZero => exact ⟨_, exec_ginv_zero rd ha, raises_raise s _ _ _⟩
  case log =>
    obtain ⟨hlt, hexp⟩ := expAt_logAt ha
    exact ⟨_, logAt a, exec_glog rd ha, hlt, hexp, writesX_setX s rd _⟩
  case logZero => exact ⟨_, exec_glog_zero rd ha, raises_raise s _ _ _⟩

end Sys2Proof.Machine
end

section
/-! PROOFS. Products of polynomials (42_polynomial.md, R211): `pmul` by its second operand's head as well as by its
first's, from which its laws follow, and Horner's scheme as a sum of shifted coefficients. -/

namespace Sys2Proof.Machine

/-! ## Sums and multiples of lists -/

theorem polyAdd_nil_right (p : List Byte) : polyAdd p [] = p := by cases p <;> rfl

theorem polyAdd_comm (p q : List Byte) : polyAdd p q = polyAdd q p := by
  induction p generalizing q with
  | nil => rw [polyAdd_nil_right, polyAdd]
  | cons a p ih =>
    cases q with
    | nil => rfl
    | cons b q => rw [polyAdd, polyAdd, gfAdd_comm, ih]

theorem polyAdd_assoc (p q r : List Byte) : polyAdd (polyAdd p q) r = polyAdd p (polyAdd q r) := by
  induction p generalizing q r with
  | nil => rfl
  | cons a p ih =>
    cases q with
    | nil => rfl
    | cons b q =>
      cases r with
      | nil => rfl
      | cons c r => simp only [polyAdd, gfAdd_assoc, ih]

theorem polyAdd_left_comm (p q r : List Byte) : polyAdd p (polyAdd q r) = polyAdd q (polyAdd p r) := by
  rw [← polyAdd_assoc, polyAdd_comm p q, polyAdd_assoc]

/-- The sum with a list of zeros that is no longer. -/
theorem polyAdd_replicate_zero {p : List Byte} {n : Nat} (h : n ≤ p.length) :
    polyAdd (List.replicate n 0) p = p := by
  induction n generalizing p with
  | zero => rfl
  | succ n ih =>
    obtain ⟨a, p, rfl⟩ := List.exists_cons_of_length_pos (by omega : 0 < p.length)
    rw [List.replicate_succ, polyAdd, gfAdd_zero_left, ih (Nat.le_of_succ_le_succ h)]

theorem polyScale_cons (c a : Byte) (p : List Byte) : polyScale c (a :: p) = gfMul c a :: polyScale c p := rfl

theorem polyScale_one (p : List Byte) : polyScale 1 p = p := by
  simp only [polyScale, gfMul_one_left, List.map_id']

theorem polyScale_zero (p : List Byte) : polyScale 0 p = List.replicate p.length 0 := by
  simp only [polyScale, gfMul_zero_left, List.map_const']

theorem polyScale_polyScale (c d : Byte) (p : List Byte) :
    polyScale c (polyScale d p) = polyScale (gfMul c d) p := by
  simp only [polyScale, List.map_map, Function.comp_def, gfMul_assoc]

theorem polyScale_polyAdd (c : Byte) (p q : List Byte) :
    polyScale c (polyAdd p q) = polyAdd (polyScale c p) (polyScale c q) := by
  induction p generalizing q with
  | nil => rfl
  | cons a p ih =>
    cases q with
    | nil => rfl
    | cons b q => simp only [polyAdd, polyScale_cons, gfMul_gfAdd, ih]

theorem polyScale_gfAdd (c d : Byte) (p : List Byte) :
    polyScale (gfAdd c d) p = polyAdd (polyScale c p) (polyScale d p) := by
  induction p with
  | nil => rfl
  | cons a p ih => simp only [polyScale_cons, polyAdd, gfAdd_gfMul, ih]

/-! ## Products of lists -/

theorem pmul_nil_left (q : List Byte) : pmul [] q = [] := rfl

theorem pmul_singleton_left (a : Byte) (q : List Byte) : pmul [a] q = polyScale a q := rfl

theorem pmul_cons_of_ne_nil (a : Byte) {p : List Byte} (hp : p ≠ []) (q : List Byte) :
    pmul (a :: p) q = polyAdd (polyScale a q) (0 :: pmul p q) := by
  obtain ⟨b, p, rfl⟩ := List.exists_cons_of_ne_nil hp
  rfl

/-- The first row of the double loop and the rows that follow it. -/
theorem pmul_cons_left (a : Byte) (p : List Byte) {q : List Byte} (hq : q ≠ []) :
    pmul (a :: p) q = polyAdd (polyScale a q) (0 :: pmul p q) := by
  cases p with
  | nil =>
    have hle : 1 ≤ (polyScale a q).length := by rw [length_polyScale]; exact List.length_pos_iff.2 hq
    rw [pmul_singleton_left, pmul_nil_left, polyAdd_comm]
    exact (polyAdd_replicate_zero hle).symm
  | cons b p => rfl

theorem pmul_singleton_right (p : List Byte) (a : Byte) : pmul p [a] = polyScale a p := by
  induction p with
  | nil => rfl
  | cons b p ih =>
    rw [pmul_cons_left b p (List.cons_ne_nil a []), ih, polyScale_cons, polyScale_cons, polyAdd, gfAdd_zero_right,
      gfMul_comm]
    rfl

/-- The first column of the double loop and the columns that follow it. -/
theorem pmul_cons_right {p : List Byte} (hp : p ≠ []) (b : Byte) (q : List Byte) :
    pmul p (b :: q) = polyAdd (polyScale b p) (0 :: pmul p q) := by
  induction p with
  | nil => exact absurd rfl hp
  | cons a p ih =>
    cases p with
    | nil =>
      rw [pmul_singleton_left, pmul_singleton_left, polyScale_cons, polyScale_cons, polyAdd, gfAdd_zero_right,
        gfMul_comm]
      rfl
    | cons a' p =>
      have hp' : a' :: p ≠ [] := List.cons_ne_nil a' p
      rw [pmul_cons_of_ne_nil a hp', pmul_cons_of_ne_nil a hp', ih hp', polyScale_cons a b, polyScale_cons b a,
        polyAdd, polyAdd, polyAdd_left_comm, gfMul_comm]

theorem pmul_comm {p q : List Byte} (hp : p ≠ []) (hq : q ≠ []) : pmul p q = pmul q p := by
  induction p with
  | nil => exact absurd rfl hp
  | cons a p ih =>
    cases p with
    | nil => rw [pmul_singleton_left, pmul_singleton_right]
    | cons a' p => rw [pmul_cons_left a _ hq, pmul_cons_right hq, ih (List.cons_ne_nil a' p)]

theorem pmul_ne_nil {p q : List Byte} (hp : p ≠ []) (hq : q ≠ []) : pmul p q ≠ [] := by
  have hp' := List.length_pos_iff.2 hp
  have hq' := List.length_pos_iff.2 hq
  rw [← List.length_pos_iff, length_pmul hp hq]
  omega

theorem polyAdd_zero_cons (p q : List Byte) : polyAdd (0 :: p) (0 :: q) = 0 :: polyAdd p q := rfl

theorem pmul_polyScale (c : Byte) (p : List Byte) {q : List Byte} (hq : q ≠ []) :
    pmul (polyScale c p) q = polyScale c (pmul p q) := by
  induction p with
  | nil => rfl
  | cons a p ih =>
    rw [polyScale_cons, pmul_cons_left _ _ hq, pmul_cons_left _ _ hq, ih, polyScale_polyAdd, polyScale_polyScale,
      polyScale_cons, gfMul_zero_right]

theorem pmul_polyAdd (p p' : List Byte) {q : List Byte} (hq : q ≠ []) :
    pmul (polyAdd p p') q = polyAdd (pmul p q) (pmul p' q) := by
  induction p generalizing p' with
  | nil => rfl
  | cons a p ih =>
    cases p' with
    | nil => rw [polyAdd_nil_right, pmul_nil_left, polyAdd_nil_right]
    | cons a' p' =>
      rw [polyAdd, pmul_cons_left _ _ hq, pmul_cons_left _ _ hq, pmul_cons_left _ _ hq, ih, polyScale_gfAdd,
        ← polyAdd_zero_cons, polyAdd_assoc, polyAdd_assoc, polyAdd_left_comm (polyScale a' q)]

theorem pmul_zero_cons {p q : List Byte} (hp : p ≠ []) (hq : q ≠ []) : pmul (0 :: p) q = 0 :: pmul p q := by
  have hle : q.length ≤ (0 :: pmul p q).length := by
    have hp' := List.length_pos_iff.2 hp
    rw [List.length_cons, length_pmul hp hq]
    omega
  rw [pmul_cons_left 0 p hq, polyScale_zero, polyAdd_replicate_zero hle]

theorem pmul_assoc (p : List Byte) {q r : List Byte} (hq : q ≠ []) (hr : r ≠ []) :
    pmul (pmul p q) r = pmul p (pmul q r) := by
  induction p with
  | nil => rfl
  | cons a p ih =>
    cases p with
    | nil => exact pmul_polyScale a q hr
    | cons a' p =>
      have hp : a' :: p ≠ [] := List.cons_ne_nil a' p
      rw [pmul_cons_of_ne_nil a hp, pmul_cons_of_ne_nil a hp, pmul_polyAdd _ _ hr, pmul_polyScale a q hr,
        pmul_zero_cons (pmul_ne_nil hp hq) hr, ih]

/-! ## Evaluation -/

/-- y times x^n. -/
def gfMulPow (x : Byte) (n : Nat) (y : Byte) : Byte := (gfMul x)^[n] y

theorem gfMulPow_zero (x y : Byte) : gfMulPow x 0 y = y := rfl

theorem gfMulPow_succ (x : Byte) (n : Nat) (y : Byte) : gfMulPow x (n + 1) y = gfMulPow x n (gfMul x y) := rfl

theorem gfMulPow_gfAdd (x : Byte) (n : Nat) (y z : Byte) :
    gfMulPow x n (gfAdd y z) = gfAdd (gfMulPow x n y) (gfMulPow x n z) :=
  Function.Semiconj₂.iterate (f := gfMul x) (gfMul_gfAdd x) n y z

theorem gfMulPow_gfMul (x : Byte) (n : Nat) (c y : Byte) :
    gfMulPow x n (gfMul c y) = gfMul c (gfMulPow x n y) := by
  induction n generalizing y with
  | zero => rfl
  | succ n ih => rw [gfMulPow_succ, gfMul_left_comm, ih, gfMulPow_succ]

theorem gfMulPow_zero_right (x : Byte) (n : Nat) : gfMulPow x n 0 = 0 :=
  Function.iterate_fixed (gfMul_zero_right x) n

theorem gfMulPow_add (x : Byte) (m n : Nat) (y : Byte) :
    gfMulPow x (m + n) y = gfMulPow x m (gfMulPow x n y) := Function.iterate_add_apply _ m n y

/-- Horner's scheme goes on from y as if y were a leading coefficient. -/
theorem foldl_horner (p : List Byte) (x y : Byte) :
    p.foldl (fun y c => gfAdd (gfMul y x) c) y = gfAdd (gfMulPow x p.length y) (pevalHf p x) := by
  induction p generalizing y with
  | nil => exact (gfAdd_zero_right y).symm
  | cons c p ih =>
    rw [pevalHf, List.foldl_cons, List.foldl_cons, ih, ih (gfAdd (gfMul 0 x) c), gfMul_zero_left, gfAdd_zero_left,
      gfMulPow_gfAdd, gfAdd_assoc, gfMul_comm, ← gfMulPow_succ, List.length_cons]

theorem pevalHf_nil (x : Byte) : pevalHf [] x = 0 := rfl

theorem pevalHf_cons (a : Byte) (p : List Byte) (x : Byte) :
    pevalHf (a :: p) x = gfAdd (gfMulPow x p.length a) (pevalHf p x) := by
  rw [pevalHf, List.foldl_cons, gfMul_zero_left, gfAdd_zero_left, foldl_horner]

theorem pevalHf_polyScale (c : Byte) (p : List Byte) (x : Byte) :
    pevalHf (polyScale c p) x = gfMul c (pevalHf p x) := by
  induction p with
  | nil => exact (gfMul_zero_right c).symm
  | cons a p ih => rw [polyScale_cons, pevalHf_cons, pevalHf_cons, ih, length_polyScale, gfMulPow_gfMul, gfMul_gfAdd]

/-- `polyAdd` lines its operands up at the highest power, so the value of the shorter one counts shifted. -/
theorem pevalHf_polyAdd (p q : List Byte) (x : Byte) (h : p.length ≤ q.length) :
    pevalHf (polyAdd p q) x = gfAdd (gfMulPow x (q.length - p.length) (pevalHf p x)) (pevalHf q x) := by
  induction p generalizing q with
  | nil => rw [polyAdd, pevalHf_nil, gfMulPow_zero_right, gfAdd_zero_left]
  | cons a p ih =>
    obtain ⟨b, q, rfl⟩ := List.exists_cons_of_length_pos (Nat.lt_of_lt_of_le (Nat.succ_pos _) h)
    have hle : p.length ≤ q.length := Nat.le_of_succ_le_succ h
    have hmul (y : Byte) : gfMulPow x q.length y = gfMulPow x (q.length - p.length) (gfMulPow x p.length y) := by
      rw [← gfMulPow_add, Nat.sub_add_cancel hle]
    rw [polyAdd, pevalHf_cons, pevalHf_cons, pevalHf_cons, ih q hle, length_polyAdd, Nat.max_eq_right hle,
      List.length_cons, List.length_cons, Nat.add_sub_add_right, gfMulPow_gfAdd, gfMulPow_gfAdd, hmul a,
      gfAdd_assoc, gfAdd_assoc, gfAdd_left_comm (gfMulPow x q.length b)]

theorem pevalHf_pmul (p : List Byte) {q : List Byte} (hq : q ≠ []) (x : Byte) :
    pevalHf (pmul p q) x = gfMul (pevalHf p x) (pevalHf q x) := by
  have hq' := List.length_pos_iff.2 hq
  induction p with
  | nil => rw [pmul_nil_left, pevalHf_nil, gfMul_zero_left]
  | cons a p ih =>
    have hshift : gfMulPow x p.length (gfMul a (pevalHf q x)) = gfMul (gfMulPow x p.length a) (pevalHf q x) := by
      rw [gfMul_comm a, gfMulPow_gfMul, gfMul_comm]
    cases p with
    | nil =>
      rw [pmul_singleton_left, pevalHf_polyScale, pevalHf_cons, pevalHf_nil, gfAdd_zero_right, List.length_nil,
        gfMulPow_zero]
    | cons a' p =>
      have hlen : (0 :: pmul (a' :: p) q).length = (a' :: p).length + q.length := by
        rw [List.length_cons, length_pmul_cons a' p q hq, List.length_cons]
        omega
      rw [pmul_cons_left a _ hq, pevalHf_polyAdd, pevalHf_polyScale, length_polyScale, hlen, Nat.add_sub_cancel,
        hshift, pevalHf_cons 0, gfMulPow_zero_right, gfAdd_zero_left, ih, pevalHf_cons a, gfAdd_gfMul]
      · rw [length_polyScale, hlen]
        omega

/-- Settles O21: the laws of the lists, with `pmul [1] a` the multiple by 1. -/
theorem productLaws : Obligations.ProductLaws := by
  intro a b c ha hb hc
  exact ⟨pmul_comm ha hb, pmul_assoc a hb hc, polyScale_one a, pevalHf_pmul a hb⟩

end Sys2Proof.Machine
end

section
/-! PROOFS. What `pmul` and Horner's scheme compute, as sums in the field (42_polynomial.md, R210, R211): the
convolution coefficient by coefficient, and at a power of α the power sum of R252. -/

namespace Sys2Proof.Machine

/-! ## Sums in the field -/

/-- f 0 + … + f (n − 1). -/
def gfSum (n : Nat) (f : Nat → Byte) : Byte := (List.range n).foldl (fun y k => gfAdd y (f k)) 0

theorem gfSum_zero (f : Nat → Byte) : gfSum 0 f = 0 := rfl

theorem gfSum_succ (n : Nat) (f : Nat → Byte) : gfSum (n + 1) f = gfAdd (gfSum n f) (f n) := by
  rw [gfSum, List.range_succ, List.foldl_concat, gfSum]

/-- A sum by its first term; `gfSum_succ` is by its last. -/
theorem gfSum_succ_left (n : Nat) (f : Nat → Byte) :
    gfSum (n + 1) f = gfAdd (f 0) (gfSum n fun k => f (k + 1)) := by
  induction n with
  | zero => rw [gfSum_succ, gfSum_zero, gfSum_zero, gfAdd_comm]
  | succ n ih => rw [gfSum_succ, ih, gfAdd_assoc, ← gfSum_succ]

theorem gfSum_eq_zero {f : Nat → Byte} (n : Nat) (h : ∀ k, f k = 0) : gfSum n f = 0 := by
  induction n with
  | zero => rfl
  | succ n ih => rw [gfSum_succ, ih, h, gfAdd_zero_left]

/-! ## Coefficients -/

theorem getD_polyScale (c : Byte) (p : List Byte) (n : Nat) :
    (polyScale c p).getD n 0 = gfMul c (p.getD n 0) := by
  have hmap := List.getD_map p 0 (n := n) (gfMul c)
  rwa [gfMul_zero_right] at hmap

theorem getD_polyAdd (p q : List Byte) (n : Nat) :
    (polyAdd p q).getD n 0 = gfAdd (p.getD n 0) (q.getD n 0) := by
  induction p generalizing q n with
  | nil => rw [polyAdd, List.getD_nil, gfAdd_zero_left]
  | cons a p ih =>
    cases q with
    | nil => rw [polyAdd_nil_right, List.getD_nil, gfAdd_zero_right]
    | cons b q =>
      cases n with
      | zero => rfl
      | succ n => exact ih q n

/-- Coefficient n of a product is the convolution (R211), for n past its end too: each term is then 0. -/
theorem getD_pmul (p : List Byte) {q : List Byte} (hq : q ≠ []) (n : Nat) :
    (pmul p q).getD n 0 = gfSum (n + 1) fun i => gfMul (p.getD i 0) (q.getD (n - i) 0) := by
  induction p generalizing n with
  | nil => exact (gfSum_eq_zero _ fun _ => gfMul_zero_left _).symm
  | cons a p ih =>
    rw [pmul_cons_left a p hq, getD_polyAdd, getD_polyScale, gfSum_succ_left]
    cases n with
    | zero => rfl
    | succ n =>
      simp only [List.getD_cons_zero, List.getD_cons_succ, Nat.sub_zero, Nat.add_sub_add_right, ih]

/-! ## Horner's scheme at a power of α -/

theorem gfMulPow_gfExp (i n : Nat) (y : Byte) :
    gfMulPow (gfExp i) n y = gfMul y (gfExp (i * n : Nat)) := by
  induction n generalizing y with
  | zero => exact (gfMul_one_right y).symm
  | succ n ih =>
    rw [gfMulPow_succ, ih, gfMul_comm (gfExp i), gfMul_assoc, gfMul_gfExp, ← Nat.cast_add, Nat.mul_succ,
      Nat.add_comm]

/-- Each coefficient counts by the power its place has (R210, R252). -/
theorem pevalHf_gfExp (p : List Byte) (i : Nat) : pevalHf p (gfExp i) =
    gfSum p.length fun k => gfMul (p.getD k 0) (gfExp (i * (p.length - 1 - k) : Nat)) := by
  induction p with
  | nil => rfl
  | cons a p ih =>
    have hplace (k : Nat) : p.length - 1 - k = p.length - (k + 1) := by omega
    rw [pevalHf_cons, gfMulPow_gfExp, ih, List.length_cons, gfSum_succ_left]
    simp only [List.getD_cons_zero, List.getD_cons_succ, Nat.add_sub_cancel, Nat.sub_zero, hplace]

/-- Settles O20: both folds are `gfSum`, and below its length the product has a coefficient. -/
theorem hornerAndConvolution : Obligations.HornerAndConvolution := by
  refine ⟨pevalHf_gfExp, fun a b ha hb => ⟨length_pmul ha hb, fun n hn => ?_⟩⟩
  have hlt : n < (pmul a b).length := length_pmul ha hb ▸ hn
  have hcoeff : (pmul a b)[n] = (pmul a b).getD n 0 := (List.getD_eq_getElem _ 0 hlt).symm
  rw [List.getElem?_eq_getElem hlt, hcoeff, getD_pmul a hb]
  rfl

end Sys2Proof.Machine
end

section
/-! PROOFS. PEVAL and PMUL (42_polynomial.md, R212, R213): each reads its operands in the state before it. -/

namespace Sys2Proof.Machine

/-- PEVAL of a readable content (R212). -/
theorem exec_peval {s : State} {ba : BReg} {a : List Byte} (rd rs1 : XReg) (ha : s.Holds ba a) :
    exec (.peval rd ba rs1) s = .next (s.setXByte rd (pevalHf a (s.byteX rs1))).complete := by
  show execPeval rd ba rs1 s = _
  rw [execPeval, content_eq_ok.2 ha]
  rfl

/-- PMUL of non-empty operands goes on to the check of the product's length (R213). -/
theorem exec_pmul_of_ne_zero {s : State} {ba bb : BReg} (bd : BReg) (ha : s.lenB ba ≠ 0) (hb : s.lenB bb ≠ 0) :
    exec (.pmul bd ba bb) s = finish (if s.lenB ba + s.lenB bb - 1 > Config.bufCap
      then .ok (s.raise (.pmul bd ba bb) .length (s.lenB ba + s.lenB bb - 1))
      else (s.contents ba bb).map fun p => s.produce bd (pmul p.1 p.2)) :=
  exec_of_check_passed rfl (not_or.2 ⟨ha, hb⟩)

theorem State.Holds.lenB_ne_zero {s : State} {b : BReg} {d : List Byte} (hd : s.Holds b d) (h : d ≠ []) :
    s.lenB b ≠ 0 := hd.1 ▸ mt List.length_eq_zero_iff.1 h

/-- PMUL of readable operands whose product fits (R213). -/
theorem exec_pmul {s : State} {ba bb : BReg} {a b : List Byte} (bd : BReg) (ha : s.Holds ba a) (hb : s.Holds bb b)
    (hane : a ≠ []) (hbne : b ≠ []) (hlen : a.length + b.length - 1 ≤ 256) :
    exec (.pmul bd ba bb) s = .next (s.produce bd (pmul a b)).complete := by
  have hfits : ¬ s.lenB ba + s.lenB bb - 1 > Config.bufCap := by
    rw [← ha.1, ← hb.1]
    exact Nat.not_lt.2 hlen
  have hread : s.contents ba bb = .ok (a, b) := contents_eq_ok.2 ⟨ha, hb⟩
  rw [exec_pmul_of_ne_zero bd (ha.lenB_ne_zero hane) (hb.lenB_ne_zero hbne), if_neg hfits, hread]
  rfl

/-- Settles O19: PEVAL reads and writes, and PMUL raises at the first of its two checks that fails. -/
theorem polynomialCommands : Obligations.PolynomialCommands := by
  intro s rd rs1 bd ba bb a b
  refine ⟨encode_eq_commandWord_zero (by decide) rfl, encode_eq_commandWord_zero (by decide) rfl, fun ha => ?value,
    fun ha hb hane hbne hlen => ?product, fun hempty => raises_of_check rfl hempty,
    fun ha hb hlong => raises_of_check (exec_pmul_of_ne_zero bd ha hb) hlong⟩
  case value => exact ⟨_, exec_peval rd rs1 ha, writesX_setX s rd _⟩
  case product =>
    exact ⟨_, exec_pmul bd ha hb hane hbne hlen, length_pmul hane hbne ▸ writesB_produce s bd (pmul a b)⟩

end Sys2Proof.Machine
end

section
/-! PROOFS. The Reed-Solomon encoder's functions (43_rs_encoder.md, R230, R231, R234): the generator is monic and
vanishes at its roots, and the long division leaves the dividend less a multiple of the divisor. -/

namespace Sys2Proof.Machine

/-! ## The generator -/

theorem gfAdd_self (a : Byte) : gfAdd a a = 0 := BitVec.xor_self

/-- One more codeword is one more linear factor (R230). -/
theorem rsGen_succ (n : Nat) : rsGen (n + 1) = pmul (rsGen n) [1, gfExp n] := by
  simp [rsGen, List.range_succ]

theorem rsGen_ne_nil (n : Nat) : rsGen n ≠ [] := List.length_pos_iff.1 (length_rsGen n ▸ Nat.succ_pos n)

/-- A product of monic operands is monic. -/
theorem head?_pmul_monic (p q : List Byte) : (pmul (1 :: p) (1 :: q)).head? = some 1 := by
  rw [pmul_cons_left 1 p (List.cons_ne_nil 1 q), polyScale_one, polyAdd, gfAdd_zero_right, List.head?_cons]

theorem head?_rsGen (n : Nat) : (rsGen n).head? = some 1 := by
  induction n with
  | zero => rfl
  | succ n ih =>
    obtain ⟨g, hg⟩ := List.head?_eq_some_iff.1 ih
    rw [rsGen_succ, hg, head?_pmul_monic]

/-- The linear factor x − a, a sum as much as a difference, vanishes at a. -/
theorem pevalHf_linear_root (a : Byte) : pevalHf [1, a] a = 0 := by
  have hlead : gfMulPow a 1 1 = a := gfMul_one_right a
  have hconst : pevalHf [a] a = a := by rw [pevalHf_cons, pevalHf_nil, gfAdd_zero_right, List.length_nil, gfMulPow_zero]
  rw [pevalHf_cons, hconst, List.length_singleton, hlead, gfAdd_self]

theorem pevalHf_rsGen {n i : Nat} (hi : i < n) : pevalHf (rsGen n) (gfExp i) = 0 := by
  induction n with
  | zero => exact absurd hi (Nat.not_lt_zero i)
  | succ n ih =>
    rw [rsGen_succ, pevalHf_pmul _ (List.cons_ne_nil _ _)]
    obtain hlt | rfl := Nat.lt_succ_iff_lt_or_eq.1 hi
    · rw [ih hlt, gfMul_zero_left]
    · rw [pevalHf_linear_root, gfMul_zero_right]

/-! ## The long division -/

/-- Adding the same list before and after is adding nothing, if that list is no longer. -/
theorem polyAdd_polyAdd_cancel {p q : List Byte} (h : p.length ≤ q.length) : polyAdd p (polyAdd q p) = q := by
  induction p generalizing q with
  | nil => exact polyAdd_nil_right q
  | cons a p ih =>
    obtain ⟨b, q, rfl⟩ := List.exists_cons_of_length_pos (Nat.lt_of_lt_of_le (Nat.succ_pos _) h)
    rw [polyAdd, polyAdd, gfAdd_left_comm, gfAdd_self, gfAdd_zero_right, ih (Nat.le_of_succ_le_succ h)]

/-- Shifted lists that do not overlap add up to the one after the other. -/
theorem polyAdd_append_zeros (d e : List Byte) :
    polyAdd (List.replicate d.length 0 ++ e) (d ++ List.replicate e.length 0) = d ++ e := by
  induction d with
  | nil =>
    rw [polyAdd_comm]
    exact polyAdd_replicate_zero (Nat.le_refl _)
  | cons a d ih =>
    rw [List.length_cons, List.replicate_succ, List.cons_append, List.cons_append, polyAdd, gfAdd_zero_left, ih,
      List.cons_append]

/-- A step of the division by a monic divisor; clearing a leading 0 adds zeros only (R231). -/
theorem rsDivide_succ (g m : List Byte) (c : Byte) (k : Nat) (h : g.length ≤ m.length) :
    rsDivide (1 :: g) (k + 1) (c :: m) = rsDivide (1 :: g) k (polyAdd m (polyScale c g)) := by
  rw [rsDivide, List.tail_cons]
  split
  next hc => rw [hc, polyScale_zero, polyAdd_comm, polyAdd_replicate_zero h]
  next => rfl

/-- k steps of the division: the cleared coefficients are the quotient, and what they take off is its multiple of
the divisor. -/
theorem exists_quotient (g : List Byte) {k : Nat} {m : List Byte} (hm : m.length = k + g.length) :
    ∃ q, q.length = k ∧ polyAdd (pmul q (1 :: g)) (List.replicate k 0 ++ rsDivide (1 :: g) k m) = m := by
  induction k generalizing m with
  | zero => exact ⟨[], rfl, rfl⟩
  | succ k ih =>
    obtain ⟨c, m, rfl⟩ := List.exists_cons_of_length_pos (by omega : 0 < m.length)
    rw [List.length_cons] at hm
    have hle : (polyScale c g).length ≤ m.length := by rw [length_polyScale]; omega
    obtain ⟨q, hq, hdiv⟩ := ih (m := polyAdd m (polyScale c g)) (by rw [length_polyAdd, length_polyScale]; omega)
    refine ⟨c :: q, congrArg (· + 1) hq, ?_⟩
    rw [rsDivide_succ g m c k (by omega), pmul_cons_left c q (List.cons_ne_nil 1 g), polyScale_cons, polyAdd,
      List.replicate_succ, List.cons_append, polyAdd, polyAdd_assoc, hdiv, polyAdd_polyAdd_cancel hle,
      gfAdd_zero_right, gfAdd_zero_right, gfMul_one_right]

/-! ## The encoded block -/

/-- Data with its remainder appended is a multiple of the generator (R234). -/
theorem exists_pmul_rsGen_eq_append {d : List Byte} (n : Nat) (hd : d ≠ []) :
    ∃ q, q.length = d.length ∧ pmul q (rsGen n) = d ++ rsRem d n := by
  obtain ⟨g, hg⟩ := List.head?_eq_some_iff.1 (head?_rsGen n)
  have hgn : g.length = n := by simpa only [hg, List.length_cons, Nat.add_right_cancel_iff] using length_rsGen n
  obtain ⟨q, hq, hdiv⟩ := exists_quotient g (k := d.length) (m := d ++ List.replicate n 0)
    (by rw [List.length_append, List.length_replicate, hgn])
  rw [← hg] at hdiv
  have hle : (List.replicate d.length 0 ++ rsRem d n).length ≤ (pmul q (rsGen n)).length := by
    have hqne : q ≠ [] := List.length_pos_iff.1 (hq ▸ List.length_pos_iff.2 hd)
    rw [length_pmul hqne (rsGen_ne_nil n), length_rsGen, List.length_append, List.length_replicate, length_rsRem]
    omega
  refine ⟨q, hq, ?_⟩
  calc pmul q (rsGen n)
      = polyAdd (List.replicate d.length 0 ++ rsRem d n)
          (polyAdd (pmul q (rsGen n)) (List.replicate d.length 0 ++ rsRem d n)) :=
        (polyAdd_polyAdd_cancel hle).symm
    _ = polyAdd (List.replicate d.length 0 ++ rsRem d n) (d ++ List.replicate n 0) := congrArg _ hdiv
    _ = d ++ rsRem d n := by simpa only [length_rsRem] using polyAdd_append_zeros d (rsRem d n)

theorem pevalHf_replicate_zero (n : Nat) (x : Byte) : pevalHf (List.replicate n 0) x = 0 := by
  induction n with
  | zero => rfl
  | succ n ih => rw [List.replicate_succ, pevalHf_cons, gfMulPow_zero_right, ih, gfAdd_zero_left]

/-- The encoded block vanishes at the generator's roots (R234); without data it is all zeros. -/
theorem pevalHf_append_rsRem (d : List Byte) {n i : Nat} (hi : i < n) :
    pevalHf (d ++ rsRem d n) (gfExp i) = 0 := by
  by_cases hd : d = []
  · subst hd
    exact pevalHf_replicate_zero n _
  · obtain ⟨q, -, hmul⟩ := exists_pmul_rsGen_eq_append n hd
    rw [← hmul, pevalHf_pmul q (rsGen_ne_nil n), pevalHf_rsGen hi, gfMul_zero_right]

/-- Settles O23: the block is the quotient of the long division times the generator, whose roots it so has. -/
theorem encodedBlockIsACodeword : Obligations.EncodedBlockIsACodeword := by
  intro d n
  exact ⟨length_rsGen n, head?_rsGen n, fun _ hi => pevalHf_rsGen hi, length_rsRem d n,
    fun _ hi => pevalHf_append_rsRem d hi, exists_pmul_rsGen_eq_append n⟩

end Sys2Proof.Machine
end

section
/-! PROOFS. RSGEN and RSENC (43_rs_encoder.md, R232, R233): the count is checked before the block's length. -/

namespace Sys2Proof.Machine

/-- RSGEN of a count up to 255 (R232). -/
theorem exec_rsgen (s : State) (bd : BReg) {n : Nat} (h : n ≤ 255) :
    exec (.rsgen bd n) s = .next (s.produce bd (rsGen n)).complete := by
  rw [exec_of_check_passed rfl (Nat.not_lt.2 h)]
  rfl

/-- RSENC of a count up to 255 goes on to the check of the block's length (R233). -/
theorem exec_rsenc_of_count_le (s : State) (bd ba : BReg) {n : Nat} (h : n ≤ 255) :
    exec (.rsenc bd ba n) s = finish (if s.lenB ba + n > Config.rsMax
      then .ok (s.raise (.rsenc bd ba n) .length (s.lenB ba + n))
      else (s.content ba).map fun d => s.produce bd (rsRem d n)) :=
  exec_of_check_passed rfl (Nat.not_lt.2 h)

/-- RSENC of readable data whose block fits (R233). -/
theorem exec_rsenc {s : State} {ba : BReg} {d : List Byte} {n : Nat} (bd : BReg) (hd : s.Holds ba d)
    (hlen : d.length + n ≤ 255) :
    exec (.rsenc bd ba n) s = .next (s.produce bd (rsRem d n)).complete := by
  have hfits : ¬ s.lenB ba + n > Config.rsMax := by
    rw [← hd.1]
    exact Nat.not_lt.2 hlen
  rw [exec_rsenc_of_count_le s bd ba (Nat.le_of_add_left_le hlen), if_neg hfits, content_eq_ok.2 hd]
  rfl

/-- Settles O22: each check that fails raises with what it checked, and past them both commands produce. -/
theorem encoderCommands : Obligations.EncoderCommands := by
  intro s bd ba n d hn
  refine ⟨encode_eq_commandWord (by decide) hn rfl, encode_eq_commandWord (by decide) hn rfl, fun hle => ?generator,
    fun hgt => raises_of_check rfl hgt, fun hd hlen => ?remainder, fun hgt => raises_of_check rfl hgt,
    fun hle hlong => raises_of_check (exec_rsenc_of_count_le s bd ba hle) hlong⟩
  case generator => exact ⟨_, exec_rsgen s bd hle, length_rsGen n ▸ writesB_produce s bd (rsGen n)⟩
  case remainder =>
    have hwrites := writesB_produce s bd (rsRem d n)
    rw [length_rsRem] at hwrites
    exact ⟨_, exec_rsenc bd hd hlen, hwrites⟩

end Sys2Proof.Machine
end

section
/-! PROOFS. RSSYN (44_rs_decoder.md, R260), and what the decoder's commands share: the checks of a block's length
and the shape of a command that changes only the unit. -/

namespace Sys2Proof.Machine

/-! ## Shapes and checks -/

/-- A command that ends by changing the decoder unit changes that unit and nothing else. -/
theorem writesRs_complete (s : State) (u : RsUnit) : WritesRs s ({ s with rs := u } : State).complete u :=
  ⟨rfl, rfl, rfl, rfl, rfl, rfl, rfl, rfl, rfl, rfl⟩

/-- A block that is empty or too long is reported first. -/
theorem blockLengthError_of_length {s : State} {ba : BReg} (ec : Nat) (h : s.lenB ba = 0 ∨ 255 < s.lenB ba) :
    s.blockLengthError ba ec = some (s.lenB ba) := if_pos h

theorem blockLengthError_of_count {s : State} {ba : BReg} {ec : Nat} (h1 : 1 ≤ s.lenB ba) (h2 : s.lenB ba ≤ 255)
    (h : ec = 0 ∨ s.lenB ba < ec) : s.blockLengthError ba ec = some ec := by
  have hlen : ¬ (s.lenB ba = 0 ∨ s.lenB ba > Config.rsMax) := by
    simp only [Config.rsMax]
    omega
  exact (if_neg hlen).trans (if_pos h)

/-- The checks of RSSYN and RSDEC, in order, for a command that raises what they say (R260, R265). -/
theorem raises_of_blockLengthError {i : Instr} {s : State} {ba : BReg} {ec : Nat}
    (hexec : ∀ v, s.blockLengthError ba ec = some v → exec i s = .next (s.raise i .length v).complete) :
    (s.lenB ba = 0 ∨ 255 < s.lenB ba → ∃ t, exec i s = .next t
      ∧ Raises s t .length (encode i) (BitVec.ofNat 32 (s.lenB ba)))
    ∧ (1 ≤ s.lenB ba → s.lenB ba ≤ 255 → (ec = 0 ∨ s.lenB ba < ec) → ∃ t, exec i s = .next t
      ∧ Raises s t .length (encode i) (BitVec.ofNat 32 ec)) :=
  ⟨fun h => ⟨_, hexec _ (blockLengthError_of_length ec h), raises_raise s i _ _⟩,
    fun h1 h2 h => ⟨_, hexec _ (blockLengthError_of_count h1 h2 h), raises_raise s i _ _⟩⟩

/-- The checks pass for a readable block that they allow. -/
theorem State.Holds.blockLengthError_eq_none {s : State} {ba : BReg} {ec : Nat} {r : List Byte} (hr : s.Holds ba r)
    (hmax : r.length ≤ 255) (hec : 1 ≤ ec) (hle : ec ≤ r.length) : s.blockLengthError ba ec = none :=
  Machine.blockLengthError_eq_none.2 ⟨hec, hr.1 ▸ hle, hr.1 ▸ hmax⟩

/-! ## RSSYN -/

theorem exec_rssyn_of_error {s : State} {ba : BReg} {ec v : Nat} (h : s.blockLengthError ba ec = some v) :
    exec (.rssyn ba ec) s = .next (s.raise (.rssyn ba ec) .length v).complete := by
  show execRssyn ba ec s = _
  rw [execRssyn, h]
  rfl

theorem exec_rssyn_of_checked {s : State} {ba : BReg} {ec : Nat} (h : s.blockLengthError ba ec = none) :
    exec (.rssyn ba ec) s = finish (s.rsSyn ba ec) := by
  show execRssyn ba ec s = _
  rw [execRssyn, h]

theorem exec_rssyn {s : State} {ba : BReg} {ec : Nat} {r : List Byte} (h : s.blockLengthError ba ec = none)
    (hr : s.Holds ba r) : exec (.rssyn ba ec) s =
      .next ({ s with rs := s.rs.synStep r.length ec (syndromes r ec) } : State).complete := by
  rw [exec_rssyn_of_checked h, rsSyn_eq_ok.2 ⟨r, hr, rfl⟩]
  rfl

theorem RsUnit.synStep_of_zero (u : RsUnit) (n ec : Nat) {syn : List Byte} (h : ∀ x ∈ syn, x = 0) :
    u.synStep n ec syn = { u with
      nmsg := n, nsyn := ec, ldeg := 0, npos := 0, reason := .noReason, detected := 0, maxcorr := ec / 2
      corrected := 0, syn := u.syn.writeBlock 0 syn, rsst := .noError
      aggn := min (u.aggn + 1) 0xFFFF, aggv := min (u.aggv + 1) 0xFFFF } := by
  have hall : syn.all (· == 0) = true := List.all_eq_true.2 fun x hx => beq_iff_eq.2 (h x hx)
  simp only [RsUnit.synStep, hall, if_true, RsUnit.aggregate, Bool.and_true, satInc]

theorem RsUnit.synStep_of_ne_zero (u : RsUnit) (n ec : Nat) {syn : List Byte} (h : ∃ x ∈ syn, x ≠ 0) :
    u.synStep n ec syn = { u with
      nmsg := n, nsyn := ec, ldeg := 0, npos := 0, reason := .noReason, detected := 0, maxcorr := ec / 2
      corrected := 0, syn := u.syn.writeBlock 0 syn, rsst := .syndromeReady } := by
  obtain ⟨x, hx, hne⟩ := h
  have hall : ¬ syn.all (· == 0) = true := fun hall => hne (beq_iff_eq.1 (List.all_eq_true.1 hall x hx))
  simp only [RsUnit.synStep, hall, if_false, Bool.false_eq_true]

theorem RsUnit.syn_synStep (u : RsUnit) (n ec : Nat) (syn : List Byte) :
    (u.synStep n ec syn).syn = u.syn.writeBlock 0 syn := by
  obtain h | h := u.synStep_cases n ec syn <;> simp only [h, RsUnit.aggregate]

/-- Settles O24: the checks raise in order, and past them the unit takes `synStep`, one case a kind of block. -/
theorem syndromeStep : Obligations.SyndromeStep := by
  intro s ba ec r hec
  obtain ⟨hlength, hcount⟩ := raises_of_blockLengthError (i := .rssyn ba ec) fun _ => exec_rssyn_of_error
  refine ⟨encode_eq_commandWord (by decide) hec rfl, hlength, hcount, fun hr _ hmax h1 hle => ?_⟩
  have hwrites := writesRs_complete s (s.rs.synStep r.length ec (syndromes r ec))
  have hsyn := s.rs.syn_synStep r.length ec (syndromes r ec)
  refine ⟨_, exec_rssyn (hr.blockLengthError_eq_none hmax h1 hle) hr, ?_, ?_,
    fun (hzero : ∀ x ∈ syndromes r ec, x = 0) => ?_, fun (hne : ∃ x ∈ syndromes r ec, x ≠ 0) => ?_⟩
  · exact hsyn ▸ Memory.holds_writeBlock _ _ _
  · have hsame := Memory.sameOutside_writeBlock s.rs.syn 0 (syndromes r ec)
    rw [length_syndromes, ← hsyn] at hsame
    exact hsame
  · rw [s.rs.synStep_of_zero _ _ hzero] at hwrites ⊢
    exact hwrites
  · rw [s.rs.synStep_of_ne_zero _ _ hne] at hwrites ⊢
    exact hwrites

end Sys2Proof.Machine
end

section
/-! PROOFS. RSBM, RSCHIEN, RSFORNEY and RSAPPLY (44_rs_decoder.md, R261 to R264): each raises outside its state, and
in it changes the unit as its rule says. -/

namespace Sys2Proof.Machine

/-! ## RSBM and RSCHIEN -/

theorem exec_rsbm_of_state {s : State} (hst : s.rs.rsst = .syndromeReady) : exec .rsbm s = finish s.rsBm :=
  exec_of_check_passed rfl (not_not.2 hst)

theorem exec_rsbm {s : State} {syn : List Byte} (hst : s.rs.rsst = .syndromeReady) (hlen : syn.length = s.rs.nsyn)
    (hsyn : s.rs.syn.holds 0 syn) : exec .rsbm s = .next (State.complete { s with rs := { s.rs with
      lambda := s.rs.lambda.writeBlock 0 (bm syn).1, ldeg := (bm syn).2, rsst := .locatorReady } }) := by
  rw [exec_rsbm_of_state hst, rsBm_eq_ok.2 ⟨syn, ⟨hlen, hsyn⟩, rfl⟩]
  rfl

theorem exec_rschien_of_state {s : State} (hst : s.rs.rsst = .locatorReady) : exec .rschien s = finish s.rsChien :=
  exec_of_check_passed rfl (not_not.2 hst)

theorem exec_rschien {s : State} {lam : List Byte} (hst : s.rs.rsst = .locatorReady)
    (hlen : lam.length = s.rs.ldeg + 1) (hlam : s.rs.lambda.holds 0 lam) :
    exec .rschien s = .next ({ s with rs := s.rs.chienStep (chien lam s.rs.nmsg) } : State).complete := by
  rw [exec_rschien_of_state hst, rsChien_eq_ok.2 ⟨lam, ⟨hlen, hlam⟩, rfl⟩]
  rfl

theorem RsUnit.chienStep_of_le (u : RsUnit) {p : List Nat} (h : p.length ≤ u.nsyn / 2) :
    u.chienStep p = { u with
      pos := u.pos.writeBlock 0 (p.map (BitVec.ofNat 8)), npos := p.length, detected := p.length
      rsst := .positionsReady } := by
  simp only [RsUnit.chienStep, gt_iff_lt, Nat.not_lt.2 h, if_false]

theorem RsUnit.chienStep_of_lt (u : RsUnit) {p : List Nat} (h : u.nsyn / 2 < p.length) :
    u.chienStep p = { u with
      pos := u.pos.writeBlock 0 (p.map (BitVec.ofNat 8)), npos := p.length, detected := p.length, rsst := .failed
      reason := .exceedsCapacity, aggn := min (u.aggn + 1) 0xFFFF, allok := false } := by
  simp only [RsUnit.chienStep, gt_iff_lt, h, if_true, RsUnit.aggregate, Bool.and_false, satInc, Bool.false_eq_true,
    if_false]

theorem RsUnit.pos_chienStep (u : RsUnit) (p : List Nat) :
    (u.chienStep p).pos = u.pos.writeBlock 0 (p.map (BitVec.ofNat 8)) := by
  obtain h | ⟨-, h⟩ := u.chienStep_cases p <;> simp only [h, RsUnit.aggregate]

/-- Settles O25: RSBM and RSCHIEN raise outside their states; in them the reads answer, and RSCHIEN's unit is
`chienStep` within capacity or beyond it. -/
theorem locatorAndPositionSteps : Obligations.LocatorAndPositionSteps := by
  refine ⟨by decide, by decide, fun s syn lam => ⟨fun hst => raises_of_check rfl hst, fun hst hlen hsyn => ?locator,
    fun hst => raises_of_check rfl hst, fun hst hlen hlam => ?positions⟩⟩
  case locator =>
    refine ⟨_, exec_rsbm hst hlen hsyn, Memory.holds_writeBlock _ _ _, ?_, writesRs_complete s _⟩
    exact length_bm syn ▸ Memory.sameOutside_writeBlock s.rs.lambda 0 (bm syn).1
  case positions =>
    have hwrites := writesRs_complete s (s.rs.chienStep (chien lam s.rs.nmsg))
    have hpos := s.rs.pos_chienStep (chien lam s.rs.nmsg)
    refine ⟨_, exec_rschien hst hlen hlam, ?_, ?_, fun (hle : (chien lam s.rs.nmsg).length ≤ _) => ?_,
      fun (hlt : _ < (chien lam s.rs.nmsg).length) => ?_⟩
    · exact hpos ▸ Memory.holds_writeBlock _ _ _
    · have hsame := Memory.sameOutside_writeBlock s.rs.pos 0 ((chien lam s.rs.nmsg).map (BitVec.ofNat 8))
      rw [List.length_map, ← hpos] at hsame
      exact hsame
    · rw [s.rs.chienStep_of_le hle] at hwrites ⊢
      exact hwrites
    · rw [s.rs.chienStep_of_lt hlt] at hwrites ⊢
      exact hwrites

/-! ## RSFORNEY -/

theorem exec_rsforney_of_state {s : State} (hst : s.rs.rsst = .positionsReady) :
    exec .rsforney s = finish s.rsForney :=
  exec_of_check_passed rfl (not_not.2 hst)

theorem RsUnit.forney_eq {u : RsUnit} {syn lam pos : List Byte} (hsynlen : syn.length = u.nsyn)
    (hsyn : u.syn.holds 0 syn) (hlamlen : lam.length = u.ldeg + 1) (hlam : u.lambda.holds 0 lam)
    (hposlen : pos.length = u.npos) (hpos : u.pos.holds 0 pos) :
    u.forney = .ok (magnitudes (evaluator syn lam (u.nsyn / 2)) (derivative lam) u.nmsg (pos.map BitVec.toNat)) := by
  rw [RsUnit.forney, readBlock_eq_ok.2 ⟨hsynlen, hsyn⟩, readBlock_eq_ok.2 ⟨hlamlen, hlam⟩,
    readBlock_eq_ok.2 ⟨hposlen, hpos⟩]
  rfl

theorem exec_rsforney {s : State} {ms : List Byte × Bool} (hst : s.rs.rsst = .positionsReady)
    (hms : s.rs.forney = .ok ms) :
    exec .rsforney s = .next ({ s with rs := s.rs.forneyStep ms } : State).complete := by
  rw [exec_rsforney_of_state hst, rsForney_eq_ok.2 ⟨ms, hms, rfl⟩]
  rfl

theorem RsUnit.forneyStep_of_complete (u : RsUnit) (mag : List Byte) :
    u.forneyStep (mag, false) = { u with mag := u.mag.writeBlock 0 mag, rsst := .magnitudesReady } := rfl

theorem RsUnit.forneyStep_of_zero (u : RsUnit) (mag : List Byte) :
    u.forneyStep (mag, true) = { u with
      mag := u.mag.writeBlock 0 mag, rsst := .failed, reason := .derivativeZero
      aggn := min (u.aggn + 1) 0xFFFF, allok := false } := by
  simp only [RsUnit.forneyStep, if_true, RsUnit.aggregate, Bool.and_false, satInc, Bool.false_eq_true, if_false]

theorem RsUnit.mag_forneyStep (u : RsUnit) (ms : List Byte × Bool) :
    (u.forneyStep ms).mag = u.mag.writeBlock 0 ms.1 := by
  obtain h | ⟨-, h⟩ := u.forneyStep_cases ms <;> simp only [h, RsUnit.aggregate]

/-- The magnitudes before the first position that has none, and whether there is such a position (R256). -/
theorem magnitudes_of_first_none (omega lam' : List Byte) (len : Nat) {ps : List Nat} {n : Nat} (hn : n ≤ ps.length)
    (hsome : ∀ k, k < n → magnitude omega lam' len (ps.getD k 0) ≠ none)
    (hnone : n < ps.length → magnitude omega lam' len (ps.getD n 0) = none) :
    ∃ mag, magnitudes omega lam' len ps = (mag, decide (n < ps.length)) ∧ mag.length = n
      ∧ ∀ k, k < n → mag[k]? = magnitude omega lam' len (ps.getD k 0) := by
  induction ps generalizing n with
  | nil =>
    obtain rfl := Nat.le_zero.1 hn
    exact ⟨[], rfl, rfl, nofun⟩
  | cons p ps ih =>
    cases n with
    | zero =>
      have hp : magnitude omega lam' len p = none := hnone (Nat.succ_pos _)
      exact ⟨[], by simp [magnitudes, hp], rfl, nofun⟩
    | succ n =>
      obtain ⟨m, hm⟩ : ∃ m, magnitude omega lam' len p = some m :=
        Option.ne_none_iff_exists'.1 (hsome 0 (Nat.succ_pos n))
      obtain ⟨mag, hmag, hlen, hget⟩ := ih (Nat.le_of_succ_le_succ hn)
        (fun k hk => hsome (k + 1) (Nat.succ_lt_succ hk)) (fun h => hnone (Nat.succ_lt_succ h))
      refine ⟨m :: mag, by simp [magnitudes, hm, hmag], congrArg (· + 1) hlen, fun k hk => ?_⟩
      cases k with
      | zero => exact hm.symm
      | succ k => exact hget k (Nat.lt_of_succ_lt_succ hk)

theorem gfDiv_eq_none_iff {a b : Byte} : gfDiv a b = none ↔ b = 0 := by
  refine ⟨fun h => by_contra fun hb => ?_, fun h => h ▸ gfDiv_zero a⟩
  obtain ⟨r, -, -, hdiv⟩ := exists_gfInv hb
  exact Option.some_ne_none _ ((hdiv a).symm.trans h)

theorem magnitude_eq_none_iff {omega lam' : List Byte} {n p : Nat} : magnitude omega lam' n p = none ↔
    pevalHf lam'.reverse (gfExp (-((n : Int) - 1 - p))) = 0 := by
  rw [magnitude, Option.map_eq_none_iff, gfDiv_eq_none_iff, pevalLf]

/-- Settles O27: the magnitudes are those of `magnitudes`, whose list ends where a denominator is 0. -/
theorem magnitudeStep : Obligations.MagnitudeStep := by
  refine ⟨by decide, fun s syn lam pos => ⟨fun hst => raises_of_check rfl hst, ?_⟩⟩
  intro hst hsynlen hsyn hlamlen hlam hposlen hpos omega lam' deg den n hn hsome hnone
  have hlam' : derivative lam = lam' := by rw [derivative, hlamlen, Nat.add_sub_cancel]
  have hforney := RsUnit.forney_eq hsynlen hsyn hlamlen hlam hposlen hpos
  have hpslen : (pos.map BitVec.toNat).length = s.rs.npos := by rw [List.length_map, hposlen]
  have hget (k : Nat) : (pos.map BitVec.toNat).getD k 0 = (pos.getD k 0).toNat :=
    List.getD_map pos 0 (n := k) BitVec.toNat
  obtain ⟨mag, hmags, hmaglen, hmag⟩ := magnitudes_of_first_none omega lam' s.rs.nmsg (ps := pos.map BitVec.toNat)
    (hpslen ▸ hn) (fun k hk => by rw [hget, Ne, magnitude_eq_none_iff]; exact hsome k hk)
    (fun h => by rw [hget, magnitude_eq_none_iff]; exact hnone (hpslen ▸ h))
  have hms : s.rs.forney = .ok (mag, decide (n < s.rs.npos)) := by
    rw [hforney, hlam', ← hpslen, ← hmags]
    rfl
  have hwrites := writesRs_complete s (s.rs.forneyStep (mag, decide (n < s.rs.npos)))
  have hmem := s.rs.mag_forneyStep (mag, decide (n < s.rs.npos))
  refine ⟨_, mag, exec_rsforney hst hms, hmaglen, fun k hk => ?quotient, ?_, ?_, fun hall => ?_, fun hzero => ?_⟩
  case quotient =>
    obtain ⟨r, -, -, hdiv⟩ := exists_gfInv (hsome k hk)
    refine ⟨_, hdiv _, ?_⟩
    rw [hmag k hk, hget]
    exact congrArg (Option.map _) (hdiv _)
  · exact hmem ▸ Memory.holds_writeBlock _ _ _
  · exact hmem ▸ hmaglen ▸ Memory.sameOutside_writeBlock s.rs.mag 0 mag
  · rw [hall, decide_eq_false (Nat.lt_irrefl _), RsUnit.forneyStep_of_complete] at hwrites ⊢
    exact hwrites
  · rw [decide_eq_true hzero, RsUnit.forneyStep_of_zero] at hwrites ⊢
    exact hwrites

/-! ## RSAPPLY -/

theorem exec_rsapply_of_state {s : State} {ba : BReg} (hst : s.rs.rsst = .magnitudesReady) :
    exec (.rsapply ba) s = finish (if s.lenB ba ≠ s.rs.nmsg then .ok (s.raise (.rsapply ba) .length (s.lenB ba))
      else s.rsApply ba) :=
  exec_of_check_passed rfl (not_not.2 hst)

theorem exec_rsapply_of_length {s : State} {ba : BReg} (hst : s.rs.rsst = .magnitudesReady)
    (hlen : s.lenB ba = s.rs.nmsg) : exec (.rsapply ba) s = finish (s.rsApply ba) := by
  rw [exec_rsapply_of_state hst, if_neg (not_not.2 hlen)]

theorem correct_eq_foldl (r : List Byte) (pms : List (Nat × Byte)) :
    correct r pms = pms.foldl (fun c pm => c.modify pm.1 (fun x => x ^^^ pm.2)) r := by
  induction pms generalizing r with
  | nil => rfl
  | cons pm pms ih => exact ih _

theorem trial_eq {s : State} {ba : BReg} {r pos mag : List Byte} (hlen : s.lenB ba = s.rs.nmsg) (hr : s.Holds ba r)
    (hposlen : pos.length = s.rs.npos) (hpos : s.rs.pos.holds 0 pos) (hmaglen : mag.length = s.rs.npos)
    (hmag : s.rs.mag.holds 0 mag) : s.trial ba = .ok (correct r ((pos.map BitVec.toNat).zip mag)) := by
  obtain ⟨hrlen, hr⟩ := hr
  rw [State.trial, readBlock_eq_ok.2 ⟨hrlen.trans hlen, hr⟩, readBlock_eq_ok.2 ⟨hposlen, hpos⟩,
    readBlock_eq_ok.2 ⟨hmaglen, hmag⟩]
  rfl

/-- The residual syndromes as R257 names them. -/
theorem syndromes_all_zero_iff {c : List Byte} {n : Nat} :
    (syndromes c n).all (· == 0) = true ↔ ∀ i : Nat, i < n → pevalHf c (gfExp i) = 0 := by
  simp [syndromes]

/-- RSAPPLY keeps a trial correction that verifies (R264). -/
theorem rsApply_of_verified {s : State} {ba : BReg} {c : List Byte} (hc : s.trial ba = .ok c)
    (hzero : ∀ i : Nat, i < s.rs.nsyn → pevalHf c (gfExp i) = 0) : s.rsApply ba = .ok { s.writeB ba 0 c with
      rs := { s.rs with corrected := s.rs.npos, rsst := .corrected
                        aggn := min (s.rs.aggn + 1) 0xFFFF, aggv := min (s.rs.aggv + 1) 0xFFFF } } := by
  rw [rsApply_eq_ok]
  refine ⟨c, hc, .inl ⟨syndromes_all_zero_iff.2 hzero, ?_⟩⟩
  simp only [RsUnit.aggregate, Bool.and_true, satInc, if_true]

/-- RSAPPLY discards one that does not (R264). -/
theorem rsApply_of_residual {s : State} {ba : BReg} {c : List Byte} (hc : s.trial ba = .ok c)
    (hne : ∃ i : Nat, i < s.rs.nsyn ∧ pevalHf c (gfExp i) ≠ 0) : s.rsApply ba = .ok { s with
      rs := { s.rs with reason := .verifyFailed, rsst := .failed, aggn := min (s.rs.aggn + 1) 0xFFFF
                        allok := false } } := by
  obtain ⟨i, hi, hne⟩ := hne
  rw [rsApply_eq_ok]
  refine ⟨c, hc, .inr ⟨?_, ?_⟩⟩
  · rw [← Bool.not_eq_true, syndromes_all_zero_iff]
    exact fun hzero => hne (hzero i hi)
  · simp only [RsUnit.aggregate, Bool.and_false, satInc, Bool.false_eq_true, if_false]

/-- Setting the length that a buffer has changes nothing. -/
theorem State.setLen_lenB (s : State) (b : BReg) : s.setLen b (s.lenB b) = s := by
  simp [State.setLen, State.lenB]

/-- A command that ends by writing bytes leaves the length as it was. -/
theorem writesB_writeB (s : State) (b : BReg) (k : Nat) (vs : List Byte) :
    WritesB s (s.writeB b k vs).complete b k vs (s.lenB b) := by
  have hwrites := writesB_writeB_setLen s b k vs (s.lenB b)
  have hlen : s.lenB b = (s.writeB b k vs).lenB b := rfl
  rwa [hlen, State.setLen_lenB, ← hlen] at hwrites

/-- Settles O28: the checks raise in order, and past them `rsApply` keeps the trial correction or discards it. -/
theorem applyStep : Obligations.ApplyStep := by
  intro s ba r pos mag
  refine ⟨encode_eq_commandWord_zero (by decide) rfl, fun hst => raises_of_check rfl hst,
    fun hst hlen => raises_of_check (exec_rsapply_of_state hst) hlen, ?_⟩
  intro hst hlen hr hposlen hpos hmaglen hmag c ok bad
  have hc : correct r ((pos.map BitVec.toNat).zip mag) = c := by
    rw [correct_eq_foldl, List.zip_map_left, List.foldl_map]
    rfl
  have htrial := hc ▸ trial_eq hlen hr hposlen hpos hmaglen hmag
  rw [exec_rsapply_of_length hst hlen]
  refine ⟨fun hzero => ?verified, fun hne => ?residual⟩
  case verified =>
    rw [rsApply_of_verified htrial hzero]
    refine ⟨_, rfl, ?_⟩
    exact hlen ▸ writesB_writeB { s with rs := ok } ba 0 c
  case residual =>
    rw [rsApply_of_residual htrial hne]
    exact ⟨_, rfl, writesRs_complete s bad⟩

end Sys2Proof.Machine
end

section
/-! PROOFS. RSDEC as the five steps (44_rs_decoder.md, R265): the steps read nothing of the control registers, so the
commands in sequence and the chain agree in everything else. -/

namespace Sys2Proof.Machine

/-- The state with other control registers. -/
def State.withCtl (s : State) (c : Control) : State := { s with ctl := c }

/-- A sequence of commands does what a chain of steps does, the control registers aside. -/
inductive Agrees : Res → Except Fault State → Prop
  | next (u : State) (c : Control) : Agrees (.next (u.withCtl c)) (.ok u)
  | fault (f : Fault) : Agrees (.fault f) (.error f)

namespace Agrees

theorem finish (r : Except Fault State) : Agrees (finish r) r := by
  cases r with
  | ok u => exact next u u.complete.ctl
  | error f => exact fault f

/-- A command whose body is a step, run with other control registers. -/
theorem finish_map (r : Except Fault State) (c : Control) : Agrees (Machine.finish (r.map (·.withCtl c))) r := by
  cases r with
  | ok u => exact next u (u.withCtl c).complete.ctl
  | error f => exact fault f

theorem thenRun {x : Res} {r : Except Fault State} {run : State → Res} {step : State → Except Fault State}
    (h : Agrees x r) (h' : ∀ u, r = .ok u → ∀ c, Agrees (run (u.withCtl c)) (step u)) :
    Agrees (thenRun x run) (r.bind step) := by
  cases h with
  | next u c => exact h' u rfl c
  | fault f => exact fault f

theorem unlessIn {stop : RsState} {x : Res} {step : State → Except Fault State} {u : State} {c : Control}
    (h : u.rs.rsst ≠ stop → Agrees x (step u)) :
    Agrees (if (u.withCtl c).rs.rsst = stop then .next (u.withCtl c) else x) (unlessIn stop step u) := by
  have hstate : (u.withCtl c).rs.rsst = u.rs.rsst := rfl
  rw [hstate, Machine.unlessIn]
  split
  next => exact next u c
  next hne => exact h hne

/-! ## The steps -/

variable {u : State} {ba : BReg} (c : Control)

theorem rsbm (hst : u.rs.rsst = .syndromeReady) : Agrees (exec .rsbm (u.withCtl c)) u.rsBm := by
  have hstep : (u.withCtl c).rsBm = u.rsBm.map (·.withCtl c) := by
    simp only [State.rsBm, State.withCtl]
    cases readBlock .syn u.rs.syn 0 u.rs.nsyn <;> rfl
  rw [exec_rsbm_of_state (s := u.withCtl c) hst, hstep]
  exact finish_map _ c

theorem rschien (hst : u.rs.rsst = .locatorReady) : Agrees (exec .rschien (u.withCtl c)) u.rsChien := by
  have hstep : (u.withCtl c).rsChien = u.rsChien.map (·.withCtl c) := by
    simp only [State.rsChien, State.withCtl]
    cases readBlock .lambda u.rs.lambda 0 (u.rs.ldeg + 1) <;> rfl
  rw [exec_rschien_of_state (s := u.withCtl c) hst, hstep]
  exact finish_map _ c

theorem rsforney (hst : u.rs.rsst = .positionsReady) : Agrees (exec .rsforney (u.withCtl c)) u.rsForney := by
  have hstep : (u.withCtl c).rsForney = u.rsForney.map (·.withCtl c) := by
    simp only [State.rsForney, State.withCtl]
    cases u.rs.forney <;> rfl
  rw [exec_rsforney_of_state (s := u.withCtl c) hst, hstep]
  exact finish_map _ c

theorem rsapply (hst : u.rs.rsst = .magnitudesReady) (hlen : u.lenB ba = u.rs.nmsg) :
    Agrees (exec (.rsapply ba) (u.withCtl c)) (u.rsApply ba) := by
  have htrial : (u.withCtl c).trial ba = u.trial ba := rfl
  have hstep : (u.withCtl c).rsApply ba = (u.rsApply ba).map (·.withCtl c) := by
    simp only [State.rsApply, htrial]
    cases u.trial ba with
    | error f => rfl
    | ok d =>
      by_cases hzero : (syndromes d u.rs.nsyn).all (· == 0) = true
      · simp only [Except.map, State.withCtl, hzero, if_true]
        rfl
      · simp only [Except.map, State.withCtl, hzero, if_false, Bool.false_eq_true]
  rw [exec_rsapply_of_length (s := u.withCtl c) hst hlen, hstep]
  exact finish_map _ c

end Agrees

/-! ## The chain -/

theorem RsUnit.nmsg_synStep (u : RsUnit) (n ec : Nat) (syn : List Byte) : (u.synStep n ec syn).nmsg = n := by
  obtain h | h := u.synStep_cases n ec syn <;> simp only [h, RsUnit.aggregate]

theorem RsUnit.nmsg_chienStep (u : RsUnit) (p : List Nat) : (u.chienStep p).nmsg = u.nmsg := by
  obtain h | ⟨-, h⟩ := u.chienStep_cases p <;> simp only [h, RsUnit.aggregate]

theorem RsUnit.nmsg_forneyStep (u : RsUnit) (ms : List Byte × Bool) : (u.forneyStep ms).nmsg = u.nmsg := by
  obtain h | ⟨-, h⟩ := u.forneyStep_cases ms <;> simp only [h, RsUnit.aggregate]

/-- From RSFORNEY on. -/
theorem agrees_forney_apply {u : State} {ba : BReg} (c : Control) (hst : u.rs.rsst = .positionsReady)
    (hlen : u.lenB ba = u.rs.nmsg) :
    Agrees (thenRun (exec .rsforney (u.withCtl c)) fun s =>
      if s.rs.rsst = .failed then .next s else exec (.rsapply ba) s)
    (u.rsForney.bind <| unlessIn .failed fun s => s.rsApply ba) := by
  refine (Agrees.rsforney c hst).thenRun fun v hv c' => Agrees.unlessIn fun hne => ?_
  obtain ⟨ms, -, rfl⟩ := rsForney_eq_ok.1 hv
  exact Agrees.rsapply c' ((u.rs.rsst_forneyStep ms).resolve_left hne) (hlen.trans (u.rs.nmsg_forneyStep ms).symm)

/-- From RSCHIEN on. -/
theorem agrees_chien_forney_apply {u : State} {ba : BReg} (c : Control) (hst : u.rs.rsst = .locatorReady)
    (hlen : u.lenB ba = u.rs.nmsg) :
    Agrees (thenRun (exec .rschien (u.withCtl c)) fun s =>
      if s.rs.rsst = .failed then .next s
      else thenRun (exec .rsforney s) fun s => if s.rs.rsst = .failed then .next s else exec (.rsapply ba) s)
    (u.rsChien.bind <| unlessIn .failed fun s => s.rsForney.bind <| unlessIn .failed fun s => s.rsApply ba) := by
  refine (Agrees.rschien c hst).thenRun fun v hv c' => Agrees.unlessIn fun hne => ?_
  obtain ⟨lam, -, rfl⟩ := rsChien_eq_ok.1 hv
  exact agrees_forney_apply c' ((u.rs.rsst_chienStep _).resolve_left hne) (hlen.trans (u.rs.nmsg_chienStep _).symm)

/-- The five commands in sequence and RSDEC's chain (R265). -/
theorem agrees_fiveSteps {s : State} {ba : BReg} {ec : Nat} (hchk : s.blockLengthError ba ec = none) :
    Agrees (fiveSteps ba ec s) (s.rsDecode ba ec) := by
  have hsyn : Agrees (exec (.rssyn ba ec) s) (s.rsSyn ba ec) :=
    exec_rssyn_of_checked hchk ▸ Agrees.finish (s.rsSyn ba ec)
  refine hsyn.thenRun fun u hu c => Agrees.unlessIn fun hne => ?_
  obtain ⟨r, hr, rfl⟩ := rsSyn_eq_ok.1 hu
  have hst := (s.rs.rsst_synStep _ _ _).resolve_left hne
  refine (Agrees.rsbm c hst).thenRun fun v hv c' => ?_
  obtain ⟨syn, -, rfl⟩ := rsBm_eq_ok.1 hv
  exact agrees_chien_forney_apply c' rfl (hr.1.symm.trans (s.rs.nmsg_synStep _ _ _).symm)

/-! ## RSDEC -/

theorem exec_rsdec_of_error {s : State} {ba : BReg} {ec v : Nat} (h : s.blockLengthError ba ec = some v) :
    exec (.rsdec ba ec) s = .next (s.raise (.rsdec ba ec) .length v).complete := by
  show execRsdec ba ec s = _
  rw [execRsdec, h]
  rfl

theorem exec_rsdec_of_checked {s : State} {ba : BReg} {ec : Nat} (h : s.blockLengthError ba ec = none) :
    exec (.rsdec ba ec) s = finish (s.rsDecode ba ec) := by
  show execRsdec ba ec s = _
  rw [execRsdec, h]

/-- A decoder command's effects leave the control registers to its completion. -/
theorem Decodes.completed {ba : BReg} {s t : State} (h : Decodes ba s t) : Completed s t.complete := by
  cases h <;> rfl

/-- Settles O29: the chain agrees with the commands step by step, and completes once. -/
theorem wholeBlockIsTheFiveSteps : Obligations.WholeBlockIsTheFiveSteps := by
  intro s ba ec hec
  obtain ⟨hlength, hcount⟩ := raises_of_blockLengthError (i := .rsdec ba ec) fun _ => exec_rsdec_of_error
  refine ⟨encode_eq_commandWord (by decide) hec rfl, hlength, hcount, fun _ hmax h1 hle => ?_⟩
  have hchk : s.blockLengthError ba ec = none := blockLengthError_eq_none.2 ⟨h1, hle, hmax⟩
  rw [exec_rsdec_of_checked hchk]
  have hagrees := agrees_fiveSteps hchk
  generalize hr : s.rsDecode ba ec = r at hagrees
  refine ⟨fun t ht => ?_, fun f hf => ?_⟩
  · rw [ht] at hagrees
    cases hagrees with
    | next u c => exact ⟨u.complete, rfl, (decodes_rsDecode hchk hr).1.completed, rfl⟩
  · rw [hf] at hagrees
    cases hagrees with
    | fault f => rfl

end Sys2Proof.Machine
end

section
/-! PROOFS. The decoder's state machine (44_rs_decoder.md, R251), command by command. -/

namespace Sys2Proof.Machine

/-- What R251 asks of a command that answers: it raises where the table has no row, and else it raises or takes one of
the table's moves. -/
def FollowsTable (i : Instr) (s t : State) : Prop :=
  (rsMoves i s.rs.rsst = [] → Raises s t .sequence (encode i) (BitVec.ofNat 32 s.rs.rsst.toNat))
  ∧ (t.rs.rsst ∈ rsMoves i s.rs.rsst ∨ ∃ code data, Raises s t code (encode i) data)

/-- A command the table lets run from every state. -/
theorem FollowsTable.of_moves {i : Instr} {s t : State} (h : t.rs.rsst ∈ rsMoves i s.rs.rsst) : FollowsTable i s t :=
  ⟨fun hnil => absurd (hnil ▸ h) List.not_mem_nil, .inl h⟩

/-- A raise in a state from which the table has moves. -/
theorem FollowsTable.of_raise {i : Instr} {s : State} (code : ErrCode) (d : Nat) (h : rsMoves i s.rs.rsst ≠ []) :
    FollowsTable i s (s.raise i code d).complete :=
  ⟨fun hnil => absurd hnil h, .inr ⟨code, _, raises_raise s i code d⟩⟩

/-- A step that one state alone allows: elsewhere it raises SEQUENCE. -/
theorem FollowsTable.of_check {i : Instr} {s t : State} {st : RsState} {body : Except Fault State}
    (h : exec i s = .next t)
    (hexec : exec i s = finish (if s.rs.rsst ≠ st then .ok (s.raise i .sequence s.rs.rsst.toNat) else body))
    (hbody : s.rs.rsst = st → ∀ u, body = .ok u → FollowsTable i s u.complete) : FollowsTable i s t := by
  by_cases hst : s.rs.rsst = st
  · rw [exec_of_check_passed hexec (not_not.2 hst)] at h
    obtain ⟨u, hu, rfl⟩ := finish_eq_next.1 h
    exact hbody hst u hu
  · obtain ⟨t', ht', hraises⟩ := raises_of_check hexec hst
    obtain rfl := Host.Outcome.next.inj (ht'.symm.trans h)
    exact ⟨fun _ => hraises, .inr ⟨_, _, hraises⟩⟩

theorem followsTable_rssyn {s t : State} {ba : BReg} {ec : Nat} (h : exec (.rssyn ba ec) s = .next t) :
    FollowsTable (.rssyn ba ec) s t := by
  cases hchk : s.blockLengthError ba ec with
  | some v =>
    obtain rfl := Host.Outcome.next.inj ((exec_rssyn_of_error hchk).symm.trans h)
    exact .of_raise _ _ (List.cons_ne_nil _ _)
  | none =>
    obtain ⟨u, hu, rfl⟩ := finish_eq_next.1 ((exec_rssyn_of_checked hchk).symm.trans h)
    obtain ⟨r, -, rfl⟩ := rsSyn_eq_ok.1 hu
    have hst := s.rs.rsst_synStep r.length ec (syndromes r ec)
    exact .of_moves (List.mem_pair.2 hst)

theorem followsTable_rsbm {s t : State} (h : exec .rsbm s = .next t) : FollowsTable .rsbm s t :=
  .of_check h rfl fun hst u hu => by
    obtain ⟨syn, -, rfl⟩ := rsBm_eq_ok.1 hu
    refine .of_moves ?_
    rw [rsMoves, if_pos hst]
    exact List.mem_singleton.2 rfl

theorem followsTable_rschien {s t : State} (h : exec .rschien s = .next t) : FollowsTable .rschien s t :=
  .of_check h rfl fun hst u hu => by
    obtain ⟨lam, -, rfl⟩ := rsChien_eq_ok.1 hu
    refine .of_moves ?_
    rw [rsMoves, if_pos hst]
    exact List.mem_pair.2 (s.rs.rsst_chienStep _).symm

theorem followsTable_rsforney {s t : State} (h : exec .rsforney s = .next t) : FollowsTable .rsforney s t :=
  .of_check h rfl fun hst u hu => by
    obtain ⟨ms, -, rfl⟩ := rsForney_eq_ok.1 hu
    refine .of_moves ?_
    rw [rsMoves, if_pos hst]
    exact List.mem_pair.2 (s.rs.rsst_forneyStep ms).symm

theorem followsTable_rsapply {s t : State} {ba : BReg} (h : exec (.rsapply ba) s = .next t) :
    FollowsTable (.rsapply ba) s t :=
  .of_check h rfl fun hst u hu => by
    have hmoves : rsMoves (.rsapply ba) s.rs.rsst = [.corrected, .failed] := if_pos hst
    split at hu
    next =>
      obtain rfl := Except.ok.inj hu
      exact .of_raise _ _ (hmoves ▸ List.cons_ne_nil _ _)
    next =>
      refine .of_moves (hmoves ▸ List.mem_pair.2 ?_)
      obtain ⟨c, -, ⟨-, rfl⟩ | ⟨-, rfl⟩⟩ := rsApply_eq_ok.1 hu
      · exact .inl rfl
      · exact .inr rfl

theorem RsState.terminal_iff {st : RsState} : st.terminal = true ↔ st ∈ [.noError, .corrected, .failed] := by
  cases st <;> decide

theorem followsTable_rsdec {s t : State} {ba : BReg} {ec : Nat} (h : exec (.rsdec ba ec) s = .next t) :
    FollowsTable (.rsdec ba ec) s t := by
  cases hchk : s.blockLengthError ba ec with
  | some v =>
    obtain rfl := Host.Outcome.next.inj ((exec_rsdec_of_error hchk).symm.trans h)
    exact .of_raise _ _ (List.cons_ne_nil _ _)
  | none =>
    obtain ⟨u, hu, rfl⟩ := finish_eq_next.1 ((exec_rsdec_of_checked hchk).symm.trans h)
    exact .of_moves (RsState.terminal_iff.1 (decodes_rsDecode hchk hu).2)

/-- A command whose *Writes* line does not name the decoder leaves the unit as it is. -/
theorem Effect.rs_eq {i : Instr} {s t : State} (h : Effect i s t) (hi : .decoder ∉ destUnits i) : t.rs = s.rs := by
  cases h with
  | clearsAggregate hagg => exact absurd (List.mem_singleton.2 rfl) (hagg ▸ hi)
  | decodes u hd => exact absurd hd hi
  | repairs b c u _ hd => exact absurd hd hi
  | _ => rfl

/-- AGGCLR leaves the state of the block as it is (R159). -/
theorem followsTable_aggclr {s t : State} (h : exec .aggclr s = .next t) : FollowsTable .aggclr s t := by
  obtain rfl := Host.Outcome.next.inj h
  exact .of_moves (List.mem_singleton.2 rfl)

theorem followsTable_of_not_decoder {i : Instr} {s t : State} (h : exec i s = .next t) (hi : .decoder ∉ destUnits i)
    (hmoves : rsMoves i s.rs.rsst = [s.rs.rsst]) : FollowsTable i s t := by
  obtain ⟨u, hu, rfl⟩ := exec_eq_next h
  exact .of_moves (hmoves ▸ List.mem_singleton.2 (congrArg RsUnit.rsst (hu.rs_eq hi)))

/-- Settles O31: a decoder command raises or makes its move, and no other command touches the unit's state. -/
theorem decoderStateMachine : Obligations.DecoderStateMachine := by
  intro i s t h
  cases i with
  | rssyn ba ec => exact followsTable_rssyn h
  | rsbm => exact followsTable_rsbm h
  | rschien => exact followsTable_rschien h
  | rsforney => exact followsTable_rsforney h
  | rsapply ba => exact followsTable_rsapply h
  | rsdec ba ec => exact followsTable_rsdec h
  | aggclr => exact followsTable_aggclr h
  | _ => exact followsTable_of_not_decoder h (by simp [destUnits]) rfl

end Sys2Proof.Machine
end

section
/-! PROOFS. Where RSDEC's chain leads on a readable block (44_rs_decoder.md, R265), path by path, and what each path
leaves in the buffer (R257). -/

namespace Sys2Proof.Machine

/-! ## What the chain computes from the block -/

/-- Every syndrome of the block is 0. -/
def IsCodeword (ec : Nat) (c : List Byte) : Prop := ∀ i : Nat, i < ec → pevalHf c (gfExp i) = 0

theorem forall_mem_syndromes_iff {r : List Byte} {ec : Nat} : (∀ x ∈ syndromes r ec, x = 0) ↔ IsCodeword ec r := by
  simp [syndromes, IsCodeword]

/-- The positions RSCHIEN finds for a received block (R254). -/
def errorPositions (r : List Byte) (ec : Nat) : List Nat := chien (bm (syndromes r ec)).1 r.length

/-- The magnitudes RSFORNEY computes for it (R256). -/
def errorMagnitudes (r : List Byte) (ec : Nat) : List Byte × Bool :=
  magnitudes (evaluator (syndromes r ec) (bm (syndromes r ec)).1 (ec / 2)) (derivative (bm (syndromes r ec)).1) r.length
    (errorPositions r ec)

/-- The trial correction RSAPPLY computes for it (R257). -/
def trialBlock (r : List Byte) (ec : Nat) : List Byte := correct r ((errorPositions r ec).zip (errorMagnitudes r ec).1)

theorem lt_of_mem_errorPositions {r : List Byte} {ec k : Nat} (h : k ∈ errorPositions r ec) : k < r.length :=
  lt_of_mem_chien h

theorem length_trialBlock (r : List Byte) (ec : Nat) : (trialBlock r ec).length = r.length := length_correct r _

/-- A position is stored as a byte, and a block of at most 255 codewords has no other positions (R52). -/
theorem map_toNat_map_ofNat_errorPositions {r : List Byte} (ec : Nat) (hmax : r.length ≤ 255) :
    ((errorPositions r ec).map (BitVec.ofNat 8)).map BitVec.toNat = errorPositions r ec := by
  rw [List.map_map]
  refine (List.map_congr_left fun k hk => ?_).trans (List.map_id _)
  have hk := lt_of_mem_errorPositions hk
  exact Nat.mod_eq_of_lt (by omega)

theorem getD_modify_of_ne (r : List Byte) (f : Byte → Byte) {p k : Nat} (h : p ≠ k) :
    (r.modify p f).getD k 0 = r.getD k 0 := by
  rw [List.getD_eq_getElem?_getD, List.getElem?_modify_ne _ r h, List.getD_eq_getElem?_getD]

/-- Correction changes codewords at the listed positions only. -/
theorem getD_correct_of_notMem {r : List Byte} {pms : List (Nat × Byte)} {k : Nat} (h : k ∉ pms.map Prod.fst) :
    (correct r pms).getD k 0 = r.getD k 0 := by
  induction pms generalizing r with
  | nil => rfl
  | cons pm pms ih =>
    obtain ⟨hne, hk⟩ := not_or.1 (mt List.mem_cons.2 h)
    rw [correct, ih hk, getD_modify_of_ne r _ (Ne.symm hne)]

/-- So it changes at most as many codewords as it lists. -/
theorem length_filter_correct_ne_le (r : List Byte) (pms : List (Nat × Byte)) (n : Nat) :
    ((List.range n).filter fun k => (correct r pms).getD k 0 ≠ r.getD k 0).length ≤ pms.length := by
  have hsub : ((List.range n).filter fun k => (correct r pms).getD k 0 ≠ r.getD k 0) ⊆ pms.map Prod.fst := by
    intro k hk
    by_contra hmem
    exact of_decide_eq_true (List.mem_filter.1 hk).2 (getD_correct_of_notMem hmem)
  have hle := (List.nodup_range.filter _).subperm hsub |>.length_le
  rwa [List.length_map] at hle

/-! ## The unit along the chain -/

/-- The unit after RSBM, for a received block. -/
def RsUnit.located (u : RsUnit) (r : List Byte) (ec : Nat) : RsUnit := { u with
  nmsg := r.length, nsyn := ec, ldeg := (bm (syndromes r ec)).2, npos := 0, reason := .noReason, detected := 0
  maxcorr := ec / 2, corrected := 0, syn := u.syn.writeBlock 0 (syndromes r ec)
  lambda := u.lambda.writeBlock 0 (bm (syndromes r ec)).1, rsst := .locatorReady }

/-- The unit after RSCHIEN, for positions within capacity. -/
def RsUnit.positioned (u : RsUnit) (r : List Byte) (ec : Nat) : RsUnit := { u.located r ec with
  pos := u.pos.writeBlock 0 ((errorPositions r ec).map (BitVec.ofNat 8)), npos := (errorPositions r ec).length
  detected := (errorPositions r ec).length, rsst := .positionsReady }

/-- The unit after RSFORNEY, for a magnitude at every position. -/
def RsUnit.measured (u : RsUnit) (r : List Byte) (ec : Nat) : RsUnit := { u.positioned r ec with
  mag := u.mag.writeBlock 0 (errorMagnitudes r ec).1, rsst := .magnitudesReady }

/-! ## The paths of the chain -/

section
variable {s : State} {ba : BReg} {ec : Nat} {r : List Byte}

/-- A codeword ends the chain at once. -/
theorem rsDecode_of_isCodeword (hr : s.Holds ba r) (hcw : IsCodeword ec r) :
    s.rsDecode ba ec = .ok { s with rs := s.rs.synStep r.length ec (syndromes r ec) } := by
  rw [State.rsDecode, rsSyn_eq_ok.2 ⟨r, hr, rfl⟩, s.rs.synStep_of_zero _ _ (forall_mem_syndromes_iff.2 hcw)]
  rfl

/-- Any other block gets its locator. -/
theorem rsDecode_of_not_isCodeword (hr : s.Holds ba r) (hcw : ¬ IsCodeword ec r) :
    s.rsDecode ba ec = (State.rsChien { s with rs := s.rs.located r ec }).bind
      (unlessIn .failed fun s => s.rsForney.bind <| unlessIn .failed fun s => s.rsApply ba) := by
  have hne : ∃ x ∈ syndromes r ec, x ≠ 0 := by
    have := mt forall_mem_syndromes_iff.1 hcw
    push Not at this
    exact this
  have hsyn : (s.rs.syn.writeBlock 0 (syndromes r ec)).holds 0 (syndromes r ec) := Memory.holds_writeBlock _ _ _
  rw [State.rsDecode, rsSyn_eq_ok.2 ⟨r, hr, rfl⟩, s.rs.synStep_of_ne_zero _ _ hne]
  show Except.bind (State.rsBm _) _ = _
  rw [rsBm_eq_ok.2 ⟨syndromes r ec, ⟨length_syndromes r ec, hsyn⟩, rfl⟩]
  rfl

theorem rsChien_located : State.rsChien { s with rs := s.rs.located r ec } =
    .ok { s with rs := (s.rs.located r ec).chienStep (errorPositions r ec) } :=
  rsChien_eq_ok.2 ⟨_, ⟨length_bm _, Memory.holds_writeBlock _ _ _⟩, rfl⟩

/-- Positions beyond capacity end it (R255). -/
theorem rsDecode_of_excess (hr : s.Holds ba r) (hcw : ¬ IsCodeword ec r)
    (hcap : ec / 2 < (errorPositions r ec).length) :
    s.rsDecode ba ec = .ok { s with rs := (s.rs.located r ec).chienStep (errorPositions r ec) } := by
  rw [rsDecode_of_not_isCodeword hr hcw, rsChien_located, RsUnit.chienStep_of_lt _ hcap]
  rfl

theorem rsForney_positioned (hmax : r.length ≤ 255) : State.rsForney { s with rs := s.rs.positioned r ec } =
    .ok { s with rs := (s.rs.positioned r ec).forneyStep (errorMagnitudes r ec) } := by
  refine rsForney_eq_ok.2 ⟨_, ?_, rfl⟩
  have hforney := RsUnit.forney_eq (u := s.rs.positioned r ec) (length_syndromes r ec) (Memory.holds_writeBlock _ _ _)
    (length_bm _) (Memory.holds_writeBlock _ _ _) (List.length_map _) (Memory.holds_writeBlock _ _ _)
  rwa [map_toNat_map_ofNat_errorPositions ec hmax] at hforney

theorem rsDecode_of_positions (hr : s.Holds ba r) (hmax : r.length ≤ 255) (hcw : ¬ IsCodeword ec r)
    (hcap : (errorPositions r ec).length ≤ ec / 2) : s.rsDecode ba ec =
      unlessIn .failed (fun s => s.rsApply ba)
        { s with rs := (s.rs.positioned r ec).forneyStep (errorMagnitudes r ec) } := by
  rw [rsDecode_of_not_isCodeword hr hcw, rsChien_located, RsUnit.chienStep_of_le _ hcap]
  show Except.bind (State.rsForney { s with rs := s.rs.positioned r ec }) _ = _
  rw [rsForney_positioned hmax]
  rfl

/-- A zero denominator ends it (R256). -/
theorem rsDecode_of_zero_denominator (hr : s.Holds ba r) (hmax : r.length ≤ 255) (hcw : ¬ IsCodeword ec r)
    (hcap : (errorPositions r ec).length ≤ ec / 2) (hz : (errorMagnitudes r ec).2 = true) : s.rsDecode ba ec =
      .ok { s with rs := (s.rs.positioned r ec).forneyStep ((errorMagnitudes r ec).1, true) } := by
  have hms : errorMagnitudes r ec = ((errorMagnitudes r ec).1, true) := Prod.ext rfl hz
  rw [rsDecode_of_positions hr hmax hcw hcap, hms]
  rfl

/-- Else RSAPPLY ends it. -/
theorem rsDecode_of_magnitudes (hr : s.Holds ba r) (hmax : r.length ≤ 255) (hcw : ¬ IsCodeword ec r)
    (hcap : (errorPositions r ec).length ≤ ec / 2) (hz : (errorMagnitudes r ec).2 = false) :
    s.rsDecode ba ec = State.rsApply { s with rs := s.rs.measured r ec } ba := by
  have hms : errorMagnitudes r ec = ((errorMagnitudes r ec).1, false) := Prod.ext rfl hz
  rw [rsDecode_of_positions hr hmax hcw hcap, hms]
  rfl

theorem trial_measured (hr : s.Holds ba r) (hmax : r.length ≤ 255) (hz : (errorMagnitudes r ec).2 = false) :
    State.trial { s with rs := s.rs.measured r ec } ba = .ok (trialBlock r ec) := by
  have htrial := trial_eq (s := { s with rs := s.rs.measured r ec }) hr.1.symm hr (List.length_map _)
    (Memory.holds_writeBlock _ _ _) ((length_magnitudes _ _ _ _).2 hz) (Memory.holds_writeBlock _ _ _)
  rwa [map_toNat_map_ofNat_errorPositions ec hmax] at htrial

/-! ## The ends -/

theorem State.Holds.writeB {c : List Byte} (hr : s.Holds ba r) (hc : c.length = r.length) :
    (s.writeB ba 0 c).Holds ba c :=
  ⟨hc.trans hr.1, s.memB_writeB ba 0 c ▸ Memory.holds_writeBlock _ _ _⟩

/-- RSDEC on a codeword. -/
theorem exec_rsdec_of_isCodeword (hr : s.Holds ba r) (hchk : s.blockLengthError ba ec = none)
    (hcw : IsCodeword ec r) : ∃ t, exec (.rsdec ba ec) s = .next t ∧ Completed s t ∧ t.Holds ba r
      ∧ t.rs.rsst = .noError ∧ t.rs.corrected = 0 := by
  rw [exec_rsdec_of_checked hchk, rsDecode_of_isCodeword hr hcw,
    s.rs.synStep_of_zero _ _ (forall_mem_syndromes_iff.2 hcw)]
  exact ⟨_, rfl, rfl, hr, rfl, rfl⟩

/-- RSDEC on a block whose trial correction verifies. -/
theorem exec_rsdec_of_verified (hr : s.Holds ba r) (hchk : s.blockLengthError ba ec = none)
    (hcw : ¬ IsCodeword ec r) (hcap : (errorPositions r ec).length ≤ ec / 2) (hz : (errorMagnitudes r ec).2 = false)
    (hv : IsCodeword ec (trialBlock r ec)) : ∃ t, exec (.rsdec ba ec) s = .next t ∧ Completed s t
      ∧ t.Holds ba (trialBlock r ec) ∧ t.rs.rsst = .corrected ∧ t.rs.corrected = (errorPositions r ec).length := by
  have hmax : r.length ≤ 255 := hr.1 ▸ (blockLengthError_eq_none.1 hchk).2.2
  rw [exec_rsdec_of_checked hchk, rsDecode_of_magnitudes hr hmax hcw hcap hz,
    rsApply_of_verified (trial_measured hr hmax hz) hv]
  exact ⟨_, rfl, rfl, hr.writeB (length_trialBlock r ec), rfl, rfl⟩

/-- RSDEC on any other block: the block is uncorrectable for one of three reasons, and stays. -/
theorem exec_rsdec_of_uncorrectable (hr : s.Holds ba r) (hchk : s.blockLengthError ba ec = none)
    (hcw : ¬ IsCodeword ec r)
    (hbad : ¬ ((errorPositions r ec).length ≤ ec / 2 ∧ (errorMagnitudes r ec).2 = false
      ∧ IsCodeword ec (trialBlock r ec))) :
    ∃ t, exec (.rsdec ba ec) s = .next t ∧ Completed s t ∧ t.Holds ba r ∧ t.rs.rsst = .failed
      ∧ t.rs.reason ≠ .noReason := by
  have hmax : r.length ≤ 255 := hr.1 ▸ (blockLengthError_eq_none.1 hchk).2.2
  rw [exec_rsdec_of_checked hchk]
  obtain hcap | hcap := Nat.lt_or_ge (ec / 2) (errorPositions r ec).length
  · rw [rsDecode_of_excess hr hcw hcap, RsUnit.chienStep_of_lt _ hcap]
    exact ⟨_, rfl, rfl, hr, rfl, nofun⟩
  cases hz : (errorMagnitudes r ec).2 with
  | true =>
    rw [rsDecode_of_zero_denominator hr hmax hcw hcap hz, RsUnit.forneyStep_of_zero]
    exact ⟨_, rfl, rfl, hr, rfl, nofun⟩
  | false =>
    have hres : ∃ i : Nat, i < ec ∧ pevalHf (trialBlock r ec) (gfExp i) ≠ 0 := by
      by_contra hall
      push Not at hall
      exact hbad ⟨hcap, hz, hall⟩
    rw [rsDecode_of_magnitudes hr hmax hcw hcap hz, rsApply_of_residual (trial_measured hr hmax hz) hres]
    exact ⟨_, rfl, rfl, hr, rfl, nofun⟩

end

/-- Settles O30: the block is a codeword, or its trial correction is one, or it stays as it was received. -/
theorem decodedBlockIsVerified : Obligations.DecodedBlockIsVerified := by
  intro s ba ec r hr _ hmax h1 hle isCodeword
  have hchk := hr.blockLengthError_eq_none hmax h1 hle
  by_cases hcw : IsCodeword ec r
  · obtain ⟨t, hexec, hdone, hholds, hst, -⟩ := exec_rsdec_of_isCodeword hr hchk hcw
    exact ⟨t, r, hexec, hdone, hholds, .inl ⟨hst, rfl, hcw⟩⟩
  by_cases hgood : (errorPositions r ec).length ≤ ec / 2 ∧ (errorMagnitudes r ec).2 = false
      ∧ IsCodeword ec (trialBlock r ec)
  · obtain ⟨hcap, hz, hv⟩ := hgood
    obtain ⟨t, hexec, hdone, hholds, hst, hcount⟩ := exec_rsdec_of_verified hr hchk hcw hcap hz hv
    refine ⟨t, _, hexec, hdone, hholds, .inr (.inl ⟨hst, hv, hcw, hcount ▸ hcap, ?_⟩)⟩
    calc _ ≤ ((errorPositions r ec).zip (errorMagnitudes r ec).1).length := length_filter_correct_ne_le r _ _
      _ ≤ (errorPositions r ec).length := List.length_zip ▸ Nat.min_le_left _ _
      _ = t.rs.corrected := hcount.symm
  · obtain ⟨t, hexec, hdone, hholds, hst, hwhy⟩ := exec_rsdec_of_uncorrectable hr hchk hcw hgood
    exact ⟨t, r, hexec, hdone, hholds, .inr (.inr ⟨hst, rfl, hcw, hwhy⟩)⟩

end Sys2Proof.Machine
end

section
/-! PROOFS. Berlekamp-Massey and Forney over any field (44_rs_decoder.md, R253 to R256): a register that generates the
syndromes, how one iteration keeps it, Massey's bound on its length, and the locator and evaluator of an error
polynomial. -/

namespace Sys2Proof.Machine

open Polynomial

variable {F : Type} [Field F]

/-! ## Registers that generate a sequence -/

/-- The lowest n coefficients of S, from the l-th on, are what the register c of length l makes of those before. -/
structure Generates (S : F[X]) (n : Nat) (c : F[X]) (l : Nat) : Prop where
  const : c.coeff 0 = 1
  degree : c.natDegree ≤ l
  recurs : ∀ k, l ≤ k → k < n → (c * S).coeff k = 0

theorem Generates.mono {S c : F[X]} {n n' l : Nat} (h : Generates S n c l) (hn : n' ≤ n) : Generates S n' c l :=
  ⟨h.const, h.degree, fun k hk hlt => h.recurs k hk (hlt.trans_le hn)⟩

/-- A coefficient of a product, when the coefficients before it that count are 0. -/
theorem coeff_mul_eq_of_window {p q : F[X]} {a b n : Nat} (hp : p.natDegree ≤ a) (hab : a + b ≤ n)
    (hq : ∀ k, b ≤ k → k < n → q.coeff k = 0) : (p * q).coeff n = p.coeff 0 * q.coeff n := by
  rw [coeff_mul]
  refine Finset.sum_eq_single (0, n) (fun ij hij hne => ?_) (fun h => absurd (by simp) h)
  obtain ⟨i, j⟩ := ij
  have hsum : i + j = n := Finset.HasAntidiagonal.mem_antidiagonal.1 hij
  obtain hi | hi := Nat.lt_or_ge a i
  · rw [coeff_eq_zero_of_natDegree_lt (hp.trans_lt hi), zero_mul]
  · have hi0 : i ≠ 0 := by
      rintro rfl
      exact hne (by rw [← hsum, zero_add])
    rw [hq j (by omega) (by omega), mul_zero]

/-- Massey's bound: a register that goes wrong at n and one that goes right there are together longer than n. -/
theorem Generates.lt_add {S c σ : F[X]} {n l ν : Nat} (hc : Generates S n c l) (hd : (c * S).coeff n ≠ 0)
    (hσ : Generates S (n + 1) σ ν) : n < ν + l := by
  by_contra hle
  have hσcS : (σ * (c * S)).coeff n = (c * S).coeff n := by
    rw [coeff_mul_eq_of_window hσ.degree (by omega) hc.recurs, hσ.const, one_mul]
  have hcσS : (c * (σ * S)).coeff n = 0 := by
    rw [coeff_mul_eq_of_window hc.degree (b := ν) (by omega) fun k hk hlt => hσ.recurs k hk (by omega),
      hσ.recurs n (by omega) (by omega), mul_zero]
  rw [mul_left_comm, hcσS] at hσcS
  exact hd hσcS.symm

/-! ## An iteration -/

/-- The variables of Berlekamp-Massey before iteration n, as polynomials: the register, and the one before its last
change of length, which went wrong m iterations ago by the discrepancy b. -/
structure BmInvariant (S : F[X]) (n : Nat) (c bp : F[X]) (l m : Nat) (b : F) : Prop where
  generates : Generates S n c l
  ne_zero : b ≠ 0
  age : 1 ≤ m
  room : bp.natDegree + m + l ≤ n + 1
  old : ∀ k, n + 1 ≤ k + m + l → k + m ≤ n → (bp * S).coeff k = if k + m = n then b else 0

theorem BmInvariant.length_le {S c bp : F[X]} {n l m : Nat} {b : F} (h : BmInvariant S n c bp l m b) : l ≤ n := by
  have := h.age
  have := h.room
  omega

theorem BmInvariant.init (S : F[X]) : BmInvariant S 0 1 1 0 1 1 where
  generates := ⟨coeff_one_zero, natDegree_one.le, fun _ _ h => absurd h (Nat.not_lt_zero _)⟩
  ne_zero := one_ne_zero
  age := le_rfl
  room := by rw [natDegree_one]
  old k _ h := by omega

/-- A register without discrepancy stays. -/
theorem BmInvariant.keep {S c bp : F[X]} {n l m : Nat} {b : F} (h : BmInvariant S n c bp l m b)
    (hd : (c * S).coeff n = 0) : BmInvariant S (n + 1) c bp l (m + 1) b where
  generates := ⟨h.generates.const, h.generates.degree, fun k hk hlt => by
    obtain hlt | rfl := Nat.lt_succ_iff_lt_or_eq.1 hlt
    · exact h.generates.recurs k hk hlt
    · exact hd⟩
  ne_zero := h.ne_zero
  age := Nat.le_add_left 1 m
  room := by have := h.room; omega
  old k hk hle := by
    rw [h.old k (by omega) (by omega)]
    simp only [← Nat.add_assoc, Nat.add_right_cancel_iff]

/-- A multiple of the old register, shifted, takes the discrepancy away. -/
theorem BmInvariant.corrected {S c bp : F[X]} {n l m : Nat} {b q : F} (h : BmInvariant S n c bp l m b)
    (hq : (c * S).coeff n + q * b = 0) {l' : Nat} (hl : l ≤ l') (hl' : n + 1 ≤ l + l') :
    Generates S (n + 1) (c + C q * (X ^ m * bp)) l' where
  const := by
    have hm : ¬ m ≤ 0 := by have := h.age; omega
    rw [coeff_add, coeff_C_mul, coeff_X_pow_mul', if_neg hm, mul_zero, add_zero, h.generates.const]
  degree := by
    have hroom := h.room
    refine natDegree_add_le_of_degree_le (h.generates.degree.trans hl) ((natDegree_C_mul_le _ _).trans ?_)
    refine natDegree_mul_le.trans ?_
    rw [natDegree_X_pow]
    omega
  recurs k hk hlt := by
    have hroom := h.room
    have hmk : m ≤ k := by omega
    rw [add_mul, coeff_add, mul_assoc, coeff_C_mul, mul_assoc, coeff_X_pow_mul', if_pos hmk,
      h.old _ (by omega) (by omega), Nat.sub_add_cancel hmk]
    split
    next hkn => rw [hkn, hq]
    next hkn => rw [h.generates.recurs k (by omega) (by omega), mul_zero, add_zero]

/-- A discrepancy that the length can bear. -/
theorem BmInvariant.adjust {S c bp : F[X]} {n l m : Nat} {b q : F} (h : BmInvariant S n c bp l m b)
    (hq : (c * S).coeff n + q * b = 0) (hl : n < 2 * l) :
    BmInvariant S (n + 1) (c + C q * (X ^ m * bp)) bp l (m + 1) b where
  generates := h.corrected hq le_rfl (by omega)
  ne_zero := h.ne_zero
  age := Nat.le_add_left 1 m
  room := by have := h.room; omega
  old k hk hle := by
    rw [h.old k (by omega) (by omega)]
    simp only [← Nat.add_assoc, Nat.add_right_cancel_iff]

/-- A discrepancy for which the register grows; the register it had becomes the old one. -/
theorem BmInvariant.grow {S c bp : F[X]} {n l m : Nat} {b q : F} (h : BmInvariant S n c bp l m b)
    (hq : (c * S).coeff n + q * b = 0) (hd : (c * S).coeff n ≠ 0) (hl : 2 * l ≤ n) :
    BmInvariant S (n + 1) (c + C q * (X ^ m * bp)) c (n + 1 - l) 1 ((c * S).coeff n) where
  generates := h.corrected hq (by omega) (by omega)
  ne_zero := hd
  age := le_rfl
  room := by have := h.generates.degree; omega
  old k hk hle := by
    split
    next hkn => rw [Nat.add_right_cancel hkn]
    next hkn => exact h.generates.recurs k (by omega) (by omega)

/-! ## The locator and the evaluator of an error polynomial -/

/-- The product of 1 − a^e·x over the degrees of the errors. -/
noncomputable def locator (a : F) (E : Finset Nat) : F[X] := ∏ e ∈ E, (1 - C (a ^ e) * X)

/-- The sum of each error times the locator of the others. -/
noncomputable def errorEvaluator (a : F) (D : F[X]) : F[X] :=
  ∑ e ∈ D.support, C (D.coeff e) * locator a (D.support.erase e)

theorem natDegree_locator_le (a : F) (E : Finset Nat) : (locator a E).natDegree ≤ E.card := by
  refine (natDegree_prod_le _ _).trans ((Finset.sum_le_card_nsmul _ _ 1 fun e _ => ?_).trans (by simp))
  compute_degree

theorem coeff_zero_locator (a : F) (E : Finset Nat) : (locator a E).coeff 0 = 1 := by
  simp [locator, coeff_zero_eq_eval_zero, eval_prod]

theorem locator_eq_mul_erase (a : F) {E : Finset Nat} {e : Nat} (he : e ∈ E) :
    locator a E = (1 - C (a ^ e) * X) * locator a (E.erase e) := (Finset.mul_prod_erase E _ he).symm

theorem degree_errorEvaluator_lt (a : F) (D : F[X]) : (errorEvaluator a D).degree < D.support.card := by
  rw [← mem_degreeLT]
  refine Submodule.sum_mem _ fun e he => mem_degreeLT.2 ?_
  have hcard := Finset.card_erase_add_one he
  have hdeg := (natDegree_C_mul_le (D.coeff e) _).trans (natDegree_locator_le a (D.support.erase e))
  refine (degree_le_of_natDegree_le hdeg).trans_lt ?_
  exact_mod_cast (Nat.lt_succ_self _).trans_eq hcard

/-- The first n powers of u, as the coefficients of a polynomial: the syndromes of an error of 1. -/
noncomputable def powersPoly (u : F) (n : Nat) : F[X] := ∑ i ∈ Finset.range n, (C u * X) ^ i

theorem coeff_powersPoly (u : F) {n i : Nat} (hi : i < n) : (powersPoly u n).coeff i = u ^ i := by
  simp only [powersPoly, mul_pow, ← C_pow, finsetSum_coeff, coeff_C_mul_X_pow]
  simp [hi]

theorem one_sub_mul_powersPoly (u : F) (n : Nat) : (1 - C u * X) * powersPoly u n = 1 - C (u ^ n) * X ^ n := by
  rw [powersPoly, mul_neg_geom_sum, mul_pow, C_pow]

/-- The key equation: locator times syndromes is the evaluator, up to the number of syndromes. -/
theorem X_pow_dvd_locator_mul_sub {a : F} {D S : F[X]} {n : Nat} (hS : ∀ i < n, S.coeff i = D.eval (a ^ i)) :
    X ^ n ∣ locator a D.support * S - errorEvaluator a D := by
  have hsyn : X ^ n ∣ S - ∑ e ∈ D.support, C (D.coeff e) * powersPoly (a ^ e) n := by
    refine X_pow_dvd_iff.2 fun i hi => ?_
    simp only [coeff_sub, finsetSum_coeff, coeff_C_mul, coeff_powersPoly _ hi]
    rw [hS i hi, eval_eq_sum, sum_def, sub_eq_zero]
    exact Finset.sum_congr rfl fun e _ => by rw [pow_right_comm]
  have hterm : ∀ e ∈ D.support, X ^ n ∣ locator a D.support * (C (D.coeff e) * powersPoly (a ^ e) n)
      - C (D.coeff e) * locator a (D.support.erase e) := fun e he => by
    refine ⟨-(C (D.coeff e) * locator a (D.support.erase e) * C ((a ^ e) ^ n)), ?_⟩
    rw [locator_eq_mul_erase a he]
    linear_combination C (D.coeff e) * locator a (D.support.erase e) * one_sub_mul_powersPoly (a ^ e) n
  have hsum := Finset.dvd_sum hterm
  rw [Finset.sum_sub_distrib, ← Finset.mul_sum] at hsum
  have hdvd := (hsyn.mul_left (locator a D.support)).add hsum
  rwa [mul_sub, sub_add_sub_cancel] at hdvd

/-- The locator generates the syndromes. -/
theorem generates_locator {a : F} {D S : F[X]} {n : Nat} (hS : ∀ i < n, S.coeff i = D.eval (a ^ i)) :
    Generates S n (locator a D.support) D.support.card where
  const := coeff_zero_locator a _
  degree := natDegree_locator_le a _
  recurs k hk hlt := by
    have hkey := X_pow_dvd_iff.1 (X_pow_dvd_locator_mul_sub hS) k hlt
    have hhigh : (errorEvaluator a D).coeff k = 0 :=
      coeff_eq_zero_of_degree_lt ((degree_errorEvaluator_lt a D).trans_le (by exact_mod_cast hk))
    rwa [coeff_sub, hhigh, sub_zero] at hkey

/-! ## Values at the inverse powers -/

section
variable {a : F} (ha : a ≠ 0)
include ha

/-- The locator's roots among the inverse powers of a are at the degrees of the errors. -/
theorem eval_locator_eq_zero_iff (E : Finset Nat) (i : Nat) :
    (locator a E).eval (a ^ i)⁻¹ = 0 ↔ ∃ e ∈ E, a ^ e = a ^ i := by
  rw [locator, eval_prod, Finset.prod_eq_zero_iff]
  refine exists_congr fun e => and_congr_right fun _ => ?_
  rw [eval_sub, eval_mul, eval_one, eval_C, eval_X, sub_eq_zero, eq_comm, mul_inv_eq_one₀ (pow_ne_zero i ha)]

theorem eval_locator_erase_ne_zero {E : Finset Nat} (hinj : Set.InjOn (fun e => a ^ e) E) {e : Nat} (he : e ∈ E) :
    (locator a (E.erase e)).eval (a ^ e)⁻¹ ≠ 0 := by
  rw [Ne, eval_locator_eq_zero_iff ha]
  rintro ⟨e', he', hpow⟩
  exact Finset.ne_of_mem_erase he' (hinj (Finset.mem_of_mem_erase he') he hpow)

theorem eval_derivative_locator {E : Finset Nat} {e : Nat} (he : e ∈ E) :
    (Polynomial.derivative (locator a E)).eval (a ^ e)⁻¹ = -(a ^ e * (locator a (E.erase e)).eval (a ^ e)⁻¹) := by
  have hunit : a ^ e * (a ^ e)⁻¹ = 1 := mul_inv_cancel₀ (pow_ne_zero e ha)
  rw [locator_eq_mul_erase a he, Polynomial.derivative_mul]
  simp only [derivative_sub, derivative_one, derivative_mul, derivative_C, derivative_X, eval_add, eval_mul, eval_sub,
    eval_one, eval_C, eval_X, hunit, eval_zero]
  ring

theorem eval_errorEvaluator (D : F[X]) {e : Nat} (he : e ∈ D.support) :
    (errorEvaluator a D).eval (a ^ e)⁻¹ = D.coeff e * (locator a (D.support.erase e)).eval (a ^ e)⁻¹ := by
  rw [errorEvaluator, eval_finsetSum, Finset.sum_eq_single_of_mem e he fun e' _ hne => ?_, eval_mul, eval_C]
  rw [eval_mul, (eval_locator_eq_zero_iff ha _ e).2 ⟨e, Finset.mem_erase.2 ⟨hne.symm, he⟩, rfl⟩, mul_zero]

variable {D : F[X]} (hinj : Set.InjOn (fun e => a ^ e) D.support)
include hinj

theorem eval_errorEvaluator_ne_zero {e : Nat} (he : e ∈ D.support) : (errorEvaluator a D).eval (a ^ e)⁻¹ ≠ 0 := by
  rw [eval_errorEvaluator ha D he]
  exact mul_ne_zero (mem_support_iff.1 he) (eval_locator_erase_ne_zero ha hinj he)

/-- Forney's formula (R256), with the sign that a field of characteristic 2 does not see. -/
theorem forney_formula {e : Nat} (he : e ∈ D.support) : (Polynomial.derivative (locator a D.support)).eval (a ^ e)⁻¹ ≠ 0
    ∧ a ^ e * ((errorEvaluator a D).eval (a ^ e)⁻¹ / (Polynomial.derivative (locator a D.support)).eval (a ^ e)⁻¹)
      = -D.coeff e := by
  have hpow : a ^ e ≠ 0 := pow_ne_zero e ha
  have hothers := eval_locator_erase_ne_zero ha hinj he
  rw [eval_derivative_locator ha he, eval_errorEvaluator ha D he]
  refine ⟨neg_ne_zero.2 (mul_ne_zero hpow hothers), ?_⟩
  rw [div_neg, mul_neg, mul_div_mul_right _ _ hothers, mul_div_cancel₀ _ hpow]

/-- Errors no more than the syndromes do not cancel in all of them. -/
theorem exists_syndrome_ne_zero {n : Nat} (hD : D ≠ 0) (hcard : D.support.card ≤ n) :
    ∃ i < n, D.eval (a ^ i) ≠ 0 := by
  by_contra hall
  push Not at hall
  obtain ⟨e, he⟩ := nonempty_support_iff.2 hD
  have hdvd : X ^ n ∣ errorEvaluator a D := by
    have hkey := X_pow_dvd_locator_mul_sub (a := a) (D := D) (S := 0) (n := n) fun i hi => (hall i hi).symm
    rwa [mul_zero, zero_sub, dvd_neg] at hkey
  have hzero : errorEvaluator a D = 0 := by
    refine eq_zero_of_dvd_of_degree_lt hdvd ((degree_errorEvaluator_lt a D).trans_le ?_)
    rw [degree_X_pow]
    exact_mod_cast hcard
  exact eval_errorEvaluator_ne_zero ha hinj he (by rw [hzero, eval_zero])

end

/-! ## Uniqueness -/

/-- A register that generates the syndromes has an evaluator of its own. -/
theorem Generates.exists_evaluator {S c : F[X]} {n l : Nat} (h : Generates S n c l) :
    ∃ w : F[X], w.degree < l ∧ X ^ n ∣ c * S - w := by
  refine ⟨∑ i ∈ Finset.range l, C ((c * S).coeff i) * X ^ i, ?_, X_pow_dvd_iff.2 fun k hk => ?_⟩
  · refine mem_degreeLT.1 (Submodule.sum_mem _ fun i hi => mem_degreeLT.2 ?_)
    exact (degree_C_mul_X_pow_le i _).trans_lt (by exact_mod_cast Finset.mem_range.1 hi)
  · simp only [coeff_sub, finsetSum_coeff, coeff_C_mul_X_pow, Finset.sum_ite_eq, Finset.mem_range]
    split
    next => exact sub_self _
    next hlt => rw [h.recurs k (Nat.not_lt.1 hlt) hk, sub_zero]

theorem degree_mul_lt {p q : F[X]} {i j : Nat} (hp : p.natDegree ≤ i) (hq : q.degree < j) :
    (p * q).degree < (i + j : Nat) := by
  obtain rfl | hq0 := eq_or_ne q 0
  · simp
  have hq' : q.natDegree < j := (natDegree_lt_iff_degree_lt hq0).2 hq
  refine degree_le_natDegree.trans_lt ?_
  exact_mod_cast natDegree_mul_le.trans_lt (by omega)

/-- Polynomials of degree at most n that agree at 0 and at the inverses of n powers of a are equal. -/
theorem eq_of_eval_inv_pow {a : F} (ha : a ≠ 0) {E : Finset Nat} (hinj : Set.InjOn (fun e => a ^ e) E) {p q : F[X]}
    (hp : p.natDegree ≤ E.card) (hq : q.natDegree ≤ E.card) (hzero : p.coeff 0 = q.coeff 0)
    (heval : ∀ e ∈ E, p.eval (a ^ e)⁻¹ = q.eval (a ^ e)⁻¹) : p = q := by
  classical
  have hnotMem : (0 : F) ∉ E.image fun e => (a ^ e)⁻¹ := by simp [ha]
  have hcard : (insert 0 (E.image fun e => (a ^ e)⁻¹)).card = E.card + 1 := by
    rw [Finset.card_insert_of_notMem hnotMem, Finset.card_image_of_injOn fun e he e' he' h => hinj he he' (inv_inj.1 h)]
  have hlt {p : F[X]} (hp : p.natDegree ≤ E.card) : p.degree < (insert 0 (E.image fun e => (a ^ e)⁻¹)).card :=
    (degree_le_of_natDegree_le hp).trans_lt (by rw [hcard]; exact_mod_cast Nat.lt_succ_self _)
  refine eq_of_degrees_lt_of_eval_finset_eq _ (hlt hp) (hlt hq) ?_
  rw [Finset.forall_mem_insert, Finset.forall_mem_image, ← coeff_zero_eq_eval_zero, ← coeff_zero_eq_eval_zero]
  exact ⟨hzero, fun e he => heval e he⟩

/-- Within half the number of syndromes, the only register that generates them is the locator. -/
theorem Generates.eq_locator {a : F} {D S c : F[X]} {n l : Nat} (ha : a ≠ 0)
    (hinj : Set.InjOn (fun e => a ^ e) D.support) (hS : ∀ i < n, S.coeff i = D.eval (a ^ i))
    (h : Generates S n c l) (hl : l ≤ D.support.card) (hcap : 2 * D.support.card ≤ n) :
    c = locator a D.support := by
  obtain ⟨w, hw, hcw⟩ := h.exists_evaluator
  have hcross : locator a D.support * w = c * errorEvaluator a D := by
    refine sub_eq_zero.1 (eq_zero_of_dvd_of_degree_lt (p := X ^ n) ?_ ?_)
    · have hdvd := ((X_pow_dvd_locator_mul_sub hS).mul_left c).sub (hcw.mul_left (locator a D.support))
      convert hdvd using 1
      ring
    · rw [degree_X_pow]
      have hleft := degree_mul_lt (natDegree_locator_le a D.support) hw
      have hright := degree_mul_lt h.degree (degree_errorEvaluator_lt a D)
      refine (degree_sub_le _ _).trans_lt (max_lt (hleft.trans_le ?_) (hright.trans_le ?_)) <;>
        exact_mod_cast (by omega)
  have hroot : ∀ e ∈ D.support, c.eval (a ^ e)⁻¹ = 0 := fun e he => by
    have hval := congrArg (eval (a ^ e)⁻¹) hcross
    rw [eval_mul, eval_mul, (eval_locator_eq_zero_iff ha _ e).2 ⟨e, he, rfl⟩, zero_mul] at hval
    exact (mul_eq_zero.1 hval.symm).resolve_right (eval_errorEvaluator_ne_zero ha hinj he)
  refine eq_of_eval_inv_pow ha hinj (h.degree.trans hl) (natDegree_locator_le a _) ?_ fun e he => ?_
  · rw [h.const, coeff_zero_locator]
  · rw [hroot e he, (eval_locator_eq_zero_iff ha _ e).2 ⟨e, he, rfl⟩]

end Sys2Proof.Machine
end

section
/-! PROOFS. The bytes as a field (41_gf256.md, R197) and their lists as polynomials over it, low-first as the decoder
holds them: their coefficients, values, products and derivatives. -/

namespace Sys2Proof.Machine

open Polynomial

/-! ## The field -/

/-- A byte as an element of GF(256). A type of its own, since `BitVec 8` has a ring's operations already. -/
structure Gf where
  byte : Byte

/-- `gfAdd` of the bytes. -/
def Gf.add (x y : Gf) : Gf := ⟨gfAdd x.byte y.byte⟩

/-- The elements under `gfAdd` and `gfMul`. -/
@[reducible] noncomputable def gfField : Field Gf where
  add := Gf.add
  add_assoc x y z := congrArg Gf.mk (gfAdd_assoc x.byte y.byte z.byte)
  zero := ⟨0⟩
  zero_add x := congrArg Gf.mk (gfAdd_zero_left x.byte)
  add_zero x := congrArg Gf.mk (gfAdd_zero_right x.byte)
  add_comm x y := congrArg Gf.mk (gfAdd_comm x.byte y.byte)
  neg := id
  neg_add_cancel x := congrArg Gf.mk (gfAdd_self x.byte)
  nsmul := @nsmulRec Gf ⟨⟨0⟩⟩ ⟨Gf.add⟩
  zsmul := @zsmulRec Gf ⟨⟨0⟩⟩ ⟨Gf.add⟩ ⟨id⟩ (@nsmulRec Gf ⟨⟨0⟩⟩ ⟨Gf.add⟩)
  mul x y := ⟨gfMul x.byte y.byte⟩
  mul_assoc x y z := congrArg Gf.mk (gfMul_assoc x.byte y.byte z.byte)
  one := ⟨1⟩
  one_mul x := congrArg Gf.mk (gfMul_one_left x.byte)
  mul_one x := congrArg Gf.mk (gfMul_one_right x.byte)
  left_distrib x y z := congrArg Gf.mk (gfMul_gfAdd x.byte y.byte z.byte)
  right_distrib x y z := congrArg Gf.mk (gfAdd_gfMul x.byte y.byte z.byte)
  zero_mul x := congrArg Gf.mk (gfMul_zero_left x.byte)
  mul_zero x := congrArg Gf.mk (gfMul_zero_right x.byte)
  mul_comm x y := congrArg Gf.mk (gfMul_comm x.byte y.byte)
  inv x := ⟨(gfInv x.byte).getD 0⟩
  exists_pair_ne := ⟨⟨0⟩, ⟨1⟩, fun h => absurd (congrArg Gf.byte h) (by decide)⟩
  mul_inv_cancel x hx := by
    obtain ⟨r, hr, hone, -⟩ := exists_gfInv fun h : x.byte = 0 => hx (congrArg Gf.mk h)
    refine congrArg Gf.mk (?_ : gfMul x.byte ((gfInv x.byte).getD 0) = 1)
    rw [hr, Option.getD_some, gfMul_comm, hone]
  inv_zero := rfl
  nnqsmul := _
  qsmul := _

/-- A reading of the bytes as elements of a field F. The theory of F's polynomials is then the theory of byte lists,
and F's own operations do not meet those of `BitVec 8`. -/
structure FieldReading {F : Type} [Field F] (φ : Byte → F) : Prop where
  zero : φ 0 = 0
  one : φ 1 = 1
  add : ∀ a b, φ (gfAdd a b) = φ a + φ b
  mul : ∀ a b, φ (gfMul a b) = φ a * φ b
  injective : Function.Injective φ

theorem exists_fieldReading : ∃ (F : Type) (_ : Field F) (φ : Byte → F), FieldReading φ := by
  let _ := gfField
  exact ⟨Gf, gfField, Gf.mk, rfl, rfl, fun _ _ => rfl, fun _ _ => rfl, fun _ _ => congrArg Gf.byte⟩

section
variable {F : Type} [Field F] {φ : Byte → F}

theorem FieldReading.eq_zero_iff (hφ : FieldReading φ) {a : Byte} : φ a = 0 ↔ a = 0 := by
  rw [← hφ.zero, hφ.injective.eq_iff]

/-- Each element is its own negative. -/
theorem FieldReading.add_self (hφ : FieldReading φ) (a : Byte) : φ a + φ a = 0 := by
  rw [← hφ.add, gfAdd_self, hφ.zero]

theorem FieldReading.gfSum (hφ : FieldReading φ) (n : Nat) (f : Nat → Byte) :
    φ (gfSum n f) = ∑ k ∈ Finset.range n, φ (f k) := by
  induction n with
  | zero => exact hφ.zero
  | succ n ih => rw [gfSum_succ, hφ.add, ih, Finset.sum_range_succ]

/-! ## Lists as polynomials -/

/-- The polynomial of a list, its head the constant term. -/
noncomputable def toPoly (φ : Byte → F) : List Byte → F[X]
  | [] => 0
  | a :: q => C (φ a) + X * toPoly φ q

theorem coeff_toPoly (hφ : FieldReading φ) (q : List Byte) (n : Nat) : (toPoly φ q).coeff n = φ (q.getD n 0) := by
  induction q generalizing n with
  | nil => rw [toPoly, coeff_zero, List.getD_nil, hφ.zero]
  | cons a q ih =>
    cases n with
    | zero => rw [toPoly, coeff_add, coeff_C_zero, coeff_X_mul_zero, add_zero, List.getD_cons_zero]
    | succ n => rw [toPoly, coeff_add, coeff_C_succ, coeff_X_mul, zero_add, List.getD_cons_succ, ih]

theorem toPoly_polyAdd (hφ : FieldReading φ) (p q : List Byte) :
    toPoly φ (polyAdd p q) = toPoly φ p + toPoly φ q := by
  ext n
  rw [coeff_add, coeff_toPoly hφ, coeff_toPoly hφ, coeff_toPoly hφ, getD_polyAdd, hφ.add]

theorem toPoly_polyScale (hφ : FieldReading φ) (c : Byte) (q : List Byte) :
    toPoly φ (polyScale c q) = C (φ c) * toPoly φ q := by
  ext n
  rw [coeff_C_mul, coeff_toPoly hφ, coeff_toPoly hφ, getD_polyScale, hφ.mul]

theorem toPoly_replicate_append (hφ : FieldReading φ) (m : Nat) (q : List Byte) :
    toPoly φ (List.replicate m 0 ++ q) = X ^ m * toPoly φ q := by
  induction m with
  | zero => rw [List.replicate_zero, List.nil_append, pow_zero, one_mul]
  | succ m ih =>
    rw [List.replicate_succ, List.cons_append, toPoly, ih, hφ.zero, C_0, zero_add, pow_succ', mul_assoc]

/-- A coefficient of a product, when the first factor's degree is known. -/
theorem coeff_mul_eq_sum {p q : F[X]} {l n : Nat} (hp : p.natDegree ≤ l) (hl : l ≤ n) :
    (p * q).coeff n = ∑ k ∈ Finset.range (l + 1), p.coeff k * q.coeff (n - k) := by
  rw [coeff_mul, Finset.Nat.sum_antidiagonal_eq_sum_range_succ (fun i j => p.coeff i * q.coeff j)]
  refine (Finset.sum_subset (Finset.range_mono (Nat.succ_le_succ hl)) fun k _ hk => ?_).symm
  rw [coeff_eq_zero_of_natDegree_lt (hp.trans_lt (by simpa using hk)), zero_mul]

/-! ## Values of lists and the powers of α -/

theorem pevalLf_cons (a : Byte) (q : List Byte) (x : Byte) : pevalLf (a :: q) x = gfAdd (gfMul (pevalLf q x) x) a := by
  rw [pevalLf, List.reverse_cons, pevalHf, List.foldl_concat, pevalLf, pevalHf]

theorem eval_toPoly (hφ : FieldReading φ) (q : List Byte) (x : Byte) :
    (toPoly φ q).eval (φ x) = φ (pevalLf q x) := by
  induction q with
  | nil => rw [toPoly, eval_zero, pevalLf, List.reverse_nil, pevalHf_nil, hφ.zero]
  | cons a q ih => rw [toPoly, eval_add, eval_C, eval_mul, eval_X, ih, pevalLf_cons, hφ.add, hφ.mul]; ring

theorem toPoly_pmul (hφ : FieldReading φ) (p : List Byte) {q : List Byte} (hq : q ≠ []) :
    toPoly φ (pmul p q) = toPoly φ p * toPoly φ q := by
  induction p with
  | nil => rw [pmul_nil_left, toPoly, zero_mul]
  | cons a p ih =>
    rw [pmul_cons_left a p hq, toPoly_polyAdd hφ, toPoly_polyScale hφ, toPoly, toPoly, ih, hφ.zero, C_0]
    ring

theorem FieldReading.gfExp_natCast (hφ : FieldReading φ) (n : Nat) : φ (gfExp n) = φ (gfExp 1) ^ n := by
  induction n with
  | zero => rw [pow_zero, ← hφ.one]; rfl
  | succ n ih => rw [pow_succ, ← ih, ← hφ.mul, gfMul_gfExp, Nat.cast_succ]

theorem FieldReading.gfExp_neg_natCast (hφ : FieldReading φ) (n : Nat) :
    φ (gfExp (-(n : Int))) = (φ (gfExp 1) ^ n)⁻¹ := by
  refine eq_inv_of_mul_eq_one_left ?_
  rw [← hφ.gfExp_natCast, ← hφ.mul, gfMul_gfExp, Int.add_left_neg, gfExp_zero, hφ.one]

theorem FieldReading.gfExp_one_ne_zero (hφ : FieldReading φ) : φ (gfExp 1) ≠ 0 :=
  mt hφ.eq_zero_iff.1 (gfExp_ne_zero 1)

/-- α has order 255: its powers below are distinct. -/
theorem FieldReading.injOn_pow (hφ : FieldReading φ) {E : Set Nat} (hE : ∀ e ∈ E, e < 255) :
    Set.InjOn (fun e => φ (gfExp 1) ^ e) E := by
  intro i hi j hj hij
  have hexp : gfExp i = gfExp j := hφ.injective (by rw [hφ.gfExp_natCast, hφ.gfExp_natCast]; exact hij)
  have hlog := congrArg (fun b => (logAt b : Int)) hexp
  simp only [logAt_gfExp] at hlog
  have hi := hE i hi
  have hj := hE j hj
  omega

/-! ## Derivative and evaluator -/

/-- In characteristic 2 the derivative keeps the odd powers (R256). -/
theorem toPoly_derivative (hφ : FieldReading φ) (lam : List Byte) :
    toPoly φ (derivative lam) = Polynomial.derivative (toPoly φ lam) := by
  have htwo : (2 : F) = 0 := by rw [← one_add_one_eq_two, ← hφ.one, hφ.add_self]
  ext n
  have hget : (derivative lam).getD n 0 = if n % 2 = 0 then lam.getD (n + 1) 0 else 0 := by
    obtain hn | hn := Nat.lt_or_ge n (lam.length - 1)
    · simp [derivative, hn]
    · rw [List.getD_eq_default _ _ (by simpa [derivative] using hn), List.getD_eq_default _ _ (by omega), ite_self]
  rw [coeff_derivative, coeff_toPoly hφ, coeff_toPoly hφ, hget]
  obtain ⟨k, rfl | rfl⟩ := Nat.even_or_odd' n
  · rw [if_pos (by omega)]
    push_cast
    rw [htwo]
    ring
  · rw [if_neg (by omega), hφ.zero]
    push_cast
    linear_combination (-(k + 1) * φ (lam.getD (2 * k + 1 + 1) 0)) * htwo

theorem coeff_toPoly_take (hφ : FieldReading φ) (q : List Byte) (n k : Nat) :
    (toPoly φ (q.take n)).coeff k = if k < n then (toPoly φ q).coeff k else 0 := by
  rw [coeff_toPoly hφ, coeff_toPoly hφ, List.getD_eq_getElem?_getD, List.getElem?_take]
  split
  · rw [List.getD_eq_getElem?_getD]
  · exact hφ.zero

/-- A quotient of bytes is read as the quotient (R184). -/
theorem FieldReading.exists_gfDiv (hφ : FieldReading φ) (a : Byte) {b : Byte} (hb : φ b ≠ 0) :
    ∃ q, gfDiv a b = some q ∧ φ q = φ a / φ b := by
  obtain ⟨r, -, hone, hdiv⟩ := exists_gfInv (mt hφ.eq_zero_iff.2 hb)
  refine ⟨_, hdiv a, ?_⟩
  rw [hφ.mul, div_eq_mul_inv, eq_inv_of_mul_eq_one_left (a := φ r) (by rw [← hφ.mul, hone, hφ.one])]

end

end Sys2Proof.Machine
end

section
/-! PROOFS. Berlekamp-Massey on lists (44_rs_decoder.md, R253) is Berlekamp-Massey on their polynomials. -/

namespace Sys2Proof.Machine

open Polynomial

section
variable {F : Type} [Field F] {φ : Byte → F}

theorem foldl_gfAdd (n : Nat) (y : Byte) (f : Nat → Byte) :
    (List.range n).foldl (fun y k => gfAdd y (f k)) y = gfAdd y (gfSum n f) := by
  induction n with
  | zero => exact (gfAdd_zero_right y).symm
  | succ n ih => rw [List.range_succ, List.foldl_concat, ih, gfSum_succ, gfAdd_assoc]

/-- The variables meet the invariant of the algorithm before iteration n. -/
def BmVars.Sound (φ : Byte → F) (syn : List Byte) (n : Nat) (v : BmVars) : Prop :=
  BmInvariant (toPoly φ syn) n (toPoly φ v.c) (toPoly φ v.bp) v.l v.m (φ v.b)

/-- The discrepancy is the coefficient at which the register is tested (R253). -/
theorem BmVars.Sound.discrepancy (hφ : FieldReading φ) {syn : List Byte} {n : Nat} {v : BmVars}
    (h : v.Sound φ syn n) : φ (bmDiscrepancy syn v n) = (toPoly φ v.c * toPoly φ syn).coeff n := by
  rw [bmDiscrepancy, foldl_gfAdd, hφ.add, hφ.gfSum, coeff_mul_eq_sum h.generates.degree h.length_le,
    Finset.sum_range_succ', h.generates.const, one_mul, add_comm]
  simp only [hφ.mul, coeff_toPoly hφ, Nat.sub_zero]

/-- What an iteration does: nothing without discrepancy, and else it takes a multiple of the old register away, with
or without a change of length. -/
theorem bmIterate_cases (syn : List Byte) {v : BmVars} (n : Nat) (hb : v.b ≠ 0) :
    (bmDiscrepancy syn v n = 0 ∧ bmIterate syn v n = { v with m := v.m + 1 })
    ∨ ∃ q, bmDiscrepancy syn v n ≠ 0 ∧ gfMul q v.b = bmDiscrepancy syn v n ∧
      let c := polyAdd v.c (polyScale q (List.replicate v.m 0 ++ v.bp))
      (2 * v.l ≤ n ∧ bmIterate syn v n = ⟨c, v.c, n + 1 - v.l, 1, bmDiscrepancy syn v n⟩)
      ∨ (n < 2 * v.l ∧ bmIterate syn v n = { v with c := c, m := v.m + 1 }) := by
  by_cases hd : bmDiscrepancy syn v n = 0
  · exact .inl ⟨hd, if_pos hd⟩
  obtain ⟨r, -, hone, hdiv⟩ := exists_gfInv hb
  refine .inr ⟨gfMul (bmDiscrepancy syn v n) r, hd, by rw [gfMul_assoc, hone, gfMul_one_right], ?_⟩
  obtain hl | hl := Nat.lt_or_ge n (2 * v.l)
  · exact .inr ⟨hl, by simp only [bmIterate, hd, hdiv, Option.getD_some, Nat.not_le.2 hl, if_false]⟩
  · exact .inl ⟨hl, by simp only [bmIterate, hd, hdiv, Option.getD_some, hl, if_false, if_true]⟩

theorem BmVars.Sound.bmIterate (hφ : FieldReading φ) {syn : List Byte} {n : Nat} {v : BmVars} (h : v.Sound φ syn n) :
    (bmIterate syn v n).Sound φ syn (n + 1) := by
  have hdisc := h.discrepancy hφ
  have hb : v.b ≠ 0 := mt hφ.eq_zero_iff.2 h.ne_zero
  obtain ⟨hd, hv⟩ | ⟨q, hd, hq, hv⟩ := bmIterate_cases syn n hb
  · rw [hv]
    exact h.keep (by rw [← hdisc, hd, hφ.zero])
  have hcancel : (toPoly φ v.c * toPoly φ syn).coeff n + φ q * φ v.b = 0 := by
    rw [← hφ.mul, hq, ← hdisc, hφ.add_self]
  have hne : (toPoly φ v.c * toPoly φ syn).coeff n ≠ 0 := hdisc ▸ mt hφ.eq_zero_iff.1 hd
  have hpoly : toPoly φ (polyAdd v.c (polyScale q (List.replicate v.m 0 ++ v.bp))) =
      toPoly φ v.c + C (φ q) * (X ^ v.m * toPoly φ v.bp) := by
    rw [toPoly_polyAdd hφ, toPoly_polyScale hφ, toPoly_replicate_append hφ]
  obtain ⟨hl, hv⟩ | ⟨hl, hv⟩ := hv <;> rw [hv, BmVars.Sound, hpoly]
  · have hgrow := h.grow hcancel hne hl
    rwa [← hdisc] at hgrow
  · exact h.adjust hcancel hl

/-- No iteration makes the register longer than one that generates all the syndromes. -/
theorem BmVars.Sound.bmIterate_length_le (hφ : FieldReading φ) {syn : List Byte} {n N ν : Nat} {v : BmVars} {σ : F[X]}
    (h : v.Sound φ syn n) (hn : n < N) (hσ : Generates (toPoly φ syn) N σ ν) (hl : v.l ≤ ν) :
    (Machine.bmIterate syn v n).l ≤ ν := by
  obtain ⟨-, hv⟩ | ⟨q, hd, -, ⟨-, hv⟩ | ⟨-, hv⟩⟩ := bmIterate_cases syn n (mt hφ.eq_zero_iff.2 h.ne_zero) <;> rw [hv]
  · exact hl
  · have hne : (toPoly φ v.c * toPoly φ syn).coeff n ≠ 0 := h.discrepancy hφ ▸ mt hφ.eq_zero_iff.1 hd
    have hlt := h.generates.lt_add hne (hσ.mono hn)
    show n + 1 - v.l ≤ ν
    omega
  · exact hl

/-- The variables after n iterations. -/
def bmRun (syn : List Byte) (n : Nat) : BmVars := (List.range n).foldl (bmIterate syn) ⟨[1], [1], 0, 1, 1⟩

theorem bmRun_succ (syn : List Byte) (n : Nat) : bmRun syn (n + 1) = bmIterate syn (bmRun syn n) n := by
  rw [bmRun, List.range_succ, List.foldl_concat, bmRun]

theorem bmRun_sound (hφ : FieldReading φ) (syn : List Byte) (n : Nat) : (bmRun syn n).Sound φ syn n := by
  induction n with
  | zero =>
    have hone : toPoly φ [1] = 1 := by rw [toPoly, toPoly, hφ.one, C_1, mul_zero, add_zero]
    show BmInvariant (toPoly φ syn) 0 (toPoly φ [1]) (toPoly φ [1]) 0 1 (φ 1)
    rw [hone, hφ.one]
    exact .init _
  | succ n ih => exact bmRun_succ syn n ▸ ih.bmIterate hφ

theorem bm_eq_bmRun (syn : List Byte) :
    bm syn = ((List.range ((bmRun syn syn.length).l + 1)).map fun k => (bmRun syn syn.length).c.getD k 0,
      (bmRun syn syn.length).l) := rfl

/-- What the algorithm returns is the register of its last iteration. -/
theorem toPoly_bm (hφ : FieldReading φ) (syn : List Byte) :
    toPoly φ (bm syn).1 = toPoly φ (bmRun syn syn.length).c := by
  ext n
  rw [coeff_toPoly hφ, bm_eq_bmRun]
  obtain hn | hn := Nat.lt_or_ge n ((bmRun syn syn.length).l + 1)
  · rw [coeff_toPoly hφ]
    simp [hn]
  · rw [coeff_eq_zero_of_natDegree_lt ((bmRun_sound hφ syn _).generates.degree.trans_lt hn),
      List.getD_eq_default _ _ (by simpa using hn), hφ.zero]

/-- It generates the syndromes. -/
theorem generates_bm (hφ : FieldReading φ) (syn : List Byte) :
    Generates (toPoly φ syn) syn.length (toPoly φ (bm syn).1) (bm syn).2 :=
  toPoly_bm hφ syn ▸ (bmRun_sound hφ syn syn.length).generates

/-- No register that generates them is shorter. -/
theorem bm_degree_le_of_generates (hφ : FieldReading φ) {syn : List Byte} {σ : F[X]} {N ν : Nat}
    (hN : syn.length = N) (hσ : Generates (toPoly φ syn) N σ ν) : (bm syn).2 ≤ ν := by
  subst hN
  have hrun (n : Nat) (hn : n ≤ syn.length) : (bmRun syn n).l ≤ ν := by
    induction n with
    | zero => exact Nat.zero_le ν
    | succ n ih =>
      rw [bmRun_succ]
      exact (bmRun_sound hφ syn n).bmIterate_length_le hφ hn hσ (ih (Nat.le_of_succ_le hn))
  exact hrun _ le_rfl

end

/-- Settles O26: the register's polynomial generates the syndromes, and the sum is its product's coefficient. -/
theorem locatorGeneratesSyndromes : Obligations.LocatorGeneratesSyndromes := by
  obtain ⟨F, _, φ, hφ⟩ := exists_fieldReading
  intro syn
  have hgen := generates_bm hφ syn
  refine ⟨length_bm syn, bm_degree_le syn, ?_, fun n hl hn => ?_⟩
  · have hconst := hgen.const
    rw [coeff_toPoly hφ, ← hφ.one, hφ.injective.eq_iff] at hconst
    have hpos : 0 < (bm syn).1.length := length_bm syn ▸ Nat.succ_pos _
    rw [List.getElem?_eq_getElem hpos, ← hconst, List.getD_eq_getElem _ _ hpos]
  · have hcoeff := hgen.recurs n hl hn
    rw [coeff_mul_eq_sum hgen.degree hl] at hcoeff
    simp only [coeff_toPoly hφ, ← hφ.mul] at hcoeff
    rw [← hφ.gfSum, hφ.eq_zero_iff] at hcoeff
    exact hcoeff

end Sys2Proof.Machine
end

section
/-! PROOFS. The correction law (44_rs_decoder.md, R266): within capacity Berlekamp-Massey finds the locator of the
errors, the search their positions and Forney's formula their values. -/

namespace Sys2Proof.Machine

open Polynomial

section
variable {F : Type} [Field F] {φ : Byte → F}

/-! ## The error of a block -/

/-- The received block less the codeword, as a polynomial. -/
noncomputable def errorPoly (φ : Byte → F) (r c : List Byte) : F[X] := toPoly φ (polyAdd r c).reverse

variable {r c : List Byte} {ec : Nat}

theorem coeff_errorPoly (hφ : FieldReading φ) (hlen : r.length = c.length) {e : Nat} (he : e < c.length) :
    (errorPoly φ r c).coeff e = φ (gfAdd (r.getD (c.length - 1 - e) 0) (c.getD (c.length - 1 - e) 0)) := by
  have hsum : (polyAdd r c).length = c.length := by rw [length_polyAdd, hlen, Nat.max_self]
  rw [errorPoly, coeff_toPoly hφ, ← getD_polyAdd, List.getD_eq_getElem?_getD, List.getElem?_reverse (hsum ▸ he), hsum,
    List.getD_eq_getElem?_getD]

theorem lt_of_mem_support_errorPoly (hφ : FieldReading φ) (hlen : r.length = c.length) {e : Nat}
    (he : e ∈ (errorPoly φ r c).support) : e < c.length := by
  by_contra hge
  refine mem_support_iff.1 he ?_
  rw [errorPoly, coeff_toPoly hφ, List.getD_eq_default _ _ ?_, hφ.zero]
  rw [List.length_reverse, length_polyAdd, hlen, Nat.max_self]
  omega

theorem gfAdd_eq_zero_iff {a b : Byte} : gfAdd a b = 0 ↔ a = b := BitVec.xor_eq_zero_iff

/-- The degrees of the errors are those of the codewords that changed (R250). -/
theorem mem_support_errorPoly_iff (hφ : FieldReading φ) (hlen : r.length = c.length) {e : Nat} (he : e < c.length) :
    e ∈ (errorPoly φ r c).support ↔ r.getD (c.length - 1 - e) 0 ≠ c.getD (c.length - 1 - e) 0 := by
  rw [mem_support_iff, coeff_errorPoly hφ hlen he, Ne, hφ.eq_zero_iff, gfAdd_eq_zero_iff]

/-- The places where the received block differs from the codeword. -/
def changedPlaces (c r : List Byte) : List Nat := (List.range c.length).filter fun k => c.getD k 0 ≠ r.getD k 0

theorem mem_changedPlaces {k : Nat} : k ∈ changedPlaces c r ↔ k < c.length ∧ c.getD k 0 ≠ r.getD k 0 := by
  simp [changedPlaces]

theorem nodup_changedPlaces (c r : List Byte) : (changedPlaces c r).Nodup := List.nodup_range.filter _

theorem nodup_map_sub {n : Nat} {l : List Nat} (hl : l.Nodup) (hlt : ∀ k ∈ l, k < n) :
    (l.map fun k => n - 1 - k).Nodup :=
  hl.map_on fun i hi j hj hij => by
    have hi := hlt i hi
    have hj := hlt j hj
    omega

theorem card_support_errorPoly (hφ : FieldReading φ) (hlen : r.length = c.length) :
    (errorPoly φ r c).support.card = (changedPlaces c r).length := by
  have hnodup := nodup_map_sub (nodup_changedPlaces c r) fun k hk => (mem_changedPlaces.1 hk).1
  rw [← List.length_map (as := changedPlaces c r) fun k => c.length - 1 - k, ← List.toFinset_card_of_nodup hnodup]
  congr 1
  ext e
  rw [List.mem_toFinset, List.mem_map]
  constructor
  · intro he
    have hlt := lt_of_mem_support_errorPoly hφ hlen he
    exact ⟨c.length - 1 - e, mem_changedPlaces.2 ⟨by omega, ((mem_support_errorPoly_iff hφ hlen hlt).1 he).symm⟩,
      by omega⟩
  · rintro ⟨k, hk, rfl⟩
    obtain ⟨hlt, hne⟩ := mem_changedPlaces.1 hk
    rw [mem_support_errorPoly_iff hφ hlen (by omega), show c.length - 1 - (c.length - 1 - k) = k by omega]
    exact hne.symm

theorem getD_syndromes (r : List Byte) {ec i : Nat} (hi : i < ec) :
    (syndromes r ec).getD i 0 = pevalHf r (gfExp i) := by
  have hmap : syndromes r ec = (List.range ec).map fun i : Nat => pevalHf r (gfExp i) := by
    show ((List.range ec).flatMap fun i : Nat => [(i : Int)]).map (fun i => pevalHf r (gfExp i)) = _
    rw [← List.map_eq_flatMap, List.map_map]
    rfl
  rw [hmap, List.getD_eq_getElem _ _ (by simpa using hi), List.getElem_map, List.getElem_range]

/-- The syndromes are those of the error alone (R252). -/
theorem coeff_toPoly_syndromes (hφ : FieldReading φ) (hlen : r.length = c.length) (hc : IsCodeword ec c) (i : Nat)
    (hi : i < ec) : (toPoly φ (syndromes r ec)).coeff i = (errorPoly φ r c).eval (φ (gfExp 1) ^ i) := by
  have hsum : pevalHf (polyAdd r c) (gfExp i) = pevalHf r (gfExp i) := by
    rw [pevalHf_polyAdd r c _ hlen.le, hlen, Nat.sub_self, gfMulPow_zero, hc i hi, gfAdd_zero_right]
  rw [← hφ.gfExp_natCast, errorPoly, eval_toPoly hφ, pevalLf, List.reverse_reverse, hsum, coeff_toPoly hφ,
    getD_syndromes r hi]

/-! ## Within capacity -/

/-- A received block that differs from a codeword in at most ⌊ec/2⌋ places (R266). -/
structure Correctable (ec : Nat) (c r : List Byte) : Prop where
  length : r.length = c.length
  max : c.length ≤ 255
  codeword : IsCodeword ec c
  capacity : (changedPlaces c r).length ≤ ec / 2

theorem injOn_support_errorPoly (hφ : FieldReading φ) (hlen : r.length = c.length) (hmax : c.length ≤ 255) :
    Set.InjOn (fun e => φ (gfExp 1) ^ e) (errorPoly φ r c).support :=
  hφ.injOn_pow fun _ he => (lt_of_mem_support_errorPoly hφ hlen he).trans_le hmax

/-- A block that changed within capacity is no codeword. -/
theorem not_isCodeword_of_changed (hφ : FieldReading φ) (h : Correctable ec c r)
    (hne : (changedPlaces c r).length ≠ 0) : ¬ IsCodeword ec r := by
  have ⟨hlen, hmax, hc, hcap⟩ := h
  intro hr
  have hcard := card_support_errorPoly hφ hlen
  have hD : errorPoly φ r c ≠ 0 := by
    intro h0
    rw [h0, support_zero, Finset.card_empty] at hcard
    exact hne hcard.symm
  obtain ⟨i, hi, hsyn⟩ := exists_syndrome_ne_zero hφ.gfExp_one_ne_zero (injOn_support_errorPoly hφ hlen hmax) hD
    (n := ec) (by omega)
  rw [← coeff_toPoly_syndromes hφ hlen hc i hi, coeff_toPoly hφ, Ne, hφ.eq_zero_iff, getD_syndromes r hi] at hsyn
  exact hsyn (hr i hi)

/-- Berlekamp-Massey finds the locator of the errors. -/
theorem toPoly_bm_eq_locator (hφ : FieldReading φ) (h : Correctable ec c r) :
    toPoly φ (bm (syndromes r ec)).1 = locator (φ (gfExp 1)) (errorPoly φ r c).support := by
  have ⟨hlen, hmax, hc, hcap⟩ := h
  have hcard := card_support_errorPoly hφ hlen
  have hS := coeff_toPoly_syndromes hφ hlen hc
  have hgen := generates_bm hφ (syndromes r ec)
  rw [length_syndromes] at hgen
  exact hgen.eq_locator hφ.gfExp_one_ne_zero (injOn_support_errorPoly hφ hlen hmax) hS
    (bm_degree_le_of_generates hφ (length_syndromes r ec) (generates_locator hS)) (by omega)

/-- The evaluator of R256 is that of the errors. -/
theorem toPoly_evaluator (hφ : FieldReading φ) (h : Correctable ec c r) :
    toPoly φ (evaluator (syndromes r ec) (bm (syndromes r ec)).1 (ec / 2)) =
      errorEvaluator (φ (gfExp 1)) (errorPoly φ r c) := by
  have ⟨hlen, _, hc, hcap⟩ := h
  have hcard := card_support_errorPoly hφ hlen
  have hne : (bm (syndromes r ec)).1 ≠ [] := List.length_pos_iff.1 (length_bm _ ▸ Nat.succ_pos _)
  ext k
  rw [evaluator, coeff_toPoly_take hφ, toPoly_pmul hφ _ hne, toPoly_bm_eq_locator hφ h,
    mul_comm (toPoly φ (syndromes r ec))]
  split
  next hk =>
    have hkey := X_pow_dvd_iff.1 (X_pow_dvd_locator_mul_sub (coeff_toPoly_syndromes hφ hlen hc)) k (by omega)
    rwa [coeff_sub, sub_eq_zero] at hkey
  next hk =>
    refine (coeff_eq_zero_of_degree_lt ((degree_errorEvaluator_lt _ _).trans_le ?_)).symm
    exact_mod_cast (by omega : (errorPoly φ r c).support.card ≤ k)

/-- The search finds the places that changed. -/
theorem mem_errorPositions_iff (hφ : FieldReading φ) (h : Correctable ec c r) {k : Nat} :
    k ∈ errorPositions r ec ↔ k ∈ changedPlaces c r := by
  have ⟨hlen, hmax, _, _⟩ := h
  have hroot {i : Nat} (hi : i < c.length) : pevalLf (bm (syndromes r ec)).1 (gfExp (-(i : Int))) = 0 ↔
      r.getD (c.length - 1 - i) 0 ≠ c.getD (c.length - 1 - i) 0 := by
    rw [← hφ.eq_zero_iff, ← eval_toPoly hφ, hφ.gfExp_neg_natCast, toPoly_bm_eq_locator hφ h,
      eval_locator_eq_zero_iff hφ.gfExp_one_ne_zero, ← mem_support_errorPoly_iff hφ hlen hi]
    constructor
    · rintro ⟨e, he, hpow⟩
      have hinj := hφ.injOn_pow (E := {e | e < 255}) fun _ h => h
      have hlt := lt_of_mem_support_errorPoly hφ hlen he
      exact hinj (show e < 255 by omega) (show i < 255 by omega) hpow ▸ he
    · exact fun hmem => ⟨i, hmem, rfl⟩
  rw [mem_changedPlaces, errorPositions, chien, hlen, List.mem_map]
  simp only [List.mem_filter, List.mem_range, beq_iff_eq]
  constructor
  · rintro ⟨i, ⟨hi, hzero⟩, rfl⟩
    exact ⟨by omega, ((hroot hi).1 hzero).symm⟩
  · rintro ⟨hk, hne⟩
    have hback : c.length - 1 - (c.length - 1 - k) = k := by omega
    exact ⟨c.length - 1 - k, ⟨by omega, (hroot (by omega)).2 (hback.symm ▸ hne.symm)⟩, hback⟩

theorem nodup_errorPositions (r : List Byte) (ec : Nat) : (errorPositions r ec).Nodup :=
  nodup_map_sub (List.nodup_range.filter _) fun _ hi => List.mem_range.1 (List.mem_filter.1 hi).1

/-- Forney's formula gives the error at each place that changed. -/
theorem magnitude_eq (hφ : FieldReading φ) (h : Correctable ec c r) {p : Nat} (hp : p ∈ changedPlaces c r) :
    magnitude (evaluator (syndromes r ec) (bm (syndromes r ec)).1 (ec / 2)) (derivative (bm (syndromes r ec)).1)
      r.length p = some (gfAdd (r.getD p 0) (c.getD p 0)) := by
  have ⟨hlen, hmax, _, _⟩ := h
  obtain ⟨hlt, hne⟩ := mem_changedPlaces.1 hp
  have hdeg : (r.length : Int) - 1 - p = (c.length - 1 - p : Nat) := by omega
  have hback : c.length - 1 - (c.length - 1 - p) = p := by omega
  have hmem : c.length - 1 - p ∈ (errorPoly φ r c).support :=
    (mem_support_errorPoly_iff hφ hlen (by omega)).2 (hback.symm ▸ hne.symm)
  obtain ⟨hden, hforney⟩ := forney_formula hφ.gfExp_one_ne_zero (injOn_support_errorPoly hφ hlen hmax) hmem
  rw [← toPoly_bm_eq_locator hφ h, ← toPoly_derivative hφ, ← hφ.gfExp_neg_natCast,
    eval_toPoly hφ] at hden
  rw [← toPoly_bm_eq_locator hφ h, ← toPoly_derivative hφ, ← toPoly_evaluator hφ h,
    ← hφ.gfExp_neg_natCast, eval_toPoly hφ, eval_toPoly hφ, coeff_errorPoly hφ hlen (by omega), hback,
    neg_eq_of_add_eq_zero_left (hφ.add_self _), ← hφ.gfExp_natCast] at hforney
  obtain ⟨q, hdiv, hq⟩ := hφ.exists_gfDiv (pevalLf (evaluator (syndromes r ec) (bm (syndromes r ec)).1 (ec / 2))
    (gfExp (-(c.length - 1 - p : Nat)))) hden
  rw [← hq, ← hφ.mul] at hforney
  rw [magnitude, hdeg, hdiv, Option.map_some, hφ.injective hforney]

end

/-! ## The correction -/

/-- If every position has the magnitude f gives, no denominator was 0. -/
theorem magnitudes_eq_map {omega lam' : List Byte} {n : Nat} {f : Nat → Byte} {ps : List Nat}
    (h : ∀ p ∈ ps, magnitude omega lam' n p = some (f p)) : magnitudes omega lam' n ps = (ps.map f, false) := by
  induction ps with
  | nil => rfl
  | cons p ps ih =>
    obtain ⟨hp, hps⟩ := List.forall_mem_cons.1 h
    simp only [magnitudes, hp, ih hps, List.map_cons]

theorem getD_modify_self {r : List Byte} {k : Nat} (hk : k < r.length) (f : Byte → Byte) :
    (r.modify k f).getD k 0 = f (r.getD k 0) := by
  rw [List.getD_eq_getElem?_getD, List.getElem?_modify_eq, List.getElem?_eq_getElem hk, List.getD_eq_getElem _ _ hk]
  rfl

/-- Correction at distinct positions adds to each its magnitude. -/
theorem getD_correct_zip_map {r : List Byte} {ps : List Nat} (f : Nat → Byte) (hnodup : ps.Nodup)
    (hlt : ∀ p ∈ ps, p < r.length) {k : Nat} (hk : k ∈ ps) :
    (correct r (ps.zip (ps.map f))).getD k 0 = gfAdd (r.getD k 0) (f k) := by
  induction ps generalizing r with
  | nil => exact absurd hk List.not_mem_nil
  | cons p ps ih =>
    obtain ⟨hp, hnodup⟩ := List.nodup_cons.1 hnodup
    obtain ⟨hplt, hlt⟩ := List.forall_mem_cons.1 hlt
    rw [List.map_cons, List.zip_cons_cons, correct]
    obtain rfl | hk := List.mem_cons.1 hk
    · rw [getD_correct_of_notMem, getD_modify_self hplt]
      exact fun h => hp (by simpa [List.map_fst_zip] using h)
    · have hne : p ≠ k := fun h => hp (h ▸ hk)
      rw [ih hnodup (by simpa using hlt) hk, getD_modify_of_ne r _ hne]

theorem ext_getD {r c : List Byte} (hlen : r.length = c.length) (h : ∀ k, k < c.length → r.getD k 0 = c.getD k 0) :
    r = c := by
  refine List.ext_getElem hlen fun k hk hk' => ?_
  rw [← List.getD_eq_getElem _ 0 hk, ← List.getD_eq_getElem _ 0 hk', h k hk']

section
variable {r c : List Byte} {ec : Nat} (h : Correctable ec c r)
include h

theorem length_errorPositions : (errorPositions r ec).length = (changedPlaces c r).length := by
  obtain ⟨F, _, φ, hφ⟩ := exists_fieldReading
  exact ((List.perm_ext_iff_of_nodup (nodup_errorPositions r ec) (nodup_changedPlaces c r)).2 fun _ =>
    mem_errorPositions_iff hφ h).length_eq

theorem errorMagnitudes_eq : errorMagnitudes r ec =
    ((errorPositions r ec).map fun p => gfAdd (r.getD p 0) (c.getD p 0), false) := by
  obtain ⟨F, _, φ, hφ⟩ := exists_fieldReading
  exact magnitudes_eq_map fun p hp =>
    magnitude_eq hφ h ((mem_errorPositions_iff hφ h).1 hp)

/-- The trial correction is the codeword. -/
theorem trialBlock_eq : trialBlock r ec = c := by
  obtain ⟨F, _, φ, hφ⟩ := exists_fieldReading
  refine ext_getD ((length_trialBlock r ec).trans h.length) fun k hk => ?_
  have hmags := errorMagnitudes_eq h
  by_cases hmem : k ∈ errorPositions r ec
  · rw [trialBlock, hmags, getD_correct_zip_map _ (nodup_errorPositions r ec)
      (fun p hp => lt_of_mem_errorPositions hp) hmem, ← gfAdd_assoc, gfAdd_self, gfAdd_zero_left]
  · rw [trialBlock, getD_correct_of_notMem]
    · rw [mem_errorPositions_iff hφ h, mem_changedPlaces] at hmem
      exact (not_not.1 fun hne => hmem ⟨hk, hne⟩).symm
    · rw [hmags]
      simpa [List.map_fst_zip] using hmem

end

/-- Settles O34: a block that changed within capacity is no codeword, and its trial correction is the codeword. -/
theorem errorsWithinCapacityAreCorrected : Obligations.ErrorsWithinCapacityAreCorrected := by
  intro s ba ec c r h1 hle hmax hc hlen hr changed hcap
  have hchk := hr.blockLengthError_eq_none (hlen ▸ hmax) h1 (hlen ▸ hle)
  by_cases hzero : changed = 0
  · have hnil : changedPlaces c r = [] := List.length_eq_zero_iff.1 hzero
    have hsame : r = c := ext_getD hlen fun k hk => by
      by_contra hne
      exact absurd (mem_changedPlaces.2 ⟨hk, Ne.symm hne⟩) (hnil ▸ List.not_mem_nil)
    obtain ⟨t, hexec, -, hholds, hst, hcount⟩ := exec_rsdec_of_isCodeword hr hchk (hsame ▸ hc)
    exact ⟨t, hexec, hsame ▸ hholds, hcount.trans hzero.symm, by rw [hst, if_pos hzero]⟩
  · have h : Correctable ec c r := ⟨hlen, hmax, hc, hcap⟩
    obtain ⟨F, _, φ, hφ⟩ := exists_fieldReading
    have hcw := not_isCodeword_of_changed hφ h hzero
    have hcount := length_errorPositions h
    have htrial := trialBlock_eq h
    obtain ⟨t, hexec, -, hholds, hst, hnum⟩ := exec_rsdec_of_verified hr hchk hcw (hcount ▸ hcap)
      (by rw [errorMagnitudes_eq h]) (htrial.symm ▸ hc)
    exact ⟨t, hexec, htrial ▸ hholds, hnum.trans hcount, by rw [hst, if_neg hzero]⟩

/-- One codeword changed is one place changed. -/
theorem changedPlaces_modify {c : List Byte} {p : Nat} {e : Byte} (hp : p < c.length) (he : e ≠ 0) :
    changedPlaces c (c.modify p fun x => x ^^^ e) = [p] := by
  have hsum (x : Byte) : x ≠ x ^^^ e := fun h => he (by
    have hcancel := congrArg (gfAdd x) h
    rwa [← gfAdd, ← gfAdd_assoc, gfAdd_self, gfAdd_zero_left, eq_comm] at hcancel)
  refine List.perm_singleton.1 ((List.perm_ext_iff_of_nodup (nodup_changedPlaces _ _) (List.nodup_singleton p)).2
    fun k => ?_)
  rw [mem_changedPlaces, List.mem_singleton]
  by_cases hk : k = p
  · subst hk
    simpa only [hp, getD_modify_self hp, true_and, iff_true] using hsum _
  · rw [getD_modify_of_ne c _ (Ne.symm hk)]
    simp [hk]

/-- Settles O33: the correction law for one change. -/
theorem oneErrorIsCorrected : Obligations.OneErrorIsCorrected := by
  intro s ba ec c p e hmax h2 hle hc hp he hr
  have hone : (changedPlaces c (c.modify p fun x => x ^^^ e)).length = 1 := by rw [changedPlaces_modify hp he]; rfl
  obtain ⟨t, hexec, hholds, hcount, hst⟩ := errorsWithinCapacityAreCorrected s ba ec c _ (by omega) hle hmax hc
    (List.length_modify _ _ _) hr (hone.trans_le (by omega))
  exact ⟨t, hexec, hst.trans (if_neg (hone.trans_ne one_ne_zero)), hcount.trans hone, hholds⟩

end Sys2Proof.Machine
end

section
/-! PROOFS. Division over GF(2) (45_bch.md, R300): the loop skips the zeros of its operand, so its result is that of
a division place by place, which is linear. -/

namespace Sys2Proof.Machine

/-! ## Place by place -/

/-- One place of the long division: `g` shifted by `k` is subtracted where its leading bit meets a one. -/
def premStep (g k v : Nat) : Nat := if v.testBit (g.log2 + k) then v ^^^ (g <<< k) else v

/-- The long division at the places k−1 down to 0. -/
def premSteps (g : Nat) : Nat → Nat → Nat
  | 0, v => v
  | k + 1, v => premSteps g k (premStep g k v)

theorem bitlen_le_iff {v n : Nat} : bitlen v ≤ n ↔ v < 2 ^ n := by
  rw [bitlen]
  split
  case isTrue h => simp [h]
  case isFalse h => rw [Nat.succ_le_iff, Nat.log2_lt h]

theorem bitlen_of_pos {g : Nat} (hg : 0 < g) : bitlen g = g.log2 + 1 := if_neg hg.ne'

theorem lt_two_pow_of_testBit_eq_false {v n : Nat} (hv : v < 2 ^ (n + 1)) (hbit : v.testBit n = false) : v < 2 ^ n := by
  by_contra hle
  simp [Nat.testBit_of_two_pow_le_and_two_pow_add_one_gt (not_lt.1 hle) hv] at hbit

theorem lt_two_pow_log2_add (g : Nat) {v k : Nat} (hk : v ≤ k) : v < 2 ^ (g.log2 + k) :=
  Nat.lt_two_pow_self.trans_le (Nat.pow_le_pow_right two_pos (by omega))

/-- Adding the mask to both words changes nothing in their sum. -/
theorem xor_xor_xor_cancel_right (a b m : Nat) : a ^^^ m ^^^ (b ^^^ m) = a ^^^ b := by
  rw [Nat.xor_comm b, Nat.xor_assoc, Nat.xor_xor_cancel_left]

theorem premStep_xor (g k a b : Nat) : premStep g k (a ^^^ b) = premStep g k a ^^^ premStep g k b := by
  simp only [premStep, Nat.testBit_xor]
  cases a.testBit (g.log2 + k) <;> cases b.testBit (g.log2 + k)
  case false.false => rfl
  case false.true => exact Nat.xor_assoc a b _
  case true.false => exact Nat.xor_right_comm a b _
  case true.true => exact (xor_xor_xor_cancel_right a b _).symm

theorem premSteps_xor (g k a b : Nat) : premSteps g k (a ^^^ b) = premSteps g k a ^^^ premSteps g k b := by
  induction k generalizing a b with
  | zero => rfl
  | succ k ih => rw [premSteps, premStep_xor, ih, premSteps, premSteps]

theorem exists_shifts_premSteps (g k v : Nat) :
    ∃ shifts : List Nat, v = shifts.foldl (fun a k => a ^^^ (g <<< k)) (premSteps g k v) := by
  induction k generalizing v with
  | zero => exact ⟨[], rfl⟩
  | succ k ih =>
    obtain ⟨shifts, hshifts⟩ := ih (premStep g k v)
    rw [premSteps]
    by_cases hbit : v.testBit (g.log2 + k)
    · refine ⟨shifts ++ [k], ?_⟩
      rw [List.foldl_append, ← hshifts, premStep, if_pos hbit]
      exact (Nat.xor_xor_cancel_right v _).symm
    · exact ⟨shifts, by rw [← hshifts, premStep, if_neg hbit]⟩

section
variable {g : Nat} (hg : 0 < g)
include hg

/-- The leading one is cancelled, so each place shortens the operand by its leading bit. -/
theorem premStep_lt {k v : Nat} (hv : v < 2 ^ (g.log2 + k + 1)) : premStep g k v < 2 ^ (g.log2 + k) := by
  rw [premStep]
  split
  case isTrue hbit =>
    have hshift : g <<< k < 2 ^ (g.log2 + k + 1) := by
      rw [Nat.add_right_comm]
      exact Nat.shiftLeft_lt Nat.lt_log2_self
    refine lt_two_pow_of_testBit_eq_false (Nat.xor_lt_two_pow hv hshift) ?_
    simp [hbit, Nat.testBit_shiftLeft, Nat.testBit_log2 hg.ne']
  case isFalse hbit => exact lt_two_pow_of_testBit_eq_false hv (Bool.eq_false_iff.2 hbit)

theorem premSteps_lt {k v : Nat} (hv : v < 2 ^ (g.log2 + k)) : premSteps g k v < 2 ^ g.log2 := by
  induction k generalizing v with
  | zero => exact hv
  | succ k ih => exact ih (premStep_lt hg hv)

theorem premLoop_eq_premSteps {k turns v : Nat} (hv : v < 2 ^ (g.log2 + k)) (hturns : bitlen v ≤ turns) :
    premLoop g turns v = premSteps g k v := by
  induction k generalizing turns v with
  | zero =>
    have hlt : bitlen v < bitlen g := by
      rw [bitlen_of_pos hg]
      exact Nat.lt_succ_of_le (bitlen_le_iff.2 hv)
    cases turns with
    | zero => rfl
    | succ turns => exact if_neg (not_le.2 hlt)
  | succ k ih =>
    have hshort := premStep_lt hg hv
    rw [premSteps]
    by_cases hbit : v.testBit (g.log2 + k)
    · have hlen : bitlen v = g.log2 + k + 1 := le_antisymm (bitlen_le_iff.2 hv)
        (not_lt.1 fun hlt => by
          simp [Nat.testBit_lt_two_pow (bitlen_le_iff.1 (Nat.le_of_lt_succ hlt))] at hbit)
      have hg' := bitlen_of_pos hg
      obtain ⟨turns, rfl⟩ : ∃ t, turns = t + 1 := ⟨turns - 1, by omega⟩
      calc premLoop g (turns + 1) v = premLoop g turns (v ^^^ g <<< (bitlen v - bitlen g)) := if_pos (by omega)
        _ = premLoop g turns (premStep g k v) := by
          rw [premStep, if_pos hbit, show bitlen v - bitlen g = k by omega]
        _ = premSteps g k (premStep g k v) := ih hshort ((bitlen_le_iff.2 hshort).trans (by omega))
    · have hstay : premStep g k v = v := if_neg hbit
      rw [hstay] at hshort ⊢
      exact ih hshort hturns

/-! ## The remainder -/

theorem prem_eq_premSteps {k v : Nat} (hv : v < 2 ^ (g.log2 + k)) : prem v g = premSteps g k v :=
  premLoop_eq_premSteps hg hv le_rfl

theorem prem_of_lt {v : Nat} (hv : v < 2 ^ g.log2) : prem v g = v := prem_eq_premSteps hg (k := 0) hv

theorem prem_lt (v : Nat) : prem v g < 2 ^ g.log2 := by
  rw [prem_eq_premSteps hg (lt_two_pow_log2_add g le_rfl)]
  exact premSteps_lt hg (lt_two_pow_log2_add g le_rfl)

theorem prem_xor (a b : Nat) : prem (a ^^^ b) g = prem a g ^^^ prem b g := by
  have ha : a < 2 ^ (g.log2 + (a + b)) := lt_two_pow_log2_add g (by omega)
  have hb : b < 2 ^ (g.log2 + (a + b)) := lt_two_pow_log2_add g (by omega)
  rw [prem_eq_premSteps hg (Nat.xor_lt_two_pow ha hb), prem_eq_premSteps hg ha, prem_eq_premSteps hg hb,
    premSteps_xor]

theorem exists_shifts_prem (v : Nat) : ∃ shifts : List Nat, v = shifts.foldl (fun a k => a ^^^ (g <<< k)) (prem v g) := by
  rw [prem_eq_premSteps hg (lt_two_pow_log2_add g le_rfl)]
  exact exists_shifts_premSteps g v v

end

end Sys2Proof.Machine
end

section
/-! PROOFS. The words the encoders build (45_bch.md, R301), for any generator: data bits above the check bits that
make the word a multiple of the generator. -/

namespace Sys2Proof.Machine

/-- The word of data `d` for the generator `g`, not masked. -/
def bchWord (g d : Nat) : Nat := (d <<< g.log2) ||| prem (d <<< g.log2) g

/-- The word of data `d` as it is placed: masked, a version word with 0. -/
def bchEnc (g mask d : Nat) : Nat := bchWord g d ^^^ mask

theorem fmtEnc_eq_bchEnc : fmtEnc = bchEnc Config.gfmt Config.fmask := rfl

theorem verEnc_eq_bchEnc : verEnc = bchEnc Config.gver 0 := funext fun _ => (Nat.xor_zero _).symm

theorem shiftLeft_or_eq_xor {r n : Nat} (hr : r < 2 ^ n) (d : Nat) : d <<< n ||| r = d <<< n ^^^ r := by
  refine Nat.eq_of_testBit_eq fun i => ?_
  rw [Nat.testBit_or, Nat.testBit_xor, Nat.testBit_shiftLeft]
  by_cases hi : n ≤ i
  · simp [Nat.testBit_lt_two_pow (hr.trans_le (Nat.pow_le_pow_right two_pos hi))]
  · simp [hi]

section
variable {g : Nat} (hg : 0 < g)
include hg

theorem bchWord_eq_add (d : Nat) : bchWord g d = d <<< g.log2 + prem (d <<< g.log2) g :=
  (Nat.shiftLeft_add_eq_or_of_lt (prem_lt hg _) d).symm

theorem bchWord_eq_xor (d : Nat) : bchWord g d = d <<< g.log2 ^^^ prem (d <<< g.log2) g :=
  shiftLeft_or_eq_xor (prem_lt hg _) d

theorem bchWord_div (d : Nat) : bchWord g d / 2 ^ g.log2 = d := by
  rw [bchWord_eq_add hg, Nat.shiftLeft_eq, Nat.mul_comm, Nat.mul_add_div (Nat.two_pow_pos _),
    Nat.div_eq_of_lt (prem_lt hg _), Nat.add_zero]

theorem bchWord_lt {d k n : Nat} (hd : d < 2 ^ k) (hn : k + g.log2 = n) : bchWord g d < 2 ^ n := by
  rw [← hn, Nat.pow_add, ← Nat.div_lt_iff_lt_mul (Nat.two_pow_pos _), bchWord_div hg]
  exact hd

theorem bchWord_xor (a b : Nat) : bchWord g (a ^^^ b) = bchWord g a ^^^ bchWord g b := by
  rw [bchWord_eq_xor hg, Nat.shiftLeft_xor_distrib, prem_xor hg, bchWord_eq_xor hg, bchWord_eq_xor hg]
  ac_rfl

theorem prem_bchWord (d : Nat) : prem (bchWord g d) g = 0 := by
  rw [bchWord_eq_xor hg, prem_xor hg, prem_of_lt hg (prem_lt hg _), Nat.xor_self]

/-- A word the generator divides is the word of its own data bits. -/
theorem bchWord_of_prem_eq_zero {u : Nat} (hu : prem u g = 0) : bchWord g (u >>> g.log2) = u := by
  have hlow : u % 2 ^ g.log2 < 2 ^ g.log2 := Nat.mod_lt _ (Nat.two_pow_pos _)
  have hsplit : (u >>> g.log2) <<< g.log2 + u % 2 ^ g.log2 = u := by
    rw [Nat.shiftLeft_eq, Nat.shiftRight_eq_div_pow, Nat.div_add_mod']
  have hcheck : prem ((u >>> g.log2) <<< g.log2) g = u % 2 ^ g.log2 := by
    rw [← hsplit, Nat.shiftLeft_add_eq_or_of_lt hlow, shiftLeft_or_eq_xor hlow, prem_xor hg, prem_of_lt hg hlow]
      at hu
    exact Nat.xor_eq_zero_iff.1 hu
  rw [bchWord_eq_add hg, hcheck, hsplit]

end

theorem gfmt_pos : 0 < Config.gfmt := by decide

theorem gver_pos : 0 < Config.gver := by decide

theorem fmtEnc_lt {d : Nat} (hd : d < 2 ^ 5) : fmtEnc d < 2 ^ 15 :=
  Nat.xor_lt_two_pow (bchWord_lt gfmt_pos hd rfl) (by decide)

theorem verEnc_lt {v : Nat} (hv : v < 2 ^ 6) : verEnc v < 2 ^ 18 := bchWord_lt gver_pos hv rfl

/-- Settles O35: the remainder place by place; the format word is unmasked before it is divided. -/
theorem bchWordsAreDivisible : Obligations.BchWordsAreDivisible := by
  refine ⟨fun v g hg => ⟨prem_lt hg v, exists_shifts_prem hg v⟩, fun d hd => ?format, fun v hv => ?version⟩
  case format =>
    have hunmask : fmtEnc d ^^^ 0x5412 = bchWord Config.gfmt d := Nat.xor_xor_cancel_right _ _
    rw [hunmask]
    exact ⟨fmtEnc_lt hd, bchWord_div gfmt_pos d, prem_bchWord gfmt_pos d⟩
  case version => exact ⟨verEnc_lt hv, bchWord_div gver_pos v, prem_bchWord gver_pos v⟩

end Sys2Proof.Machine
end

section
/-! PROOFS. The search of the BCH decoders (45_bch.md, R302): the flip words of weight k are all the words with k ones,
so a decoder answers the codeword within its radius or says that there is none. -/

namespace Sys2Proof.Machine

/-! ## Ones -/

theorem ones_succ (n v : Nat) : ones (n + 1) v = v % 2 + ones n (v / 2) := by
  have hbits : (fun i => v.testBit i) ∘ Nat.succ = fun i => (v / 2).testBit i := funext fun i => v.testBit_succ i
  rw [ones, List.range_succ_eq_map, List.filter_cons, List.filter_map, hbits, Nat.testBit_zero]
  rcases Nat.mod_two_eq_zero_or_one v with h | h <;> simp [h, ones, Nat.add_comm]

theorem ones_eq_zero_iff {n v : Nat} (hv : v < 2 ^ n) : ones n v = 0 ↔ v = 0 := by
  induction n generalizing v with
  | zero => simpa [ones] using hv
  | succ n ih =>
    rw [ones_succ, Nat.add_eq_zero_iff, ih (by omega)]
    omega

theorem ones_xor_le (n a b : Nat) : ones n (a ^^^ b) ≤ ones n a + ones n b := by
  induction n generalizing a b with
  | zero => exact Nat.zero_le _
  | succ n ih =>
    rw [ones_succ, ones_succ, ones_succ, Nat.xor_div_two, Nat.xor_mod_two_eq]
    have htail := ih (a / 2) (b / 2)
    omega

/-! ## Flip words -/

theorem flips_succ (k lo width : Nat) : flips k (lo + 1) width = (flips k lo width).map (2 * ·) := by
  induction width generalizing k lo with
  | zero => cases k <;> rfl
  | succ width ih =>
    cases k with
    | zero => rfl
    | succ k =>
      rw [flips, flips, ih k (lo + 1), ih (k + 1) (lo + 1), List.map_append, List.map_map, List.map_map]
      congr 2
      funext f
      simp only [Function.comp_apply, Nat.pow_succ]
      omega

theorem mem_flips {k n f : Nat} : f ∈ flips k 0 n ↔ f < 2 ^ n ∧ ones n f = k := by
  induction n generalizing k f with
  | zero => cases k <;> simp [flips, ones]
  | succ n ih =>
    cases k with
    | zero =>
      rw [flips, List.mem_singleton]
      exact ⟨fun h => ⟨h ▸ Nat.two_pow_pos _, (ones_eq_zero_iff (h ▸ Nat.two_pow_pos _)).2 h⟩,
        fun ⟨hlt, hones⟩ => (ones_eq_zero_iff hlt).1 hones⟩
    | succ k =>
      simp only [flips, flips_succ, List.mem_append, List.mem_map, ih, ones_succ, exists_exists_and_eq_and]
      constructor
      · rintro (⟨h, ⟨hlt, hones⟩, rfl⟩ | ⟨h, ⟨hlt, hones⟩, rfl⟩)
        · rw [show (2 ^ 0 + 2 * h) / 2 = h by omega]
          omega
        · rw [show 2 * h / 2 = h by omega]
          omega
      · rintro ⟨hlt, hones⟩
        rcases Nat.mod_two_eq_zero_or_one f with hf | hf
        · exact .inr ⟨f / 2, by omega, by omega⟩
        · exact .inl ⟨f / 2, by omega, by omega⟩

/-! ## The search -/

/-- The search finds a flip word of a weight in `ks` that gives a codeword, or there is none (R302). -/
theorem bchSearch_cases (u g bits shift : Nat) (ks : List Nat) :
    (∃ f, f < 2 ^ bits ∧ ones bits f ∈ ks ∧ prem (u ^^^ f) g = 0
      ∧ bchSearch u g bits shift ks = ⟨true, (u ^^^ f) >>> shift, ones bits f⟩)
    ∨ bchSearch u g bits shift ks = ⟨false, 0, 0⟩
      ∧ ∀ f, f < 2 ^ bits → ones bits f ∈ ks → prem (u ^^^ f) g ≠ 0 := by
  induction ks with
  | nil => exact .inr ⟨rfl, fun _ _ hmem => absurd hmem List.not_mem_nil⟩
  | cons k ks ih =>
    rw [bchSearch]
    split
    next f hfind =>
      obtain ⟨hlt, rfl⟩ := mem_flips.1 (List.mem_of_find?_eq_some hfind)
      exact .inl ⟨f, hlt, List.mem_cons_self, by simpa using List.find?_some hfind, rfl⟩
    next hnone =>
      have hweight (f : Nat) (hlt : f < 2 ^ bits) (hk : ones bits f = k) : prem (u ^^^ f) g ≠ 0 := by
        simpa using List.find?_eq_none.1 hnone f (mem_flips.2 ⟨hlt, hk⟩)
      rcases ih with ⟨f, hlt, hmem, hzero, hsearch⟩ | ⟨hsearch, hall⟩
      · exact .inl ⟨f, hlt, List.mem_cons_of_mem _ hmem, hzero, hsearch⟩
      · exact .inr ⟨hsearch, fun f hlt hmem => (List.mem_cons.1 hmem).elim (hweight f hlt) (hall f hlt)⟩

/-! ## The decoders -/

/-- The search for a flip word of weight at most `r` of n bits, after taking the mask off. -/
def bchDec (g mask n r w : Nat) : BchResult := bchSearch (w ^^^ mask) g n g.log2 (List.range (r + 1))

theorem fmtDec_eq_bchDec : fmtDec = bchDec Config.gfmt Config.fmask 15 3 := rfl

theorem verDec_eq_bchDec : verDec = bchDec Config.gver 0 18 2 :=
  funext fun w => by rw [bchDec, Nat.xor_zero]; rfl

/-- `dec` answers the data of a codeword of `enc` at the distance it counts, at most `r`, or zeros where no
codeword is as near (R302); words of n bits, data of k bits. -/
def AnswersNearest (enc : Nat → Nat) (dec : Nat → BchResult) (n k r : Nat) : Prop :=
  ∀ w : Nat, w < 2 ^ n →
    ((dec w).ok = true → (dec w).data < 2 ^ k ∧ (dec w).errcnt ≤ r
      ∧ ones n (w ^^^ enc (dec w).data) = (dec w).errcnt)
    ∧ ((dec w).ok = false → dec w = ⟨false, 0, 0⟩ ∧ ∀ d : Nat, d < 2 ^ k → r < ones n (w ^^^ enc d))

/-- The search by weights 0 to r answers the nearest word of its generator, masked or not. -/
theorem answersNearest_bchDec {g mask n k : Nat} (r : Nat) (hg : 0 < g) (hn : k + g.log2 = n) (hmask : mask < 2 ^ n) :
    AnswersNearest (bchEnc g mask) (bchDec g mask n r) n k r := by
  intro w hw
  have hu : w ^^^ mask < 2 ^ n := Nat.xor_lt_two_pow hw hmask
  have hmove (c : Nat) : w ^^^ (c ^^^ mask) = w ^^^ mask ^^^ c := by ac_rfl
  simp only [bchEnc, bchDec, hmove]
  rcases bchSearch_cases (w ^^^ mask) g n g.log2 (List.range (r + 1)) with
    ⟨f, hf, hweight, hzero, hsearch⟩ | ⟨hsearch, hnone⟩
  · have hdata : (w ^^^ mask ^^^ f) >>> g.log2 < 2 ^ k := by
      rw [Nat.shiftRight_eq_div_pow, Nat.div_lt_iff_lt_mul (Nat.two_pow_pos _), ← Nat.pow_add, hn]
      exact Nat.xor_lt_two_pow hu hf
    rw [hsearch]
    refine ⟨fun _ => ⟨hdata, Nat.le_of_lt_succ (List.mem_range.1 hweight), ?_⟩, fun h => nomatch h⟩
    rw [bchWord_of_prem_eq_zero hg hzero, Nat.xor_xor_cancel_left]
  · rw [hsearch]
    refine ⟨fun h => (nomatch h), fun _ => ⟨rfl, fun d hd => not_le.1 fun hle => ?_⟩⟩
    refine hnone (w ^^^ mask ^^^ bchWord g d) (Nat.xor_lt_two_pow hu (bchWord_lt hg hd hn))
      (List.mem_range.2 (Nat.lt_succ_of_le hle)) ?_
    rw [Nat.xor_xor_cancel_left, prem_bchWord hg]

theorem answersNearest_fmtDec : AnswersNearest fmtEnc fmtDec 15 5 3 := by
  rw [fmtEnc_eq_bchEnc, fmtDec_eq_bchDec]
  exact answersNearest_bchDec 3 gfmt_pos rfl (by decide)

theorem answersNearest_verDec : AnswersNearest verEnc verDec 18 6 2 := by
  rw [verEnc_eq_bchEnc, verDec_eq_bchDec]
  exact answersNearest_bchDec 2 gver_pos rfl (by decide)

/-- Settles O38: both decoders are the search up to their radius. -/
theorem bchDecodersAnswerTheNearest : Obligations.BchDecodersAnswerTheNearest :=
  ⟨answersNearest_fmtDec, answersNearest_verDec⟩

end Sys2Proof.Machine
end

section
/-! PROOFS. The correction laws (45_bch.md, R316): the codewords of each code lie so far apart that at most one is
within the decoder's radius. -/

namespace Sys2Proof.Machine

/-- The words of different data of k bits differ in at least `m` of n bits. -/
def FarApart (enc : Nat → Nat) (n k m : Nat) : Prop :=
  ∀ d d' : Nat, d < 2 ^ k → d' < 2 ^ k → d ≠ d' → m ≤ ones n (enc d ^^^ enc d')

/-- The code is linear, so its minimum distance is the least weight of a word that is not 0. -/
theorem farApart_bchEnc {g n k m : Nat} (mask : Nat) (hg : 0 < g)
    (hweight : ∀ d, d < 2 ^ k → d ≠ 0 → m ≤ ones n (bchWord g d)) : FarApart (bchEnc g mask) n k m := by
  intro d d' hd hd' hne
  rw [bchEnc, bchEnc, xor_xor_xor_cancel_right, ← bchWord_xor hg]
  exact hweight _ (Nat.xor_lt_two_pow hd hd') fun hzero => hne (Nat.xor_eq_zero_iff.1 hzero)

theorem weight_bchWord_gfmt : ∀ d, d < 2 ^ 5 → d ≠ 0 → 7 ≤ ones 15 (bchWord Config.gfmt d) := by decide

theorem weight_bchWord_gver : ∀ v, v < 2 ^ 6 → v ≠ 0 → 8 ≤ ones 18 (bchWord Config.gver v) := by decide

theorem farApart_fmtEnc : FarApart fmtEnc 15 5 7 := by
  rw [fmtEnc_eq_bchEnc]
  exact farApart_bchEnc _ gfmt_pos weight_bchWord_gfmt

theorem farApart_verEnc : FarApart verEnc 18 6 8 := by
  rw [verEnc_eq_bchEnc]
  exact farApart_bchEnc _ gver_pos weight_bchWord_gver

section
variable {enc : Nat → Nat} {dec : Nat → BchResult} {n k r m d f : Nat} (hdec : AnswersNearest enc dec n k r)
  (hfar : FarApart enc n k m) (hd : d < 2 ^ k) (hw : enc d ^^^ f < 2 ^ n)
include hdec hfar hd hw

/-- What is decoded from a flipped word is the word's own data with its flips counted, or it is another word's,
and then the flips and those counted together span the distance. -/
theorem data_eq_or_le_of_ok (hok : (dec (enc d ^^^ f)).ok = true) :
    ((dec (enc d ^^^ f)).data = d ∧ (dec (enc d ^^^ f)).errcnt = ones n f)
    ∨ m ≤ (dec (enc d ^^^ f)).errcnt + ones n f := by
  obtain ⟨hdata, -, hcount⟩ := (hdec _ hw).1 hok
  by_cases hsame : (dec (enc d ^^^ f)).data = d
  · rw [hsame, Nat.xor_comm, Nat.xor_xor_cancel_left] at hcount
    exact .inl ⟨hsame, hcount.symm⟩
  · right
    calc m ≤ ones n (enc (dec (enc d ^^^ f)).data ^^^ enc d) := hfar _ _ hdata hd hsame
      _ = ones n (enc d ^^^ f ^^^ enc (dec (enc d ^^^ f)).data ^^^ f) := by
        congr 1
        rw [Nat.xor_right_comm (enc d), Nat.xor_xor_cancel_right, Nat.xor_comm]
      _ ≤ _ := ones_xor_le _ _ _
      _ = _ := by rw [hcount]

/-- Flips within the radius, the radius under half the distance, are corrected and counted. -/
theorem dec_eq_of_ones_le (hr : 2 * r < m) (hf : ones n f ≤ r) : dec (enc d ^^^ f) = ⟨true, d, ones n f⟩ := by
  have hok : (dec (enc d ^^^ f)).ok = true := by
    by_contra hfail
    have hnone := ((hdec _ hw).2 (Bool.eq_false_iff.2 hfail)).2 d hd
    rw [Nat.xor_comm, Nat.xor_xor_cancel_left] at hnone
    omega
  obtain ⟨-, hcount, -⟩ := (hdec _ hw).1 hok
  rcases data_eq_or_le_of_ok hdec hfar hd hw hok with ⟨hdata, herrcnt⟩ | hspan
  · calc dec (enc d ^^^ f) = ⟨(dec (enc d ^^^ f)).ok, (dec (enc d ^^^ f)).data, (dec (enc d ^^^ f)).errcnt⟩ := rfl
      _ = ⟨true, d, ones n f⟩ := by rw [hok, hdata, herrcnt]
  · omega

end

/-- Settles O37: by the distances 7 and 8; a fourth flip of a format word leaves at least three to the next word. -/
theorem bchCorrectionLaws : Obligations.BchCorrectionLaws := by
  refine ⟨fun d f hd hf hones => ?format, fun d f hd hf hfour hok => ?four, fun v f hv hf hones => ?version⟩
  case format =>
    exact dec_eq_of_ones_le answersNearest_fmtDec farApart_fmtEnc hd (Nat.xor_lt_two_pow (fmtEnc_lt hd) hf)
      (by decide) hones
  case four =>
    have hw := Nat.xor_lt_two_pow (fmtEnc_lt hd) hf
    obtain ⟨-, hcount, -⟩ := (answersNearest_fmtDec _ hw).1 hok
    rcases data_eq_or_le_of_ok answersNearest_fmtDec farApart_fmtEnc hd hw hok with ⟨-, herrcnt⟩ | hspan
    · omega
    · omega
  case version =>
    exact dec_eq_of_ones_le answersNearest_verDec farApart_verEnc hv (Nat.xor_lt_two_pow (verEnc_lt hv) hf)
      (by decide) hones

end Sys2Proof.Machine
end

section
/-! PROOFS. The BCH commands (45_bch.md, R310 to R315): each writes a word or a packed result, and the fields of a
result fit their places (R303). -/

namespace Sys2Proof.Machine

/-- The result fits the fields of R303. -/
structure BchResult.Fits (r : BchResult) : Prop where
  data : r.data < 2 ^ 6
  errcnt : r.errcnt < 2 ^ 2

theorem AnswersNearest.fits {enc : Nat → Nat} {dec : Nat → BchResult} {n k r w : Nat}
    (hdec : AnswersNearest enc dec n k r) (hk : k ≤ 6) (hr : r < 2 ^ 2) (hw : w < 2 ^ n) : (dec w).Fits := by
  cases hok : (dec w).ok with
  | true =>
    obtain ⟨hdata, herrcnt, -⟩ := (hdec w hw).1 hok
    exact ⟨hdata.trans_le (Nat.pow_le_pow_right two_pos hk), herrcnt.trans_lt hr⟩
  | false =>
    rw [((hdec w hw).2 hok).1]
    exact ⟨by decide, by decide⟩

theorem fits_fmtDec (x : Nat) : (fmtDec (x % 2 ^ 15)).Fits :=
  answersNearest_fmtDec.fits (by decide) (by decide) (Nat.mod_lt _ (Nat.two_pow_pos _))

theorem fits_verDec (x : Nat) : (verDec (x % 2 ^ 18)).Fits :=
  answersNearest_verDec.fits (by decide) (by decide) (Nat.mod_lt _ (Nat.two_pow_pos _))

theorem packBch_eq_ofNat {r : BchResult} (hr : r.Fits) (sel ok1 ok2 : Bool) :
    packBch r sel ok1 ok2 = BitVec.ofNat 32 (packedNat r sel ok1 ok2) := by
  have hconf : (if r.ok then 4 - r.errcnt else 0) < 2 ^ 3 := by split <;> omega
  apply word_eq_ofNat
  simp only [packBch, packedNat, toNat_append_add, BitVec.toNat_ofNat, BitVec.toNat_ofBool, Nat.mod_eq_of_lt hr.data,
    Nat.mod_eq_of_lt hr.errcnt, Nat.mod_eq_of_lt hconf]
  omega

/-- The location R314 chooses: the second where it alone decodes or has fewer flips. -/
theorem selectBch_eq_ofNat {a b : BchResult} (ha : a.Fits) (hb : b.Fits) :
    selectBch a b = BitVec.ofNat 32 (if b.ok ∧ (¬ a.ok ∨ b.errcnt < a.errcnt) then packedNat b true a.ok b.ok
      else packedNat a false a.ok b.ok) := by
  have hsel : (if a.ok then b.ok && decide (b.errcnt < a.errcnt) else b.ok) = true
      ↔ b.ok ∧ (¬ a.ok ∨ b.errcnt < a.errcnt) := by
    cases a.ok <;> simp
  rw [selectBch]
  by_cases hb2 : b.ok ∧ (¬ a.ok ∨ b.errcnt < a.errcnt)
  · simp only [hsel.2 hb2, if_pos hb2, if_true, packBch_eq_ofNat hb]
  · simp only [Bool.eq_false_iff.2 (hsel.not.2 hb2), if_neg hb2, packBch_eq_ofNat ha, Bool.false_eq_true, if_false]

/-- A command that ends by setting `rd` writes what it sets. -/
theorem writesX_of_exec {i : Instr} {s : State} {rd : XReg} {v v' : Word}
    (hexec : exec i s = .next (s.setX rd v).complete) (hv : v = v') : ∃ t, exec i s = .next t ∧ WritesX s t rd v' :=
  ⟨_, hexec, hv ▸ writesX_setX s rd v⟩

/-- Settles O36: every command sets `rd`, and a decoder's results fit the packed word. -/
theorem bchCommands : Obligations.BchCommands := by
  intro s rd rs1 rs2 n m choice
  refine ⟨encode_eq_commandWord_zero (by decide) rfl, encode_eq_commandWord_zero (by decide) rfl,
    encode_eq_commandWord_zero (by decide) rfl, encode_eq_commandWord_zero (by decide) rfl,
    encode_eq_commandWord_zero (by decide) rfl, encode_eq_commandWord_zero (by decide) rfl,
    writesX_of_exec rfl rfl, writesX_of_exec rfl ?bchfd, writesX_of_exec rfl rfl, writesX_of_exec rfl ?bchvd,
    writesX_of_exec rfl ?fmtsel, writesX_of_exec rfl ?versel⟩
  case bchfd => exact packBch_eq_ofNat (fits_fmtDec n) _ _ _
  case bchvd => exact packBch_eq_ofNat (fits_verDec n) _ _ _
  case fmtsel => exact selectBch_eq_ofNat (fits_fmtDec n) (fits_fmtDec m)
  case versel => exact selectBch_eq_ofNat (fits_verDec n) (fits_verDec m)

end Sys2Proof.Machine
end

section
/-! PROOFS. Runs of stream bits (R340, R91): a run splits where two are joined, and a field of it reads back as its
number. -/

namespace Sys2Proof.Machine

theorem Memory.holds_append {α : Type} {m : Memory α} {k : Nat} {a b : List α} :
    m.holds k (a ++ b) ↔ m.holds k a ∧ m.holds (k + a.length) b := by
  constructor
  · intro h
    refine ⟨fun j hj => ?_, fun j hj => ?_⟩
    · rw [h j (by rw [List.length_append]; omega), List.getElem?_append_left hj]
    · rw [Nat.add_assoc, h (a.length + j) (by rw [List.length_append]; omega),
        List.getElem?_append_right (Nat.le_add_right _ _), Nat.add_sub_cancel_left]
  · rintro ⟨ha, hb⟩ j hj
    rcases Nat.lt_or_ge j a.length with hlt | hge
    · rw [ha j hlt, List.getElem?_append_left hlt]
    · have hcell := hb (j - a.length) (by rw [List.length_append] at hj; omega)
      rwa [Nat.add_assoc, Nat.add_sub_cancel' hge, ← List.getElem?_append_right hge] at hcell

theorem State.streamHolds_append {s : State} {k : Nat} {a b : List Bool} :
    s.StreamHolds k (a ++ b) ↔ s.StreamHolds k a ∧ s.StreamHolds (k + a.length) b := by
  simp only [State.StreamHolds, Memory.holds_append, List.length_append]
  constructor
  · rintro ⟨hle, ha, hb⟩
    exact ⟨⟨by omega, ha⟩, by omega, hb⟩
  · rintro ⟨⟨-, ha⟩, hle, hb⟩
    exact ⟨by omega, ha, hb⟩

@[simp] theorem length_fieldBits (v n : Nat) : (fieldBits v n).length = n := length_bitsOf v n

@[simp] theorem length_byteBits (b : Byte) : (byteBits b).length = 8 := by simp [byteBits]

/-- A run of stream bits is available where it begins (R340). -/
theorem State.StreamHolds.length_le_avail {s : State} {k : Nat} {bs : List Bool} (h : s.StreamHolds k bs) :
    bs.length ≤ s.avail k :=
  Nat.le_sub_of_add_le' h.1

theorem State.StreamHolds.le_avail {s : State} {k v n : Nat} (h : s.StreamHolds k (fieldBits v n)) :
    n ≤ s.avail k :=
  (length_fieldBits v n).symm.trans_le h.length_le_avail

theorem State.StreamHolds.peek {s : State} {k v n : Nat} (h : s.StreamHolds k (fieldBits v n)) (hv : v < 2 ^ n) :
    s.peek k n = .ok v :=
  peek_eq_ok.2 ⟨hv, h.2⟩

theorem length_flatMap_byteBits (d : List Byte) : (d.flatMap byteBits).length = 8 * d.length := by
  rw [← bitsOfBytes_eq, length_bitsOfBytes]

/-- Byte by byte, a run of bytes reads back. -/
theorem peek_of_holds_bytes {s : State} {p j : Nat} {d : List Byte} {b : Byte}
    (h : s.bs.bits.holds p (d.flatMap byteBits)) (hj : d[j]? = some b) : s.peek (p + 8 * j) 8 = .ok b.toNat := by
  induction d generalizing p j with
  | nil => simp at hj
  | cons a d ih =>
    rw [List.flatMap_cons, Memory.holds_append, length_byteBits] at h
    obtain ⟨ha, hd⟩ := h
    cases j with
    | zero =>
      obtain rfl : a = b := by simpa using hj
      rw [byteBits_eq_bitsOf] at ha
      exact peek_eq_ok.2 ⟨a.isLt, ha⟩
    | succ j =>
      rw [Nat.mul_succ, Nat.add_comm _ 8, ← Nat.add_assoc]
      exact ih hd (by simpa using hj)

end Sys2Proof.Machine
end

section
/-! PROOFS. The commands that clear the stream, append to it and read it (46_bitstream.md, R343 to R347). -/

namespace Sys2Proof.Machine

/-! ## Clearing and appending -/

/-- BSPUT of a width it takes, with room in the stream (R344). -/
theorem exec_bsput {s : State} {rs1 : XReg} {n : Nat} (hn : ¬ (n = 0 ∨ 32 < n)) (hroom : s.bs.blen + n ≤ 32768) :
    exec (.bsput rs1 n) s = .next (s.appendBits (fieldBits (s.getX rs1).toNat n)).complete := by
  rw [exec_of_check_passed (exec_of_check_passed rfl hn) (Nat.not_lt.2 hroom)]
  rfl

/-- BSLOAD of a content that fits (R346). -/
theorem exec_bsload {s : State} {ba : BReg} {d : List Byte} (hd : s.Holds ba d)
    (hroom : s.bs.blen + 8 * d.length ≤ 32768) :
    exec (.bsload ba) s = .next (s.appendBits (d.flatMap byteBits)).complete := by
  have hcheck : ¬ s.bs.blen + 8 * s.lenB ba > Config.bitCap := by
    rw [← hd.1]
    exact Nat.not_lt.2 hroom
  rw [exec_of_check_passed rfl hcheck, content_eq_ok.2 hd, ← bitsOfBytes_eq]
  rfl

/-- Settles O39: BSCLR names its state; the others raise at the check that fails or append what their rule says. -/
theorem clearingAndAppendingCommands : Obligations.ClearingAndAppendingCommands := by
  intro s rs1 ba n d hn
  have hbsclr : encode .bsclr = 0x60000000 := by decide
  refine ⟨hbsclr, encode_eq_commandWord (by decide) hn rfl, encode_eq_commandWord_zero (by decide) rfl,
    ⟨_, rfl, rfl, rfl⟩, fun hwidth => raises_of_check rfl hwidth, fun h1 h32 hfull => ?overflow,
    fun h1 h32 hroom => ?append, fun hfull => raises_of_check rfl hfull, fun hd hroom => ?load⟩
  case overflow => exact raises_of_check (exec_of_check_passed rfl (by omega)) hfull
  case append => exact ⟨_, exec_bsput (by omega) hroom, appendsBits_appendBits s _⟩
  case load => exact ⟨_, exec_bsload hd hroom, appendsBits_appendBits s _⟩

/-! ## Reading -/

/-- BSGET of a field the stream holds at the cursor (R345). -/
theorem exec_bsget {s : State} {n v : Nat} (rd : XReg) (hn : ¬ (n = 0 ∨ 32 < n)) (hv : v < 2 ^ n)
    (hbits : s.StreamHolds s.bs.rpos (fieldBits v n)) : exec (.bsget rd n) s = .next
      (State.setXNat { s with bs := { s.bs with rpos := s.bs.rpos + n } } rd v).complete := by
  rw [exec_of_check_passed (exec_of_check_passed rfl hn) (Nat.not_lt.2 hbits.le_avail), hbits.peek hv]
  rfl

/-- BSSTORE of bytes the stream holds (R347). -/
theorem exec_bsstore {s : State} {rs1 : XReg} {d : List Byte} (bd : BReg) (hn : d.length ≤ 256)
    (hbits : s.StreamHolds (8 * (s.getX rs1).toNat) (d.flatMap byteBits)) :
    exec (.bsstore bd rs1 d.length) s = .next (s.produce bd d).complete := by
  have hwithin : ¬ 8 * (s.natX rs1 + d.length) > s.bs.blen := by
    have hle := hbits.1
    rw [length_flatMap_byteBits, ← Nat.mul_add] at hle
    exact Nat.not_lt.2 hle
  have hread : readMany (fun k => (s.peek (8 * k) 8).map (BitVec.ofNat 8)) (s.natX rs1) d.length = .ok d := by
    refine readMany_eq_ok.2 ⟨rfl, fun j b hj => ?_⟩
    have hbyte : s.peek (8 * (s.natX rs1 + j)) 8 = .ok b.toNat := by
      rw [Nat.mul_add]
      exact peek_of_holds_bytes hbits.2 hj
    rw [hbyte]
    exact congrArg Except.ok ((BitVec.ofNat_toNat 8 b).trans (BitVec.setWidth_eq b))
  rw [exec_of_check_passed (exec_of_check_passed rfl (Nat.not_lt.2 hn)) hwithin, hread]
  rfl

/-- Settles O40: each check that fails raises; BSGET sets the register in the state with the cursor moved, BSSTORE
produces the bytes. -/
theorem streamReads : Obligations.StreamReads := by
  intro s rd rs1 bd n v d hn o
  have hdata : BitVec.ofNat 32 o = s.getX rs1 := ofNat_toNat_word _
  rw [← hdata]
  refine ⟨encode_eq_commandWord (by decide) hn rfl, encode_eq_commandWord (by decide) hn rfl,
    fun hwidth => raises_of_check rfl hwidth, fun h1 h32 hshort => ?underflow, fun h1 h32 hv hbits => ?get,
    fun hcount => raises_of_check rfl hcount, fun hcount hout => ?index, fun hcount hlen hbits => ?store⟩
  case underflow => exact raises_of_check (exec_of_check_passed rfl (by omega)) hshort
  case get => exact ⟨_, exec_bsget rd (by omega) hv hbits, writesX_setX _ rd _⟩
  case index => exact raises_of_check (exec_of_check_passed rfl (Nat.not_lt.2 hcount)) hout
  case store =>
    subst hlen
    exact ⟨_, exec_bsstore bd hcount hbits, writesB_produce s bd d⟩

end Sys2Proof.Machine
end

section
/-! PROOFS. The terminator, the padding and their check (46_bitstream.md, R353, R354, R361). -/

namespace Sys2Proof.Machine

theorem bitsOf_zero (n : Nat) : bitsOf 0 n = List.replicate n false := by simp [bitsOf]

/-- The padding of R354 with its bytes written out. -/
theorem padding_eq (blen cap : Nat) : padding blen cap = List.replicate ((8 - blen % 8) % 8) false
    ++ ((List.range ((cap - blen - (8 - blen % 8) % 8) / 8)).map
      (fun k => if k % 2 = 0 then (0xEC : Byte) else 0x11)).flatMap byteBits := by
  rw [← bitsOfBytes_eq, Nat.sub_sub]
  rfl

/-- The padding ends at a capacity of whole bytes exactly (R354). -/
theorem add_length_padding {blen capb : Nat} (h : blen ≤ 8 * capb) :
    blen + (padding blen (8 * capb)).length = 8 * capb := by
  simp only [padding, List.length_append, List.length_replicate, length_bitsOfBytes, List.length_map,
    List.length_range]
  omega

/-- BSTERM within the capacity (R353). -/
theorem exec_bsterm {s : State} (h : s.bs.blen ≤ 8 * s.capb) :
    exec .bsterm s = .next (s.appendBits (List.replicate (min 4 (8 * s.capb - s.bs.blen)) false)).complete := by
  rw [exec_of_check_passed rfl (Nat.not_lt.2 h), ← bitsOf_zero]
  rfl

/-- BSPAD within the capacity (R354). -/
theorem exec_bspad {s : State} (h : s.bs.blen ≤ 8 * s.capb) :
    exec .bspad s = .next (s.appendBits (padding s.bs.blen (8 * s.capb))).complete := by
  rw [exec_of_check_passed rfl (Nat.not_lt.2 h)]
  rfl

/-- Settles O43: past the capacity both raise, within it each appends what its rule says. -/
theorem terminatorAndPadding : Obligations.TerminatorAndPadding := by
  have hbsterm : encode .bsterm = 0x66000000 := by decide
  have hbspad : encode .bspad = 0x67000000 := by decide
  refine ⟨hbsterm, hbspad, fun s => ⟨fun hfull => raises_of_check rfl hfull, fun hfull => raises_of_check rfl hfull,
    fun hle => ?term, fun hle => ?pad⟩⟩
  case term => exact ⟨_, exec_bsterm hle, appendsBits_appendBits s _⟩
  case pad =>
    rw [← padding_eq]
    exact ⟨_, exec_bspad hle, add_length_padding hle, appendsBits_appendBits s _⟩

/-- The bytes with their places, place by place. -/
theorem zipIdx_map_toNat (d : List Byte) :
    (d.map BitVec.toNat).zipIdx = (List.range d.length).map fun k => ((d.getD k 0).toNat, k) := by
  apply List.ext_getElem
  · simp
  · intro k hk _
    have hk : k < d.length := by simpa using hk
    simp [hk]

/-- What R361 counts, over bytes the stream holds from the first byte boundary at or after the cursor. -/
theorem padCheck_eq_ok {s : State} {d : List Byte}
    (hlen : d.length = (min s.bs.blen s.capBits - 8 * ((s.bs.rpos + 7) / 8)) / 8)
    (hbits : s.bs.bits.holds (8 * ((s.bs.rpos + 7) / 8)) (d.flatMap byteBits)) :
    s.padCheck = .ok (((List.range d.length).filter (fun k => d.getD k 0 = padByte k)).length, d.length) := by
  unfold State.padCheck
  dsimp only
  generalize 8 * ((s.bs.rpos + 7) / 8) = start at *
  generalize min s.bs.blen s.capBits = stop at *
  have htotal : (if stop > start then (stop - start) / 8 else 0) = d.length := by
    rw [hlen]
    split <;> omega
  have hread : readMany (fun k => s.peek (start + 8 * k) 8) 0 d.length = .ok (d.map BitVec.toNat) := by
    refine readMany_eq_ok.2 ⟨List.length_map _, fun j v hj => ?_⟩
    obtain ⟨b, hb, rfl⟩ := Option.map_eq_some_iff.1 (List.getElem?_map.symm.trans hj)
    rw [Nat.zero_add]
    exact peek_of_holds_bytes hbits hb
  have hcount : ((d.map BitVec.toNat).zipIdx.filter (fun p => p.1 == (padByte p.2).toNat)).length
      = ((List.range d.length).filter (fun k => d.getD k 0 = padByte k)).length := by
    rw [zipIdx_map_toNat, List.filter_map, List.length_map]
    congr 2
    funext k
    rw [Bool.eq_iff_iff, Function.comp, beq_iff_eq, BitVec.toNat_inj, decide_eq_true_iff]
  rw [htotal, hread, ← hcount]
  rfl

/-- Settles O47: the bytes are at most as many as the stream has, so that the count stands above them in the word. -/
theorem bspadchkCountsPadBytes : Obligations.BspadchkCountsPadBytes := by
  intro s rd bytes hinv start stop total conforming hlen hbits
  have hexec : exec (.bspadchk rd) s = finish (s.padCheck.map fun p => s.setXNat rd (p.1 <<< 16 ||| p.2)) := rfl
  have htotal : total < 2 ^ 16 := by
    have hblen : s.bs.blen ≤ 32768 := hinv.ranges.blen
    omega
  have hword : conforming <<< 16 ||| total = 2 ^ 16 * conforming + total := by
    rw [← Nat.shiftLeft_add_eq_or_of_lt htotal, Nat.shiftLeft_eq, Nat.mul_comm]
  refine ⟨encode_eq_commandWord_zero (by decide) rfl, _, ?_, writesX_setX s rd _⟩
  rw [hexec, padCheck_eq_ok hlen hbits, hlen, ← hword]
  rfl

end Sys2Proof.Machine
end

section
/-! PROOFS. The segment format (46_bitstream.md, R348 to R350, R356 to R358): characters and their values, groups and
the numbers that stand for them, and the payload group by group. -/

namespace Sys2Proof.Machine

/-! ## Characters -/

theorem alnumTable_eq_alnumChars : alnumTable = alnumChars := by decide

theorem charValue_numeric {b : Byte} (h : validChar .numeric b) : charValue .numeric b = some (b.toNat - 0x30) :=
  if_pos h

theorem charValue_alnum {b : Byte} (h : validChar .alnum b) :
    charValue .alnum b = some (alnumChars.idxOf b.toNat) := by
  have hlt : alnumChars.findIdx (· == b.toNat) < alnumChars.length := List.idxOf_lt_length_of_mem h
  rw [charValue, alnumTable_eq_alnumChars, List.findIdx?_eq_guard_findIdx_lt, Option.guard_eq_some_iff]
  exact ⟨rfl, by simpa using hlt⟩

/-- A mode has no value for the other characters (R352). -/
theorem charValue_eq_none {m : Mode} {b : Byte} (h : ¬ validChar m b) : charValue m b = none := by
  cases m with
  | numeric => exact if_neg h
  | alnum =>
    rw [charValue, alnumTable_eq_alnumChars, List.findIdx?_eq_none_iff]
    intro x hx
    refine beq_false_of_ne fun hxb => h ?_
    rwa [validChar, ← hxb]
  | byte => exact absurd trivial h

/-- The value of a character is below the mode's radix, and the character comes back from it (R348, R356, R357). -/
theorem charValue_of_valid {m : Mode} {b : Byte} (h : validChar m b) :
    ∃ v, charValue m b = some v ∧ v < radix m ∧ charOf m v = b := by
  cases m with
  | numeric =>
    obtain ⟨hlo, hhi⟩ := h
    refine ⟨_, charValue_numeric ⟨hlo, hhi⟩, by simp only [radix]; omega, ?_⟩
    rw [charOf, Nat.add_sub_cancel' hlo]
    simp
  | alnum =>
    have hlt : alnumChars.idxOf b.toNat < alnumChars.length := List.idxOf_lt_length_of_mem h
    refine ⟨_, charValue_alnum h, hlt, ?_⟩
    rw [charOf, alnumTable_eq_alnumChars, List.getD_eq_getElem _ _ hlt, List.getElem_idxOf]
    simp
  | byte => exact ⟨_, rfl, b.isLt, by simp [charOf]⟩

/-- The values of characters, as the payload takes them (R350). -/
def charValues (m : Mode) (d : List Byte) : List Nat := d.map fun b => (charValue m b).getD 0

@[simp] theorem length_charValues (m : Mode) (d : List Byte) : (charValues m d).length = d.length := List.length_map _

theorem charValues_lt_radix {m : Mode} {d : List Byte} (hd : ∀ b ∈ d, validChar m b) :
    ∀ v ∈ charValues m d, v < radix m := by
  intro v hv
  obtain ⟨b, hb, rfl⟩ := List.mem_map.1 hv
  obtain ⟨v, hval, hlt, -⟩ := charValue_of_valid (hd b hb)
  rwa [hval]

theorem map_charOf_charValues {m : Mode} {d : List Byte} (hd : ∀ b ∈ d, validChar m b) :
    (charValues m d).map (charOf m) = d := by
  rw [charValues, List.map_map]
  refine (List.map_congr_left fun b hb => ?_).trans (List.map_id d)
  obtain ⟨v, hval, -, hchar⟩ := charValue_of_valid (hd b hb)
  rw [Function.comp, hval]
  exact hchar

/-! ## Groups -/

theorem groupSize_pos (m : Mode) : 0 < groupSize m := by cases m <;> decide

/-- A count of whole groups puts its groups in front (R350). -/
theorem groups_add {m : Mode} {c : Nat} (hc : c % groupSize m = 0) (r : Nat) :
    groups m (c + r) = groups m c ++ groups m r := by
  obtain ⟨k, rfl⟩ := Nat.dvd_of_mod_eq_zero hc
  simp only [groups, Nat.mul_add_div (groupSize_pos m), Nat.mul_add_mod_self_left, Nat.mul_mod_right,
    Nat.mul_div_cancel_left k (groupSize_pos m), List.replicate_add, if_true, List.append_nil, List.append_assoc]

/-- The first group is as large as the characters left allow (R350). -/
theorem groups_eq_cons {m : Mode} {c : Nat} (hc : 0 < c) :
    groups m c = min (groupSize m) c :: groups m (c - groupSize m) := by
  rcases Nat.lt_or_ge c (groupSize m) with hlt | hge
  · rw [Nat.min_eq_right hlt.le, Nat.sub_eq_zero_of_le hlt.le]
    simp [groups, Nat.div_eq_of_lt hlt, Nat.mod_eq_of_lt hlt, hc.ne']
  · have hone : groups m (groupSize m) = [groupSize m] := by simp [groups, Nat.div_self (groupSize_pos m)]
    rw [Nat.min_eq_left hge]
    conv_lhs => rw [← Nat.add_sub_cancel' hge, groups_add (Nat.mod_self _), hone]
    rfl

/-- A group holds at least one character and at most a full group's. -/
theorem mem_groups {m : Mode} {c g : Nat} (hg : g ∈ groups m c) : 0 < g ∧ g ≤ groupSize m := by
  have hpos := groupSize_pos m
  rcases List.mem_append.1 hg with hfull | hlast
  · rw [List.eq_of_mem_replicate hfull]
    exact ⟨hpos, le_rfl⟩
  · split at hlast
    · cases hlast
    · rename_i hne
      rw [List.mem_singleton.1 hlast]
      exact ⟨Nat.pos_of_ne_zero hne, (Nat.mod_lt _ hpos).le⟩

/-! ## Numbers of groups -/

theorem groupValue_concat (m : Mode) (vs : List Nat) (v : Nat) :
    groupValue m (vs ++ [v]) = radix m * groupValue m vs + v := by
  simp [groupValue]

theorem radix_pos (m : Mode) : 0 < radix m := by cases m <;> decide

/-- A group's number has as many digits as the group has characters (R350). -/
theorem groupValue_lt {m : Mode} {vs : List Nat} (hvs : ∀ v ∈ vs, v < radix m) :
    groupValue m vs < radix m ^ vs.length := by
  induction vs using List.reverseRecOn with
  | nil => exact Nat.one_pos
  | append_singleton vs v ih =>
    have hv : v < radix m := hvs v (by simp)
    have hle := Nat.mul_le_mul_left (radix m) (Nat.succ_le_of_lt (ih fun u hu => hvs u (by simp [hu])))
    rw [groupValue_concat, List.length_append, List.length_singleton, Nat.pow_succ, Nat.mul_comm _ (radix m)]
    rw [Nat.mul_succ] at hle
    omega

/-- The digits of a group's number are the values it was made of (R356, R357). -/
theorem groupChars_groupValue {m : Mode} {vs : List Nat} (hvs : ∀ v ∈ vs, v < radix m) :
    groupChars m vs.length (groupValue m vs) = vs := by
  induction vs using List.reverseRecOn with
  | nil => rfl
  | append_singleton vs v ih =>
    have hv : v < radix m := hvs v (by simp)
    have hdigit (j : Nat) (hj : j < vs.length) : (radix m * groupValue m vs + v) / radix m ^ (vs.length - j) % radix m
        = groupValue m vs / radix m ^ (vs.length - 1 - j) % radix m := by
      rw [show vs.length - j = vs.length - 1 - j + 1 by omega, Nat.pow_succ', ← Nat.div_div_eq_div_mul,
        Nat.mul_add_div (radix_pos m), Nat.div_eq_of_lt hv, Nat.add_zero]
    rw [groupValue_concat, groupChars, List.length_append, List.length_singleton, List.range_succ, List.map_append]
    congr 1
    · conv_rhs => rw [← ih fun u hu => hvs u (by simp [hu])]
      refine List.map_congr_left fun j hj => ?_
      rw [Nat.add_sub_cancel]
      exact hdigit j (List.mem_range.1 hj)
    · simp [Nat.mul_add_mod_self_left, Nat.mod_eq_of_lt hv]

/-- A group's number fits the group's width (R350). -/
theorem radix_pow_le {m : Mode} {g : Nat} (hpos : 0 < g) (hle : g ≤ groupSize m) :
    radix m ^ g ≤ 2 ^ groupBits m g := by
  cases m with
  | numeric | alnum | byte => simp only [groupSize] at hle; interval_cases g <;> decide

/-! ## Payloads -/

theorem encodePayload_eq (m : Mode) (d : List Byte) :
    encodePayload m d = encodeGroups m (groups m d.length) (charValues m d) := rfl

theorem encodeGroups_append {m : Mode} {gs : List Nat} {vs : List Nat} (hvs : vs.length = gs.sum)
    (gs' vs' : List Nat) :
    encodeGroups m (gs ++ gs') (vs ++ vs') = encodeGroups m gs vs ++ encodeGroups m gs' vs' := by
  induction gs generalizing vs with
  | nil =>
    obtain rfl := List.length_eq_zero_iff.1 hvs
    rfl
  | cons g gs ih =>
    rw [List.sum_cons] at hvs
    have hg : g ≤ vs.length := by omega
    rw [List.cons_append, encodeGroups, encodeGroups, List.take_append_of_le_length hg,
      List.drop_append_of_le_length hg, ih (by rw [List.length_drop]; omega), List.append_assoc]

/-- The payload of whole groups stands in front (R350). -/
theorem encodePayload_append {m : Mode} {d : List Byte} (hd : d.length % groupSize m = 0) (rest : List Byte) :
    encodePayload m (d ++ rest) = encodePayload m d ++ encodePayload m rest := by
  simp only [encodePayload_eq, List.length_append, groups_add hd]
  rw [← encodeGroups_append (by rw [length_charValues, sum_groups])]
  rw [charValues, List.map_append]
  rfl

/-- The payload of one group (R350). -/
theorem encodePayload_of_one_group {m : Mode} {d : List Byte} (hpos : 0 < d.length) (hle : d.length ≤ groupSize m) :
    encodePayload m d = fieldBits (groupValue m (charValues m d)) (groupBits m d.length) := by
  have hone : groups m d.length = [d.length] := by
    rw [groups_eq_cons hpos, Nat.min_eq_right hle, Nat.sub_eq_zero_of_le hle]
    simp [groups]
  rw [encodePayload_eq, hone, encodeGroups, List.take_of_length_le (length_charValues m d).le, encodeGroups,
    List.append_nil, bitsOf_eq_fieldBits]

/-- The payload of a full group and what follows it (R350). -/
theorem encodePayload_full_group {m : Mode} {d : List Byte} (hd : d.length = groupSize m) (rest : List Byte) :
    encodePayload m (d ++ rest)
      = fieldBits (groupValue m (charValues m d)) (groupBits m (groupSize m)) ++ encodePayload m rest := by
  rw [encodePayload_append (hd ▸ Nat.mod_self _), encodePayload_of_one_group (hd ▸ groupSize_pos m) hd.le, hd]

/-- Settles O41: a payload is the field of its first group and the payload of the rest. -/
theorem payloadEncoding : Obligations.PayloadEncoding := by
  unfold Obligations.PayloadEncoding
  intro val
  refine ⟨fun m => ?nil, fun a b c rest h => ?numeric, fun a b rest h => ?alnum, fun a rest => ?byte,
    length_encodePayload⟩
  case nil => cases m <;> rfl
  case numeric =>
    have ha := charValue_numeric (h a (by simp))
    have hb := charValue_numeric (h b (by simp))
    have hc := charValue_numeric (h c (by simp))
    have hthree : groupValue .numeric (charValues .numeric [a, b, c])
        = 100 * (a.toNat - 0x30) + 10 * (b.toNat - 0x30) + (c.toNat - 0x30) := by
      simp only [charValues, List.map, ha, hb, hc, Option.getD_some, groupValue, List.foldl, radix]
      omega
    have htwo : groupValue .numeric (charValues .numeric [a, b]) = 10 * (a.toNat - 0x30) + (b.toNat - 0x30) := by
      simp only [charValues, List.map, ha, hb, Option.getD_some, groupValue, List.foldl, radix]
      omega
    have hone : groupValue .numeric (charValues .numeric [a]) = a.toNat - 0x30 := by
      simp [charValues, ha, groupValue]
    exact ⟨hthree ▸ encodePayload_full_group (d := [a, b, c]) rfl rest,
      htwo ▸ encodePayload_of_one_group (Nat.succ_pos 1) (Nat.le_succ 2),
      hone ▸ encodePayload_of_one_group Nat.one_pos (Nat.le_add_left 1 2)⟩
  case alnum =>
    have ha := charValue_alnum (h a (by simp))
    have hb := charValue_alnum (h b (by simp))
    have htwo : groupValue .alnum (charValues .alnum [a, b]) = 45 * val a + val b := by
      simp [charValues, ha, hb, groupValue, radix, val]
    have hone : groupValue .alnum (charValues .alnum [a]) = val a := by simp [charValues, ha, groupValue, val]
    exact ⟨htwo ▸ encodePayload_full_group (d := [a, b]) rfl rest,
      hone ▸ encodePayload_of_one_group Nat.one_pos (Nat.le_succ 1)⟩
  case byte =>
    have hone : groupValue .byte (charValues .byte [a]) = a.toNat := by simp [charValues, charValue, groupValue]
    rw [byteBits_eq_bitsOf, bitsOf_eq_fieldBits]
    exact hone ▸ encodePayload_full_group (d := [a]) rfl rest

end Sys2Proof.Machine
end

section
/-! PROOFS. SEGENC (46_bitstream.md, R352): the checks in order, and the segment it appends. -/

namespace Sys2Proof.Machine

/-! ## Mode indicators -/

theorem modeOf_modeIndicator (m : Mode) : modeOf (modeIndicator m) = some m := by cases m <;> rfl

theorem modeIndicator_mem (m : Mode) : modeIndicator m ∈ [1, 2, 4] := by cases m <;> decide

theorem modeIndicator_lt (m : Mode) : modeIndicator m < 2 ^ 4 := by cases m <;> decide

theorem modeOf_eq_none {v : Nat} (h : v ∉ [1, 2, 4]) : modeOf v = none := by
  obtain ⟨hnone, -⟩ | ⟨m, -, rfl⟩ := modeOf_eq_none_or v
  · exact hnone
  · exact absurd (modeIndicator_mem m) h

/-! ## The character check -/

/-- The search goes past characters the mode can encode (R352). -/
theorem badChar_skip {s : State} {m : Mode} {ba : BReg} {k i : Nat}
    (h : ∀ j, j < i → ∃ a, (s.memB ba).read (k + j) = some a ∧ validChar m a) (n : Nat) :
    s.badChar m ba k (i + n) = s.badChar m ba (k + i) n := by
  induction i generalizing k with
  | zero => rw [Nat.zero_add, Nat.add_zero]
  | succ i ih =>
    obtain ⟨a, ha, hvalid⟩ := h 0 (Nat.succ_pos i)
    obtain ⟨v, hval, -, -⟩ := charValue_of_valid hvalid
    have hread : s.byteB ba k = .ok a := readCell_eq_ok.2 ha
    rw [Nat.succ_add, State.badChar, hread, Except.bind, hval]
    rw [show k + (i + 1) = k + 1 + i by omega]
    refine ih fun j hj => ?_
    obtain ⟨b, hb⟩ := h (j + 1) (Nat.succ_lt_succ hj)
    exact ⟨b, by rwa [show k + 1 + j = k + (j + 1) by omega]⟩

/-- Where a mode can meet a bad character, its check is the search (R352). -/
theorem checkChars_eq_badChar {s : State} {m : Mode} {ba : BReg} (hm : m ≠ .byte) :
    s.checkChars m ba = s.badChar m ba 0 (s.lenB ba) := by
  cases m with
  | numeric | alnum => rfl
  | byte => exact absurd rfl hm

theorem checkChars_of_valid {s : State} {m : Mode} {ba : BReg} {d : List Byte} (hd : s.Holds ba d)
    (hvalid : ∀ b ∈ d, validChar m b) : s.checkChars m ba = .ok none := by
  by_cases hm : m = .byte
  · subst hm
    rfl
  · have hread (j : Nat) (hj : j < s.lenB ba) : ∃ a, (s.memB ba).read (0 + j) = some a ∧ validChar m a := by
      rw [← hd.1] at hj
      exact ⟨d[j], by rw [hd.2 j hj, List.getElem?_eq_getElem hj], hvalid _ (List.getElem_mem hj)⟩
    rw [checkChars_eq_badChar hm]
    exact badChar_skip hread 0

theorem checkChars_of_bad {s : State} {m : Mode} {ba : BReg} {k : Nat} {b : Byte} (hk : k < s.lenB ba)
    (hb : (s.memB ba).read k = some b) (hbad : ¬ validChar m b)
    (hgood : ∀ j, j < k → ∃ a, (s.memB ba).read j = some a ∧ validChar m a) :
    s.checkChars m ba = .ok (some (k, b)) := by
  have hm : m ≠ .byte := by
    rintro rfl
    exact hbad trivial
  have hread : s.byteB ba k = .ok b := readCell_eq_ok.2 hb
  rw [checkChars_eq_badChar hm, show s.lenB ba = k + (s.lenB ba - k - 1 + 1) by omega,
    badChar_skip fun j hj => by rw [Nat.zero_add]; exact hgood j hj]
  rw [Nat.zero_add, State.badChar, hread, Except.bind, charValue_eq_none hbad]

/-! ## The command -/

theorem exec_segenc_of_unsupported {s : State} {ba : BReg} {imm : Nat} (h : imm ∉ [1, 2, 4]) :
    exec (.segenc ba imm) s = .next (s.raise (.segenc ba imm) .reservedField imm).complete := by
  rw [exec, execSegenc, modeOf_eq_none h]
  rfl

section
variable {s : State} {ba : BReg} {m : Mode}

theorem exec_segenc_of_count (h : 2 ^ cci m s.ver ≤ s.lenB ba) : exec (.segenc ba (modeIndicator m)) s
    = .next (s.raise (.segenc ba (modeIndicator m)) .countOverflow (s.lenB ba)).complete := by
  simp only [exec, execSegenc, modeOf_modeIndicator, ge_iff_le, if_pos h, finish]

theorem exec_segenc_of_bad {k : Nat} {b : Byte} (h : s.lenB ba < 2 ^ cci m s.ver)
    (hbad : s.checkChars m ba = .ok (some (k, b))) : exec (.segenc ba (modeIndicator m)) s
      = .next (s.raise (.segenc ba (modeIndicator m)) .invalidChar (2 ^ 8 * k + b.toNat)).complete := by
  have hdata : k <<< 8 ||| b.toNat = 2 ^ 8 * k + b.toNat := by
    rw [← Nat.shiftLeft_add_eq_or_of_lt b.isLt, Nat.shiftLeft_eq, Nat.mul_comm]
  simp only [exec, execSegenc, modeOf_modeIndicator, ge_iff_le, if_neg (Nat.not_le.2 h), hbad, Except.bind, finish,
    hdata]

/-- With every character valid SEGENC checks the room and appends (R352). -/
theorem exec_segenc_of_valid (h : s.lenB ba < 2 ^ cci m s.ver) (hgood : s.checkChars m ba = .ok none) :
    exec (.segenc ba (modeIndicator m)) s
      = finish (if s.bs.blen + segmentBits m s.ver (s.lenB ba) > Config.bitCap then
          .ok (s.raise (.segenc ba (modeIndicator m)) .bitOverflow s.bs.blen)
        else (s.content ba).map fun chars => s.appendBits (bitsOf (modeIndicator m) 4
          ++ bitsOf (s.lenB ba) (cci m s.ver) ++ encodePayload m chars)) := by
  simp only [exec, execSegenc, modeOf_modeIndicator, ge_iff_le, if_neg (Nat.not_le.2 h), hgood, Except.bind]
  rfl

end

/-- The bits of a segment: indicator, count and payload (R352). -/
def segment (m : Mode) (w : Nat) (d : List Byte) : List Bool :=
  fieldBits (modeIndicator m) 4 ++ fieldBits d.length w ++ encodePayload m d

theorem length_segment (m : Mode) (w : Nat) (d : List Byte) : (segment m w d).length = 4 + w + pbits m d.length := by
  simp [segment, length_encodePayload, Nat.add_assoc]

/-- Settles O42: the checks in their order, then the segment. -/
theorem segencAppendsOneSegment : Obligations.SegencAppendsOneSegment := by
  intro s ba chars m band w i
  have hw : w = cci m s.ver := by
    cases m <;> simp only [w, band, cci] <;> split_ifs <;> rfl
  have himm : modeIndicator m < 512 := (modeIndicator_lt m).trans (by decide)
  clear_value w
  subst hw
  refine ⟨encode_eq_commandWord (by decide) himm rfl, fun imm _ h => ?unsupported, fun hcount => ?count,
    fun k b hcount hk hb hbad hgood => ?bad, fun hcount hchars hvalid => ?valid⟩
  case unsupported => exact ⟨_, exec_segenc_of_unsupported h, raises_raise s _ _ _⟩
  case count => exact ⟨_, exec_segenc_of_count hcount, raises_raise s _ _ _⟩
  case bad => exact ⟨_, exec_segenc_of_bad hcount (checkChars_of_bad hk hb hbad hgood), raises_raise s _ _ _⟩
  case valid =>
    have hexec := exec_segenc_of_valid hcount (checkChars_of_valid hchars hvalid)
    have hlen : (segment m (cci m s.ver) chars).length = segmentBits m s.ver (s.lenB ba) := by
      rw [length_segment, hchars.1, segmentBits]
    refine ⟨fun hfull => raises_of_check hexec (hlen ▸ hfull),
      fun hroom => ⟨_, ?_, appendsBits_appendBits s _⟩⟩
    rw [exec_of_check_passed hexec (Nat.not_lt.2 (hlen ▸ hroom)), content_eq_ok.2 hchars, ← hchars.1]
    rfl

end Sys2Proof.Machine
end

section
/-! PROOFS. SEGDEC (46_bitstream.md, R355 to R359): its stages in order, and the groups it reads back. -/

namespace Sys2Proof.Machine

/-! ## Groups -/

/-- A group in range is read as its characters (R356 to R358). -/
theorem decodeGroups_cons {s : State} {m : Mode} {g v q : Nat} {gs : List Nat} {rest : Option (List Byte)}
    (hread : s.peek q (groupBits m g) = .ok v) (hv : v < radix m ^ g)
    (hrest : s.decodeGroups m gs (q + groupBits m g) = .ok rest) :
    s.decodeGroups m (g :: gs) q = .ok (rest.map ((groupChars m g v).map (charOf m) ++ ·)) := by
  rw [State.decodeGroups, hread, Except.bind, if_neg (Nat.not_le.2 hv), hrest]
  rfl

/-- A group out of range ends the reading (R356, R357). -/
theorem decodeGroups_of_invalid {s : State} {m : Mode} {g v q : Nat} (gs : List Nat)
    (hread : s.peek q (groupBits m g) = .ok v) (hv : radix m ^ g ≤ v) : s.decodeGroups m (g :: gs) q = .ok none := by
  rw [State.decodeGroups, hread, Except.bind, if_pos hv]

/-- A group the stream holds is read as its characters, in front of what the groups after it are read as. -/
theorem decodeGroups_group {s : State} {m : Mode} {us gs : List Nat} {q : Nat} {rest : Option (List Byte)}
    (hpos : 0 < us.length) (hle : us.length ≤ groupSize m) (hus : ∀ v ∈ us, v < radix m)
    (hbits : s.StreamHolds q (fieldBits (groupValue m us) (groupBits m us.length)))
    (hrest : s.decodeGroups m gs (q + groupBits m us.length) = .ok rest) :
    s.decodeGroups m (us.length :: gs) q = .ok (rest.map (us.map (charOf m) ++ ·)) := by
  have hvalue := groupValue_lt hus
  have hread := hbits.peek (hvalue.trans_le (radix_pow_le hpos hle))
  rw [decodeGroups_cons hread hvalue hrest, groupChars_groupValue hus]

/-- So are groups in a row. -/
theorem decodeGroups_append {s : State} {m : Mode} {gs gs' vs : List Nat} {q : Nat} {rest : Option (List Byte)}
    (hgs : ∀ g ∈ gs, 0 < g ∧ g ≤ groupSize m) (hvs : ∀ v ∈ vs, v < radix m) (hlen : vs.length = gs.sum)
    (hbits : s.StreamHolds q (encodeGroups m gs vs))
    (hrest : s.decodeGroups m gs' (q + (encodeGroups m gs vs).length) = .ok rest) :
    s.decodeGroups m (gs ++ gs') q = .ok (rest.map (vs.map (charOf m) ++ ·)) := by
  induction gs generalizing vs q with
  | nil =>
    obtain rfl := List.length_eq_zero_iff.1 hlen
    have hsame : s.decodeGroups m gs' q = .ok rest := hrest
    simpa using hsame
  | cons g gs ih =>
    rw [List.sum_cons] at hlen
    obtain ⟨us, ws, rfl, rfl⟩ : ∃ us ws, vs = us ++ ws ∧ us.length = g :=
      ⟨vs.take g, vs.drop g, (List.take_append_drop g vs).symm, List.length_take_of_le (by omega)⟩
    obtain ⟨hpos, hle⟩ := hgs us.length List.mem_cons_self
    rw [encodeGroups, List.take_left, List.drop_left] at hbits hrest
    rw [State.streamHolds_append, length_bitsOf] at hbits
    rw [List.length_append, length_bitsOf, ← Nat.add_assoc] at hrest
    obtain ⟨hfirst, hothers⟩ := hbits
    have hread := ih (fun g hg => hgs g (List.mem_cons_of_mem _ hg)) (fun v hv => hvs v (List.mem_append_right us hv))
      (by rw [List.length_append] at hlen; omega) hothers hrest
    rw [List.cons_append, decodeGroups_group hpos hle (fun v hv => hvs v (List.mem_append_left ws hv)) hfirst hread]
    simp [Function.comp_def]

/-- The groups of a payload the stream holds are read as its characters (R350, R356 to R358). -/
theorem decodeGroups_payload {s : State} {m : Mode} {d : List Byte} {gs : List Nat} {q : Nat}
    {rest : Option (List Byte)} (hd : ∀ b ∈ d, validChar m b) (hbits : s.StreamHolds q (encodePayload m d))
    (hrest : s.decodeGroups m gs (q + pbits m d.length) = .ok rest) :
    s.decodeGroups m (groups m d.length ++ gs) q = .ok (rest.map (d ++ ·)) := by
  rw [← length_encodePayload] at hrest
  have hread := decodeGroups_append (fun _ hg => mem_groups hg) (charValues_lt_radix hd)
    (by rw [length_charValues, sum_groups]) hbits hrest
  rwa [map_charOf_charValues hd] at hread

/-! ## Stages -/

section
variable {s : State} {rd : XReg} {bd : BReg} {m : Mode}

theorem segDecode_of_short (h : s.avail s.bs.rpos < 4) :
    s.segDecode rd bd = .ok (s.segOut rd .exhausted 0 .noStage 0 4 (s.avail s.bs.rpos)) :=
  if_pos h

theorem segDecode_of_terminator (hbits : s.StreamHolds s.bs.rpos (fieldBits 0 4)) :
    s.segDecode rd bd = .ok (State.segOut { s with bs := { s.bs with rpos := s.bs.rpos + 4, termseen := true } }
      rd .terminator 0 .noStage 0 0 0) := by
  rw [State.segDecode, if_neg (Nat.not_lt.2 hbits.le_avail), hbits.peek (by decide)]
  rfl

theorem segDecode_of_unsupported {mode : Nat} (hlt : mode < 16) (hmode : mode ∉ [0, 1, 2, 4])
    (hbits : s.StreamHolds s.bs.rpos (fieldBits mode 4)) :
    s.segDecode rd bd = .ok (s.segOut rd .unsupportedMode mode .noStage 0 0 0) := by
  obtain ⟨hzero, hnone⟩ := not_or.1 (List.mem_cons.not.1 hmode)
  rw [State.segDecode, if_neg (Nat.not_lt.2 hbits.le_avail), hbits.peek hlt, Except.bind, if_neg hzero,
    modeOf_eq_none hnone]

theorem segDecode_of_mode (hbits : s.StreamHolds s.bs.rpos (fieldBits (modeIndicator m) 4)) :
    s.segDecode rd bd = s.segCount rd bd (modeIndicator m) m := by
  have hne : modeIndicator m ≠ 0 := by cases m <;> decide
  rw [State.segDecode, if_neg (Nat.not_lt.2 hbits.le_avail), hbits.peek (modeIndicator_lt m), Except.bind,
    if_neg hne, modeOf_modeIndicator]

theorem segCount_of_short {mode : Nat} (h : s.avail (s.bs.rpos + 4) < cci m s.ver) : s.segCount rd bd mode m
    = .ok (s.segOut rd .insufficient mode .count 0 (cci m s.ver) (s.avail (s.bs.rpos + 4))) :=
  if_pos h

theorem segCount_of_count {mode c : Nat} (hc : c < 2 ^ cci m s.ver)
    (hbits : s.StreamHolds (s.bs.rpos + 4) (fieldBits c (cci m s.ver))) :
    s.segCount rd bd mode m = s.segPayload rd bd mode m (cci m s.ver) c := by
  rw [State.segCount, if_neg (Nat.not_lt.2 hbits.le_avail), hbits.peek hc]
  rfl

/-- The head of a segment leads to its payload. -/
theorem segDecode_of_head {c : Nat} (hc : c < 2 ^ cci m s.ver)
    (hbits : s.StreamHolds s.bs.rpos (fieldBits (modeIndicator m) 4 ++ fieldBits c (cci m s.ver))) :
    s.segDecode rd bd = s.segPayload rd bd (modeIndicator m) m (cci m s.ver) c := by
  obtain ⟨hmode, hcount⟩ := State.streamHolds_append.1 hbits
  rw [length_fieldBits] at hcount
  rw [segDecode_of_mode hmode, segCount_of_count hc hcount]

variable {mode w c : Nat}

theorem segPayload_of_short (h : s.avail (s.bs.rpos + 4 + w) < pbits m c) : s.segPayload rd bd mode m w c
    = .ok (s.segOut rd .insufficient mode .payload c (pbits m c) (s.avail (s.bs.rpos + 4 + w))) :=
  if_pos h

theorem segPayload_of_long (hfit : pbits m c ≤ s.avail (s.bs.rpos + 4 + w)) (hcap : 256 < c) :
    s.segPayload rd bd mode m w c = .ok (s.segOut rd .overflow mode .noStage c 0 0) := by
  rw [State.segPayload, if_neg (Nat.not_lt.2 hfit)]
  exact if_pos hcap

theorem segPayload_of_invalid (hfit : pbits m c ≤ s.avail (s.bs.rpos + 4 + w)) (hcap : c ≤ 256)
    (hgroups : s.decodeGroups m (groups m c) (s.bs.rpos + 4 + w) = .ok none) :
    s.segPayload rd bd mode m w c = .ok (s.segOut rd .invalidValue mode .noStage c 0 0) := by
  have hcap' : ¬ c > Config.bufCap := Nat.not_lt.2 hcap
  rw [State.segPayload, if_neg (Nat.not_lt.2 hfit), if_neg hcap', hgroups]
  rfl

theorem segPayload_of_decoded {d : List Byte} (hfit : pbits m c ≤ s.avail (s.bs.rpos + 4 + w)) (hcap : c ≤ 256)
    (hgroups : s.decodeGroups m (groups m c) (s.bs.rpos + 4 + w) = .ok (some d)) :
    s.segPayload rd bd mode m w c
      = .ok ((s.segAdvance bd d (4 + w + pbits m c)).segOut rd .segmentOk mode .noStage c 0 0) := by
  have hcap' : ¬ c > Config.bufCap := Nat.not_lt.2 hcap
  rw [State.segPayload, if_neg (Nat.not_lt.2 hfit), if_neg hcap', hgroups]
  rfl

/-- A path of SEGDEC that ends with an outcome writes the outcome to `rd` and to the segment registers (R359). -/
theorem writesX_of_segOut {u : State} {st : SegStatus} {stage : SegStage} {cnt exp avl : Nat}
    (h : s.segDecode rd bd = .ok (u.segOut rd st mode stage cnt exp avl)) :
    ∃ t, exec (.segdec rd bd) s = .next t ∧ WritesX { u with bs := { u.bs with
      segst := st, segmode := mode, segstage := stage, segcnt := cnt, segexp := exp, segavl := avl } } t rd
        (BitVec.ofNat 32 st.toNat) :=
  ⟨_, congrArg finish h, writesX_setX _ rd _⟩

end

/-! ## The obligations -/

/-- Settles O44: stage by stage, the path that ends there. -/
theorem segdecReportsOutcomes : Obligations.SegdecReportsOutcomes := by
  intro s rd bd i p out ends
  refine ⟨encode_eq_commandWord_zero (by decide) rfl, fun hshort => writesX_of_segOut (segDecode_of_short hshort),
    fun hbits => writesX_of_segOut (segDecode_of_terminator hbits),
    fun mode hlt hmode hbits => writesX_of_segOut (segDecode_of_unsupported hlt hmode hbits), fun m hmode => ?_⟩
  refine ⟨fun hshort => ?count, fun c hc hcount => ?_⟩
  case count => exact writesX_of_segOut ((segDecode_of_mode hmode).trans (segCount_of_short hshort))
  have hpayload := (segDecode_of_mode (rd := rd) (bd := bd) hmode).trans (segCount_of_count hc hcount)
  exact ⟨fun hshort => writesX_of_segOut (hpayload.trans (segPayload_of_short hshort)),
    fun hfit hcap => writesX_of_segOut (hpayload.trans (segPayload_of_long hfit hcap))⟩

theorem nine_le_cci {m : Mode} (hm : m ≠ .byte) (v : Nat) : 9 ≤ cci m v := by
  cases m with
  | numeric | alnum => simp only [cci]; split_ifs <;> decide
  | byte => exact absurd rfl hm

/-- Settles O45: the groups before the first one out of range are whole and read back, so that it is the next. -/
theorem segdecRejectsInvalidGroups : Obligations.SegdecRejectsInvalidGroups := by
  intro s rd bd m c v good w q size base g width hm hcap hhead hfit hwhole hlt hvalid hv hvlt hbits
  obtain ⟨hsize, hbase⟩ : size = groupSize m ∧ base = radix m := by
    cases m with
    | numeric | alnum => exact ⟨rfl, rfl⟩
    | byte => exact absurd rfl hm
  have hg : g = min (groupSize m) (c - good.length) := hsize ▸ rfl
  have hpos := groupSize_pos m
  have hgpos : 0 < g := by omega
  have hgle : g ≤ groupSize m := by omega
  have hwidth : width = groupBits m g := by
    dsimp only [width]
    clear_value g
    cases m with
    | numeric | alnum => simp only [groupSize] at hgle; interval_cases g <;> rfl
    | byte => exact absurd rfl hm
  rw [hsize] at hwhole
  rw [hbase] at hv
  rw [hwidth] at hvlt hbits
  have hsplit : groups m c = groups m good.length ++ (g :: groups m (c - good.length - groupSize m)) := by
    conv_lhs => rw [← Nat.add_sub_cancel' hlt.le, groups_add hwhole, groups_eq_cons (Nat.sub_pos_of_lt hlt), ← hg]
  obtain ⟨hgood, hnext⟩ := State.streamHolds_append.1 hbits
  rw [length_encodePayload] at hnext
  have hgroups : s.decodeGroups m (groups m c) q = .ok none := by
    rw [hsplit]
    exact decodeGroups_payload hvalid hgood (decodeGroups_of_invalid _ (hnext.peek hvlt) hv)
  have hcount : c < 2 ^ w := (Nat.lt_succ_of_le hcap).trans_le
    ((by decide : 257 ≤ 2 ^ 9).trans (Nat.pow_le_pow_right two_pos (nine_le_cci hm s.ver)))
  exact writesX_of_segOut ((segDecode_of_head hcount hhead).trans (segPayload_of_invalid hfit hcap hgroups))

/-- Settles O46: the groups of the payload are read back as the characters, which SEGDEC produces. -/
theorem segdecReturnsTheSegment : Obligations.SegdecReturnsTheSegment := by
  intro s rd bd m chars w bits hcap hcount hvalid hbits
  have hlen : bits.length = 4 + w + pbits m chars.length := length_segment m w chars
  obtain ⟨hhead, hpayload⟩ := State.streamHolds_append.1 hbits
  rw [List.length_append, length_fieldBits, length_fieldBits, ← Nat.add_assoc] at hpayload
  have hfit := hpayload.length_le_avail
  rw [length_encodePayload] at hfit
  have hgroups : s.decodeGroups m (groups m chars.length) (s.bs.rpos + 4 + w) = .ok (some chars) := by
    simpa using decodeGroups_payload (gs := []) (rest := some []) hvalid hpayload rfl
  have hdecode := (segDecode_of_head (rd := rd) (bd := bd) hcount hhead).trans
    (segPayload_of_decoded hfit hcap hgroups)
  have hwrites := writesB_produce s bd chars
  rw [hlen]
  exact ⟨_, congrArg finish hdecode, rfl, ⟨hwrites.length.symm, hwrites.bytes⟩, hwrites.frame,
    State.getX_setX _ rd 0, rfl⟩

end Sys2Proof.Machine
end

section
/-! PROOFS. The order of ZZGEN's traversal, and the coordinate list it leaves (47_zigzag.md, R402, R403). -/

namespace Sys2Proof.Machine

/-! ## The traversal, pair by pair -/

/-- The right column of the pair with `n` pairs on its left, itself counted: column 6 lies between pairs 3 and 4. -/
def rightColumn (n : Nat) : Nat := if 3 < n then 2 * n else 2 * n - 1

/-- The cells of `n` column pairs from the right, the direction turning at each (R402). -/
def pairsFrom (size : Nat) : Nat → Bool → List (Nat × Nat)
  | 0, _ => []
  | n + 1, up => pairCells size (rightColumn (n + 1)) up ++ pairsFrom size n (!up)

/-- The loop of R402 is one turn a pair: it starts a pair at its right column, or at column 6 next to it. -/
theorem visitFrom_eq_pairsFrom {size turns n col : Nat} {up : Bool} (hn : n ≤ turns)
    (hcol : (if col = 6 then col - 1 else col) = rightColumn n) : visitFrom size turns col up = pairsFrom size n up := by
  induction turns generalizing n col up with
  | zero =>
    obtain rfl := Nat.le_zero.1 hn
    rfl
  | succ turns ih =>
    cases n with
    | zero =>
      have hcol0 : col = 0 := by simp only [rightColumn] at hcol; split_ifs at hcol <;> omega
      simp [visitFrom, pairsFrom, hcol0]
    | succ n =>
      have hcol0 : col ≠ 0 := by
        rintro rfl
        simp only [rightColumn] at hcol
        split_ifs at hcol <;> omega
      have hnext : (if rightColumn (n + 1) - 2 = 6 then rightColumn (n + 1) - 2 - 1 else rightColumn (n + 1) - 2)
          = rightColumn n := by
        simp only [rightColumn]
        split_ifs <;> omega
      rw [visitFrom, if_neg hcol0]
      dsimp only
      rw [hcol, ih (Nat.le_of_succ_le_succ hn) hnext, pairsFrom]

/-- A matrix of a version has an even number of columns beside column 6, which the traversal visits in pairs. -/
theorem visited_eq_pairsFrom {size n : Nat} (hn : 3 < n) (hsize : size = 2 * n + 1) :
    visited size = pairsFrom size n true := by
  refine visitFrom_eq_pairsFrom (by omega) ?_
  rw [rightColumn, if_pos hn, if_neg (by omega)]
  omega

theorem length_pairsFrom (size n : Nat) (up : Bool) : (pairsFrom size n up).length = size * (2 * n) := by
  induction n generalizing up with
  | zero => rfl
  | succ n ih =>
    rw [pairsFrom, List.length_append, length_pairCells, ih]
    ring

/-- Every cell at or left of a pair's right column is visited from there on, column 6 apart. -/
theorem mem_pairsFrom {size n r c : Nat} {up : Bool} (hr : r < size) (hc : c ≤ rightColumn n) (hn : 0 < n)
    (hc6 : c ≠ 6) : (r, c) ∈ pairsFrom size n up := by
  induction n generalizing up with
  | zero => omega
  | succ n ih =>
    rw [pairsFrom, List.mem_append, mem_pairCells_iff]
    by_cases hpair : c = rightColumn (n + 1) ∨ c = rightColumn (n + 1) - 1
    · exact .inl ⟨hr, hpair⟩
    · obtain ⟨hpos, hleft⟩ : 0 < n ∧ c ≤ rightColumn n := by
        simp only [rightColumn] at *
        split_ifs at * <;> omega
      exact .inr (ih hleft hpos)

/-- The cells of a row's pair stand next to each other. -/
theorem getElem?_flatMap_pair {α β : Type} (f g : α → β) (l : List α) (j : Nat) :
    (l.flatMap fun a => [f a, g a])[2 * j]? = l[j]?.map f
      ∧ (l.flatMap fun a => [f a, g a])[2 * j + 1]? = l[j]?.map g := by
  induction l generalizing j with
  | nil => simp
  | cons a l ih =>
    cases j with
    | zero => simp
    | succ j => simpa [Nat.mul_add] using ih j

/-- The row of a pair's row step `j`, from the bottom or from the top. -/
def stepRow (size j : Nat) (up : Bool) : Nat := if up then size - 1 - j else j

theorem getElem?_pairCells {size col j h : Nat} {up : Bool} (hj : j < size) (hh : h < 2) :
    (pairCells size col up)[2 * j + h]? = some (stepRow size j up, col - h) := by
  have hrow : (if up then (List.range size).reverse else List.range size)[j]? = some (stepRow size j up) := by
    cases up with
    | true => simp [stepRow, hj]
    | false => simp [stepRow, hj]
  obtain ⟨hright, hleft⟩ := getElem?_flatMap_pair (fun r => (r, col)) (fun r => (r, col - 1))
    (if up then (List.range size).reverse else List.range size) j
  rw [hrow] at hright hleft
  obtain rfl | rfl : h = 0 ∨ h = 1 := by omega
  · exact hright
  · exact hleft

/-- Pair `p` of the traversal, row step `j`, right or left column. -/
theorem getElem?_pairsFrom {size n p j h : Nat} {up : Bool} (hp : p < n) (hj : j < size) (hh : h < 2) :
    (pairsFrom size n up)[2 * size * p + 2 * j + h]? =
      some (stepRow size j (up ^^ p.bodd), rightColumn (n - p) - h) := by
  induction n generalizing p up with
  | zero => omega
  | succ n ih =>
    rw [pairsFrom]
    cases p with
    | zero =>
      rw [Nat.mul_zero, Nat.zero_add, List.getElem?_append_left (by rw [length_pairCells]; omega),
        getElem?_pairCells hj hh, Nat.bodd_zero, Bool.xor_false, Nat.sub_zero]
    | succ p =>
      have hindex : 2 * size * (p + 1) + 2 * j + h = 2 * size * p + 2 * j + h + 2 * size := by ring
      rw [List.getElem?_append_right (by rw [length_pairCells]; omega), length_pairCells, hindex,
        Nat.add_sub_cancel, ih (Nat.lt_of_succ_lt_succ hp), Nat.bodd_succ, Nat.add_sub_add_right, Bool.not_xor,
        Bool.xor_not]

/-- The cells the traversal of a version visits: all but column 6 (R402). -/
theorem mem_visited_iff {v r c : Nat} :
    (r, c) ∈ visited (Config.size v) ↔ r < Config.size v ∧ c < Config.size v ∧ c ≠ 6 := by
  constructor
  · intro h
    obtain ⟨hr, hc⟩ := mem_visited h
    exact ⟨hr, hc, visited_skips_timing h⟩
  · rintro ⟨hr, hc, hc6⟩
    rw [visited_eq_pairsFrom (n := 10 + 2 * (v - 1)) (by omega) (by simp only [Config.size]; ring)]
    refine mem_pairsFrom hr ?_ (by omega) hc6
    rw [rightColumn, if_pos (by omega)]
    simp only [Config.size] at hc
    omega

/-! ## ZZGEN -/

/-- ZZGEN answers with the list of the traversal's data cells, when the traversal reads written roles. -/
theorem exec_zzgen_eq_next {s t : State} : exec .zzgen s = .next t ↔
    ∃ l, zigzag (Config.size s.ver) s.zig.role = .ok l ∧ t = State.complete { s with zig := s.zig.list l } := by
  refine finish_eq_next.trans ?_
  simp only [map_eq_ok]
  constructor
  · rintro ⟨_, ⟨l, hl, rfl⟩, ht⟩
    exact ⟨l, hl, ht⟩
  · rintro ⟨l, hl, ht⟩
    exact ⟨_, ⟨l, hl, rfl⟩, ht⟩

/-- Settles O48: the traversal's pairs are those of `pairsFrom`, and the role filter answers on written roles. -/
theorem zzgenListsTheTraversal : Obligations.ZzgenListsTheTraversal := by
  refine ⟨by decide, fun v _ _ => ?order, fun s => ?list⟩
  case order =>
    intro size
    have hsize : size = 2 * (10 + 2 * (v - 1)) + 1 := by dsimp only [size]; ring
    clear_value size
    rw [visited_eq_pairsFrom (by omega) hsize]
    refine ⟨by rw [length_pairsFrom, hsize, Nat.add_sub_cancel], fun p j h hp hj hh => ?_⟩
    intro right
    have hright : rightColumn (10 + 2 * (v - 1) - p) = right := by
      dsimp only [rightColumn, right]
      split_ifs <;> omega
    have hrow : stepRow size j (true ^^ p.bodd) = if p % 2 = 0 then size - 1 - j else j := by
      rw [Nat.mod_two_of_bodd]
      cases p.bodd <;> rfl
    rw [getElem?_pairsFrom (by omega) hj hh, hrow, hright]
  case list =>
    intro size hroles l
    have hl : zigzag (Config.size s.ver) s.zig.role = .ok l := by
      refine keepData_eq_ok.2 ⟨fun rc hrc => ?_, rfl⟩
      obtain ⟨hr, hc, hc6⟩ := mem_visited_iff.1 hrc
      exact hroles rc.1 rc.2 hr hc hc6
    refine ⟨_, exec_zzgen_eq_next.2 ⟨l, hl, rfl⟩, rfl, Memory.holds_writeBlock _ _ _, ?_, rfl⟩
    rw [← length_zzEntries l]
    exact Memory.sameOutside_writeBlock _ _ _

/-- The entries of ZZ are those of a list of cells, each the entry of one cell of the matrix (R56). -/
theorem Zigzag.exists_read_list_iff (z : Zigzag) {l : List (Nat × Nat)} {r c : Nat}
    (hl : ∀ rc ∈ l, rc.1 < 2 ^ 8 ∧ rc.2 < 2 ^ 8) (hr : r < 2 ^ 8) (hc : c < 2 ^ 8) :
    (∃ k, k < (z.list l).zzcnt ∧ (z.list l).zz.read k = some (BitVec.ofNat 8 r, BitVec.ofNat 8 c))
      ↔ (r, c) ∈ l := by
  have hmem : (BitVec.ofNat 8 r, BitVec.ofNat 8 c) ∈ zzEntries l ↔ (r, c) ∈ l := by
    refine ⟨fun h => ?_, fun h => List.mem_map.2 ⟨_, h, rfl⟩⟩
    obtain ⟨rc, hrc, he⟩ := List.mem_map.1 h
    obtain ⟨h1, h2⟩ := hl rc hrc
    obtain ⟨he1, he2⟩ := Prod.mk.inj he
    have hr' := congrArg BitVec.toNat he1
    have hc' := congrArg BitVec.toNat he2
    rw [BitVec.toNat_ofNat, BitVec.toNat_ofNat, Nat.mod_eq_of_lt h1, Nat.mod_eq_of_lt hr] at hr'
    rw [BitVec.toNat_ofNat, BitVec.toNat_ofNat, Nat.mod_eq_of_lt h2, Nat.mod_eq_of_lt hc] at hc'
    rwa [← hr', ← hc']
  rw [← hmem, List.mem_iff_getElem?]
  refine exists_congr fun k => ⟨fun ⟨hk, h⟩ => (z.read_list hk).symm.trans h, fun h => ?_⟩
  have hk : k < l.length := length_zzEntries l ▸ (List.getElem?_eq_some_iff.1 h).1
  exact ⟨hk, (z.read_list hk).trans h⟩

/-- Settles O49: the list holds the visited cells whose role is data, and the traversal visits all but column 6. -/
theorem traversalLaws : Obligations.TraversalLaws := by
  intro s t hs h size
  obtain ⟨l, hl, rfl⟩ := exec_zzgen_eq_next.1 h
  have hver := hs.ranges.ver.2
  have hsub := sublist_of_zigzag hl
  refine ⟨s.zig.list_consistent hver hsub, fun r c hr hc => ?_⟩
  have hbyte : ∀ rc ∈ l, rc.1 < 2 ^ 8 ∧ rc.2 < 2 ^ 8 := fun rc hrc => by
    have hle : Config.size s.ver ≤ 177 := size_le hver
    obtain ⟨h1, h2⟩ := mem_visited (hsub.subset hrc)
    omega
  refine (s.zig.exists_read_list_iff hbyte (by omega) (by omega)).trans ?_
  rw [(keepData_eq_ok.1 hl).2, List.mem_filter, mem_visited_iff, decide_eq_true_eq, and_assoc, and_assoc]
  rfl

end Sys2Proof.Machine
end

section
/-! PROOFS. ZZPLACE and ZZREAD: the modules at the listed cells (47_zigzag.md, R404, R405, R406). -/

namespace Sys2Proof.Machine

/-! ## Modules -/

/-- Reading modules answers when every cell is written. -/
theorem readModules_eq_ok {m : Memory Bool} {ks : List Nat} {vs : List Bool} :
    readModules m ks = .ok vs ↔ ks.map m.read = vs.map some := by
  induction ks generalizing vs with
  | nil => cases vs <;> simp [readModules]
  | cons k ks ih =>
    simp only [readModules, bind_eq_ok, map_eq_ok, readCell_eq_ok, ih, List.map_cons]
    constructor
    · rintro ⟨v, hv, ws, hws, rfl⟩
      rw [hv, hws, List.map_cons]
    · intro h
      obtain ⟨v, ws, rfl, hv, hws⟩ := List.map_eq_cons_iff.1 h.symm
      exact ⟨v, hv.symm, ws, hws.symm, rfl⟩

theorem exists_readModules {m : Memory Bool} {ks : List Nat} (h : ∀ k ∈ ks, (m.read k).isSome = true) :
    ∃ vs, readModules m ks = .ok vs := by
  refine ⟨ks.map fun k => (m.read k).getD false, readModules_eq_ok.2 ?_⟩
  rw [List.map_map]
  refine List.map_congr_left fun k hk => ?_
  obtain ⟨v, hv⟩ := Option.isSome_iff_exists.1 (h k hk)
  simp [hv]

theorem read_writeCells_of_notMem {m : Memory Bool} {kvs : List (Nat × Bool)} {a : Nat}
    (h : ∀ kv ∈ kvs, kv.1 ≠ a) : (writeCells m kvs).read a = m.read a := by
  induction kvs generalizing m with
  | nil => rfl
  | cons kv kvs ih =>
    obtain ⟨hkv, hkvs⟩ := List.forall_mem_cons.1 h
    rw [writeCells, ih hkvs, Memory.write, Memory.read_writeBlock, if_neg]
    rw [List.length_singleton]
    omega

/-- A cell written once reads its value, whatever the other writes. -/
theorem read_writeCells_zip {m : Memory Bool} {ks : List Nat} {vs : List Bool} {k a : Nat} (hnodup : ks.Nodup)
    (ha : ks[k]? = some a) (hk : k < vs.length) : (writeCells m (ks.zip vs)).read a = vs[k]? := by
  induction ks generalizing m vs k with
  | nil => simp at ha
  | cons b ks ih =>
    obtain ⟨hb, hks⟩ := List.nodup_cons.1 hnodup
    obtain ⟨v, vs, rfl⟩ := List.exists_cons_of_length_pos (Nat.zero_lt_of_lt hk)
    rw [List.zip_cons_cons, writeCells]
    cases k with
    | zero =>
      obtain rfl : b = a := by simpa using ha
      have hfresh : ∀ kv ∈ ks.zip vs, kv.1 ≠ b := fun kv hkv he => hb (he ▸ (List.of_mem_zip hkv).1)
      rw [read_writeCells_of_notMem hfresh, Memory.write, Memory.read_writeBlock]
      simp
    | succ k => exact ih hks ha (Nat.lt_of_succ_lt_succ hk)

/-! ## The listed cells -/

/-- A written block of an array is a list of values. -/
theorem exists_readBlock {α : Type} (a : ArrayName) {m : Memory α} {n : Nat} (h : m.written n) :
    ∃ vs, readBlock a m 0 n = .ok vs := by
  refine exists_readMany fun j hj => exists_readCell a ?_
  rw [Nat.zero_add]
  exact h j hj

theorem read_eq_of_readBlock {α : Type} {a : ArrayName} {m : Memory α} {n k : Nat} {vs : List α}
    (h : readBlock a m 0 n = .ok vs) (hk : k < n) : m.read k = vs[k]? := by
  obtain ⟨rfl, hvs⟩ := readBlock_eq_ok.1 h
  rw [← hvs k hk, Nat.zero_add]

/-- The listed cells are `cells`: the k-th is that of entry k of ZZ (R404, R405). -/
structure State.Lists (s : State) (cells : List Nat) : Prop where
  zzCells : s.zzCells = .ok cells
  length : cells.length = s.zig.zzcnt
  cell_iff : ∀ k a, cells[k]? = some a ↔
    ∃ e : Byte × Byte, k < s.zig.zzcnt ∧ s.zig.zz.read k = some e ∧ 177 * e.1.toNat + e.2.toNat = a

theorem lists_of_zzCells {s : State} {cells : List Nat} (h : s.zzCells = .ok cells) : s.Lists cells := by
  obtain ⟨es, hes, rfl⟩ := map_eq_ok.1 h
  have hlen := (readBlock_eq_ok.1 hes).1
  refine ⟨h, by rw [List.length_map, hlen], fun k a => ?_⟩
  rw [List.getElem?_map, Option.map_eq_some_iff]
  refine exists_congr fun e => ⟨fun ⟨he, ha⟩ => ?_,
    fun ⟨hk, he, ha⟩ => ⟨(read_eq_of_readBlock hes hk).symm.trans he, ha⟩⟩
  have hk : k < s.zig.zzcnt := hlen ▸ (List.getElem?_eq_some_iff.1 he).1
  exact ⟨hk, (read_eq_of_readBlock hes hk).trans he, ha⟩

theorem exists_lists {s : State} (h : s.zig.zz.written s.zig.zzcnt) : ∃ cells, s.Lists cells := by
  obtain ⟨es, hes⟩ := exists_readBlock .zz h
  exact ⟨_, lists_of_zzCells (map_eq_ok.2 ⟨es, hes, rfl⟩)⟩

theorem State.Lists.mem_iff {s : State} {cells : List Nat} (h : s.Lists cells) {a : Nat} : a ∈ cells ↔
    ∃ k, ∃ e : Byte × Byte, k < s.zig.zzcnt ∧ s.zig.zz.read k = some e ∧ 177 * e.1.toNat + e.2.toNat = a := by
  rw [List.mem_iff_getElem?]
  exact exists_congr fun k => h.cell_iff k a

theorem State.Lists.getElem? {s : State} {cells : List Nat} (h : s.Lists cells) {k : Nat} {e : Byte × Byte}
    (hk : k < s.zig.zzcnt) (he : s.zig.zz.read k = some e) : cells[k]? = some (177 * e.1.toNat + e.2.toNat) :=
  (h.cell_iff k _).2 ⟨e, hk, he, rfl⟩

/-- Distinct entries of the matrix name distinct cells. -/
theorem State.Lists.nodup {s : State} {cells : List Nat} (h : s.Lists cells) (hs : s.Inv) (hz : s.zig.Consistent) :
    cells.Nodup := by
  refine List.nodup_iff_getElem?_ne_getElem?.2 fun i j hij hj heq => ?_
  obtain ⟨e, hj', he, ha⟩ := (h.cell_iff j _).1 (List.getElem?_eq_getElem hj)
  obtain ⟨e', hi', he', ha'⟩ := (h.cell_iff i _).1 (heq.trans (List.getElem?_eq_getElem hj))
  have hc : e.2.toNat < 177 := (hs.ranges.entries _ (Memory.read_mem he)).2
  have hc' : e'.2.toNat < 177 := (hs.ranges.entries _ (Memory.read_mem he')).2
  have hee : e = e' := Prod.ext (BitVec.eq_of_toNat_eq (by omega)) (BitVec.eq_of_toNat_eq (by omega))
  exact hij.ne (hz.distinct i j e hi' hj' (hee ▸ he') he)

/-! ## The commands -/

/-- The bits ZZPLACE places: those of the stream, then 0s up to ZZCNT (R404). -/
def State.placedBits (s : State) (bs : List Bool) : List Bool := bs ++ List.replicate (s.zig.zzcnt - s.bs.blen) false

section
variable {s : State} {cells : List Nat} {bs : List Bool}

theorem length_placedBits (hbs : readBlock .bits s.bs.bits 0 (min s.bs.blen s.zig.zzcnt) = .ok bs) :
    (s.placedBits bs).length = s.zig.zzcnt := by
  rw [State.placedBits, List.length_append, (readBlock_eq_ok.1 hbs).1, List.length_replicate]
  omega

theorem getElem?_placedBits (hbs : readBlock .bits s.bs.bits 0 (min s.bs.blen s.zig.zzcnt) = .ok bs) {k : Nat}
    (hk : k < s.zig.zzcnt) : (s.placedBits bs)[k]? = if k < s.bs.blen then s.bs.bits.read k else some false := by
  have hlen := (readBlock_eq_ok.1 hbs).1
  rw [State.placedBits]
  split
  · rw [List.getElem?_append_left (by omega), read_eq_of_readBlock hbs (by omega)]
  · rw [List.getElem?_append_right (by omega), List.getElem?_replicate, if_pos (by omega)]

/-- ZZPLACE on written entries and bits. -/
theorem exec_zzplace (hcells : s.Lists cells)
    (hbs : readBlock .bits s.bs.bits 0 (min s.bs.blen s.zig.zzcnt) = .ok bs) :
    exec .zzplace s = .next (State.complete
      { s with zig := { s.zig with mod := writeCells s.zig.mod (cells.zip (s.placedBits bs)) } }) :=
  finish_eq_next.2 ⟨_, bind_eq_ok.2 ⟨cells, hcells.zzCells, map_eq_ok.2 ⟨bs, hbs, rfl⟩⟩, rfl⟩

/-- ZZREAD on written entries and modules. -/
theorem exec_zzread (hcells : s.Lists cells) (hbs : readModules s.zig.mod cells = .ok bs) :
    exec .zzread s = .next (State.complete { s with bs := { s.bs with
      bits := s.bs.bits.writeBlock 0 bs, blen := s.zig.zzcnt, rpos := 0, termseen := false, databits := 0 } }) :=
  finish_eq_next.2 ⟨_, bind_eq_ok.2 ⟨cells, hcells.zzCells, map_eq_ok.2 ⟨bs, hbs, rfl⟩⟩, rfl⟩

/-- ZZPLACE answers only when every bit it places is written. -/
theorem written_of_exec_zzplace {t : State} (h : exec .zzplace s = .next t) :
    s.bs.bits.written (min s.bs.blen s.zig.zzcnt) := by
  obtain ⟨_, h, -⟩ := finish_eq_next.1 h
  obtain ⟨cells, -, h⟩ := bind_eq_ok.1 h
  obtain ⟨bs, hbs, -⟩ := map_eq_ok.1 h
  intro k hk
  have hlen := (readBlock_eq_ok.1 hbs).1
  rw [read_eq_of_readBlock hbs hk, List.getElem?_eq_getElem (by omega)]
  rfl

/-- The k-th bit of the stream after ZZREAD is the module at the k-th cell. -/
theorem read_of_readModules {k a : Nat} (hbs : readModules s.zig.mod cells = .ok bs) (ha : cells[k]? = some a) :
    (s.bs.bits.writeBlock 0 bs).read k = s.zig.mod.read a := by
  have hmods := congrArg (·[k]?) (readModules_eq_ok.1 hbs)
  simp only [List.getElem?_map, ha, Option.map_some] at hmods
  obtain ⟨v, hv, hread⟩ := Option.map_eq_some_iff.1 hmods.symm
  have hk : k < bs.length := (List.getElem?_eq_some_iff.1 hv).1
  rw [Memory.read_writeBlock, if_pos (by omega), Nat.sub_zero, hv, hread]

end

/-- Settles O50: the listed cells are distinct, so that each takes its own bit, and they are read in order. -/
theorem placeAndReadModules : Obligations.PlaceAndReadModules := by
  refine ⟨by decide, by decide, fun s hs hz hbits => ?place, fun s hz hmods => ?read⟩
  case place =>
    obtain ⟨cells, hcells⟩ := exists_lists hz.written
    obtain ⟨bs, hbs⟩ := exists_readBlock .bits hbits
    refine ⟨_, exec_zzplace hcells hbs, rfl, rfl, fun k e hk he => ?_, fun a ha => ?_⟩
    · refine (read_writeCells_zip (hcells.nodup hs hz) (hcells.getElem? hk he) ?_).trans (getElem?_placedBits hbs hk)
      rwa [length_placedBits hbs]
    · refine read_writeCells_of_notMem fun kv hkv hne => ?_
      obtain ⟨k, e, hk, he, heq⟩ := hcells.mem_iff.1 (List.of_mem_zip hkv).1
      exact ha k e hk he (heq.trans hne)
  case read =>
    obtain ⟨cells, hcells⟩ := exists_lists hz
    have hwritten : ∀ a ∈ cells, (s.zig.mod.read a).isSome = true := fun a ha => by
      obtain ⟨k, e, hk, he, rfl⟩ := hcells.mem_iff.1 ha
      exact hmods k e hk he
    obtain ⟨bs, hbs⟩ := exists_readModules hwritten
    refine ⟨_, exec_zzread hcells hbs, rfl, rfl, fun k e hk he => read_of_readModules hbs (hcells.getElem? hk he), ?_⟩
    rw [← hcells.length, ← Acts.length_readModules hbs]
    exact Memory.sameOutside_writeBlock _ _ _

/-- Settles O51: the cells ZZREAD reads are those ZZPLACE has written, in the same order. -/
theorem placedBitsReadBack : Obligations.PlacedBitsReadBack := by
  intro s t hs hz h
  obtain ⟨-, -, hplace, hread⟩ := placeAndReadModules
  have hwritten := written_of_exec_zzplace h
  obtain ⟨t', ht', -, hframe, hmods, -⟩ := hplace s hs hz hwritten
  obtain rfl : t' = t := Host.Outcome.next.inj (ht'.symm.trans h)
  have hzz : t'.zig.zz = s.zig.zz := by rw [hframe]
  have hcnt : t'.zig.zzcnt = s.zig.zzcnt := by rw [hframe]
  have hread := hread t'
  rw [hzz, hcnt] at hread
  obtain ⟨u, hu, -, hstream, hbits, -⟩ := hread hz.written fun k e hk he => by
    rw [hmods k e hk he]
    split
    · exact hwritten k (by omega)
    · rfl
  refine ⟨u, hu, by rw [hstream], fun k hk => ?_⟩
  obtain ⟨e, he⟩ := Option.isSome_iff_exists.1 (hz.written k (by omega))
  rw [hbits k e (by omega) he, hmods k e (by omega) he, if_pos (by omega)]

end Sys2Proof.Machine
end

section
/-! PROOFS. What a command leaves as it was, read off its effects: the control registers beside the completion
effects, and everything its *Writes* line does not name. -/

namespace Sys2Proof.Machine

/-! ## The control registers -/

/-- A command completes beside its effect, or reports one of its exceptions and nothing else (R431, R436). -/
theorem Effect.completed_or_raises {i : Instr} {s u : State} (h : Effect i s u) : Completed s u.complete
    ∨ ∃ code data, code ∈ mayRaise i ∧ Raises s u.complete code (encode i) data := by
  cases h with
  | raises code d hcode => exact .inr ⟨code, _, hcode, raises_raise s i code d⟩
  | _ => exact .inl rfl

/-- Settles O10: whatever its effect, a command ends with the completion effects, and only a report is beside them in
the control registers. -/
theorem everyCommandCompletesOrRaisesPrecisely : Obligations.EveryCommandCompletesOrRaisesPrecisely := by
  intro i s t h
  obtain ⟨u, hu, rfl⟩ := exec_eq_next h
  have hcnt : u.complete.ctl.cmdcnt = s.ctl.cmdcnt + 1 := by cases hu <;> rfl
  refine ⟨?_, rfl, rfl, hu.completed_or_raises⟩
  rw [hcnt, BitVec.toNat_add]
  rfl

/-! ## Destinations -/

section
variable {i : Instr} {s t : State}

/-- No command writes VER, CAPB or ROLE. -/
theorem Effect.setup_eq (h : Effect i s t) : t.ver = s.ver ∧ t.capb = s.capb ∧ t.zig.role = s.zig.role := by
  cases h <;> exact ⟨rfl, rfl, rfl⟩

theorem Effect.getX_eq (h : Effect i s t) {r : XReg} (hr : destX i ≠ some r) : t.getX r = s.getX r := by
  have hne {r' : XReg} (hr' : destX i = some r') : r ≠ r' := by
    rintro rfl
    exact hr hr'
  cases h with
  | setsX r' v hr' => exact s.getX_setX_of_ne v (hne hr')
  | reads r' v u hr' => exact s.getX_setX_of_ne v (hne hr')
  | decodesSegment b vs r' v u hb hr' => exact (s.produce b vs).getX_setX_of_ne v (hne hr')
  | _ => rfl

theorem Effect.buffer_eq (h : Effect i s t) {b : BReg} (hb : destB i ≠ some b) :
    t.lenB b = s.lenB b ∧ t.memB b = s.memB b := by
  have hne {b' : BReg} (hb' : destB i = some b') : b ≠ b' := by
    rintro rfl
    exact hb hb'
  cases h with
  | setsLen b' n hb' => exact ⟨s.lenB_setLen_of_ne n (hne hb'), rfl⟩
  | putsByte b' k v hb' => exact (writesB_writeB_setLen s b' k [v] _).others b (hne hb')
  | produces b' vs hb' => exact (writesB_produce s b' vs).others b (hne hb')
  | decodesSegment b' vs r v u hb' => exact (writesB_produce s b' vs).others b (hne hb')
  | repairs b' c u hb' => exact ⟨rfl, s.memB_writeB_of_ne 0 c (hne hb')⟩
  | _ => exact ⟨rfl, rfl⟩

theorem Effect.bs_eq (h : Effect i s t) (hi : .stream ∉ destUnits i) : t.bs = s.bs := by
  cases h with
  | streams u hd => exact absurd hd hi
  | reads r v u hr hd => exact absurd hd hi
  | decodesSegment b vs r v u hb hr hd => exact absurd hd hi
  | _ => rfl

theorem Effect.zig_eq (h : Effect i s t) (hi : .zigzag ∉ destUnits i) : t.zig = s.zig := by
  cases h with
  | lists l hd => exact absurd hd hi
  | places kvs hd => exact absurd hd hi
  | _ => rfl

end

/-- Settles O12: every effect writes at a destination of the command, and the completion effects only control
registers. -/
theorem commandsWriteOnlyTheirDestinations : Obligations.CommandsWriteOnlyTheirDestinations := by
  intro i s t h
  obtain ⟨u, hu, rfl⟩ := exec_eq_next h
  obtain ⟨hver, hcapb, hrole⟩ := hu.setup_eq
  exact ⟨hu.host_eq, hver, hcapb, hrole, fun r hr => hu.getX_eq hr, fun b hb => hu.buffer_eq hb,
    fun hi => hu.rs_eq hi, fun hi => hu.bs_eq hi, fun hi => hu.zig_eq hi⟩

end Sys2Proof.Machine
end

section
/-! PROOFS. The interrupt output and the host's write of STATUS (R37, R437, R440). -/

namespace Sys2Proof.Machine

/-- DONE and ERR are bits 1 and 2 of STATUS (R37). -/
theorem getLsbD_statusWord (s : State) :
    s.statusWord.getLsbD 1 = s.ctl.done ∧ s.statusWord.getLsbD 2 = s.ctl.err := by
  simp only [State.statusWord, BitVec.getLsbD_append]
  simp

/-- DONEIE and ERRIE are bits 0 and 1 of IRQEN (R38). -/
theorem getLsbD_irqenWord (s : State) :
    s.irqenWord.getLsbD 0 = s.ctl.doneie ∧ s.irqenWord.getLsbD 1 = s.ctl.errie := by
  simp only [State.irqenWord, BitVec.getLsbD_append]
  simp

theorem irq_of_done {s : State} (hdone : s.ctl.done = true) (hie : s.ctl.doneie = true) : s.irq = true := by
  simp [State.irq, hdone, hie]

theorem irq_of_err {s : State} (herr : s.ctl.err = true) (hie : s.ctl.errie = true) : s.irq = true := by
  simp [State.irq, herr, hie]

theorem irq_eq_false {s : State} (hdone : s.ctl.done = false) (herr : s.ctl.err = false) : s.irq = false := by
  simp [State.irq, hdone, herr]

/-- The host's write of STATUS with the engine idle (R37, R440). -/
theorem step_writeStatus_idle {s : State} {v : Word} (ha : s.atAction (.busWrite 0x00008 4 v))
    (hr : s.ctl.running = none) : step s = .next (s.advance.clearStatus v) :=
  step_busWrite_idle ha hr (t := .status) (by decide) nofun

/-- Settles O13: IRQ reads DONE, ERR and their enables; a command sets DONE and keeps DONEIE, a report sets ERR and
keeps ERRIE, acceptance clears DONE, and the write clears what it names. -/
theorem interruptAndStatusWrite : Obligations.InterruptAndStatusWrite := by
  refine ⟨fun s => ?level, fun i s t h hie => ?done, fun i s t code data _ hraises hie => ?err,
    fun s w n herr => irq_eq_false rfl herr, rfl, fun s v ha hr => step_writeStatus_idle ha hr,
    fun s t v ha hr hdone herr h => ?cleared⟩
  case level =>
    obtain ⟨hdone, herr⟩ := getLsbD_statusWord s
    obtain ⟨hdoneie, herrie⟩ := getLsbD_irqenWord s
    rw [hdone, herr, hdoneie, herrie]
    rfl
  case done =>
    obtain ⟨u, hu, rfl⟩ := exec_eq_next h
    have hkeeps : u.ctl.doneie = s.ctl.doneie := by cases hu <;> rfl
    exact irq_of_done rfl (hkeeps.trans hie)
  case err =>
    rw [Raises] at hraises
    subst hraises
    exact irq_of_err rfl hie
  case cleared =>
    obtain rfl := Host.Outcome.next.inj ((step_writeStatus_idle ha hr).symm.trans h)
    exact irq_eq_false (by simp [State.clearStatus, hdone]) (by simp [State.clearStatus, herr])

end Sys2Proof.Machine
end

section
/-! PROOFS. A CMD write while a command runs (R439). -/

namespace Sys2Proof.Machine

theorem step_issue_running {s : State} {v : Word} {r : Running} (ha : s.atAction (issue v))
    (hr : s.ctl.running = some r) : step s = tick (s.advance.overrun v) := by
  have hbusy : s.advance.busy = true := by simp [State.busy, hr]
  rw [step_of_atAction ha]
  show s.advance.writeCmd v = _
  rw [State.writeCmd, if_pos hbusy]

/-- Settles O9: the write is the report and then the engine's turn. -/
theorem overrunOnlyReports : Obligations.OverrunOnlyReports := by
  intro s w v n ha hr reported
  exact step_eq_of_tick (t := reported) (step_issue_running ha hr) hr

end Sys2Proof.Machine
end

section
/-! PROOFS. A command reads nothing of the host's side and not that it runs, so that when it runs makes no difference
to it (R476, R478, R480). -/

namespace Sys2Proof.Machine

/-- The state with another host's side and another running command. -/
def State.besides (s : State) (h : HostSide) (r : Option Running) : State :=
  { s with host := h, ctl := { s.ctl with running := r } }

/-- What a body answers in two states that differ in the host's side and the running command: both fail alike, or
the states they answer with differ in these alone. -/
def AnswersAlike (h : HostSide) (r : Option Running) (x y : Except Fault State) : Prop := y = x.map (·.besides h r)

/-! ## What a command reads -/

section
variable (s : State) (h : HostSide) (r : Option Running)

theorem byteX_besides (rs : XReg) : (s.besides h r).byteX rs = s.byteX rs := rfl

theorem blockLengthError_besides (ba : BReg) (ec : Nat) :
    (s.besides h r).blockLengthError ba ec = s.blockLengthError ba ec := rfl

theorem badChar_besides (m : Mode) (ba : BReg) (k n : Nat) :
    (s.besides h r).badChar m ba k n = s.badChar m ba k n := by
  induction n generalizing k with
  | zero => rfl
  | succ n ih =>
    rw [State.badChar, State.badChar, ← ih]
    rfl

theorem checkChars_besides (m : Mode) (ba : BReg) : (s.besides h r).checkChars m ba = s.checkChars m ba := by
  cases m with
  | byte => rfl
  | numeric | alnum => exact badChar_besides s h r _ ba 0 _

theorem decodeGroups_besides (m : Mode) (gs : List Nat) (q : Nat) :
    (s.besides h r).decodeGroups m gs q = s.decodeGroups m gs q := by
  induction gs generalizing q with
  | nil => rfl
  | cons g gs ih =>
    rw [State.decodeGroups, State.decodeGroups, ← ih]
    rfl

end

/-! ## Bodies -/

namespace AnswersAlike

variable {h : HostSide} {r : Option Running} {x y : Except Fault State} {α : Type}

theorem ok {u : State} : AnswersAlike h r (.ok u) (.ok (u.besides h r)) := rfl

/-- A check that raises, and the body behind it. -/
theorem check {p : Prop} [Decidable p] {u : State} (hxy : AnswersAlike h r x y) :
    AnswersAlike h r (if p then .ok u else x) (if p then .ok (u.besides h r) else y) := by
  split
  · exact ok
  · exact hxy

theorem map {v : Except Fault α} {f g : α → State} (hfg : ∀ a, g a = (f a).besides h r) :
    AnswersAlike h r (v.map f) (v.map g) := by
  cases v with
  | ok a => exact congrArg Except.ok (hfg a)
  | error e => rfl

theorem bind {v : Except Fault α} {f g : α → Except Fault State} (hfg : ∀ a, AnswersAlike h r (f a) (g a)) :
    AnswersAlike h r (v.bind f) (v.bind g) := by
  cases v with
  | ok a => exact hfg a
  | error e => rfl

/-- One step after another. -/
theorem andThen {f : State → Except Fault State} (hxy : AnswersAlike h r x y)
    (hf : ∀ u, AnswersAlike h r (f u) (f (u.besides h r))) : AnswersAlike h r (x.bind f) (y.bind f) := by
  rw [hxy]
  cases x with
  | ok u => exact hf u
  | error e => rfl

variable (s : State) (ba : BReg)

theorem rsSyn (ec : Nat) : AnswersAlike h r (s.rsSyn ba ec) ((s.besides h r).rsSyn ba ec) := map fun _ => rfl

theorem rsBm : AnswersAlike h r s.rsBm (s.besides h r).rsBm := map fun _ => rfl

theorem rsChien : AnswersAlike h r s.rsChien (s.besides h r).rsChien := map fun _ => rfl

theorem rsForney : AnswersAlike h r s.rsForney (s.besides h r).rsForney := map fun _ => rfl

theorem rsApply : AnswersAlike h r (s.rsApply ba) ((s.besides h r).rsApply ba) :=
  map fun _ => by
    rw [apply_ite (State.besides · h r)]
    rfl

/-- The chain of R265. -/
theorem rsDecode (ec : Nat) : AnswersAlike h r (s.rsDecode ba ec) ((s.besides h r).rsDecode ba ec) :=
  andThen (rsSyn s ba ec) fun u => check <| andThen (rsBm u) fun u => andThen (rsChien u) fun u => check <|
    andThen (rsForney u) fun u => check (rsApply u ba)

/-- SEGDEC's stages (R359). -/
theorem segDecode (rd : XReg) (bd : BReg) :
    AnswersAlike h r (s.segDecode rd bd) ((s.besides h r).segDecode rd bd) := by
  refine check <| bind fun mode => check ?_
  cases modeOf mode with
  | none => exact ok
  | some m =>
    refine check <| bind fun c => check <| check ?_
    rw [decodeGroups_besides]
    refine map fun chars? => ?_
    cases chars? <;> rfl

end AnswersAlike

/-- Every command is a body finished, and its body answers alike (R430, R436). -/
theorem exec_answersAlike (i : Instr) (s : State) (h : HostSide) (r : Option Running) :
    ∃ x y, exec i s = finish x ∧ exec i (s.besides h r) = finish y ∧ AnswersAlike h r x y := by
  cases i with
  | setlen | bput | rsgen | bsterm | bspad => exact ⟨_, _, rfl, rfl, .check .ok⟩
  | bsput => exact ⟨_, _, rfl, rfl, .check <| .check .ok⟩
  | bcopy | peval | zzgen | bspadchk => exact ⟨_, _, rfl, rfl, .map fun _ => rfl⟩
  | bget | bcat | bsload => exact ⟨_, _, rfl, rfl, .check <| .map fun _ => rfl⟩
  | pmul | rsenc | bsget | bsstore => exact ⟨_, _, rfl, rfl, .check <| .check <| .map fun _ => rfl⟩
  | gdiv rd rs1 rs2 =>
    refine ⟨_, _, rfl, rfl, ?_⟩
    rw [byteX_besides, byteX_besides]
    cases gfDiv (s.byteX rs1) (s.byteX rs2) <;> exact .ok
  | ginv rd rs1 =>
    refine ⟨_, _, rfl, rfl, ?_⟩
    rw [byteX_besides]
    cases gfInv (s.byteX rs1) <;> exact .ok
  | glog rd rs1 =>
    refine ⟨_, _, rfl, rfl, ?_⟩
    rw [byteX_besides]
    cases gfLog (s.byteX rs1) <;> exact .ok
  | rssyn ba n =>
    refine ⟨_, _, rfl, rfl, ?_⟩
    rw [blockLengthError_besides]
    cases s.blockLengthError ba n with
    | some v => exact .ok
    | none => exact .rsSyn s ba n
  | rsbm => exact ⟨_, _, rfl, rfl, .check (.rsBm s)⟩
  | rschien => exact ⟨_, _, rfl, rfl, .check (.rsChien s)⟩
  | rsforney => exact ⟨_, _, rfl, rfl, .check (.rsForney s)⟩
  | rsapply ba => exact ⟨_, _, rfl, rfl, .check <| .check (.rsApply s ba)⟩
  | rsdec ba n =>
    refine ⟨_, _, rfl, rfl, ?_⟩
    rw [blockLengthError_besides]
    cases s.blockLengthError ba n with
    | some v => exact .ok
    | none => exact .rsDecode s ba n
  | segenc ba n =>
    refine ⟨_, _, rfl, rfl, ?_⟩
    cases modeOf n with
    | none => exact .ok
    | some m =>
      refine .check ?_
      rw [checkChars_besides]
      refine .bind fun bad => ?_
      cases bad with
      | some kb => exact .ok
      | none => exact .check <| .map fun _ => rfl
  | segdec rd bd => exact ⟨_, _, rfl, rfl, .segDecode s rd bd⟩
  | zzplace | zzread => exact ⟨_, _, rfl, rfl, .bind fun _ => .map fun _ => rfl⟩
  | _ => exact ⟨_, _, rfl, rfl, .ok⟩

/-- A command in a state that differs in the host's side and the running command does the same, and the host's side is
the other one. -/
theorem exec_besides (i : Instr) (s : State) (h : HostSide) (r : Option Running) :
    exec i (s.besides h r) = thenRun (exec i s) fun t => .next (t.besides h none) := by
  obtain ⟨x, y, hx, hy, rfl⟩ := exec_answersAlike i s h r
  rw [hx, hy]
  cases x <;> rfl

theorem runWord_besides (w : Word) (s : State) (h : HostSide) (r : Option Running) :
    runWord w (s.besides h r) = thenRun (runWord w s) fun t => .next (t.besides h none) := by
  unfold runWord
  cases decode w with
  | ok i => exact exec_besides i s h r
  | error e => cases e <;> rfl

/-! ## Issuing and waiting -/

theorem runWord_host {w : Word} {s t : State} (h : runWord w s = .next t) : t.host = s.host := by
  obtain ⟨i, -, he⟩ | ⟨e, -, he⟩ := runWord_eq w s <;> rw [he] at h
  · exact exec_host h
  · cases h
    cases e <;> rfl

theorem step_wait_idle {s : State} (ha : s.atAction .wait) (hr : s.ctl.running = none) :
    step s = .next (s.advance.setRdata s.advance.statusWord) := by
  rw [step_of_atAction ha, State.perform, State.hostWait]
  simp only [State.advance_ctl, hr]

/-- Settles O8: with a latency the WAIT runs the word, in a state that differs from that of its acceptance in the host's
position and the count alone. -/
theorem latencyChangesNothing : Obligations.LatencyChangesNothing := by
  intro s w n rest ha hwait hr from_
  cases n with
  | zero => rfl
  | succ n =>
    let accepted : State := (from_ 0).advance.takeLatency.accept w 0
    let running : State := (from_ (n + 1)).advance.takeLatency.accept w (n + 1)
    have hadvanced : running.advance = accepted.besides running.advance.host (some ⟨w, n + 1⟩) := rfl
    rw [step_issue_delayed (s := from_ (n + 1)) ha hr rfl, step_issue_idle (s := from_ 0) ha hr rfl]
    refine (step_wait_running (s := running) hwait rfl).trans ?_
    rw [hadvanced, runWord_besides]
    cases hrun : runWord w accepted with
    | next t =>
      have hhost := runWord_host hrun
      have hidle := runWord_running hrun
      have hat : t.atAction .wait := by rwa [State.atAction, hhost]
      have hnext : running.advance.host = t.advance.host := by
        rw [State.advance, State.advance, hhost]
        rfl
      have hsame : t.besides running.advance.host none = t.advance := by
        rw [hnext, ← hidle]
        rfl
      calc
        _ = .next (State.setRdata (t.besides running.advance.host none) (State.statusWord _)) := rfl
        _ = step t := by rw [hsame, step_wait_idle hat hidle]
    | fault f => rfl
    | refused e => rfl

end Sys2Proof.Machine
end

section
/-! PROOFS. Where a command stops that reads a cell nothing has written (R472, U1): at the first such cell of what it
reads, once its checks pass. -/

namespace Sys2Proof.Machine

/-- Of the cells from `lo` on, the one `k` further is the first that nothing has written. -/
def State.FirstUnwritten (s : State) (a : ArrayName) (lo k : Nat) : Prop :=
  (∀ j : Nat, j < k → ¬ s.unwritten a (lo + j)) ∧ s.unwritten a (lo + k)

/-- Seen from a later cell that is not past it, the first unwritten cell is the same. -/
theorem State.FirstUnwritten.shift {s : State} {a : ArrayName} {lo i k : Nat} (h : s.FirstUnwritten a lo (i + k)) :
    s.FirstUnwritten a (lo + i) k := by
  refine ⟨fun j hj => ?_, ?_⟩
  · rw [Nat.add_assoc]
    exact h.1 (i + j) (by omega)
  · rw [Nat.add_assoc]
    exact h.2

/-! ## Reads in a row -/

theorem exec_fault {i : Instr} {s : State} {body : Except Fault State} {f : Fault} (hexec : exec i s = finish body)
    (hbody : body = .error f) : exec i s = .fault f :=
  hexec.trans (finish_eq_fault.2 hbody)

/-- A run of cells is read up to the first unwritten one. -/
theorem readBlock_stops {α : Type} {a : ArrayName} {m : Memory α} {lo n k : Nat} (hk : k < n)
    (hwritten : ∀ j : Nat, j < k → ¬ m.read (lo + j) = none) (hnone : m.read (lo + k) = none) :
    readBlock a m lo n = .error (.unwrittenRead a (lo + k)) :=
  readBlock_eq_error.2 ⟨k, hk, hnone, rfl, fun j hj => Option.ne_none_iff_exists'.1 (hwritten j hj)⟩

section
variable {s : State} {ba bb : BReg} {lo n k : Nat}

theorem content_stops (hk : k < s.lenB ba) (h : s.FirstUnwritten (.buf ba) 0 k) :
    s.content ba = .error (.unwrittenRead (.buf ba) k) := by
  have hstop := readBlock_stops (a := .buf ba) hk h.1 h.2
  rwa [Nat.zero_add] at hstop

theorem exists_content (h : ∀ j : Nat, j < s.lenB ba → ¬ s.unwritten (.buf ba) j) : ∃ d, s.content ba = .ok d :=
  exists_readBlock _ fun j hj => Option.isSome_iff_ne_none.2 (h j hj)

theorem contents_stops_first (hk : k < s.lenB ba) (h : s.FirstUnwritten (.buf ba) 0 k) :
    s.contents ba bb = .error (.unwrittenRead (.buf ba) k) :=
  bind_eq_error.2 (.inl (content_stops hk h))

theorem contents_stops_second (ha : ∀ j : Nat, j < s.lenB ba → ¬ s.unwritten (.buf ba) j) (hk : k < s.lenB bb)
    (h : s.FirstUnwritten (.buf bb) 0 k) : s.contents ba bb = .error (.unwrittenRead (.buf bb) k) := by
  obtain ⟨d, hd⟩ := exists_content ha
  exact bind_eq_error.2 (.inr ⟨d, hd, map_eq_error.2 (content_stops hk h)⟩)

theorem peek_stops (hk : k < n) (h : s.FirstUnwritten .bits lo k) :
    s.peek lo n = .error (.unwrittenRead .bits (lo + k)) :=
  map_eq_error.2 (readBlock_stops hk h.1 h.2)

/-- Bytes of the stream, bit by bit, are read up to the first unwritten bit. -/
theorem readMany_peek_stops {α : Type} {f : Nat → α} {base : Nat} (hk : k < 8 * n)
    (h : s.FirstUnwritten .bits (base + 8 * lo) k) :
    readMany (fun b => (s.peek (base + 8 * b) 8).map f) lo n
      = .error (.unwrittenRead .bits (base + 8 * lo + k)) := by
  refine readMany_eq_error.2 ⟨k / 8, by omega, map_eq_error.2 ?stop, fun j hj => ?before⟩
  case stop =>
    rw [Nat.mul_add, ← Nat.add_assoc]
    rw [← Nat.div_add_mod k 8] at h
    have hstop := peek_stops (Nat.mod_lt k (by decide : 8 > 0)) h.shift
    rwa [Nat.add_assoc _ (8 * (k / 8)), Nat.div_add_mod] at hstop
  case before =>
    obtain ⟨bs, hbs⟩ : ∃ bs, readBlock .bits s.bs.bits (base + 8 * (lo + j)) 8 = .ok bs :=
      exists_readMany fun i hi => exists_readCell _ <| by
        have hwritten := h.1 (8 * j + i) (by omega)
        rw [show base + 8 * (lo + j) + i = base + 8 * lo + (8 * j + i) by ring]
        exact Option.isSome_iff_ne_none.2 hwritten
    exact ⟨_, map_eq_ok.2 ⟨_, map_eq_ok.2 ⟨bs, hbs, rfl⟩, rfl⟩⟩

end

/-! ## Buffers -/

section
variable {s : State} {ba bb : BReg} {k : Nat}

theorem bget_stops {rs1 : XReg} (rd : XReg) (hk : (s.getX rs1).toNat < s.lenB ba)
    (h : s.unwritten (.buf ba) (s.getX rs1).toNat) :
    exec (.bget rd ba rs1) s = .fault (.unwrittenRead (.buf ba) (s.getX rs1).toNat) :=
  exec_fault (exec_of_check_passed rfl (Nat.not_le.2 hk)) (map_eq_error.2 (readCell_eq_error.2 ⟨h, rfl⟩))

theorem bcat_stops {f : Fault} (bd : BReg) (hfit : s.lenB ba + s.lenB bb ≤ 256) (h : s.contents ba bb = .error f) :
    exec (.bcat bd ba bb) s = .fault f :=
  exec_fault (exec_of_check_passed rfl (Nat.not_lt.2 hfit)) (map_eq_error.2 h)

theorem pmul_stops {f : Fault} (bd : BReg) (ha : s.lenB ba ≠ 0) (hb : s.lenB bb ≠ 0)
    (hfit : s.lenB ba + s.lenB bb - 1 ≤ 256) (h : s.contents ba bb = .error f) :
    exec (.pmul bd ba bb) s = .fault f :=
  exec_fault (exec_of_check_passed (exec_pmul_of_ne_zero bd ha hb) (Nat.not_lt.2 hfit)) (map_eq_error.2 h)

variable (hk : k < s.lenB ba) (h : s.FirstUnwritten (.buf ba) 0 k)
include hk h

theorem bcopy_stops (bd : BReg) : exec (.bcopy bd ba) s = .fault (.unwrittenRead (.buf ba) k) :=
  exec_fault rfl (map_eq_error.2 (content_stops hk h))

theorem peval_stops (rd rs1 : XReg) : exec (.peval rd ba rs1) s = .fault (.unwrittenRead (.buf ba) k) :=
  exec_fault rfl (map_eq_error.2 (content_stops hk h))

theorem rsenc_stops {n : Nat} (bd : BReg) (hfit : s.lenB ba + n ≤ 255) :
    exec (.rsenc bd ba n) s = .fault (.unwrittenRead (.buf ba) k) :=
  exec_fault (exec_of_check_passed (exec_rsenc_of_count_le s bd ba (Nat.le_of_add_left_le hfit)) (Nat.not_lt.2 hfit))
    (map_eq_error.2 (content_stops hk h))

theorem rssyn_stops {n : Nat} (hchk : s.blockLengthError ba n = none) :
    exec (.rssyn ba n) s = .fault (.unwrittenRead (.buf ba) k) :=
  exec_fault (exec_rssyn_of_checked hchk) (map_eq_error.2 (content_stops hk h))

/-- RSDEC stops in its first step. -/
theorem rsdec_stops {n : Nat} (hchk : s.blockLengthError ba n = none) :
    exec (.rsdec ba n) s = .fault (.unwrittenRead (.buf ba) k) :=
  exec_fault (exec_rsdec_of_checked hchk) (bind_eq_error.2 (.inl (map_eq_error.2 (content_stops hk h))))

theorem rsapply_stops (hst : s.rs.rsst = .magnitudesReady) (hlen : s.lenB ba = s.rs.nmsg) :
    exec (.rsapply ba) s = .fault (.unwrittenRead (.buf ba) k) := by
  have hblock := content_stops hk h
  rw [State.content, hlen] at hblock
  exact exec_fault (exec_rsapply_of_length hst hlen) (map_eq_error.2 (bind_eq_error.2 (.inl hblock)))

theorem bsload_stops (hroom : s.bs.blen + 8 * s.lenB ba ≤ 32768) :
    exec (.bsload ba) s = .fault (.unwrittenRead (.buf ba) k) :=
  exec_fault (exec_of_check_passed rfl (Nat.not_lt.2 hroom)) (map_eq_error.2 (content_stops hk h))

/-- The search for a bad character stops at the first byte it cannot read (R352). -/
theorem checkChars_stops {m : Mode} (hm : m ≠ .byte)
    (hvalid : ∀ (j : Nat) (b : Byte), j < k → (s.memB ba).read j = some b → validChar m b) :
    s.checkChars m ba = .error (.unwrittenRead (.buf ba) k) := by
  obtain ⟨hwritten, hnone⟩ := h
  simp only [Nat.zero_add] at hwritten hnone
  have hgood : ∀ j, j < k → ∃ a, (s.memB ba).read (0 + j) = some a ∧ validChar m a := fun j hj => by
    obtain ⟨a, ha⟩ := Option.ne_none_iff_exists'.1 (hwritten j hj)
    exact ⟨a, (Nat.zero_add j).symm ▸ ha, hvalid j a hj ha⟩
  rw [checkChars_eq_badChar hm, show s.lenB ba = k + (s.lenB ba - k - 1 + 1) by omega, badChar_skip hgood,
    Nat.zero_add, State.badChar]
  exact bind_eq_error.2 (.inl (readCell_eq_error.2 ⟨hnone, rfl⟩))

/-- SEGENC stops in its character check, or in byte mode, which has none, when it reads the content. -/
theorem segenc_stops {m : Mode} (hcount : s.lenB ba < 2 ^ cci m s.ver)
    (hvalid : ∀ (j : Nat) (b : Byte), j < k → (s.memB ba).read j = some b → validChar m b)
    (hroom : m = .byte → s.bs.blen + (4 + cci m s.ver + 8 * s.lenB ba) ≤ 32768) :
    exec (.segenc ba (modeIndicator m)) s = .fault (.unwrittenRead (.buf ba) k) := by
  by_cases hm : m = .byte
  · subst hm
    exact exec_fault (exec_of_check_passed (exec_segenc_of_valid hcount rfl) (Nat.not_lt.2 (hroom rfl)))
      (map_eq_error.2 (content_stops hk h))
  · have hstop := checkChars_stops hk h hm hvalid
    simp only [exec, execSegenc, modeOf_modeIndicator, ge_iff_le, if_neg (Nat.not_le.2 hcount), hstop, Except.bind,
      finish]

end

/-! ## The stream -/

section
variable {s : State} {k : Nat}

theorem bsget_stops {n : Nat} (rd : XReg) (hn : n ≤ 32) (hfit : s.bs.rpos + n ≤ s.bs.blen) (hk : k < n)
    (h : s.FirstUnwritten .bits s.bs.rpos k) :
    exec (.bsget rd n) s = .fault (.unwrittenRead .bits (s.bs.rpos + k)) := by
  have havail : ¬ n > s.avail s.bs.rpos := Nat.not_lt.2 (Nat.le_sub_of_add_le' hfit)
  exact exec_fault (exec_of_check_passed (exec_of_check_passed rfl (by omega)) havail)
    (map_eq_error.2 (peek_stops hk h))

theorem bsstore_stops {n : Nat} {rs1 : XReg} (bd : BReg) (hn : n ≤ 256)
    (hfit : 8 * ((s.getX rs1).toNat + n) ≤ s.bs.blen) (hk : k < 8 * n)
    (h : s.FirstUnwritten .bits (8 * (s.getX rs1).toNat) k) :
    exec (.bsstore bd rs1 n) s = .fault (.unwrittenRead .bits (8 * (s.getX rs1).toNat + k)) := by
  have hstop := readMany_peek_stops (f := BitVec.ofNat 8) (base := 0) hk (by rwa [Nat.zero_add])
  simp only [Nat.zero_add] at hstop
  exact exec_fault (exec_of_check_passed (exec_of_check_passed rfl (Nat.not_lt.2 hn)) (Nat.not_lt.2 hfit))
    (map_eq_error.2 hstop)

theorem bspadchk_stops (rd : XReg)
    (hk : k < 8 * ((min s.bs.blen (8 * s.capb) - 8 * ((s.bs.rpos + 7) / 8)) / 8))
    (h : s.FirstUnwritten .bits (8 * ((s.bs.rpos + 7) / 8)) k) :
    exec (.bspadchk rd) s = .fault (.unwrittenRead .bits (8 * ((s.bs.rpos + 7) / 8) + k)) := by
  have hstop := readMany_peek_stops (f := id) (lo := 0) hk h
  simp only [Except.map_id, id, Nat.mul_zero, Nat.add_zero] at hstop
  refine exec_fault rfl (map_eq_error.2 (map_eq_error.2 ?_))
  rw [if_pos (by simp only [State.capBits]; omega)]
  exact hstop

end

/-! ## Segments -/

section
variable {s : State} {rd : XReg} {bd : BReg} {m : Mode} {k : Nat}

theorem segdec_stops_in_indicator (hfit : s.bs.rpos + 4 ≤ s.bs.blen) (hk : k < 4)
    (h : s.FirstUnwritten .bits s.bs.rpos k) :
    exec (.segdec rd bd) s = .fault (.unwrittenRead .bits (s.bs.rpos + k)) := by
  have havail : ¬ s.avail s.bs.rpos < 4 := Nat.not_lt.2 (Nat.le_sub_of_add_le' hfit)
  exact exec_fault rfl ((if_neg havail).trans (bind_eq_error.2 (.inl (peek_stops hk h))))

theorem segdec_stops_in_count (hmode : s.StreamHolds s.bs.rpos (fieldBits (modeIndicator m) 4))
    (hfit : s.bs.rpos + 4 + cci m s.ver ≤ s.bs.blen) (hk : k < cci m s.ver)
    (h : s.FirstUnwritten .bits (s.bs.rpos + 4) k) :
    exec (.segdec rd bd) s = .fault (.unwrittenRead .bits (s.bs.rpos + 4 + k)) := by
  have havail : ¬ s.avail (s.bs.rpos + 4) < cci m s.ver := Nat.not_lt.2 (Nat.le_sub_of_add_le' hfit)
  have hstop : s.segCount rd bd (modeIndicator m) m = .error (.unwrittenRead .bits (s.bs.rpos + 4 + k)) :=
    (if_neg havail).trans (bind_eq_error.2 (.inl (peek_stops hk h)))
  exact exec_fault rfl ((segDecode_of_mode hmode).trans hstop)

/-- Groups that are read lead to those behind them. -/
theorem decodeGroups_append_of_error {gs gs' : List Nat} {q : Nat} {d : List Byte} {f : Fault}
    (hgs : s.decodeGroups m gs q = .ok (some d))
    (hgs' : s.decodeGroups m gs' (q + (gs.map (groupBits m)).sum) = .error f) :
    s.decodeGroups m (gs ++ gs') q = .error f := by
  induction gs generalizing q d with
  | nil => exact hgs'
  | cons g gs ih =>
    rw [State.decodeGroups] at hgs
    obtain ⟨v, hv, hgs⟩ := bind_eq_ok.1 hgs
    rw [List.map_cons, List.sum_cons, ← Nat.add_assoc] at hgs'
    split at hgs
    · cases hgs
    · rename_i hlt
      obtain ⟨rest, hrest, hd⟩ := map_eq_ok.1 hgs
      obtain ⟨d', rfl, -⟩ := Option.map_eq_some_iff.1 hd
      rw [List.cons_append, State.decodeGroups]
      exact bind_eq_error.2 (.inr ⟨v, hv, (if_neg hlt).trans (map_eq_error.2 (ih hrest hgs'))⟩)

/-- SEGDEC stops in the group after the whole groups of `good`. -/
theorem segdec_stops_in_group {c : Nat} {good : List Byte} (hcap : c ≤ 256) (hcount : c < 2 ^ cci m s.ver)
    (hhead : s.StreamHolds s.bs.rpos (fieldBits (modeIndicator m) 4 ++ fieldBits c (cci m s.ver)))
    (hfit : pbits m c ≤ s.bs.blen - (s.bs.rpos + 4 + cci m s.ver)) (hwhole : good.length % groupSize m = 0)
    (hlt : good.length < c) (hvalid : ∀ x ∈ good, validChar m x)
    (hgood : s.StreamHolds (s.bs.rpos + 4 + cci m s.ver) (encodePayload m good))
    (hk : k < groupBits m (min (groupSize m) (c - good.length)))
    (h : s.FirstUnwritten .bits (s.bs.rpos + 4 + cci m s.ver + (encodePayload m good).length) k) :
    exec (.segdec rd bd) s = .fault (.unwrittenRead .bits
      (s.bs.rpos + 4 + cci m s.ver + (encodePayload m good).length + k)) := by
  have hsplit : groups m c = groups m good.length
      ++ (min (groupSize m) (c - good.length) :: groups m (c - good.length - groupSize m)) := by
    conv_lhs => rw [← Nat.add_sub_cancel' hlt.le, groups_add hwhole, groups_eq_cons (Nat.sub_pos_of_lt hlt)]
  have hread : s.decodeGroups m (groups m good.length) (s.bs.rpos + 4 + cci m s.ver) = .ok (some good) := by
    simpa using decodeGroups_payload (gs := []) (rest := some []) hvalid hgood rfl
  have hgroups : s.decodeGroups m (groups m c) (s.bs.rpos + 4 + cci m s.ver) = .error (.unwrittenRead .bits
      (s.bs.rpos + 4 + cci m s.ver + (encodePayload m good).length + k)) := by
    rw [hsplit]
    refine decodeGroups_append_of_error hread ?_
    rw [sum_groupBits_groups, ← length_encodePayload]
    exact bind_eq_error.2 (.inl (peek_stops hk h))
  have hcap' : ¬ c > Config.bufCap := Nat.not_lt.2 hcap
  have hstop : s.segPayload rd bd (modeIndicator m) m (cci m s.ver) c = .error (.unwrittenRead .bits
      (s.bs.rpos + 4 + cci m s.ver + (encodePayload m good).length + k)) :=
    (if_neg (Nat.not_lt.2 hfit)).trans ((if_neg hcap').trans (map_eq_error.2 hgroups))
  exact exec_fault rfl ((segDecode_of_head hcount hhead).trans hstop)

end

/-! ## The zigzag unit -/

theorem keepData_stops {role : Memory Bool} {cells : List (Nat × Nat)} {k : Nat} {rc : Nat × Nat}
    (hk : cells[k]? = some rc) (hnone : role.read (cellIndex rc.1 rc.2) = none)
    (hwritten : ∀ (j : Nat) (rc' : Nat × Nat), j < k → cells[j]? = some rc' →
      ¬ role.read (cellIndex rc'.1 rc'.2) = none) :
    keepData role cells = .error (.unwrittenRead .role (cellIndex rc.1 rc.2)) := by
  induction cells generalizing k with
  | nil => simp at hk
  | cons rc₀ cells ih =>
    rw [keepData, bind_eq_error]
    cases k with
    | zero =>
      obtain rfl : rc₀ = rc := by simpa using hk
      exact .inl (readCell_eq_error.2 ⟨hnone, rfl⟩)
    | succ k =>
      obtain ⟨v, hv⟩ := Option.ne_none_iff_exists'.1 (hwritten 0 rc₀ (Nat.succ_pos k) rfl)
      refine .inr ⟨v, readCell_eq_ok.2 hv, map_eq_error.2 (ih hk fun j rc' hj => ?_)⟩
      exact hwritten (j + 1) rc' (Nat.succ_lt_succ hj)

theorem readModules_stops {mod : Memory Bool} {cells : List Nat} {k a : Nat} (hk : cells[k]? = some a)
    (hnone : mod.read a = none)
    (hwritten : ∀ j a' : Nat, j < k → cells[j]? = some a' → ¬ mod.read a' = none) :
    readModules mod cells = .error (.unwrittenRead .mod a) := by
  induction cells generalizing k with
  | nil => simp at hk
  | cons a₀ cells ih =>
    rw [readModules, bind_eq_error]
    cases k with
    | zero =>
      obtain rfl : a₀ = a := by simpa using hk
      exact .inl (readCell_eq_error.2 ⟨hnone, rfl⟩)
    | succ k =>
      obtain ⟨v, hv⟩ := Option.ne_none_iff_exists'.1 (hwritten 0 a₀ (Nat.succ_pos k) rfl)
      refine .inr ⟨v, readCell_eq_ok.2 hv, map_eq_error.2 (ih hk fun j a' hj => ?_)⟩
      exact hwritten (j + 1) a' (Nat.succ_lt_succ hj)

section
variable {s : State} {k : Nat}

theorem zzgen_stops {rc : Nat × Nat} (hk : (visited (Config.size s.ver))[k]? = some rc)
    (hnone : s.unwritten .role (cellIndex rc.1 rc.2))
    (hwritten : ∀ (j : Nat) (rc' : Nat × Nat), j < k → (visited (Config.size s.ver))[j]? = some rc' →
      ¬ s.unwritten .role (cellIndex rc'.1 rc'.2)) :
    exec .zzgen s = .fault (.unwrittenRead .role (cellIndex rc.1 rc.2)) :=
  exec_fault rfl (map_eq_error.2 (keepData_stops hk hnone hwritten))

theorem zzCells_stops (hk : k < s.zig.zzcnt) (h : s.FirstUnwritten .zz 0 k) :
    s.zzCells = .error (.unwrittenRead .zz k) := by
  have hstop := readBlock_stops (a := .zz) hk h.1 h.2
  rw [Nat.zero_add] at hstop
  exact map_eq_error.2 hstop

theorem zzplace_stops_in_stream (hzz : s.zig.zz.written s.zig.zzcnt) (hk : k < min s.bs.blen s.zig.zzcnt)
    (h : s.FirstUnwritten .bits 0 k) : exec .zzplace s = .fault (.unwrittenRead .bits k) := by
  obtain ⟨cells, hcells⟩ := exists_lists hzz
  have hstop := readBlock_stops (a := .bits) hk h.1 h.2
  rw [Nat.zero_add] at hstop
  exact exec_fault rfl (bind_eq_error.2 (.inr ⟨cells, hcells.zzCells, map_eq_error.2 hstop⟩))

theorem zzread_stops_in_modules {e : Byte × Byte} (hzz : s.zig.zz.written s.zig.zzcnt) (hk : k < s.zig.zzcnt)
    (he : s.zig.zz.read k = some e) (hnone : s.unwritten .mod (177 * e.1.toNat + e.2.toNat))
    (hwritten : ∀ (j : Nat) (e' : Byte × Byte), j < k → s.zig.zz.read j = some e' →
      ¬ s.unwritten .mod (177 * e'.1.toNat + e'.2.toNat)) :
    exec .zzread s = .fault (.unwrittenRead .mod (177 * e.1.toNat + e.2.toNat)) := by
  obtain ⟨cells, hcells⟩ := exists_lists hzz
  have hstop := readModules_stops (hcells.getElem? hk he) hnone fun j a hj ha => by
    obtain ⟨e', -, he', rfl⟩ := (hcells.cell_iff j a).1 ha
    exact hwritten j e' hj he'
  exact exec_fault rfl (bind_eq_error.2 (.inr ⟨cells, hcells.zzCells, map_eq_error.2 hstop⟩))

end

/-- Settles O11: no body is refused, its only fault is an unwritten cell, and each command that reads cells reads them
in order. -/
theorem onlyUnwrittenCellsStopACommand : Obligations.OnlyUnwrittenCellsStopACommand := by
  refine ⟨exec_next_or_unwritten, fun s rd rs1 bd ba bb n k m => ?_⟩
  intro len stops first idx p w
  refine ⟨bget_stops rd, fun hk h => ?block, fun hk ha h => ?second, fun hn hfit hk h => bsget_stops rd hn hfit hk h,
    fun hn hfit hk h => bsstore_stops bd hn hfit hk h, fun hk h => bspadchk_stops rd hk h,
    fun hfit hk h => segdec_stops_in_indicator hfit hk h,
    fun hmode hfit hk h => segdec_stops_in_count hmode hfit hk h,
    fun c good => ?group, fun r c hk hnone hwritten => zzgen_stops hk hnone hwritten,
    fun hk h => ?entries, fun hzz hk h => zzplace_stops_in_stream hzz hk h,
    fun e hzz hk he hnone hwritten => zzread_stops_in_modules hzz hk he hnone hwritten⟩
  case block =>
    have hne : len ≠ 0 := Nat.ne_zero_of_lt hk
    exact ⟨bcopy_stops hk h bd, peval_stops hk h rd rs1, fun hfit => bcat_stops bd hfit (contents_stops_first hk h),
      fun hb hfit => pmul_stops bd hne hb hfit (contents_stops_first hk h), rsenc_stops hk h bd,
      fun h1 hle hmax => ⟨rssyn_stops hk h (blockLengthError_eq_none.2 ⟨h1, hle, hmax⟩),
        rsdec_stops hk h (blockLengthError_eq_none.2 ⟨h1, hle, hmax⟩)⟩,
      rsapply_stops hk h, bsload_stops hk h, segenc_stops hk h⟩
  case second =>
    have hstop := contents_stops_second ha hk h
    exact ⟨fun hfit => bcat_stops bd hfit hstop,
      fun hne hfit => pmul_stops bd hne (Nat.ne_zero_of_lt hk) hfit hstop⟩
  case group =>
    intro q size width z hcap hcount hhead hfit hwhole hlt hvalid hgood hk h
    have hsize : size = groupSize m := by cases m <;> rfl
    have hwidth : width = groupBits m (min (groupSize m) (c - good.length)) := by
      have hpos := groupSize_pos m
      have hg : 0 < min (groupSize m) (c - good.length) ∧ min (groupSize m) (c - good.length) ≤ groupSize m := by
        omega
      dsimp only [width]
      rw [hsize]
      generalize min (groupSize m) (c - good.length) = g at hg ⊢
      obtain ⟨hgpos, hgle⟩ := hg
      cases m with
      | numeric | alnum | byte => simp only [groupSize] at hgle; interval_cases g <;> rfl
    exact segdec_stops_in_group hcap hcount hhead hfit (hsize ▸ hwhole) hlt hvalid hgood (hwidth ▸ hk) h
  case entries =>
    exact ⟨exec_fault rfl (bind_eq_error.2 (.inl (zzCells_stops hk h))),
      exec_fault rfl (bind_eq_error.2 (.inl (zzCells_stops hk h)))⟩

end Sys2Proof.Machine
end
